-- ==== Sys2Proof/Word.lean ====
section
/-! DEFINITION. The word types of the SK-1024 and their plainest arithmetic (R2, R9, R41). -/

namespace Sys2Proof

/-- A 64-bit word: a `g`, `a` or `k` register or a CSR (R9). -/
abbrev Word := BitVec 64

/-- A byte of memory (R2). -/
abbrev Byte := BitVec 8

/-- A `v` register: 2,048 bits (R101). -/
abbrev VReg := BitVec 2048

/-- A `g` register number, `g0` to `g63` (R41). -/
abbrev GNum := BitVec 6
/-- An `a` register number, `a0` to `a15` (R41). -/
abbrev ANum := BitVec 4
/-- A `p` register number, `p0` to `p7` (R41). -/
abbrev PNum := BitVec 3
/-- A `v` register number, `v0` to `v31` (R41). -/
abbrev VNum := BitVec 5
/-- A `k` register number, `k0` to `k7` (R41). -/
abbrev KNum := BitVec 3
/-- A tile number, `t0` to `t7` (R41). -/
abbrev TNum := BitVec 3

end Sys2Proof
end

