-- ==== Sys2Proof/Config.lean ====
section
/-! DEFINITION. What an implementation fixes or the spec leaves open: the free values (opaque: no proof can see them)
and the fixed figures the rules name. -/

namespace Sys2Proof.Config

/-- The KEY drawn at random at each `cmb.open` (R231); the argument counts the draws. Log entry 4. -/
opaque combinerKey : Nat → BitVec 16

/-- The salt a field draws at a reset (R397); the argument counts the draws. Log entry 4. -/
opaque fieldSalt : Nat → BitVec 12

/-- The congestion correction C of R205 (not architected); the argument counts the promises. Log entry 4. -/
opaque congestion : Nat → Nat

/-- Which of the twelve HBM stacks carries a 256-byte granule (R8, R23: a fixed hash, not architected). Log entry 4. -/
opaque hbmStack : Nat → Fin 12

/-- Where in 8 cycles the even pattern of a lowered step begins (R16 gives the pattern, not its place): by step.
Log entry 4. -/
opaque skipPhase : Nat → Nat

/-- The energy an island's placement draws (R267: accounting units are not architected). Log entry 4. -/
opaque energyLeft : Nat → Bool

/-- The port through which a package reaches another (R350, R351: the board's wiring). Log entry 4. -/
opaque routePort : Nat → Nat → Nat

/-- The global links from one pod to another, in the order of the pair's links: the member's number in its pod and its port (R12, R351:
the configuration image assigns them). Log entry 4. -/
opaque globalLinks : Nat → Nat → List (Nat × Nat)

/-- Whether the root port behind a host port did not report AtomicOp completion at bring-up (R353: the host's), by package and port.
Log entry 53. -/
opaque rootNoAtomics : Nat → Nat → Bool

/-- The temperature of an island, as its sensor reads at a cycle of its package (R266, R267), and the warning temperature. Log
entry 28. -/
opaque islandTemp : Nat → Nat → Nat → Nat
opaque warnTemp : Nat

/-- The lowest step that an island's power cap allows (R267: the configuration image's), by package, island and cycle. Log entry 28. -/
opaque capStep : Nat → Nat → Nat → Nat

/-- RPER of a package's configuration image, as µs above 10 (R267: 10 to 1,000). Log entry 28. -/
opaque refillSet : Nat → Nat
/-- RPER in µs. -/
def refillPeriod (pid : Nat) : Nat := 10 + refillSet pid % 991

/-- The device steps on which a package's core clock has no edge: its reference runs behind another's by one (R16: no clock is locked to
another). 1 is such a step. By package and step. Log entry 98. -/
opaque clockSlip : Nat → Nat → Nat

/-- A free word, one for each count: a value the spec leaves open. Log entry 4. -/
opaque freeWord : Nat → BitVec 64

/-- The core clock in MHz (R16, R27): a µs is 700 cycles. -/
def cyclesPerMicrosecond : Nat := 700

/-- Bytes of HBM in a package (R23). -/
def hbmBytes : Nat := 768000000000

/-- The scratchpad's size, 1 MiB (R9). -/
def spadBytes : Nat := 0x100000

end Sys2Proof.Config
end

