-- ==== Sys2Proof/Syntax.lean ====
section
/-! DEFINITION. The instructions and events of the SK-1024: one constructor for each row of the opcode table,
its operands as the encodings of R43 to R57 give them; an event carries what the outside world or the schedule
chooses (which unit, which message).
The constructors stand in an order that lets Lean compile the model (Lean gives no run-time tag above 244 to a
constructor with fields): the operations a slot encodes and the events the default schedule builds come first. -/

namespace Sys2Proof

/-- The eight slots of a bundle, in header bit order (R31). -/
inductive Slot where
  | a | b | v0 | v1 | m | l | e | c
deriving DecidableEq, Repr

/-- One member of a multicast group (R349): PID, exposure number, base offset and length. -/
structure McMember where
  pid : Nat
  exposure : Nat
  base : Nat
  len : Nat
deriving DecidableEq, Repr

/-- The place of a context: package, global core number (R7) and context number. -/
structure CtxId where
  pid : Nat
  core : Nat
  ctx : Nat
deriving DecidableEq, Repr

/-- The instructions (slot operations) and events of the part. -/
inductive Instr where
  -- slot operations with operands (R52 to R57)
  | add (rd ra rb : GNum)
  | sub (rd ra rb : GNum)
  | mul (rd ra rb : GNum)
  | mulh (w : Bool) (rd ra rb : GNum)
  | div (w : Bool) (rd ra rb : GNum)
  | rem (w : Bool) (rd ra rb : GNum)
  | min (w : Bool) (rd ra rb : GNum)
  | max (w : Bool) (rd ra rb : GNum)
  | slt (w : Bool) (rd ra rb : GNum)
  | and (rd ra rb : GNum)
  | or (rd ra rb : GNum)
  | xor (rd ra rb : GNum)
  | andn (rd ra rb : GNum)
  | shl (rd ra rb : GNum)
  | shr (w : Bool) (rd ra rb : GNum)
  | rot (rd ra rb : GNum)
  | clz (rd ra : GNum)
  | ctz (rd ra : GNum)
  | popc (rd ra : GNum)
  | selLo (n : BitVec 2) (rd ra rb : GNum)
  | selHi (n : BitVec 2) (rd ra rb : GNum)
  | psetEq (pd : PNum) (ra rb : GNum)
  | psetNe (pd : PNum) (ra rb : GNum)
  | psetLt (w : Bool) (pd : PNum) (ra rb : GNum)
  | psetGe (w : Bool) (pd : PNum) (ra rb : GNum)
  | pand (pd pa pb : PNum)
  | por (pd pa pb : PNum)
  | pxor (pd pa pb : PNum)
  | amad (ad : ANum) (ra rb : GNum)
  | mova (ad : ANum) (ra : GNum)
  | movg (rd : GNum) (aa : ANum)
  | addi (rd ra : GNum) (imm : BitVec 8)
  | andi (rd ra : GNum) (imm : BitVec 8)
  | ori (rd ra : GNum) (imm : BitVec 8)
  | xori (rd ra : GNum) (imm : BitVec 8)
  | shli (rd ra : GNum) (imm : BitVec 6)
  | shriI64 (rd ra : GNum) (imm : BitVec 6)
  | shriW64 (rd ra : GNum) (imm : BitVec 6)
  | roti (rd ra : GNum) (imm : BitVec 6)
  | sltiI64 (rd ra : GNum) (imm : BitVec 8)
  | sltiW64 (rd ra : GNum) (imm : BitVec 8)
  | liLo (rd : GNum) (imm : BitVec 14)
  | liHi (rd : GNum) (imm : BitVec 14)
  | stkCnt (n : BitVec 20)
  | vadd (rm : BitVec 3) (fmt : BitVec 4) (vd va vb : VNum) (km : KNum)
  | vsub (rm : BitVec 3) (fmt : BitVec 4) (vd va vb : VNum) (km : KNum)
  | vmul (rm : BitVec 3) (fmt : BitVec 4) (vd va vb : VNum) (km : KNum)
  | vfma (rm : BitVec 3) (fmt : BitVec 4) (vd va vb vc : VNum)
  | vmin (fmt : BitVec 4) (vd va vb : VNum) (km : KNum)
  | vmax (fmt : BitVec 4) (vd va vb : VNum) (km : KNum)
  | vabs (fmt : BitVec 4) (vd va : VNum) (km : KNum)
  | vneg (fmt : BitVec 4) (vd va : VNum) (km : KNum)
  | vrcp (rm : BitVec 3) (fmt : BitVec 4) (vd va : VNum) (km : KNum)
  | vrsqrt (rm : BitVec 3) (fmt : BitVec 4) (vd va : VNum) (km : KNum)
  | vfexp (rm : BitVec 3) (fmt : BitVec 4) (vd va : VNum) (km : KNum)
  | vrndi (rm : BitVec 3) (fmt : BitVec 4) (vd va : VNum) (km : KNum)
  | vgetx (fmt : BitVec 4) (vd va : VNum) (km : KNum)
  | vinsx (rm : BitVec 3) (fmt : BitVec 4) (vd va vb : VNum) (km : KNum)
  | viadd (sat : Bool) (fmt : BitVec 4) (vd va vb : VNum) (km : KNum)
  | visub (sat : Bool) (fmt : BitVec 4) (vd va vb : VNum) (km : KNum)
  | vimul (fmt : BitVec 4) (vd va vb : VNum) (km : KNum)
  | vimulh (fmt : BitVec 4) (vd va vb : VNum) (km : KNum)
  | vimin (fmt : BitVec 4) (vd va vb : VNum) (km : KNum)
  | vimax (fmt : BitVec 4) (vd va vb : VNum) (km : KNum)
  | vand (fmt : BitVec 4) (vd va vb : VNum) (km : KNum)
  | vor (fmt : BitVec 4) (vd va vb : VNum) (km : KNum)
  | vxor (fmt : BitVec 4) (vd va vb : VNum) (km : KNum)
  | vandn (fmt : BitVec 4) (vd va vb : VNum) (km : KNum)
  | vshl (fmt : BitVec 4) (vd va vb : VNum) (km : KNum)
  | vshr (fmt : BitVec 4) (vd va vb : VNum) (km : KNum)
  | viabs (fmt : BitVec 4) (vd va : VNum) (km : KNum)
  | vpopc (fmt : BitVec 4) (vd va : VNum) (km : KNum)
  | vclz (fmt : BitVec 4) (vd va : VNum) (km : KNum)
  | vcmp (cond : BitVec 3) (fmt : BitVec 4) (kd : KNum) (va vb : VNum) (km : KNum)
  | vsel (fmt : BitVec 4) (vd va vb : VNum) (km : KNum)
  | vcvt (rm : BitVec 3) (dst src : BitVec 4) (vd va : VNum) (km : KNum)
  | vred (op : BitVec 3) (fmt : BitVec 4) (vd va : VNum) (km : KNum)
  | vscan (op : BitVec 3) (fmt : BitVec 4) (vd va : VNum) (km : KNum)
  | vperm (fmt : BitVec 4) (vd va vb : VNum) (km : KNum)
  | vbcast (fmt : BitVec 4) (vd va : VNum) (lane : BitVec 8)
  | vmov (fmt : BitVec 4) (vd va : VNum) (km : KNum)
  | vpart (fmt : BitVec 4) (vd va : VNum) (km : KNum)
  | vthr (fmt : BitVec 4) (vd va vb : VNum) (km : KNum)
  | vtopkFix (fmt : BitVec 4) (vd va vb : VNum) (km : KNum)
  | vins (fmt : BitVec 4) (vd : VNum) (gs : GNum) (lane : BitVec 8)
  | vext (fmt : BitVec 4) (gd : GNum) (vs : VNum) (lane : BitVec 8)
  | kmovKg (kd : KNum) (gs : GNum)
  | kmovGk (gd : GNum) (ks : KNum)
  | kand (kd ka kb : KNum)
  | kor (kd ka kb : KNum)
  | kxor (kd ka kb : KNum)
  | mma (eng : BitVec 1) (td : TNum) (aA aB : ANum) (ks : BitVec 6) (pri : BitVec 2) (acc : Bool)
  | mmaG (eng : BitVec 1) (td : TNum) (aA aB aI : ANum) (ks : BitVec 6) (pri : BitVec 2) (acc : Bool)
  | mzero (eng : BitVec 1) (td : TNum)
  | minit (eng : BitVec 1) (td : TNum) (aA : ANum)
  | mout (eng : BitVec 1) (td : TNum) (aA : ANum) (d : BitVec 3) (pri : BitVec 2)
  | mcfg (eng : BitVec 1) (aA : ANum)
  | mdrain (eng : BitVec 1)
  | mprio (eng : BitVec 1) (pri : BitVec 2)
  | mpoll (eng : BitVec 1) (pd : PNum)
  | mwait (eng : BitVec 1)
  | ldI8 (acq : Bool) (sc : BitVec 4) (off : BitVec 12) (ab : ANum) (rd : GNum)
  | ldW8 (acq : Bool) (sc : BitVec 4) (off : BitVec 12) (ab : ANum) (rd : GNum)
  | ldI16 (acq : Bool) (sc : BitVec 4) (off : BitVec 12) (ab : ANum) (rd : GNum)
  | ldW16 (acq : Bool) (sc : BitVec 4) (off : BitVec 12) (ab : ANum) (rd : GNum)
  | ldI32 (acq : Bool) (sc : BitVec 4) (off : BitVec 12) (ab : ANum) (rd : GNum)
  | ldW32 (acq : Bool) (sc : BitVec 4) (off : BitVec 12) (ab : ANum) (rd : GNum)
  | ldI64 (acq : Bool) (sc : BitVec 4) (off : BitVec 12) (ab : ANum) (rd : GNum)
  | stI8 (rel : Bool) (sc : BitVec 4) (off : BitVec 12) (ab : ANum) (rs : GNum)
  | stI16 (rel : Bool) (sc : BitVec 4) (off : BitVec 12) (ab : ANum) (rs : GNum)
  | stI32 (rel : Bool) (sc : BitVec 4) (off : BitVec 12) (ab : ANum) (rs : GNum)
  | stI64 (rel : Bool) (sc : BitVec 4) (off : BitVec 12) (ab : ANum) (rs : GNum)
  | vld (acq : Bool) (sc : BitVec 4) (off : BitVec 12) (ab : ANum) (vd : VNum)
  | vst (rel : Bool) (sc : BitVec 4) (off : BitVec 12) (ab : ANum) (vs : VNum)
  | vgather (acq : Bool) (sc : BitVec 4) (vi : VNum) (ab : ANum) (vd : VNum)
  | vscatter (rel : Bool) (sc : BitVec 4) (vi : VNum) (ab : ANum) (vs : VNum)
  | ldt (acq : Bool) (sc : BitVec 4) (gt : GNum) (ab : ANum) (vd : VNum)
  | stpD (rel : Bool) (sc : BitVec 4) (off : BitVec 12) (ab : ANum) (rs : GNum)
  | stpV (rel : Bool) (sc : BitVec 4) (off : BitVec 12) (ab : ANum) (vs : VNum)
  | stgD (rel : Bool) (sc : BitVec 4) (gg : GNum) (ab : ANum) (rs : GNum)
  | stgV (rel : Bool) (sc : BitVec 4) (gg : GNum) (ab : ANum) (vs : VNum)
  | fenceOwn (sc : BitVec 4)
  | fenceFar (sc : BitVec 4)
  | fenceScAcq (sc : BitVec 4)
  | fenceScRel (sc : BitVec 4)
  | fenceScAr (sc : BitVec 4)
  | flsig (sc : BitVec 4) (ab : ANum) (gs : GNum)
  | probe (vc : BitVec 4) (gd : GNum)
  | cpy (land rel acq : Bool) (sc : BitVec 4) (q : BitVec 3) (gd : GNum) (ea : ANum)
  | cpyq (gd : GNum)
  | coll (rel acq : Bool) (sc : BitVec 4) (q : BitVec 3) (gd : GNum) (ea : ANum)
  | cmbOpen (rel acq : Bool) (sc : BitVec 4) (gd : GNum) (ea : ANum)
  | cmbClose (rel acq : Bool) (sc : BitVec 4) (gd : GNum)
  | gcommit (rel acq : Bool) (sc : BitVec 4) (gd : GNum) (ea : ANum)
  | gabort (rel acq : Bool) (sc : BitVec 4) (gd : GNum) (ea : ANum)
  | hist (rel acq : Bool) (sc : BitVec 4) (gd : GNum) (ea : ANum)
  | snap (rel acq : Bool) (sc : BitVec 4) (gd : GNum) (ea : ANum)
  | br (disp : BitVec 32)
  | jmp (disp : BitVec 32)
  | call (disp : BitVec 32)
  | callr (ga : GNum)
  | jr (ga : GNum)
  | jmpBkt (gc : GNum) (off : BitVec 20)
  | loopCfg (gd : GNum) (lev : BitVec 3)
  | loopRun (nm1 : BitVec 6) (flev : BitVec 3)
  | barInit (b : BitVec 5) (gn : GNum)
  | barArrive (b : BitVec 5)
  | barWait (b : BitVec 5)
  | barTest (b : BitVec 5) (pd : PNum)
  | hoopEnd (m : BitVec 2)
  | hoopJoin (m : BitVec 2) (gd : GNum)
  | waitAt (gt : GNum)
  | waitEv (gk : GNum)
  | role (r : BitVec 2)
  | stkEnd (ductus : BitVec 32)
  | trap (code : BitVec 20)
  | brk (code : BitVec 20)
  | csrr (gd : GNum) (csr : BitVec 12)
  | csrw (gs : GNum) (csr : BitVec 12)
  | csrs (gs : GNum) (csr : BitVec 12)
  | csrc (gs : GNum) (csr : BitVec 12)
  | gnodeDone (gs : GNum)
  | winSet (gd gn : GNum)
  | winClr (gn : GNum)
  | pgInval (ga : GNum) (sz : BitVec 2)
  | pgSnap (ga gl : GNum)
  | pgCowRelease (ga gl : GNum)
  | pgCowRestore (ga gl : GNum)
  | pgBlkSet (ga : GNum)
  | pgBlkClear (ga : GNum)
  | pgMig (ga gf : GNum)
  | partInt (gv gp : GNum)
  | ctxPark (gc : GNum)
  | ctxUnpark (gc : GNum)
  | ifrRd (gd gs : GNum)
  | ifrWr (gv gs : GNum)
  -- events that the default schedule may hold (Machine/Schedule.lean)
  | issueChoice (pid core : Nat)
  | landingArrival (id : CtxId) (entry : Nat)
  | landingFreeze (id : CtxId) (entry : Nat)
  | landingBoundExpiry (id : CtxId) (entry : Nat)
  | responseArrival (n : Nat)
  | matrixUnitEnd (pid core eng : Nat)
  | matrixComplete (pid core eng : Nat)
  | quillProgress (pid core : Nat)
  | chainCopy (pid core queue : Nat)
  | chainAccum (pid core queue : Nat)
  | chainReduce (pid core queue : Nat)
  | chainMcast (pid core queue : Nat)
  | chainArrive (pid core queue : Nat)
  | chainFlag (pid core queue : Nat)
  | chainGstore (pid core queue : Nat)
  | chainSignal (pid core queue : Nat)
  | chainLoop (pid core queue : Nat)
  | chainCond (pid core queue : Nat)
  | chainWaitflag (pid core queue : Nat)
  | waitflagTimeout (pid core queue : Nat)
  | chainEnd (pid core queue : Nat)
  | postedStoreArrival (n : Nat)
  | groupStoreArrival (n : Nat)
  | accumArrival (n : Nat)
  | remoteAccessArrival (n : Nat)
  | flsigArrival (n : Nat)
  | flsigTokenReturn (n : Nat)
  | probeReturn (n : Nat)
  | combinerOpen (n : Nat)
  | combinerContribution (n : Nat)
  | combinerTimerExpiry (pid entry : Nat)
  | deliveryRecordArrival (n : Nat)
  | mcastReplicate (n : Nat)
  | barrierArrival (n : Nat)
  | hoopArrival (n : Nat)
  | hoopPhaseEnd (pid hoop : Nat)
  | hoopJoinArrival (n : Nat)
  | hoopRefusal (n : Nat)
  | collDescriptorCompare (pid coll : Nat)
  | collChunk (pid coll : Nat)
  | collComplete (pid coll : Nat)
  | homeSeal (n : Nat)
  | commitDecide (pid commit : Nat)
  | commitSealTimeout (pid commit : Nat)
  | homeDecision (n : Nat)
  | commitAcknowledged (pid commit : Nat)
  | commitAckTimeout (pid commit : Nat)
  | homeDecisionTimeout (pid group : Nat)
  | histComplete (pid hist : Nat)
  | replayStart (pid part : Nat)
  | nodeComplete (pid inst : Nat)
  | successorMessage (n : Nat)
  | stoppingComplete (pid core : Nat)
  | saveComplete (pid core : Nat)
  | restoreComplete (pid core : Nat)
  | homeSealTimeout (pid group : Nat)
  | matrixUnitStart (pid core eng : Nat)
  | landingSlot (id : CtxId) (entry : Nat)
  | consumedErrorReport (n : Nat)
  | retryResend (n : Nat)
  | acktIdleMessage (id : CtxId) (chan : Nat)
  | homeUnreachable (n : Nat)
  | blktmoExpiry (n : Nat)
  | nodeAgeing (pid inst : Nat)
  | nodePlace (pid inst : Nat) (cores : List Nat)
  | nodeKill (pid inst : Nat)
  | nodeFailStatus (pid inst : Nat)
  | swappedWriteArrival (n : Nat)
  -- events that only the outside world or a written schedule brings
  | resetRelease (pid : Nat) (sigOk flatMesh : Bool) (slots : Nat) (locked : List Nat)
  | erlimelGo (pid : Nat) (ctl : Word)
  | contextStart (pid core ctx : Nat) (v : Word)
  | partitionControlWrite (pid part : Nat) (bytes : List Byte)
  | resourceBlockWrite (pid part : Nat) (bytes : List Byte)
  | mcastGroupWrite (pid group : Nat) (members : List McMember)
  | controlSpaceWrite (pid off : Nat) (v : Word)
  | launchWordWrite (pid part : Nat) (header : Word) (req : BitVec 32)
  | hostApertureAccess (pid part : Nat) (off : Word) (len : Nat) (wr : Option (List Byte))
  | thermalTrip (pid island : Nat)
  | thermalClear (pid island : Nat)
  | energyRefill (pid : Nat)
  | flitTagFail (pid port : Nat)
  | portLock (pid port : Nat)
  | portReattest (pid port : Nat)
  | linkKeyUpdate (pid port : Nat)
  | fieldReset (pid field : Nat)
  | fieldLoss (pid field : Nat)
  | debugFieldHalt (pid field : Nat)
  | debugFieldRelease (pid field : Nat)
  | registerUncorrectable (pid core : Nat)
  | retireAllMessage (pid field : Nat) (sources : List CtxId)
  | pageWalkComplete (pid part : Nat) (va : Word)
  | cowCopy (pid part : Nat) (va : Word)
  | preemptRequest (pid : Nat) (cores : List Nat)
  | evict (pid core slot : Nat)
  | evictComplete (pid core slot : Nat)
  | restoreStart (pid core slot : Nat)
  | seedWrite (v : Word)
  | bankFormatWrite (n : BitVec 4) (v : Word)
  | memorySoftError (pid : Nat) (addr : Nat) (correctable : Bool)
  | hoopDeviceRelease (pid hoop : Nat)
  | debugPortAccess (pid core eng : Nat) (index : Nat) (wr : Option (BitVec 32))
  | msixEntryUnmask (pid entry : Nat)
  -- slot operations without operands
  | nop
  | efence
  | ret
  | loopBrk
  | yield
  | tfence
  | halt
  | tret
deriving DecidableEq, Repr

/-- One decoded slot: iteration class and stall count (R37), C-slot predicate (R51) and operation. In a slot other
than C, `pr` is 7 and `pn` is false ("always"). -/
structure Slotted where
  it : BitVec 2
  st : BitVec 3
  pr : PNum := 7
  pn : Bool := false
  op : Instr
deriving DecidableEq, Repr

end Sys2Proof
end

