-- ==== Sys2Proof/Machine/Legal.lean ====
section
/-! DEFINITION. Which operand values the encodings admit (R42, R44 to R57, R102): the checks behind `ILLEGAL` (`FIELD`)
that a slot's own bits decide. -/

namespace Sys2Proof

/-- Bits of one element in a format (R45); 0 for `e2`, `cb2`, 64-bit and reserved codes in a `v` register. -/
def fmtBits (f : BitVec 4) : Nat :=
  match f.toNat with
  | 0 | 10 | 14 => 32
  | 1 | 2 | 9 | 13 => 16
  | 3 | 4 | 8 | 12 => 8
  | _ => 0

/-- Lanes of a `v` register in a format (R45). -/
def fmtLanes (f : BitVec 4) : Nat :=
  match fmtBits f with
  | 32 => 64
  | 16 => 128
  | 8 => 256
  | _ => 0

/-- Class Float of R102. -/
def fmtFloat (f : BitVec 4) : Bool := f.toNat ≤ 2
/-- Class Sign of R102. -/
def fmtSign (f : BitVec 4) : Bool := f.toNat ≤ 4
/-- Class Signed integer of R102. -/
def fmtSInt (f : BitVec 4) : Bool := 8 ≤ f.toNat && f.toNat ≤ 10
/-- Class Integer of R102. -/
def fmtInt (f : BitVec 4) : Bool := fmtSInt f || (12 ≤ f.toNat && f.toNat ≤ 14)
/-- Class Ordered of R102. -/
def fmtOrdered (f : BitVec 4) : Bool := fmtFloat f || fmtInt f
/-- Classes Raw and Conversion of R102. -/
def fmtRaw (f : BitVec 4) : Bool := fmtSign f || fmtInt f
/-- Class 32-bit of R102. -/
def fmt32 (f : BitVec 4) : Bool := f.toNat = 0 || f.toNat = 10 || f.toNat = 14

/-- Rounding codes 0 to 5 (R46, R80). -/
def rmOk (m : BitVec 3) : Bool := m.toNat ≤ 5
/-- Reduction codes 0 to 5 and the classes R102 gives them. -/
def redOk (op : BitVec 3) (f : BitVec 4) : Bool :=
  op.toNat ≤ 5 && (if op.toNat ≤ 2 then fmtOrdered f else fmtInt f)

/-- Scope codes 0 to 8 (R17, R18). -/
def scopeOk (sc : BitVec 4) : Bool := sc.toNat ≤ 8
/-- R49, R50: a scope stands only beside an ordering mark. -/
def ordOk (mark : Bool) (sc : BitVec 4) : Bool := if mark then scopeOk sc else sc = 0

/-- The access column of R42's table. -/
inductive CsrAccess where
  | rw | r
deriving DecidableEq, Repr

/-- The CSRs of R42: none for an unassigned number. -/
def csrAccess (n : BitVec 12) : Option CsrAccess :=
  let k := n.toNat
  if k = 0 ∨ k = 1 ∨ k = 2 ∨ k = 4 then some .rw
  else if k = 3 then some .r
  else if 8 ≤ k ∧ k ≤ 0xB then some .r
  else if 0x10 ≤ k ∧ k ≤ 0x14 then some .rw
  else if k = 0x20 ∨ k = 0x21 then some .r
  else if 0x100 ≤ k ∧ k ≤ 0x10F then some .rw
  else if k = 0x110 ∨ k = 0x111 then some .r
  else if 0x400 ≤ k ∧ k ≤ 0x407 then some .rw
  else if 0x800 ≤ k ∧ k ≤ 0x803 then some .rw
  else none

/-- A CSR that `csrw`, `csrs` and `csrc` may name (R42, R316). -/
def csrWritable (n : BitVec 12) : Bool := csrAccess n = some .rw

/-- The slots an operation may stand in (R31, R52 to R57). -/
inductive SlotClass where
  | scalar | vector | matrix | memory | engine | control | event
deriving DecidableEq, Repr

/-- The bits of a slot (R31). -/
def SlotClass.bits : SlotClass → Nat
  | .scalar => 32 | .vector => 40 | .matrix => 40 | .memory => 40 | .engine => 32 | .control => 48 | .event => 0

/-- The class of slots a header bit names (R31). -/
def Slot.cls : Slot → SlotClass
  | .a => .scalar | .b => .scalar | .v0 => .vector | .v1 => .vector | .m => .matrix | .l => .memory
  | .e => .engine | .c => .control

/-- The header bit of a slot (R31). -/
def Slot.bit : Slot → Nat
  | .a => 0 | .b => 1 | .v0 => 2 | .v1 => 3 | .m => 4 | .l => 5 | .e => 6 | .c => 7

/-- All slots in the order in which they take effect (R34). -/
def Slot.all : List Slot := [.a, .b, .v0, .v1, .m, .l, .e, .c]

/-- Whether the operand fields hold values inside their ranges (R42, R44 to R57, R97, R102, R114, R120). -/
def Instr.legal : Instr → Bool
  | .psetEq pd _ _ | .psetNe pd _ _ | .psetLt _ pd _ _ | .psetGe _ pd _ _ | .pand pd _ _ | .por pd _ _
  | .pxor pd _ _ => pd ≠ 7
  | .vadd rm f _ _ _ _ | .vsub rm f _ _ _ _ | .vmul rm f _ _ _ _ | .vinsx rm f _ _ _ _ => rmOk rm && fmtFloat f
  | .vfma rm f _ _ _ _ => rmOk rm && fmtFloat f
  | .vmin f _ _ _ _ | .vmax f _ _ _ _ | .vthr f _ _ _ _ | .vtopkFix f _ _ _ _ => fmtFloat f
  | .vabs f _ _ _ | .vneg f _ _ _ => fmtSign f
  | .vrcp rm f _ _ _ | .vrsqrt rm f _ _ _ | .vfexp rm f _ _ _ | .vrndi rm f _ _ _ => rmOk rm && fmtFloat f
  | .vgetx f _ _ _ => fmtFloat f
  | .viadd _ f _ _ _ _ | .visub _ f _ _ _ _ => fmtInt f
  | .vimul f _ _ _ _ | .vimulh f _ _ _ _ | .vimin f _ _ _ _ | .vimax f _ _ _ _ | .vand f _ _ _ _ | .vor f _ _ _ _
  | .vxor f _ _ _ _ | .vandn f _ _ _ _ | .vshl f _ _ _ _ | .vshr f _ _ _ _ => fmtInt f
  | .viabs f _ _ _ => fmtSInt f
  | .vpopc f _ _ _ | .vclz f _ _ _ => fmtInt f
  | .vcmp _ f kd _ _ _ => fmtOrdered f && kd ≠ 0
  | .vsel f _ _ _ _ | .vperm f _ _ _ _ => fmtRaw f
  | .vmov f _ _ _ => fmtRaw f
  | .vcvt rm d s _ _ _ => rmOk rm && fmtRaw d && fmtRaw s
  | .vred op f _ _ _ | .vscan op f _ _ _ => redOk op f
  | .vbcast f _ _ n | .vins f _ _ n | .vext f _ _ n => fmtRaw f && n.toNat < fmtLanes f
  | .vpart f _ _ _ => fmt32 f
  | .kmovKg kd _ | .kand kd _ _ | .kor kd _ _ | .kxor kd _ _ => kd ≠ 0
  | .mmaG _ _ _ _ aI _ _ _ => aI ≠ 15
  | .mpoll _ pd => pd ≠ 7
  | .ldI8 o sc _ _ _ | .ldW8 o sc _ _ _ | .ldI16 o sc _ _ _ | .ldW16 o sc _ _ _ | .ldI32 o sc _ _ _
  | .ldW32 o sc _ _ _ | .ldI64 o sc _ _ _ | .stI8 o sc _ _ _ | .stI16 o sc _ _ _ | .stI32 o sc _ _ _
  | .stI64 o sc _ _ _ => ordOk o sc
  | .vld o sc _ _ _ | .vst o sc _ _ _ | .vgather o sc _ _ _ | .vscatter o sc _ _ _ => ordOk o sc
  | .ldt o sc gt _ _ => ordOk o sc && gt ≠ 0
  | .stpD o sc _ _ _ | .stpV o sc _ _ _ => ordOk o sc
  | .stgD o sc gg _ _ | .stgV o sc gg _ _ => ordOk o sc && gg ≠ 0
  | .fenceOwn sc | .fenceFar sc | .fenceScAcq sc | .fenceScRel sc | .fenceScAr sc | .flsig sc _ _ => scopeOk sc
  | .cpy _ r a sc _ _ _ | .coll r a sc _ _ _ => ordOk (r || a) sc
  | .cmbOpen r a sc _ _ | .cmbClose r a sc _ | .gcommit r a sc _ _ | .gabort r a sc _ _ | .hist r a sc _ _
  | .snap r a sc _ _ => ordOk (r || a) sc
  | .cpyq gd => gd ≠ 0
  | .jmpBkt _ off => off.extractLsb' 0 3 = 0
  | .loopCfg _ lev => lev.toNat ≤ 5
  | .loopRun _ flev => flev.toNat ≤ 5
  | .barTest _ pd => pd ≠ 7
  | .waitEv gk => gk ≠ 0
  | .csrr _ n => (csrAccess n).isSome
  | .csrw _ n | .csrs _ n | .csrc _ n => csrWritable n
  | _ => true

/-- Opcodes of the C slot that take no predicate (R57, R407). -/
def Instr.nonPredicable : Instr → Bool
  | .jmp _ | .loopRun _ _ | .stkEnd _ | .tret => true
  | _ => false

/-- The control transfers, whose `st` is at least 2 (R51). -/
def Instr.isTransfer : Instr → Bool
  | .br _ | .jmp _ | .call _ | .callr _ | .jr _ | .ret | .jmpBkt _ _ | .tret => true
  | _ => false

/-- The slots an operation stands in; events stand in none. -/
def Instr.cls : Instr → SlotClass
  | .nop | .add .. | .sub .. | .mul .. | .mulh .. | .div .. | .rem .. | .min .. | .max .. | .slt .. | .and .. | .or ..
  | .xor .. | .andn .. | .shl .. | .shr .. | .rot .. | .clz .. | .ctz .. | .popc .. | .selLo .. | .selHi .. | .psetEq ..
  | .psetNe .. | .psetLt .. | .psetGe .. | .pand .. | .por .. | .pxor .. | .amad .. | .mova .. | .movg .. | .addi ..
  | .andi .. | .ori .. | .xori .. | .shli .. | .shriI64 .. | .shriW64 .. | .roti .. | .sltiI64 .. | .sltiW64 ..
  | .liLo .. | .liHi .. | .stkCnt .. => .scalar
  | .vadd .. | .vsub .. | .vmul .. | .vfma .. | .vmin .. | .vmax .. | .vabs .. | .vneg .. | .vrcp .. | .vrsqrt ..
  | .vfexp .. | .vrndi .. | .vgetx .. | .vinsx .. | .viadd .. | .visub .. | .vimul .. | .vimulh .. | .vimin ..
  | .vimax .. | .vand .. | .vor .. | .vxor .. | .vandn .. | .vshl .. | .vshr .. | .viabs .. | .vpopc .. | .vclz ..
  | .vcmp .. | .vsel .. | .vcvt .. | .vred .. | .vscan .. | .vperm .. | .vbcast .. | .vmov .. | .vpart .. | .vthr ..
  | .vtopkFix .. | .vins .. | .vext .. | .kmovKg .. | .kmovGk .. | .kand .. | .kor .. | .kxor .. => .vector
  | .mma .. | .mmaG .. | .mzero .. | .minit .. | .mout .. | .mcfg .. | .mdrain .. | .mprio .. | .mpoll ..
  | .mwait .. => .matrix
  | .ldI8 .. | .ldW8 .. | .ldI16 .. | .ldW16 .. | .ldI32 .. | .ldW32 .. | .ldI64 .. | .stI8 .. | .stI16 .. | .stI32 ..
  | .stI64 .. | .vld .. | .vst .. | .vgather .. | .vscatter .. | .ldt .. | .stpD .. | .stpV .. | .stgD .. | .stgV ..
  | .fenceOwn .. | .fenceFar .. | .fenceScAcq .. | .fenceScRel .. | .fenceScAr .. | .flsig .. | .probe ..
  | .efence => .memory
  | .cpy .. | .cpyq .. | .coll .. | .cmbOpen .. | .cmbClose .. | .gcommit .. | .gabort .. | .hist .. | .snap .. => .engine
  | .br .. | .jmp .. | .call .. | .callr .. | .jr .. | .ret | .jmpBkt .. | .loopCfg .. | .loopRun .. | .loopBrk
  | .barInit .. | .barArrive .. | .barWait .. | .barTest .. | .hoopEnd .. | .hoopJoin .. | .waitAt .. | .waitEv ..
  | .yield | .role .. | .stkEnd .. | .tfence | .trap .. | .brk .. | .halt | .csrr .. | .csrw .. | .csrs .. | .csrc ..
  | .gnodeDone .. | .winSet .. | .winClr .. | .pgInval .. | .pgSnap .. | .pgCowRelease .. | .pgCowRestore ..
  | .pgBlkSet .. | .pgBlkClear .. | .pgMig .. | .partInt .. | .ctxPark .. | .ctxUnpark .. | .ifrRd .. | .ifrWr ..
  | .tret => .control
  | _ => .event

end Sys2Proof
end

