-- ==== Sys2Proof/WellFormed.lean ====
section
/-! DEFINITION. Well-formed instructions and slots: an operation of a slot with every operand inside its range, an
iteration class, stall count and predicate that its slot admits (R37, R51, R57). -/

namespace Sys2Proof

/-- An operation that some slot encodes, with every field inside its range. -/
def Instr.wf (i : Instr) : Bool := i.legal && i.cls ≠ .event

/-- A well-formed slot: R37's iteration class; R51's predicate and stall rules for the C slot ("always" elsewhere);
R57's "Both slots require `it` = `00`" for `stk.end` and `stk.cnt`. -/
def Slotted.wf (x : Slotted) : Bool :=
  x.op.wf && x.it ≠ 3 &&
  (if x.op.cls = .control then
     !(x.pr = 7 && x.pn) && (!x.op.nonPredicable || (x.pr = 7 && !x.pn)) && (!x.op.isTransfer || 2 ≤ x.st.toNat)
   else x.pr = 7 && !x.pn) &&
  (match x.op with
   | .stkEnd _ | .stkCnt _ => x.it = 0
   | _ => true)

end Sys2Proof
end

