-- ==== Sys2Proof/Decode.lean ====
section
/-! DEFINITION. Decoding of slots and bundles (R31 to R57), total on any bytes and rejecting by name, and the encoder
written from the same tables. -/

namespace Sys2Proof

/-- Why a slot is refused: the sub-causes of R36 that the slot's own bits decide (`FEATURE` depends on the package). -/
inductive DecodeError where
  | opcode
  | field
deriving DecidableEq, Repr

/-- `i` when the checked fields are zero (R3), else FIELD. -/
def fieldCheck (c : Bool) (i : Instr) : Except DecodeError Instr := if c then .ok i else .error .field

/-- Bits hi..lo of a slot as a number of their width. -/
abbrev bitsOf {w : Nat} (x : BitVec w) (lo n : Nat) : BitVec n := x.extractLsb' lo n

/-- Slots A and B (R43, R52). -/
def decodeScalar (w : BitVec 32) : Except DecodeError Instr :=
  let rd : GNum := bitsOf w 12 6
  let ra : GNum := bitsOf w 18 6
  let rb : GNum := bitsOf w 24 6
  let f : BitVec 2 := bitsOf w 30 2
  let imm8 : BitVec 8 := bitsOf w 24 8
  let imm6 : BitVec 6 := bitsOf w 24 6
  let imm14 : BitVec 14 := bitsOf w 18 14
  let wb : Bool := w.getLsbD 30
  let f0 : Bool := f = 0
  let f1 : Bool := !w.getLsbD 31
  let pd : PNum := bitsOf w 12 3
  let pdz : Bool := bitsOf w 15 3 = 0
  let ad : ANum := bitsOf w 12 4
  let adz : Bool := bitsOf w 16 2 = 0
  match (bitsOf w 5 7).toNat with
  | 0x00 => fieldCheck (bitsOf w 12 20 = 0) .nop
  | 0x01 => fieldCheck f0 (.add rd ra rb)
  | 0x02 => fieldCheck f0 (.sub rd ra rb)
  | 0x03 => fieldCheck f0 (.mul rd ra rb)
  | 0x04 => fieldCheck f1 (.mulh wb rd ra rb)
  | 0x05 => fieldCheck f1 (.div wb rd ra rb)
  | 0x06 => fieldCheck f1 (.rem wb rd ra rb)
  | 0x07 => fieldCheck f1 (.min wb rd ra rb)
  | 0x08 => fieldCheck f1 (.max wb rd ra rb)
  | 0x09 => fieldCheck f1 (.slt wb rd ra rb)
  | 0x0A => fieldCheck f0 (.and rd ra rb)
  | 0x0B => fieldCheck f0 (.or rd ra rb)
  | 0x0C => fieldCheck f0 (.xor rd ra rb)
  | 0x0D => fieldCheck f0 (.andn rd ra rb)
  | 0x0E => fieldCheck f0 (.shl rd ra rb)
  | 0x0F => fieldCheck f1 (.shr wb rd ra rb)
  | 0x10 => fieldCheck f0 (.rot rd ra rb)
  | 0x11 => fieldCheck (f0 && rb = 0) (.clz rd ra)
  | 0x12 => fieldCheck (f0 && rb = 0) (.ctz rd ra)
  | 0x13 => fieldCheck (f0 && rb = 0) (.popc rd ra)
  | 0x14 => .ok (.selLo f rd ra rb)
  | 0x15 => .ok (.selHi f rd ra rb)
  | 0x16 => fieldCheck (f0 && pdz) (.psetEq pd ra rb)
  | 0x17 => fieldCheck (f0 && pdz) (.psetNe pd ra rb)
  | 0x18 => fieldCheck (f1 && pdz) (.psetLt wb pd ra rb)
  | 0x19 => fieldCheck (f1 && pdz) (.psetGe wb pd ra rb)
  | 0x1A => fieldCheck (f0 && pdz && bitsOf w 21 3 = 0 && bitsOf w 27 3 = 0) (.pand pd (bitsOf w 18 3) (bitsOf w 24 3))
  | 0x1B => fieldCheck (f0 && pdz && bitsOf w 21 3 = 0 && bitsOf w 27 3 = 0) (.por pd (bitsOf w 18 3) (bitsOf w 24 3))
  | 0x1C => fieldCheck (f0 && pdz && bitsOf w 21 3 = 0 && bitsOf w 27 3 = 0) (.pxor pd (bitsOf w 18 3) (bitsOf w 24 3))
  | 0x1D => fieldCheck (f0 && adz) (.amad ad ra rb)
  | 0x1E => fieldCheck (f0 && adz && rb = 0) (.mova ad ra)
  | 0x1F => fieldCheck (f0 && rb = 0 && bitsOf w 22 2 = 0) (.movg rd (bitsOf w 18 4))
  | 0x40 => .ok (.addi rd ra imm8)
  | 0x41 => .ok (.andi rd ra imm8)
  | 0x42 => .ok (.ori rd ra imm8)
  | 0x43 => .ok (.xori rd ra imm8)
  | 0x44 => fieldCheck f0 (.shli rd ra imm6)
  | 0x45 => fieldCheck f0 (.shriI64 rd ra imm6)
  | 0x46 => fieldCheck f0 (.shriW64 rd ra imm6)
  | 0x47 => fieldCheck f0 (.roti rd ra imm6)
  | 0x48 => .ok (.sltiI64 rd ra imm8)
  | 0x49 => .ok (.sltiW64 rd ra imm8)
  | 0x60 => .ok (.liLo rd imm14)
  | 0x61 => .ok (.liHi rd imm14)
  | 0x62 => .ok (.stkCnt (bitsOf w 12 20))
  | _ => .error .opcode

/-- Slots V0 and V1 (R44, R53). -/
def decodeVector (w : BitVec 40) : Except DecodeError Instr :=
  let vd : VNum := bitsOf w 13 5
  let va : VNum := bitsOf w 18 5
  let vb : VNum := bitsOf w 23 5
  let vc : VNum := bitsOf w 28 5
  let km : KNum := bitsOf w 28 3
  let fmt : BitVec 4 := bitsOf w 33 4
  let mod : BitVec 3 := bitsOf w 37 3
  let mz : Bool := mod = 0
  let hz : Bool := bitsOf w 31 2 = 0
  let bz : Bool := vb = 0
  let kd : KNum := bitsOf w 13 3
  let kdz : Bool := bitsOf w 16 2 = 0
  let g : GNum := bitsOf w 18 6
  let vkz : Bool := kdz && bitsOf w 21 2 = 0 && bitsOf w 26 14 = 0
  match (bitsOf w 5 8).toNat with
  | 0x01 => fieldCheck hz (.vadd mod fmt vd va vb km)
  | 0x02 => fieldCheck hz (.vsub mod fmt vd va vb km)
  | 0x03 => fieldCheck hz (.vmul mod fmt vd va vb km)
  | 0x04 => fieldCheck (hz && mz) (.vmin fmt vd va vb km)
  | 0x05 => fieldCheck (hz && mz) (.vmax fmt vd va vb km)
  | 0x06 => .ok (.vfma mod fmt vd va vb vc)
  | 0x07 => fieldCheck (hz && bz && mz) (.vabs fmt vd va km)
  | 0x08 => fieldCheck (hz && bz && mz) (.vneg fmt vd va km)
  | 0x0D => fieldCheck (hz && bz && mz) (.vgetx fmt vd va km)
  | 0x09 => fieldCheck (hz && bz) (.vrcp mod fmt vd va km)
  | 0x0A => fieldCheck (hz && bz) (.vrsqrt mod fmt vd va km)
  | 0x0B => fieldCheck (hz && bz) (.vfexp mod fmt vd va km)
  | 0x0C => fieldCheck (hz && bz) (.vrndi mod fmt vd va km)
  | 0x0E => fieldCheck hz (.vinsx mod fmt vd va vb km)
  | 0x20 => fieldCheck (hz && bitsOf w 38 2 = 0) (.viadd (w.getLsbD 37) fmt vd va vb km)
  | 0x21 => fieldCheck (hz && bitsOf w 38 2 = 0) (.visub (w.getLsbD 37) fmt vd va vb km)
  | 0x22 => fieldCheck (hz && mz) (.vimul fmt vd va vb km)
  | 0x23 => fieldCheck (hz && mz) (.vimulh fmt vd va vb km)
  | 0x24 => fieldCheck (hz && mz) (.vimin fmt vd va vb km)
  | 0x25 => fieldCheck (hz && mz) (.vimax fmt vd va vb km)
  | 0x26 => fieldCheck (hz && mz) (.vand fmt vd va vb km)
  | 0x27 => fieldCheck (hz && mz) (.vor fmt vd va vb km)
  | 0x28 => fieldCheck (hz && mz) (.vxor fmt vd va vb km)
  | 0x29 => fieldCheck (hz && mz) (.vandn fmt vd va vb km)
  | 0x2A => fieldCheck (hz && mz) (.vshl fmt vd va vb km)
  | 0x2B => fieldCheck (hz && mz) (.vshr fmt vd va vb km)
  | 0x2C => fieldCheck (hz && bz && mz) (.viabs fmt vd va km)
  | 0x2D => fieldCheck (hz && bz && mz) (.vpopc fmt vd va km)
  | 0x2E => fieldCheck (hz && bz && mz) (.vclz fmt vd va km)
  | 0x40 => fieldCheck (hz && kdz) (.vcmp mod fmt kd va vb km)
  | 0x41 => fieldCheck (hz && mz) (.vsel fmt vd va vb km)
  | 0x48 => fieldCheck (hz && !w.getLsbD 27) (.vcvt mod fmt (bitsOf w 23 4) vd va km)
  | 0x50 => fieldCheck (hz && bz) (.vred mod fmt vd va km)
  | 0x51 => fieldCheck (hz && bz) (.vscan mod fmt vd va km)
  | 0x52 => fieldCheck (hz && mz) (.vperm fmt vd va vb km)
  | 0x53 => fieldCheck (hz && mz) (.vbcast fmt vd va (bitsOf w 23 8))
  | 0x54 => fieldCheck (hz && bz && mz) (.vmov fmt vd va km)
  | 0x58 => fieldCheck (hz && bz && mz) (.vpart fmt vd va km)
  | 0x59 => fieldCheck (hz && mz) (.vthr fmt vd va vb km)
  | 0x5A => fieldCheck (hz && mz) (.vtopkFix fmt vd va vb km)
  | 0x60 => fieldCheck (mz && !w.getLsbD 32) (.vins fmt vd g (bitsOf w 24 8))
  | 0x61 => fieldCheck (mz && !w.getLsbD 32) (.vext fmt g vd (bitsOf w 24 8))
  | 0x62 => fieldCheck (kdz && bitsOf w 24 16 = 0) (.kmovKg kd g)
  | 0x63 => fieldCheck (kdz && bitsOf w 24 16 = 0) (.kmovGk g kd)
  | 0x64 => fieldCheck vkz (.kand kd (bitsOf w 18 3) (bitsOf w 23 3))
  | 0x65 => fieldCheck vkz (.kor kd (bitsOf w 18 3) (bitsOf w 23 3))
  | 0x66 => fieldCheck vkz (.kxor kd (bitsOf w 18 3) (bitsOf w 23 3))
  | _ => .error .opcode

/-- Slot M (R47, R54). A field an opcode does not use is "0, checked", except `aI`, which is then 15. -/
def decodeMatrix (w : BitVec 40) : Except DecodeError Instr :=
  let eng : BitVec 1 := bitsOf w 10 1
  let td : TNum := bitsOf w 11 3
  let aA : ANum := bitsOf w 14 4
  let aB : ANum := bitsOf w 18 4
  let aI : ANum := bitsOf w 22 4
  let ks : BitVec 6 := bitsOf w 26 6
  let pri : BitVec 2 := bitsOf w 32 2
  let acc : Bool := w.getLsbD 34
  let sc : BitVec 3 := bitsOf w 35 3
  let xz : Bool := bitsOf w 38 2 = 0
  let i15 : Bool := aI = 15
  let tz : Bool := td = 0
  let az : Bool := aA = 0
  let bz : Bool := aB = 0
  let kz : Bool := ks = 0
  let pz : Bool := pri = 0
  let sz : Bool := sc = 0
  match (bitsOf w 5 5).toNat with
  | 0x01 => fieldCheck (xz && sz && i15) (.mma eng td aA aB ks pri acc)
  | 0x02 => fieldCheck (xz && sz) (.mmaG eng td aA aB aI ks pri acc)
  | 0x03 => fieldCheck (xz && sz && i15 && az && bz && kz && pz && !acc) (.mzero eng td)
  | 0x04 => fieldCheck (xz && sz && i15 && bz && kz && pz && !acc) (.minit eng td aA)
  | 0x05 => fieldCheck (xz && i15 && bz && kz && !acc) (.mout eng td aA sc pri)
  | 0x06 => fieldCheck (xz && sz && i15 && tz && bz && kz && pz && !acc) (.mcfg eng aA)
  | 0x07 => fieldCheck (xz && sz && i15 && tz && az && bz && kz && pz && !acc) (.mdrain eng)
  | 0x08 => fieldCheck (xz && sz && i15 && tz && az && bz && kz && !acc) (.mprio eng pri)
  | 0x09 => fieldCheck (xz && sz && i15 && az && bz && kz && pz && !acc) (.mpoll eng td)
  | 0x0A => fieldCheck (xz && sz && i15 && tz && az && bz && kz && pz && !acc) (.mwait eng)
  | _ => .error .opcode

/-- Slot L (R48, R49, R55). -/
def decodeMemory (w : BitVec 40) : Except DecodeError Instr :=
  let rd : GNum := bitsOf w 12 6
  let vd : VNum := bitsOf w 12 5
  let vz : Bool := !w.getLsbD 17
  let ab : ANum := bitsOf w 18 4
  let off : BitVec 12 := bitsOf w 22 12
  let sc : BitVec 4 := bitsOf w 34 4
  let ord : BitVec 2 := bitsOf w 38 2
  let lo : Bool := !w.getLsbD 39
  let acq : Bool := w.getLsbD 38
  let so : Bool := !w.getLsbD 38
  let rel : Bool := w.getLsbD 39
  let vi : VNum := bitsOf w 22 5
  let viz : Bool := bitsOf w 27 7 = 0
  let gt : GNum := bitsOf w 22 6
  let gtz : Bool := bitsOf w 28 6 = 0
  let fz : Bool := bitsOf w 12 22 = 0
  match (bitsOf w 5 7).toNat with
  | 0x01 => fieldCheck lo (.ldI8 acq sc off ab rd)
  | 0x02 => fieldCheck lo (.ldW8 acq sc off ab rd)
  | 0x03 => fieldCheck lo (.ldI16 acq sc off ab rd)
  | 0x04 => fieldCheck lo (.ldW16 acq sc off ab rd)
  | 0x05 => fieldCheck lo (.ldI32 acq sc off ab rd)
  | 0x06 => fieldCheck lo (.ldW32 acq sc off ab rd)
  | 0x07 => fieldCheck lo (.ldI64 acq sc off ab rd)
  | 0x08 => fieldCheck so (.stI8 rel sc off ab rd)
  | 0x09 => fieldCheck so (.stI16 rel sc off ab rd)
  | 0x0A => fieldCheck so (.stI32 rel sc off ab rd)
  | 0x0B => fieldCheck so (.stI64 rel sc off ab rd)
  | 0x10 => fieldCheck (lo && vz) (.vld acq sc off ab vd)
  | 0x11 => fieldCheck (so && vz) (.vst rel sc off ab vd)
  | 0x12 => fieldCheck (lo && vz && viz) (.vgather acq sc vi ab vd)
  | 0x13 => fieldCheck (so && vz && viz) (.vscatter rel sc vi ab vd)
  | 0x18 => fieldCheck (lo && vz && gtz) (.ldt acq sc gt ab vd)
  | 0x19 => fieldCheck so (.stpD rel sc off ab rd)
  | 0x1A => fieldCheck (so && vz) (.stpV rel sc off ab vd)
  | 0x1B => fieldCheck (so && gtz) (.stgD rel sc gt ab rd)
  | 0x1C => fieldCheck (so && gtz && vz) (.stgV rel sc gt ab vd)
  | 0x20 => fieldCheck (fz && ord = 0) (.fenceOwn sc)
  | 0x21 => fieldCheck (fz && ord = 0) (.fenceFar sc)
  | 0x22 => match ord.toNat with
    | 1 => fieldCheck fz (.fenceScAcq sc)
    | 2 => fieldCheck fz (.fenceScRel sc)
    | 3 => fieldCheck fz (.fenceScAr sc)
    | _ => .error .field
  | 0x23 => fieldCheck (ord = 0 && off = 0) (.flsig sc ab rd)
  | 0x24 => fieldCheck (ord = 0 && sc = 0 && ab = 0 && bitsOf w 26 8 = 0) (.probe (bitsOf w 22 4) rd)
  | 0x25 => fieldCheck (fz && ord = 0 && sc = 0) .efence
  | _ => .error .opcode

/-- Slot E (R50, R56). -/
def decodeEngine (w : BitVec 32) : Except DecodeError Instr :=
  let ea : ANum := bitsOf w 10 4
  let gd : GNum := bitsOf w 14 6
  let q : BitVec 3 := bitsOf w 20 3
  let sc : BitVec 4 := bitsOf w 23 4
  let acq : Bool := w.getLsbD 27
  let rel : Bool := w.getLsbD 28
  let land : Bool := w.getLsbD 29
  let hz : Bool := bitsOf w 30 2 = 0
  let qz : Bool := q = 0
  let ez : Bool := ea = 0
  match (bitsOf w 5 5).toNat with
  | 0x01 => fieldCheck hz (.cpy land rel acq sc q gd ea)
  | 0x02 => fieldCheck (hz && !land && !rel && !acq && sc = 0 && qz && ez) (.cpyq gd)
  | 0x03 => fieldCheck (hz && !land) (.coll rel acq sc q gd ea)
  | 0x04 => fieldCheck (hz && !land && qz) (.cmbOpen rel acq sc gd ea)
  | 0x05 => fieldCheck (hz && !land && qz && ez) (.cmbClose rel acq sc gd)
  | 0x06 => fieldCheck (hz && !land && qz) (.gcommit rel acq sc gd ea)
  | 0x07 => fieldCheck (hz && !land && qz) (.gabort rel acq sc gd ea)
  | 0x08 => fieldCheck (hz && !land && qz) (.hist rel acq sc gd ea)
  | 0x09 => fieldCheck (hz && !land && qz) (.snap rel acq sc gd ea)
  | _ => .error .opcode

/-- Slot C (R51, R57). The word of `pg.cow` stands for release and restore alike: bit 6 of the operand register, not
the encoding, chooses (R361), so decoding gives `pgCowRelease` and the issue stage turns it (Machine/Bundle.lean). -/
def decodeControl (w : BitVec 48) : Except DecodeError Instr :=
  let g1 : GNum := bitsOf w 16 6
  let g2 : GNum := bitsOf w 22 6
  let imm : BitVec 20 := bitsOf w 28 20
  let cd : BitVec 32 := bitsOf w 16 32
  let g1z : Bool := g1 = 0
  let g2z : Bool := g2 = 0
  let iz : Bool := imm = 0
  let b5 : BitVec 5 := bitsOf w 28 5
  let b5z : Bool := bitsOf w 33 15 = 0
  let m2 : BitVec 2 := bitsOf w 28 2
  let m2z : Bool := bitsOf w 30 18 = 0
  let csr : BitVec 12 := bitsOf w 28 12
  let cz : Bool := bitsOf w 40 8 = 0
  match (bitsOf w 5 7).toNat with
  | 0x01 => .ok (.br cd)
  | 0x02 => .ok (.jmp cd)
  | 0x03 => .ok (.call cd)
  | 0x04 => fieldCheck (g2z && iz) (.callr g1)
  | 0x05 => fieldCheck (g2z && iz) (.jr g1)
  | 0x06 => fieldCheck (cd = 0) .ret
  | 0x07 => fieldCheck g2z (.jmpBkt g1 imm)
  | 0x10 => fieldCheck (g2z && bitsOf w 31 17 = 0) (.loopCfg g1 (bitsOf w 28 3))
  | 0x11 => fieldCheck (g1z && g2z && bitsOf w 37 11 = 0) (.loopRun (bitsOf w 28 6) (bitsOf w 34 3))
  | 0x12 => fieldCheck (cd = 0) .loopBrk
  | 0x18 => fieldCheck (g2z && b5z) (.barInit b5 g1)
  | 0x19 => fieldCheck (g1z && g2z && b5z) (.barArrive b5)
  | 0x1A => fieldCheck (g1z && g2z && b5z) (.barWait b5)
  | 0x1B => fieldCheck (g1z && bitsOf w 25 3 = 0 && b5z) (.barTest b5 (bitsOf w 22 3))
  | 0x20 => fieldCheck (g1z && g2z && m2z) (.hoopEnd m2)
  | 0x21 => fieldCheck (g2z && m2z) (.hoopJoin m2 g1)
  | 0x28 => fieldCheck (g2z && iz) (.waitAt g1)
  | 0x29 => fieldCheck (g2z && iz) (.waitEv g1)
  | 0x2A => fieldCheck (cd = 0) .yield
  | 0x2C => fieldCheck (g1z && g2z && m2z) (.role m2)
  | 0x30 => .ok (.stkEnd cd)
  | 0x31 => fieldCheck (cd = 0) .tfence
  | 0x38 => fieldCheck (g1z && g2z) (.trap imm)
  | 0x39 => fieldCheck (g1z && g2z) (.brk imm)
  | 0x3A => fieldCheck (cd = 0) .halt
  | 0x40 => fieldCheck (g2z && cz) (.csrr g1 csr)
  | 0x41 => fieldCheck (g1z && cz) (.csrw g2 csr)
  | 0x42 => fieldCheck (g1z && cz) (.csrs g2 csr)
  | 0x43 => fieldCheck (g1z && cz) (.csrc g2 csr)
  | 0x48 => fieldCheck (g2z && iz) (.gnodeDone g1)
  | 0x60 => fieldCheck iz (.winSet g1 g2)
  | 0x61 => fieldCheck (g1z && iz) (.winClr g2)
  | 0x62 => fieldCheck (g2z && m2z) (.pgInval g1 m2)
  | 0x63 => fieldCheck iz (.pgSnap g1 g2)
  | 0x64 => fieldCheck iz (.pgCowRelease g1 g2)
  | 0x65 => fieldCheck (g2z && bitsOf w 29 19 = 0) (if w.getLsbD 28 then .pgBlkSet g1 else .pgBlkClear g1)
  | 0x66 => fieldCheck iz (.pgMig g1 g2)
  | 0x67 => fieldCheck iz (.partInt g1 g2)
  | 0x68 => fieldCheck (g2z && iz) (.ctxPark g1)
  | 0x69 => fieldCheck (g2z && iz) (.ctxUnpark g1)
  | 0x6A => fieldCheck iz (.ifrRd g1 g2)
  | 0x6B => fieldCheck iz (.ifrWr g1 g2)
  | 0x6C => fieldCheck (cd = 0) .tret
  | _ => .error .opcode

/-- The operation a slot's bits name, before the checks of `it`, the predicate and the operand ranges. -/
def decodeOp (c : SlotClass) (w : BitVec 48) : Except DecodeError Instr :=
  match c with
  | .scalar => decodeScalar (bitsOf w 0 32)
  | .vector => decodeVector (bitsOf w 0 40)
  | .matrix => decodeMatrix (bitsOf w 0 40)
  | .memory => decodeMemory (bitsOf w 0 40)
  | .engine => decodeEngine (bitsOf w 0 32)
  | .control => decodeControl w
  | .event => .error .opcode

/-- One slot, its bits in the low end of 48: the operation, then `it`, `st` and the predicate (R37, R51), all checked. -/
def decodeSlot (c : SlotClass) (w : BitVec 48) : Except DecodeError Slotted :=
  match decodeOp c w with
  | .error e => .error e
  | .ok i =>
    let x : Slotted :=
      { it := bitsOf w 3 2, st := bitsOf w 0 3,
        pr := if c = .control then bitsOf w 12 3 else 7,
        pn := c = .control && w.getLsbD 15, op := i }
    if x.wf then .ok x else .error .field

/-- The Erlimel feature an opcode depends on, as a bit of OFFER0 (R55 to R57, R354): decided by the opcode alone. -/
def slotFeature (c : SlotClass) (w : BitVec 48) : Option Nat :=
  match c, (bitsOf w 5 7).toNat with
  | .memory, 0x1B | .memory, 0x1C => some 0
  | .engine, o => if o % 32 = 6 ∨ o % 32 = 7 then some 0 else if o % 32 = 9 then some 1 else none
  | .control, 0x63 | .control, 0x64 => some 1
  | _, _ => none

/-- Bytes, lowest address first, as one little-endian number (R2). -/
def leNat : List Byte → Nat
  | [] => 0
  | b :: bs => b.toNat + 256 * leNat bs

/-- The low `n` bytes of a number, lowest address first (R2). -/
def leBytes : Nat → Nat → List Byte
  | 0, _ => []
  | n + 1, x => BitVec.ofNat 8 x :: leBytes n (x / 256)

/-- The slots a header names, in order, each with its byte count (R31). -/
def headerSlots (h : Byte) : List (Slot × Nat) :=
  (Slot.all.filter (fun s => h.getLsbD s.bit)).map (fun s => (s, s.cls.bits / 8))

/-- A bundle's length: 1 and the bytes of its slots (R31). -/
def bundleLength (h : Byte) : Nat := 1 + ((headerSlots h).map (·.2)).sum

/-- Cuts the bytes after the header into the present slots' words (R31). -/
def cutSlots : List (Slot × Nat) → List Byte → List (Slot × BitVec 48)
  | [], _ => []
  | (s, n) :: rest, bs => (s, BitVec.ofNat 48 (leNat (bs.take n))) :: cutSlots rest (bs.drop n)

/-- One slot of a fetched bundle: its raw word and what it decodes to. -/
structure RawSlot where
  slot : Slot
  word : BitVec 48
  dec : Except DecodeError Slotted

/-- Decoding of a bundle's bytes, the header first, total on any bytes; the pad header `0x00` names no slot (R32). -/
def decodeBundle (bytes : List Byte) : List RawSlot :=
  match bytes with
  | [] => []
  | h :: bs => (cutSlots (headerSlots h) bs).map (fun x => { slot := x.1, word := x.2, dec := decodeSlot x.1.cls x.2 })

/-- A scalar slot's bits 31:5 from its fields: R form. -/
def encR (f : BitVec 2) (rb ra rd : BitVec 6) (op : BitVec 7) : BitVec 27 := f ++ rb ++ ra ++ rd ++ op
/-- I form (R43). -/
def encI (imm : BitVec 8) (ra rd : BitVec 6) (op : BitVec 7) : BitVec 27 := imm ++ ra ++ rd ++ op
/-- K form (R43). -/
def encK (imm : BitVec 14) (rd : BitVec 6) (op : BitVec 7) : BitVec 27 := imm ++ rd ++ op
/-- A vector slot's bits 39:5 (R44). -/
def encV (mod : BitVec 3) (fmt : BitVec 4) (vc vb va vd : BitVec 5) (op : BitVec 8) : BitVec 35 :=
  mod ++ fmt ++ vc ++ vb ++ va ++ vd ++ op
/-- A matrix slot's bits 39:5 (R47). -/
def encM (sc : BitVec 3) (acc : Bool) (pri : BitVec 2) (ks : BitVec 6) (aI aB aA : BitVec 4) (td : BitVec 3)
    (eng : BitVec 1) (op : BitVec 5) : BitVec 35 :=
  (0 : BitVec 2) ++ sc ++ BitVec.ofBool acc ++ pri ++ ks ++ aI ++ aB ++ aA ++ td ++ eng ++ op
/-- A memory slot's bits 39:5 (R48). -/
def encL (ord : BitVec 2) (sc : BitVec 4) (off : BitVec 12) (ab : BitVec 4) (rd : BitVec 6) (op : BitVec 7) : BitVec 35 :=
  ord ++ sc ++ off ++ ab ++ rd ++ op
/-- An engine slot's bits 31:5 (R50). -/
def encE (land rel acq : Bool) (sc : BitVec 4) (q : BitVec 3) (gd : BitVec 6) (ea : BitVec 4) (op : BitVec 5) : BitVec 27 :=
  (0 : BitVec 2) ++ BitVec.ofBool land ++ BitVec.ofBool rel ++ BitVec.ofBool acq ++ sc ++ q ++ gd ++ ea ++ op
/-- A control slot's operand, forms CR and CC (R51). -/
def encCR (imm : BitVec 20) (g2 g1 : BitVec 6) : BitVec 32 := imm ++ g2 ++ g1

/-- A C slot's opcode and operand (R57). -/
def encodeControl : Instr → Option (BitVec 7 × BitVec 32)
  | .br d => some (0x01, d)
  | .jmp d => some (0x02, d)
  | .call d => some (0x03, d)
  | .callr g => some (0x04, encCR 0 0 g)
  | .jr g => some (0x05, encCR 0 0 g)
  | .ret => some (0x06, 0)
  | .jmpBkt g o => some (0x07, encCR o 0 g)
  | .loopCfg g l => some (0x10, encCR (l.zeroExtend 20) 0 g)
  | .loopRun n f => some (0x11, encCR ((0 : BitVec 11) ++ f ++ n) 0 0)
  | .loopBrk => some (0x12, 0)
  | .barInit b g => some (0x18, encCR (b.zeroExtend 20) 0 g)
  | .barArrive b => some (0x19, encCR (b.zeroExtend 20) 0 0)
  | .barWait b => some (0x1A, encCR (b.zeroExtend 20) 0 0)
  | .barTest b p => some (0x1B, encCR (b.zeroExtend 20) (p.zeroExtend 6) 0)
  | .hoopEnd m => some (0x20, encCR (m.zeroExtend 20) 0 0)
  | .hoopJoin m g => some (0x21, encCR (m.zeroExtend 20) 0 g)
  | .waitAt g => some (0x28, encCR 0 0 g)
  | .waitEv g => some (0x29, encCR 0 0 g)
  | .yield => some (0x2A, 0)
  | .role r => some (0x2C, encCR (r.zeroExtend 20) 0 0)
  | .stkEnd d => some (0x30, d)
  | .tfence => some (0x31, 0)
  | .trap c => some (0x38, encCR c 0 0)
  | .brk c => some (0x39, encCR c 0 0)
  | .halt => some (0x3A, 0)
  | .csrr g n => some (0x40, encCR (n.zeroExtend 20) 0 g)
  | .csrw g n => some (0x41, encCR (n.zeroExtend 20) g 0)
  | .csrs g n => some (0x42, encCR (n.zeroExtend 20) g 0)
  | .csrc g n => some (0x43, encCR (n.zeroExtend 20) g 0)
  | .gnodeDone g => some (0x48, encCR 0 0 g)
  | .winSet g h => some (0x60, encCR 0 h g)
  | .winClr h => some (0x61, encCR 0 h 0)
  | .pgInval g z => some (0x62, encCR (z.zeroExtend 20) 0 g)
  | .pgSnap g h => some (0x63, encCR 0 h g)
  | .pgCowRelease g h => some (0x64, encCR 0 h g)
  | .pgCowRestore g h => some (0x64, encCR 0 h g)
  | .pgBlkSet g => some (0x65, encCR 1 0 g)
  | .pgBlkClear g => some (0x65, encCR 0 0 g)
  | .pgMig g h => some (0x66, encCR 0 h g)
  | .partInt g h => some (0x67, encCR 0 h g)
  | .ctxPark g => some (0x68, encCR 0 0 g)
  | .ctxUnpark g => some (0x69, encCR 0 0 g)
  | .ifrRd g h => some (0x6A, encCR 0 h g)
  | .ifrWr g h => some (0x6B, encCR 0 h g)
  | .tret => some (0x6C, 0)
  | _ => none

/-- Bits 31:5 of a scalar or engine slot (R52, R56). -/
def encode27 : Instr → Option (BitVec 27)
  | .nop => some 0
  | .add d a b => some (encR 0 b a d 0x01)
  | .sub d a b => some (encR 0 b a d 0x02)
  | .mul d a b => some (encR 0 b a d 0x03)
  | .mulh w d a b => some (encR ((BitVec.ofBool w).zeroExtend 2) b a d 0x04)
  | .div w d a b => some (encR ((BitVec.ofBool w).zeroExtend 2) b a d 0x05)
  | .rem w d a b => some (encR ((BitVec.ofBool w).zeroExtend 2) b a d 0x06)
  | .min w d a b => some (encR ((BitVec.ofBool w).zeroExtend 2) b a d 0x07)
  | .max w d a b => some (encR ((BitVec.ofBool w).zeroExtend 2) b a d 0x08)
  | .slt w d a b => some (encR ((BitVec.ofBool w).zeroExtend 2) b a d 0x09)
  | .and d a b => some (encR 0 b a d 0x0A)
  | .or d a b => some (encR 0 b a d 0x0B)
  | .xor d a b => some (encR 0 b a d 0x0C)
  | .andn d a b => some (encR 0 b a d 0x0D)
  | .shl d a b => some (encR 0 b a d 0x0E)
  | .shr w d a b => some (encR ((BitVec.ofBool w).zeroExtend 2) b a d 0x0F)
  | .rot d a b => some (encR 0 b a d 0x10)
  | .clz d a => some (encR 0 0 a d 0x11)
  | .ctz d a => some (encR 0 0 a d 0x12)
  | .popc d a => some (encR 0 0 a d 0x13)
  | .selLo n d a b => some (encR n b a d 0x14)
  | .selHi n d a b => some (encR n b a d 0x15)
  | .psetEq d a b => some (encR 0 b a (d.zeroExtend 6) 0x16)
  | .psetNe d a b => some (encR 0 b a (d.zeroExtend 6) 0x17)
  | .psetLt w d a b => some (encR ((BitVec.ofBool w).zeroExtend 2) b a (d.zeroExtend 6) 0x18)
  | .psetGe w d a b => some (encR ((BitVec.ofBool w).zeroExtend 2) b a (d.zeroExtend 6) 0x19)
  | .pand d a b => some (encR 0 (b.zeroExtend 6) (a.zeroExtend 6) (d.zeroExtend 6) 0x1A)
  | .por d a b => some (encR 0 (b.zeroExtend 6) (a.zeroExtend 6) (d.zeroExtend 6) 0x1B)
  | .pxor d a b => some (encR 0 (b.zeroExtend 6) (a.zeroExtend 6) (d.zeroExtend 6) 0x1C)
  | .amad d a b => some (encR 0 b a (d.zeroExtend 6) 0x1D)
  | .mova d a => some (encR 0 0 a (d.zeroExtend 6) 0x1E)
  | .movg d a => some (encR 0 0 (a.zeroExtend 6) d 0x1F)
  | .addi d a m => some (encI m a d 0x40)
  | .andi d a m => some (encI m a d 0x41)
  | .ori d a m => some (encI m a d 0x42)
  | .xori d a m => some (encI m a d 0x43)
  | .sltiI64 d a m => some (encI m a d 0x48)
  | .sltiW64 d a m => some (encI m a d 0x49)
  | .shli d a m => some (encI (m.zeroExtend 8) a d 0x44)
  | .shriI64 d a m => some (encI (m.zeroExtend 8) a d 0x45)
  | .shriW64 d a m => some (encI (m.zeroExtend 8) a d 0x46)
  | .roti d a m => some (encI (m.zeroExtend 8) a d 0x47)
  | .liLo d m => some (encK m d 0x60)
  | .liHi d m => some (encK m d 0x61)
  | .stkCnt n => some (n ++ (0x62 : BitVec 7))
  | .cpy land rel acq sc q gd ea => some (encE land rel acq sc q gd ea 0x01)
  | .cpyq gd => some (encE false false false 0 0 gd 0 0x02)
  | .coll rel acq sc q gd ea => some (encE false rel acq sc q gd ea 0x03)
  | .cmbOpen rel acq sc gd ea => some (encE false rel acq sc 0 gd ea 0x04)
  | .cmbClose rel acq sc gd => some (encE false rel acq sc 0 gd 0 0x05)
  | .gcommit rel acq sc gd ea => some (encE false rel acq sc 0 gd ea 0x06)
  | .gabort rel acq sc gd ea => some (encE false rel acq sc 0 gd ea 0x07)
  | .hist rel acq sc gd ea => some (encE false rel acq sc 0 gd ea 0x08)
  | .snap rel acq sc gd ea => some (encE false rel acq sc 0 gd ea 0x09)
  | _ => none

/-- Bits 39:5 of a vector, matrix or memory slot (R53 to R55). -/
def encode35 : Instr → Option (BitVec 35)
  | .vadd r f d a b k => some (encV r f (k.zeroExtend 5) b a d 0x01)
  | .vsub r f d a b k => some (encV r f (k.zeroExtend 5) b a d 0x02)
  | .vmul r f d a b k => some (encV r f (k.zeroExtend 5) b a d 0x03)
  | .vinsx r f d a b k => some (encV r f (k.zeroExtend 5) b a d 0x0E)
  | .vfma r f d a b c => some (encV r f c b a d 0x06)
  | .vmin f d a b k => some (encV 0 f (k.zeroExtend 5) b a d 0x04)
  | .vmax f d a b k => some (encV 0 f (k.zeroExtend 5) b a d 0x05)
  | .vimul f d a b k => some (encV 0 f (k.zeroExtend 5) b a d 0x22)
  | .vimulh f d a b k => some (encV 0 f (k.zeroExtend 5) b a d 0x23)
  | .vimin f d a b k => some (encV 0 f (k.zeroExtend 5) b a d 0x24)
  | .vimax f d a b k => some (encV 0 f (k.zeroExtend 5) b a d 0x25)
  | .vand f d a b k => some (encV 0 f (k.zeroExtend 5) b a d 0x26)
  | .vor f d a b k => some (encV 0 f (k.zeroExtend 5) b a d 0x27)
  | .vxor f d a b k => some (encV 0 f (k.zeroExtend 5) b a d 0x28)
  | .vandn f d a b k => some (encV 0 f (k.zeroExtend 5) b a d 0x29)
  | .vshl f d a b k => some (encV 0 f (k.zeroExtend 5) b a d 0x2A)
  | .vshr f d a b k => some (encV 0 f (k.zeroExtend 5) b a d 0x2B)
  | .vsel f d a b k => some (encV 0 f (k.zeroExtend 5) b a d 0x41)
  | .vperm f d a b k => some (encV 0 f (k.zeroExtend 5) b a d 0x52)
  | .vthr f d a b k => some (encV 0 f (k.zeroExtend 5) b a d 0x59)
  | .vtopkFix f d a b k => some (encV 0 f (k.zeroExtend 5) b a d 0x5A)
  | .vabs f d a k => some (encV 0 f (k.zeroExtend 5) 0 a d 0x07)
  | .vneg f d a k => some (encV 0 f (k.zeroExtend 5) 0 a d 0x08)
  | .vgetx f d a k => some (encV 0 f (k.zeroExtend 5) 0 a d 0x0D)
  | .viabs f d a k => some (encV 0 f (k.zeroExtend 5) 0 a d 0x2C)
  | .vpopc f d a k => some (encV 0 f (k.zeroExtend 5) 0 a d 0x2D)
  | .vclz f d a k => some (encV 0 f (k.zeroExtend 5) 0 a d 0x2E)
  | .vmov f d a k => some (encV 0 f (k.zeroExtend 5) 0 a d 0x54)
  | .vpart f d a k => some (encV 0 f (k.zeroExtend 5) 0 a d 0x58)
  | .vrcp r f d a k => some (encV r f (k.zeroExtend 5) 0 a d 0x09)
  | .vrsqrt r f d a k => some (encV r f (k.zeroExtend 5) 0 a d 0x0A)
  | .vfexp r f d a k => some (encV r f (k.zeroExtend 5) 0 a d 0x0B)
  | .vrndi r f d a k => some (encV r f (k.zeroExtend 5) 0 a d 0x0C)
  | .vred r f d a k => some (encV r f (k.zeroExtend 5) 0 a d 0x50)
  | .vscan r f d a k => some (encV r f (k.zeroExtend 5) 0 a d 0x51)
  | .viadd s f d a b k => some (encV ((BitVec.ofBool s).zeroExtend 3) f (k.zeroExtend 5) b a d 0x20)
  | .visub s f d a b k => some (encV ((BitVec.ofBool s).zeroExtend 3) f (k.zeroExtend 5) b a d 0x21)
  | .vcmp c f kd a b k => some (encV c f (k.zeroExtend 5) b a (kd.zeroExtend 5) 0x40)
  | .vcvt r f s d a k => some (encV r f (k.zeroExtend 5) (s.zeroExtend 5) a d 0x48)
  | .vbcast f d a n => some ((0 : BitVec 3) ++ f ++ (0 : BitVec 2) ++ n ++ a ++ d ++ (0x53 : BitVec 8))
  | .vins f d g n => some ((0 : BitVec 3) ++ f ++ (0 : BitVec 1) ++ n ++ g ++ d ++ (0x60 : BitVec 8))
  | .vext f g s n => some ((0 : BitVec 3) ++ f ++ (0 : BitVec 1) ++ n ++ g ++ s ++ (0x61 : BitVec 8))
  | .kmovKg d g => some ((0 : BitVec 16) ++ g ++ (0 : BitVec 2) ++ d ++ (0x62 : BitVec 8))
  | .kmovGk g s => some ((0 : BitVec 16) ++ g ++ (0 : BitVec 2) ++ s ++ (0x63 : BitVec 8))
  | .kand d a b => some (encV 0 0 0 (b.zeroExtend 5) (a.zeroExtend 5) (d.zeroExtend 5) 0x64)
  | .kor d a b => some (encV 0 0 0 (b.zeroExtend 5) (a.zeroExtend 5) (d.zeroExtend 5) 0x65)
  | .kxor d a b => some (encV 0 0 0 (b.zeroExtend 5) (a.zeroExtend 5) (d.zeroExtend 5) 0x66)
  | .mma e t a b k p c => some (encM 0 c p k 15 b a t e 0x01)
  | .mmaG e t a b i k p c => some (encM 0 c p k i b a t e 0x02)
  | .mzero e t => some (encM 0 false 0 0 15 0 0 t e 0x03)
  | .minit e t a => some (encM 0 false 0 0 15 0 a t e 0x04)
  | .mout e t a d p => some (encM d false p 0 15 0 a t e 0x05)
  | .mcfg e a => some (encM 0 false 0 0 15 0 a 0 e 0x06)
  | .mdrain e => some (encM 0 false 0 0 15 0 0 0 e 0x07)
  | .mprio e p => some (encM 0 false p 0 15 0 0 0 e 0x08)
  | .mpoll e p => some (encM 0 false 0 0 15 0 0 p e 0x09)
  | .mwait e => some (encM 0 false 0 0 15 0 0 0 e 0x0A)
  | .ldI8 q sc o b r => some (encL ((BitVec.ofBool q).zeroExtend 2) sc o b r 0x01)
  | .ldW8 q sc o b r => some (encL ((BitVec.ofBool q).zeroExtend 2) sc o b r 0x02)
  | .ldI16 q sc o b r => some (encL ((BitVec.ofBool q).zeroExtend 2) sc o b r 0x03)
  | .ldW16 q sc o b r => some (encL ((BitVec.ofBool q).zeroExtend 2) sc o b r 0x04)
  | .ldI32 q sc o b r => some (encL ((BitVec.ofBool q).zeroExtend 2) sc o b r 0x05)
  | .ldW32 q sc o b r => some (encL ((BitVec.ofBool q).zeroExtend 2) sc o b r 0x06)
  | .ldI64 q sc o b r => some (encL ((BitVec.ofBool q).zeroExtend 2) sc o b r 0x07)
  | .stI8 q sc o b r => some (encL (BitVec.ofBool q ++ (0 : BitVec 1)) sc o b r 0x08)
  | .stI16 q sc o b r => some (encL (BitVec.ofBool q ++ (0 : BitVec 1)) sc o b r 0x09)
  | .stI32 q sc o b r => some (encL (BitVec.ofBool q ++ (0 : BitVec 1)) sc o b r 0x0A)
  | .stI64 q sc o b r => some (encL (BitVec.ofBool q ++ (0 : BitVec 1)) sc o b r 0x0B)
  | .stpD q sc o b r => some (encL (BitVec.ofBool q ++ (0 : BitVec 1)) sc o b r 0x19)
  | .vld q sc o b v => some (encL ((BitVec.ofBool q).zeroExtend 2) sc o b (v.zeroExtend 6) 0x10)
  | .vst q sc o b v => some (encL (BitVec.ofBool q ++ (0 : BitVec 1)) sc o b (v.zeroExtend 6) 0x11)
  | .vgather q sc i b v => some (encL ((BitVec.ofBool q).zeroExtend 2) sc (i.zeroExtend 12) b (v.zeroExtend 6) 0x12)
  | .vscatter q sc i b v => some (encL (BitVec.ofBool q ++ (0 : BitVec 1)) sc (i.zeroExtend 12) b (v.zeroExtend 6) 0x13)
  | .ldt q sc t b v => some (encL ((BitVec.ofBool q).zeroExtend 2) sc (t.zeroExtend 12) b (v.zeroExtend 6) 0x18)
  | .stpV q sc o b v => some (encL (BitVec.ofBool q ++ (0 : BitVec 1)) sc o b (v.zeroExtend 6) 0x1A)
  | .stgD q sc t b r => some (encL (BitVec.ofBool q ++ (0 : BitVec 1)) sc (t.zeroExtend 12) b r 0x1B)
  | .stgV q sc t b v => some (encL (BitVec.ofBool q ++ (0 : BitVec 1)) sc (t.zeroExtend 12) b (v.zeroExtend 6) 0x1C)
  | .fenceOwn sc => some (encL 0 sc 0 0 0 0x20)
  | .fenceFar sc => some (encL 0 sc 0 0 0 0x21)
  | .fenceScAcq sc => some (encL 1 sc 0 0 0 0x22)
  | .fenceScRel sc => some (encL 2 sc 0 0 0 0x22)
  | .fenceScAr sc => some (encL 3 sc 0 0 0 0x22)
  | .flsig sc b g => some (encL 0 sc 0 b g 0x23)
  | .probe vc g => some (encL 0 0 (vc.zeroExtend 12) 0 g 0x24)
  | .efence => some (encL 0 0 0 0 0 0x25)
  | _ => none

/-- The word of a slot, in the low end of 48 bits (R31, R37, R43 to R57): none for an event. -/
def encode (x : Slotted) : Option (BitVec 48) :=
  let low : BitVec 5 := x.it ++ x.st
  match x.op.cls with
  | .scalar | .engine => (encode27 x.op).map (fun h => ((h ++ low : BitVec 32).zeroExtend 48))
  | .vector | .matrix | .memory => (encode35 x.op).map (fun h => ((h ++ low : BitVec 40).zeroExtend 48))
  | .control => (encodeControl x.op).map (fun h => (h.2 ++ BitVec.ofBool x.pn ++ x.pr ++ h.1 ++ low : BitVec 48))
  | .event => none

/-- The instruction that a word of the opcode table stands for: the slot's bytes laid out as a bundle holds them
(R31). A table word of 32 bits does not say whether it stands in a scalar slot or in E, whose opcode fields overlap;
it is read as slot A first, and as slot E where A refuses it (log entry 5). -/
def decodeTableWord (nbits w : Nat) : Option Instr :=
  let word := BitVec.ofNat 48 (leNat (leBytes (nbits / 8) w))
  let first : List SlotClass → Option Instr := fun cs =>
    cs.findSome? (fun c => match decodeSlot c word with | .ok x => some x.op | .error _ => none)
  match nbits with
  | 32 => first [.scalar, .engine]
  | 40 => first [.vector, .matrix, .memory]
  | 48 => first [.control]
  | _ => none

end Sys2Proof
end

