-- ==== Sys2Proof/Machine/Float.lean ====
section
/-! DEFINITION. The arithmetic promise (03_formats.md): formats, exact values, rounding, stochastic draws, overflow and
conversion. Every function here is a function of its operands, formats, rounding mode and draw alone (R64). -/

namespace Sys2Proof

/-- The seven flags, bit n as R88 numbers them: NX UF OF DZ NV IDZ ISAT. -/
abbrev Fl := BitVec 7

namespace Fl
def nx : Fl := 1
def uf : Fl := 2
def of : Fl := 4
def dz : Fl := 8
def nv : Fl := 16
def idz : Fl := 32
def isat : Fl := 64
/-- A flag when a condition holds. -/
def on (c : Bool) (f : Fl) : Fl := if c then f else 0
end Fl

/-- The shape of a floating-point format (R65). -/
structure FSpec where
  ebits : Nat
  fbits : Nat
  bias : Int
  code : Nat
deriving DecidableEq, Repr

/-- R65's rows by format code (R45); `f32` for a code that names no float. -/
def fspec (f : Nat) : FSpec :=
  match f with
  | 1 => ⟨8, 7, 127, 1⟩
  | 2 => ⟨5, 10, 15, 2⟩
  | 3 => ⟨4, 3, 7, 3⟩
  | 4 => ⟨5, 2, 15, 4⟩
  | 5 => ⟨2, 1, 1, 5⟩
  | _ => ⟨8, 23, 127, 0⟩

/-- Bits of an element (R65). -/
def FSpec.width (s : FSpec) : Nat := 1 + s.ebits + s.fbits
/-- The exponent of the smallest normal. -/
def FSpec.emin (s : FSpec) : Int := 1 - s.bias
/-- IEEE style: exponent all ones means infinity or NaN (all but E4 and E2). -/
def FSpec.ieee (s : FSpec) : Bool := s.code ≠ 3 && s.code ≠ 5
/-- The pattern of the largest finite magnitude (R65). -/
def FSpec.maxBits (s : FSpec) : Nat :=
  if s.code = 3 then 0x7E else if s.code = 5 then 7 else (2 ^ s.ebits - 1) * 2 ^ s.fbits - 1
/-- The pattern of +∞ (formats that have one). -/
def FSpec.infBits (s : FSpec) : Nat := (2 ^ s.ebits - 1) * 2 ^ s.fbits
/-- The canonical NaN (R66); the E2 element has none (0, never used). -/
def FSpec.nanBits (s : FSpec) : Nat :=
  if s.code = 3 then 0x7F else if s.code = 5 then 0 else s.infBits + 2 ^ (s.fbits - 1)
/-- The sign bit's weight. -/
def FSpec.signBit (s : FSpec) (neg : Bool) : Nat := if neg then 2 ^ (s.ebits + s.fbits) else 0

/-- A value: NaN (signalling or not), infinity, or the exact ±man × 2^exp (man = 0: zero). -/
inductive FVal where
  | nan (snan : Bool)
  | inf (neg : Bool)
  | fin (neg : Bool) (man : Nat) (exp : Int)
deriving DecidableEq, Repr

/-- Decodes an element's bits (R65, R66). -/
def fdecode (s : FSpec) (bits : Nat) : FVal :=
  let neg := bits.testBit (s.ebits + s.fbits)
  let e := (bits / 2 ^ s.fbits) % 2 ^ s.ebits
  let fr := bits % 2 ^ s.fbits
  if s.ieee && e = 2 ^ s.ebits - 1 then
    (if fr = 0 then .inf neg else .nan (!fr.testBit (s.fbits - 1)))
  else if s.code = 3 && e = 15 && fr = 7 then .nan false
  else if e = 0 then .fin neg fr (s.emin - s.fbits)
  else .fin neg (2 ^ s.fbits + fr) ((e : Int) - s.bias - s.fbits)

/-- Whether an element's bits are a subnormal of the format. -/
def isSubnormal (s : FSpec) (bits : Nat) : Bool :=
  (bits / 2 ^ s.fbits) % 2 ^ s.ebits = 0 && bits % 2 ^ s.fbits ≠ 0

/-- Reading under FTZ: a subnormal F32, BF16 or F16 operand reads as zero of its sign (R67). -/
def fread (s : FSpec) (ftz : Bool) (bits : Nat) : FVal :=
  match fdecode s bits with
  | .fin neg m e => if ftz && s.code ≤ 2 && isSubnormal s bits then .fin neg 0 0 else .fin neg m e
  | v => v

/-- Bits needed for a number (0 for 0). -/
def bitLen (n : Nat) : Nat := if n = 0 then 0 else Nat.log2 n + 1

/-- m × 2^k as a floor for any integer k. -/
def shiftZ (m : Nat) (k : Int) : Nat := if 0 ≤ k then m <<< k.toNat else m >>> (-k).toNat

/-- R80's modes: the larger neighbour is chosen for the fraction r / 2^d above the smaller one (plus a little when
`sticky`), `odd` the parity of the smaller neighbour, x the draw of R82. -/
def chooseUp (rm : Nat) (neg odd : Bool) (x : BitVec 32) (r d : Nat) (sticky : Bool) : Bool :=
  let half := if d = 0 then 1 else 2 ^ (d - 1)
  let inexact := r ≠ 0 || sticky
  match rm with
  | 0 => if d = 0 then false else r > half || (r = half && (sticky || odd))
  | 1 => false
  | 2 => neg && inexact
  | 3 => !neg && inexact
  | 4 => d ≠ 0 && r ≥ half
  | _ => inexact && x.toNat ≤ (if d ≤ 32 then r <<< (32 - d) else r >>> (d - 32))

/-- Rounds the magnitude man × 2^exp (a little more when `sticky`) to a multiple of 2^q: the multiple, and whether it
was inexact. -/
def roundAt (rm : Nat) (neg : Bool) (x : BitVec 32) (man : Nat) (exp : Int) (sticky : Bool) (q : Int) : Nat × Bool :=
  if q ≤ exp then (man <<< (exp - q).toNat, sticky)
  else
    let d := (q - exp).toNat
    let a := man >>> d
    let r := man % 2 ^ d
    (a + (if chooseUp rm neg (a % 2 = 1) x r d sticky then 1 else 0), r ≠ 0 || sticky)

/-- The result of a finite overflow (R84). -/
def overflowBits (s : FSpec) (sat8 : Bool) (rm : Nat) (neg : Bool) : Nat :=
  if s.code = 5 then s.signBit neg + s.maxBits
  else if s.code = 3 then (if sat8 then s.signBit neg + s.maxBits else s.nanBits)
  else if s.code = 4 && sat8 then s.signBit neg + s.maxBits
  else
    let toMax := rm = 1 || (rm = 2 && !neg) || (rm = 3 && neg)
    s.signBit neg + (if toMax then s.maxBits else s.infBits)

/-- m multiples of 2^q as a pattern: a value on the format's grid. -/
def packMag (s : FSpec) (m : Nat) (q : Int) : Nat :=
  if m = 0 then 0
  else if m < 2 ^ s.fbits then m
  else if m < 2 ^ (s.fbits + 1) then ((q + s.fbits + s.bias).toNat) * 2 ^ s.fbits + (m - 2 ^ s.fbits)
  else ((q + 1 + s.fbits + s.bias).toNat) * 2 ^ s.fbits + (m / 2 - 2 ^ s.fbits)

/-- Rounds a finite magnitude to the format (R80, R82, R84, R67, R88): the pattern and the flags. -/
def roundMag (s : FSpec) (sat8 ftz : Bool) (rm : Nat) (x : BitVec 32) (neg : Bool) (man : Nat) (exp : Int)
    (sticky : Bool) : Nat × Fl :=
  if man = 0 && !sticky then (s.signBit neg, 0)
  else
    let top : Int := exp + bitLen man - 1
    let qn : Int := top - s.fbits
    let q : Int := if qn < s.emin - s.fbits then s.emin - s.fbits else qn
    let (m, inexact) := roundAt rm neg x man exp sticky q
    let maxMan := if s.code = 3 then 14 else if s.code = 5 then 3 else 2 ^ (s.fbits + 1) - 1
    let maxExp : Int := if s.code = 3 then 5 else if s.code = 5 then 1 else (2 ^ s.ebits : Int) - 2 - s.bias - s.fbits
    let beyond := q > maxExp || (q = maxExp && m > maxMan) || (q + 1 > maxExp && m ≥ 2 ^ (s.fbits + 1))
    if beyond then (overflowBits s sat8 rm neg, Fl.of ||| Fl.nx)
    else
      let tiny := top < s.emin &&
        (let (mu, _) := roundAt rm neg x man exp sticky qn
         !(mu ≥ 2 ^ (s.fbits + 1) && top + 1 = s.emin))
      let sub := m < 2 ^ s.fbits && m ≠ 0 && q = s.emin - s.fbits
      if ftz && s.code ≤ 2 && sub then (s.signBit neg, Fl.uf ||| Fl.nx)
      else (s.signBit neg + packMag s m q, Fl.on inexact Fl.nx ||| Fl.on (tiny && inexact) Fl.uf)

/-- Round(v, rm) to a float format, special values included (R66, R84). A NaN gives the canonical NaN; whoever formed
it raised its flags. -/
def roundF (s : FSpec) (sat8 ftz : Bool) (rm : Nat) (x : BitVec 32) (v : FVal) : Nat × Fl :=
  match v with
  | .nan _ => (s.nanBits, 0)
  | .inf neg =>
    if s.code = 3 then
      (if sat8 then (s.signBit neg + s.maxBits, Fl.of ||| Fl.nx) else (s.nanBits, Fl.nv))
    else if s.code = 5 then (s.signBit neg + s.maxBits, Fl.of ||| Fl.nx)
    else (s.signBit neg + s.infBits, 0)
  | .fin neg m e => roundMag s sat8 ftz rm x neg m e false

/-- The xorshift draw of R82: the state's next value. -/
def drawState (s : BitVec 32) : BitVec 32 :=
  let x := s ^^^ (s <<< 13)
  let x := x ^^^ (x >>> 17)
  x ^^^ (x <<< 5)

/-- n draws in a row (R143). -/
def drawN : Nat → BitVec 32 → BitVec 32
  | 0, s => s
  | n + 1, s => drawN n (drawState s)

/-- The generator states a SEED gives (R81). -/
def seedState (seedv : BitVec 32) (l : Nat) : BitVec 32 :=
  let s := seedv ^^^ BitVec.ofNat 32 (l * 0x9E3779B9)
  if s = 0 then 0x6D2B79F5 else s

/-- Whether a value is a signalling NaN. -/
def FVal.isSnan : FVal → Bool
  | .nan b => b
  | _ => false
/-- Whether a value is a NaN. -/
def FVal.isNan : FVal → Bool
  | .nan _ => true
  | _ => false
/-- Whether a value is a zero. -/
def FVal.isZero : FVal → Bool
  | .fin _ 0 _ => true
  | _ => false
/-- The sign of a value (false for NaN). -/
def FVal.neg : FVal → Bool
  | .nan _ => false
  | .inf n => n
  | .fin n _ _ => n
/-- −x; a NaN stays. -/
def FVal.negate : FVal → FVal
  | .nan b => .nan b
  | .inf n => .inf (!n)
  | .fin n m e => .fin (!n) m e

/-- A finite value as an integer count of 2^q, q at or below its exponent. -/
def finInt (neg : Bool) (m : Nat) (e q : Int) : Int :=
  let k : Int := ((m <<< (e - q).toNat : Nat) : Int)
  if neg then -k else k

/-- n × 2^q as a value; a zero takes the sign given. -/
def ofInt (zneg : Bool) (n : Int) (q : Int) : FVal :=
  if n = 0 then .fin zneg 0 0 else .fin (n < 0) n.natAbs q

/-- Exact(x + y) with its NV (R104): an exact zero sum of opposite signs is +0, under RD −0. -/
def faddX (rm : Nat) (x y : FVal) : FVal × Fl :=
  match x, y with
  | .nan a, v => (.nan false, Fl.on (a || v.isSnan) Fl.nv)
  | v, .nan b => (.nan false, Fl.on (b || v.isSnan) Fl.nv)
  | .inf a, .inf b => if a = b then (.inf a, 0) else (.nan false, Fl.nv)
  | .inf a, .fin .. => (.inf a, 0)
  | .fin .., .inf b => (.inf b, 0)
  | .fin a m e, .fin b n f =>
    if m = 0 && n = 0 then (.fin (if a = b then a else rm = 2) 0 0, 0)
    else if m = 0 then (.fin b n f, 0)
    else if n = 0 then (.fin a m e, 0)
    else
      let q := if e ≤ f then e else f
      (ofInt (rm = 2) (finInt a m e q + finInt b n f q) q, 0)

/-- Exact(x × y) with its NV (R104). -/
def fmulX (x y : FVal) : FVal × Fl :=
  match x, y with
  | .nan a, v => (.nan false, Fl.on (a || v.isSnan) Fl.nv)
  | v, .nan b => (.nan false, Fl.on (b || v.isSnan) Fl.nv)
  | .inf a, v => if v.isZero then (.nan false, Fl.nv) else (.inf (a != v.neg), 0)
  | v, .inf b => if v.isZero then (.nan false, Fl.nv) else (.inf (b != v.neg), 0)
  | .fin a m e, .fin b n f => (.fin (a != b) (m * n) (e + f), 0)

/-- Exact(x × y + z), one rounding to come (R104). -/
def ffmaX (rm : Nat) (x y z : FVal) : FVal × Fl :=
  let (p, f1) := fmulX x y
  let (r, f2) := faddX rm p z
  (r, f1 ||| f2)

/-- Compares two values that are not NaN, −0 and +0 equal. -/
def fcmp (x y : FVal) : Ordering :=
  match x, y with
  | .inf a, .inf b => if a = b then .eq else if a then .lt else .gt
  | .inf a, _ => if a then .lt else .gt
  | _, .inf b => if b then .gt else .lt
  | .fin a m e, .fin b n f =>
    let q := if e ≤ f then e else f
    compare (finInt a m e q) (finInt b n f q)
  | _, _ => .eq

/-- The smaller (or larger) of two values as R105 orders them, −0 below +0, by the operands' own patterns. -/
def fminmaxBits (s : FSpec) (isMax ftz : Bool) (a b : Nat) : Nat × Fl :=
  let x := fread s ftz a
  let y := fread s ftz b
  if x.isNan || y.isNan then (s.nanBits, Fl.on (x.isSnan || y.isSnan) Fl.nv)
  else
    let less := match fcmp x y with
      | .lt => true
      | .gt => false
      | .eq => x.neg && !y.neg
    let pick := if less != isMax then x else y
    ((roundF s false false 0 0 pick).1, 0)

/-- Floor of the square root, bit by bit from the top. -/
def isqrtAux : Nat → Nat → Nat → Nat
  | 0, _, r => r
  | k + 1, n, r => let t := r + 2 ^ k; isqrtAux k n (if t * t ≤ n then t else r)
/-- Floor of the square root of n. -/
def isqrt (n : Nat) : Nat := isqrtAux (bitLen n / 2 + 1) n 0

/-- Round(1/a, rm) (R107). -/
def frcp (s : FSpec) (ftz : Bool) (rm : Nat) (x : BitVec 32) (a : FVal) : Nat × Fl :=
  match a with
  | .nan b => (s.nanBits, Fl.on b Fl.nv)
  | .inf n => (s.signBit n, 0)
  | .fin n 0 _ => (s.signBit n + s.infBits, Fl.dz)
  | .fin n m e =>
    let k := bitLen m + 96
    roundMag s false ftz rm x n (2 ^ k / m) (-e - k) (2 ^ k % m ≠ 0)

/-- Round(1/√a, rm) (R107). -/
def frsqrt (s : FSpec) (ftz : Bool) (rm : Nat) (x : BitVec 32) (a : FVal) : Nat × Fl :=
  match a with
  | .nan b => (s.nanBits, Fl.on b Fl.nv)
  | .inf n => if n then (s.nanBits, Fl.nv) else (0, 0)
  | .fin n 0 _ => (s.signBit n + s.infBits, Fl.dz)
  | .fin true _ _ => (s.nanBits, Fl.nv)
  | .fin false m e =>
    let (m, e) := if e % 2 = 0 then (m, e) else (2 * m, e - 1)
    let k := bitLen m + 96
    let y := 2 ^ (2 * k) / m
    let r := isqrt y
    roundMag s false ftz rm x false r (-(e / 2) - k) (!(r * r * m = 2 ^ (2 * k)))

/-- ln 2 × 2^320, rounded down. -/
def ln2Fix : Nat := 0xb17217f7d1cf79abc9e3b39803f2f6af40f343267298b62d8a0d175b8baafa2be7b876206debac98

/-- The Taylor sum of e^y, y a fixed-point number of 320 fraction bits: from term n with value t, fuel terms. -/
def expSum : Nat → Nat → Int → Int → Int
  | 0, _, _, _ => 0
  | k + 1, n, y, t => t + expSum k (n + 1) y (t * y / (2 ^ 320 : Int) / (n + 1 : Int))

/-- Round(2^a, rm) for a in −1 to +1 (R108). The series is carried to 320 bits and cut at 200; that no operand's
result lies closer to a rounding boundary is UNVERIFIED (log entry 6). -/
def fexp2 (s : FSpec) (ftz : Bool) (rm : Nat) (x : BitVec 32) (a : FVal) : Nat × Fl :=
  match a with
  | .nan b => (s.nanBits, Fl.on b Fl.nv)
  | .inf _ => (s.nanBits, Fl.nv)
  | .fin n m e =>
    if m = 0 then roundMag s false ftz rm x false 1 0 false
    else match fcmp (.fin false m e) (.fin false 1 0) with
      | .gt => (s.nanBits, Fl.nv)
      | .eq => roundMag s false ftz rm x false 1 (if n then -1 else 1) false
      | .lt =>
        let y : Int := ((shiftZ (m * ln2Fix) e : Nat) : Int)
        let v := expSum 80 0 (if n then -y else y) (2 ^ 320 : Int)
        roundMag s false ftz rm x false (v.toNat >>> 120) (-200) true

/-- Rounds to an integral value in the same format (R109). -/
def frndi (s : FSpec) (ftz : Bool) (rm : Nat) (x : BitVec 32) (a : FVal) : Nat × Fl :=
  match a with
  | .nan b => (s.nanBits, Fl.on b Fl.nv)
  | .inf n => (s.signBit n + s.infBits, 0)
  | .fin n m e =>
    let (k, _) := roundAt rm n x m e false 0
    ((roundMag s false ftz 0 0 n k 0 false).1, 0)

/-- ⌊log2 |a|⌋ as a value of the format (R110). -/
def fgetx (s : FSpec) (a : FVal) : Nat × Fl :=
  match a with
  | .nan b => (s.nanBits, Fl.on b Fl.nv)
  | .inf _ => (s.infBits, 0)
  | .fin _ 0 _ => (s.signBit true + s.infBits, Fl.dz)
  | .fin _ m e =>
    let l : Int := e + bitLen m - 1
    ((roundMag s false false 0 0 (l < 0) l.natAbs 0 false).1, 0)

/-- a × 2^n by R111's cases; beyond ±1,000 every n overflows or rounds as ±1,000 does. -/
def finsx (s : FSpec) (ftz : Bool) (rm : Nat) (x : BitVec 32) (a n : FVal) : Nat × Fl :=
  if a.isNan || n.isNan then (s.nanBits, Fl.on (a.isSnan || n.isSnan) Fl.nv)
  else match n with
    | .inf false => if a.isZero then (s.nanBits, Fl.nv) else (s.signBit a.neg + s.infBits, 0)
    | .inf true =>
      (match a with
       | .inf _ => (s.nanBits, Fl.nv)
       | _ => (s.signBit a.neg, 0))
    | .nan _ => (s.nanBits, 0)
    | .fin nn m e =>
      let (k, inexact) := roundAt 1 nn 0 m e false 0
      if inexact then (s.nanBits, Fl.nv)
      else match a with
        | .fin an am ae => roundMag s false ftz rm x an am (ae + (if nn then -(min k 1000 : Int) else (min k 1000 : Int))) false
        | v => roundF s false ftz rm x v

/-- The value of a lane in an integer format: signed for `i` codes (R73). -/
def laneInt (f : Nat) (bits : Nat) (b : Nat) : Int :=
  if f < 12 && bits.testBit (b - 1) then (bits : Int) - 2 ^ b else bits
/-- The smallest value of an integer format of b bits (R73). -/
def intMin (f b : Nat) : Int := if f < 12 then -(2 ^ (b - 1) : Int) else 0
/-- The largest value of an integer format of b bits (R73). -/
def intMax (f b : Nat) : Int := if f < 12 then 2 ^ (b - 1) - 1 else 2 ^ b - 1
/-- Wraps an integer to b bits. -/
def wrapInt (b : Nat) (v : Int) : Nat := (v % (2 ^ b : Int)).toNat
/-- Saturates to the format's bounds, and whether it did (R73). -/
def satInt (f b : Nat) (v : Int) : Nat × Bool :=
  if v < intMin f b then (wrapInt b (intMin f b), true)
  else if v > intMax f b then (wrapInt b (intMax f b), true)
  else (wrapInt b v, false)

/-- Float to integer (R85): out of range saturates with NV, a NaN gives 0 with NV, an inexact result raises NX. -/
def floatToInt (f b rm : Nat) (x : BitVec 32) (v : FVal) : Nat × Fl :=
  match v with
  | .nan _ => (0, Fl.nv)
  | .inf n => (wrapInt b (if n then intMin f b else intMax f b), Fl.nv)
  | .fin n m e =>
    let (k, inexact) := roundAt rm n x m e false 0
    let z : Int := if n then -(k : Int) else k
    let (r, sat) := satInt f b z
    if sat then (r, Fl.nv) else (r, Fl.on inexact Fl.nx)

/-- Whether a format code names a float (codes 0 to 5). -/
def isFloatCode (f : Nat) : Bool := f ≤ 5
/-- Element bits of any code (R45), 64-bit integers and `e2` included. -/
def codeBits (f : Nat) : Nat :=
  match f with
  | 0 | 10 | 14 => 32
  | 1 | 2 | 9 | 13 => 16
  | 3 | 4 | 8 | 12 => 8
  | 5 => 4
  | 11 | 15 => 64
  | _ => 16

/-- Rounds an exact value to any destination format (R84, R85): a NaN with NV as the conversion rules say. -/
def roundTo (dst : Nat) (sat8 ftz : Bool) (rm : Nat) (x : BitVec 32) (v : FVal) : Nat × Fl :=
  if isFloatCode dst then
    let (r, f) := roundF (fspec dst) sat8 ftz rm x v
    (r, f ||| Fl.on v.isSnan Fl.nv)
  else floatToInt dst (codeBits dst) rm x v

/-- Convert(element, src, dst, rm) of R116, R78: the lane's bits and flags. -/
def convert (dst src : Nat) (sat8 ftz : Bool) (rm : Nat) (x : BitVec 32) (bits : Nat) : Nat × Fl :=
  if isFloatCode src then
    let s := fspec src
    let v := fread s ftz bits
    if dst = src then
      (match v with
       | .nan true => (s.nanBits, Fl.nv)
       | .fin n 0 _ => (s.signBit n, 0)
       | _ => (bits, 0))
    else roundTo dst sat8 ftz rm x v
  else
    let z := laneInt src bits (codeBits src)
    if isFloatCode dst then
      roundF (fspec dst) sat8 ftz rm x (.fin (z < 0) z.natAbs 0)
    else
      let (r, sat) := satInt dst (codeBits dst) z
      (r, Fl.on sat Fl.isat)

/-- A block scale's value, or none for the all-zero byte and NaN byte (R68): mantissa and exponent. -/
def scaleValue (b : Nat) : Nat × Int := (8 + b % 8, (b / 8 : Int) - 18)

/-- An element under its block scale (R68, R69). -/
def scaled (scale : Nat) (v : FVal) : FVal :=
  if scale = 0xFF then .nan false
  else if scale = 0 then .fin false 0 0
  else (fmulX v (.fin false (scaleValue scale).1 (scaleValue scale).2)).1

/-- One CB2 element of an index (R72): the codebook entry, the 16-bit index, the element number. -/
def cb2Element (entry idx i : Nat) : FVal :=
  let neg := (List.range 7).foldl (fun n j => n != idx.testBit (j + 1)) false
  let s := if i < 7 then idx.testBit (i + 1) else neg != entry.testBit 32
  let mag := (entry / 2 ^ (4 * i)) % 16 + (if idx.testBit 0 then 2 else 0)
  .fin s mag (-2)

/-- The scale byte R79 gives a block whose largest magnitude is `amax` (finite): the smallest scale at least amax / 6,
clamped to `0x01` .. `0xFE`; `0x00` for an all-zero block. -/
def blockScale (amax : FVal) : Nat :=
  if amax.isZero then 0
  else ((List.range 254).map (· + 1)).findSome? (fun b =>
      let (m, e) := scaleValue b
      if fcmp (.fin false (6 * m) e) amax != .lt then some b else none) |>.getD 0xFE

/-- x / S rounded to an E2 element (R79), magnitudes beyond 6 becoming 6 with OF and NX; UF by R79's own rule. -/
def e2Element (scale rm : Nat) (x : BitVec 32) (v : FVal) : Nat × Fl :=
  match v with
  | .fin n m e =>
    let (sm, se) := scaleValue scale
    let k := 64
    let (r, f) := roundMag (fspec 5) false false rm x n ((m <<< k) / sm) (e - se - k) ((m <<< k) % sm ≠ 0)
    let f := f &&& ~~~Fl.uf
    (r, f ||| Fl.on (r % 8 ≤ 1 && f &&& Fl.nx ≠ 0) Fl.uf)
  | _ => (0, 0)

end Sys2Proof
end

