-- ==== Sys2Proof/Machine/Maps.lean ====
section
/-! DEFINITION. Sparse data by a numeric key, as a list of pairs in one canonical form: keys strictly rising. -/

namespace Sys2Proof

/-- Sparse data keyed by a number; the canonical form is `NMap.wf`. -/
abbrev NMap (α : Type) := List (Nat × α)

/-- The value at a key. -/
def NMap.get {α : Type} : NMap α → Nat → Option α
  | [], _ => none
  | (k, v) :: m, q => if k = q then some v else if q < k then none else NMap.get m q

/-- Sets (`some`) or removes (`none`) the value at a key, keeping the keys rising. -/
def NMap.put {α : Type} : NMap α → Nat → Option α → NMap α
  | [], _, none => []
  | [], q, some x => [(q, x)]
  | (k, v) :: m, q, x =>
    if k < q then (k, v) :: NMap.put m q x
    else if k = q then (match x with
      | none => m
      | some y => (k, y) :: m)
    else (match x with
      | none => (k, v) :: m
      | some y => (q, y) :: (k, v) :: m)

/-- Every key is above `q`. -/
def NMap.above {α : Type} (q : Nat) : NMap α → Bool
  | [] => true
  | (k, _) :: _ => q < k

/-- Keys strictly rising. -/
def NMap.wf {α : Type} : NMap α → Bool
  | [] => true
  | (k, _) :: m => NMap.above k m && NMap.wf m

end Sys2Proof
end

