-- ==== Sys2Proof/Machine/State.lean ====
section
/-! DEFINITION. The state of the fabric domain: contexts, cores, packages, memory, messages; the reasons a step can
stop; the state right after reset. Plain data throughout. -/

namespace Sys2Proof.Machine

/-- The privilege levels (R19). -/
inductive Level where
  | program
  | partition
  | device
deriving DecidableEq, Repr

/-- The code of a level (R19). -/
def Level.toNat : Level → Nat
  | .program => 0
  | .partition => 1
  | .device => 2
/-- The level a code names (3 reads as device; no rule forms it). -/
def levelOf (n : Nat) : Level := if n = 0 then .program else if n = 1 then .partition else .device

/-- The five sticky records (R89). -/
inductive Rec where
  | a | b | v0 | v1 | m
deriving DecidableEq, Repr

/-- The index of a record (R89, R91). -/
def Rec.idx : Rec → Fin 5
  | .a => 0 | .b => 1 | .v0 => 2 | .v1 => 3 | .m => 4

/-- What a fixed-latency operation writes when it completes (R39, R90). A `v` or `k` write carries the bits it
writes. -/
inductive Target where
  | g (r : GNum) (x : Word)
  | a (r : ANum) (x : Word)
  | p (r : PNum) (x : Bool)
  | v (r : VNum) (x mask : VReg)
  | k (r : KNum) (x mask : Word)
  | flags (r : Rec) (f : Fl) (addr : Word) (issue : Nat)
deriving DecidableEq, Repr

/-- A pending write: the pipeline cycle on which bundles see it (R39), and the write. -/
structure Pend where
  due : Nat
  tgt : Target
  /-- the issue number of its bundle: of two writes that complete on one cycle the later-issued stands (R40) -/
  issue : Nat := 0
deriving DecidableEq, Repr

/-- The states of an in-flight record entry (R408). -/
inductive EState where
  | free | outstanding | stopped | retired
deriving DecidableEq, Repr

/-- A release whose value an access read (R167): agent, its quill or the context itself, scope. -/
structure Heard where
  agent : CtxId
  quill : Bool
  scope : Nat
deriving DecidableEq, Repr

/-- A landing kept by an entry: an `ldt` or a `cpy.land` (R204, R206, R217). -/
structure Landing where
  /-- the destination of an `ldt`; none for `cpy.land` -/
  vd : Option VNum
  /-- the bytes read at their homes so far (R180) -/
  data : VReg := 0
  /-- pieces still to be read -/
  left : Nat := 0
  /-- the bytes have arrived at the core (`cpy.land`: its COPY has completed) -/
  arrived : Bool := false
  /-- `LATE` has been raised (R206) -/
  late : Bool := false
  /-- cycles for which a freeze has lasted (R206) -/
  frozen : Nat := 0
  /-- the acquire's scope (R180) -/
  acq : Option (BitVec 4) := none
  /-- the landing counts from this cycle after a resumption (R207) -/
  base : Option Nat := none
  /-- the access ended refused, unreachable or `UNDECIDED` -/
  err : Option Nat := none
  /-- the releases whose values were read (R180: the acquire is made at the landing) -/
  heard : List Heard := []
deriving DecidableEq, Repr

/-- An entry of the in-flight record (R196, R393, R408). -/
structure IfrEntry where
  state : EState := .free
  seq : BitVec 16 := 0
  chan : BitVec 4 := 0
  cls : BitVec 2 := 0
  abandon : Bool := false
  level : Level := .program
  kind : BitVec 4 := 0
  bnd : BitVec 10 := 0
  /-- source tag: salt, PID, CTXID bits 11:0 (R393, word 1 of R408) -/
  tag : Word := 0
  target : Word := 0
  promised : Word := 0
  off : BitVec 20 := 0
  elem : BitVec 32 := 0
  faultAddr : Word := 0
  /-- active LOOP counters: entry offset and count (R227) -/
  loops : List (Nat × Nat) := []
  /-- the status of R218, kept at retirement -/
  status : Word := 0
  /-- when the entry became free: entries free longest are taken first (R196) -/
  freedAt : Nat := 0
  landing : Option Landing := none
  /-- the register that receives the handle of `cmb.open` (R231) -/
  gdest : Option GNum := none
  /-- messages of the operation still unanswered (an access of several pages; R213: probes) -/
  probes : Nat := 0
  /-- the issue number of the bundle (R379) -/
  issue : Nat := 0
  /-- bytes of the request, for a replay (R181) -/
  bytes : List Byte := []
  /-- group and epoch of a group store (R209) -/
  group : Nat := 0
  epoch : Nat := 0
  scope : Option (BitVec 4) := none
  /-- the homes a `probe` was sent to, for a replay (R213, R396) -/
  routes : List Nat := []
  /-- whether the opener could write RESULT at the issue of `cmb.open` (R233) -/
  mayWrite : Bool := true
deriving DecidableEq, Repr

/-- One level of the loop sequencer (R289). -/
structure LoopLevel where
  count : Nat := 1
  strides : Vector Word 16 := Vector.replicate 16 0
deriving DecidableEq, Repr

/-- One bundle of the replay buffer (R292). -/
structure BufBundle where
  addr : Word
  bytes : List Byte
deriving DecidableEq, Repr

/-- A sequencer replay (R292, R293, R297). -/
structure Replay where
  n : Nat
  flev : Nat
  level : Level
  /-- the address at which the replay goes on -/
  want : Word
  buf : List BufBundle
  /-- the bundle of the pass that issues next -/
  pos : Nat
  /-- iteration counts of the six levels -/
  iter : Vector Nat 6
  /-- the first pass is not yet over -/
  first : Bool
deriving DecidableEq, Repr

/-- The loop sequencer (R289). -/
structure Seqr where
  levels : Vector LoopLevel 6 := Vector.replicate 6 {}
  replay : Option Replay := none
deriving DecidableEq, Repr

/-- A pending consumed error (R379). -/
structure CErr where
  origin : Nat
  more : Bool
  w : Bool
  addr : Word
  level : Level
  issue : Nat
deriving DecidableEq, Repr

/-- A pending trap of R405: `LATE`, `UNDECIDED`, `QFAULT`, `HOOP`, or the `RACE` a matrix engine met (R190). -/
structure PTrap where
  cause : Nat
  tval : Word
  level : Level
  entry : Nat
deriving DecidableEq, Repr

/-- What a context waits for at a `hoop.end` or `hoop.join` whose message is sent (R257, R303, R306). -/
structure HoopWait where
  reg : Nat
  join : Bool
  /-- the address of the waiting bundle (R306: it is recognised when executed again) -/
  addr : Word
  /-- `hoop.end`: the phase count when the arrival was sent; `hoop.join`: 1 once the join is sent, 0 where it is to be sent
  again (R306, R401) -/
  seq : Nat
deriving DecidableEq, Repr

/-- An operation's full tag (R393). -/
structure Tag where
  src : Word
  chan : Nat
  seq : BitVec 16
  off : Nat
  elem : Nat
  /-- which piece of an access that crosses a page: the bytes of the access before it -/
  piece : Nat := 0
deriving DecidableEq, Repr

/-- A context (R9): registers, CSRs, sequencer, in-flight record and waiting state. -/
structure Ctx where
  pc : Word := 0
  npc : Word := 0
  level : Level := .device
  halted : Bool := true
  waiting : Bool := false
  parkMark : Bool := false
  stall : Nat := 0
  own : Nat := 0
  age : Nat := 0
  issued : Nat := 0
  g : Vector Word 64 := Vector.replicate 64 0
  a : Vector Word 16 := Vector.replicate 16 0
  p : BitVec 8 := 0x80
  k : Vector Word 8 := Vector.replicate 8 0
  v : Vector VReg 32 := Vector.replicate 32 0
  pend : List Pend := []
  sr : Vector (BitVec 32) 256 := Vector.ofFn (fun l => seedState 0 l.val)
  fcsr : Word := 0
  seed : Word := 0
  prog : Word := 0
  role : BitVec 2 := 0
  sbchk : Word := 0
  hoopm : Vector Word 4 := Vector.replicate 4 0
  xr : Vector Word 5 := Vector.replicate 5 0
  xrIssue : Vector Nat 5 := Vector.replicate 5 0
  /-- flags recorded on this pipeline cycle: they stay after a write of `FCSR` or of their record (R317) -/
  flagged : List (Rec × Fl × Word × Nat) := []
  tvec : Word := 0
  tcause : Word := 0
  tepc : Word := 0
  tval : Word := 0
  dtvec : Word := 0
  dtcause : Word := 0
  dtepc : Word := 0
  dtval : Word := 0
  landbnd : Word := 64
  agebnd : Word := 1024
  racedet : Word := 0
  stkchk : Word := 0
  seqr : Seqr := {}
  ifr : Vector IfrEntry 64 := Vector.replicate 64 {}
  /-- cycles counted for the age of free entries (R196) -/
  freeStamp : Nat := 0
  chanSeq : Vector (BitVec 16) 16 := Vector.replicate 16 0
  /-- the highest SEQ of each channel up to which every response is held (R394); before the first, SEQ 0 less 1 -/
  ackt : Vector (BitVec 16) 16 := Vector.replicate 16 0xFFFF
  err : Option CErr := none
  traps : List PTrap := []
  wph : BitVec 32 := 0
  /-- the address of an `efence` bundle that waits: an error that arrives meanwhile is raised at it (R380) -/
  efence : Option Word := none
  /-- the `fence.far` bundle that waits, and the accesses it waits for: image and issue number of each (R172) -/
  fence : Option (Word × List (Nat × Nat)) := none
  /-- the `pg.inval` bundle that waits, and the accesses it waits for: their tags, and the numbers of commits with their DECW (R360) -/
  inval : Option (Word × List Tag × List Nat) := none
  /-- channels with the homes sent to since the last probe (R213): channel and home code -/
  routes : List (Nat × Nat) := []
  /-- the same since the last hoop arrival (R257) -/
  hoopRoutes : List (Nat × Nat) := []
  hoopWait : Option HoopWait := none
  /-- the bundle that waits, as it was when it passed the checks of R35 (R418) -/
  next : Option BufBundle := none
  /-- the other members counted in the hoop phases that have ended since the context last went on: it departs with an acquire from each
  (R189, R257) -/
  phase : List CtxId := []
  /-- releases read by accesses that are no acquires (R171) -/
  heard : List Heard := []
  /-- the scope of a `fence.sc` release that the next store carries (R171) -/
  relNext : Option Nat := none
  /-- the identity of the image, once it differs from its place (R306) -/
  ident : Option Nat := none
  /-- resumptions so far: an answer to an operation sent before the last one is discarded (R272) -/
  gen : Nat := 0
  inst : Option Nat := none
  /-- the status given by `gnode.done` (R311) -/
  doneStatus : Option Word := none
  /-- the map the image was placed with: NUM and ADDR (R277) -/
  oldMap : List (Nat × Word) := []
deriving DecidableEq, Repr

/-- The queued matrix operations (R128). -/
inductive MOp where
  | mma (acc : Bool)
  | mmaG (acc : Bool)
  | mzero
  | minit
  | mout
deriving DecidableEq, Repr

/-- A queued matrix instruction with what it latched at issue (R128, R132, R134, R143, R149). -/
structure MEntry where
  op : MOp
  ctx : Nat
  td : Nat
  cfg : Word
  offA : Nat
  offB : Nat
  idx : List Nat
  units : Nat
  done : Nat
  /-- the pipeline cycle from which it may start (R144) -/
  startAt : Nat
  order : Nat
  bf : Vector Word 16
  desc : List Byte
  sr : List (BitVec 32)
  sat8 : Bool
  addr : Word
  level : Level
  issue : Nat
  /-- the pipeline cycle on which it completes, once its last unit has ended (R144) -/
  doneAt : Option Nat
  /-- bytes as they stood before a store in the L slot of its own bundle, by scratchpad offset (R147) -/
  hidden : List (Nat × Byte) := []
deriving DecidableEq, Repr

/-- A matrix engine (R127, R129, R145). -/
structure Engine where
  active : Word := 0
  shadow : Word := 0
  /-- the pipeline cycle of the last `mdrain`, and the active configuration before it: what `csrr` reads on that cycle (R34, R317) -/
  was : Option (Nat × Word) := none
  queue : List MEntry := []
  pri : Vector (BitVec 2) 4 := Vector.replicate 4 0
  passed : Vector Nat 4 := Vector.replicate 4 0
  /-- the order number of the instruction whose unit runs, and the pipeline cycle on which the unit ends -/
  running : Option (Nat × Nat) := none
  next : Nat := 0
deriving DecidableEq, Repr

/-- A named barrier (R298); the releases counted in this phase and in the last completed one (R167, R189). -/
structure Barrier where
  count : BitVec 16 := 0
  arr : BitVec 16 := 0
  ph : Bool := false
  poison : Bool := false
  now : List Heard := []
  last : List Heard := []
deriving DecidableEq, Repr

/-- What a chain does: an ordinary chain or the operation of a `snap` (R364). -/
inductive ChainKind where
  | chain
  | snap (base len : Nat) (slot op : Nat)
deriving DecidableEq, Repr

/-- What a chain held before the unit under way: put back where the unit is done again (R228, R273). -/
structure Undo where
  sr : Vector (BitVec 32) 256
  draws : Nat
  fl : Fl
  ahead : List Byte
deriving DecidableEq, Repr

/-- A chain issued to the quill, with its latched values and progress (R215, R216, R228). -/
structure Chain where
  ctx : Nat
  entry : Nat
  seq : BitVec 16
  queue : Nat
  kind : ChainKind := .chain
  head : Nat
  off : Nat
  elem : Nat := 0
  bf : Vector Word 16
  race : Word
  sat8 : Bool
  sr : Vector (BitVec 32) 256
  draws : Nat := 0
  level : Level
  part : Option Nat
  ident : Nat
  issue : Nat
  rel : Option (BitVec 4)
  land : Bool := false
  /-- writes of a `cpy.land` held back until the landing: address key and byte -/
  held : List (Nat × Byte) := []
  loops : List (Nat × Nat) := []
  /-- registers of other cores' banks that the current entry has touched: core × 16 + bank (R77) -/
  banks : List (Nat × Word) := []
  skip : Nat := 0
  /-- cycles a WAITFLAG has left before its TIMEOUT -/
  timer : Option Nat := none
  /-- writes, contributions and arrivals sent and not yet acknowledged -/
  acks : Nat := 0
  /-- elements of the unit under way: they count once every message of it is answered -/
  unit : Nat := 0
  /-- waiting for the old value of a fetching element, and that value (R223) -/
  wait : Bool := false
  got : Option Nat := none
  /-- a code carried back by a refusal: CODE and DETAIL -/
  bad : Option (Nat × Nat) := none
  /-- the chain is over, its landing still to come (R217): CODE and DETAIL -/
  final : Option (Nat × Nat) := none
  /-- the bytes of a `cpy.land` have landed (R217) -/
  landed : Bool := false
  /-- bytes of the last aligned 8-byte piece of the source that have been read with the unit before (R164) -/
  ahead : List Byte := []
  /-- for a unit whose messages are not all answered; for a `cpy.land`: its beginning -/
  undo : Option Undo := none
  /-- a `snap` has begun (R364) -/
  begun : Bool := false
  stopped : Bool := false
  /-- reason of a stop (R381) -/
  reason : Nat := 0
  fl : Fl := 0
deriving DecidableEq, Repr

/-- The state of one core that pre-emption saves and restores (R15). -/
structure CoreData where
  ctxs : Vector Ctx 4 := Vector.replicate 4 {}
  bf : Vector Word 16 := Vector.replicate 16 0
  eng : Vector Engine 2 := Vector.replicate 2 {}
  /-- tile elements by engine × 65,536 + tile × 8,192 + row × 128 + column; an absent one is +0 (R127) -/
  tiles : NMap (BitVec 32) := []
  /-- 8-byte units of the accumulator store that hold an uncorrectable code: element number / 2 (R377) -/
  badTiles : List Nat := []
  barriers : Vector Barrier 32 := Vector.replicate 32 {}
  chains : List Chain := []
  gatherLast : Nat := 0
deriving DecidableEq, Repr

/-- The pre-emption states of a core (R270). -/
inductive Swap where
  | running
  | stopping
  | saving (slot : Nat)
  /-- the core's state is in an image; the core holds nothing -/
  | parked
  | restoring (slot : Nat)
deriving DecidableEq, Repr

/-- Where an image stands (R270). -/
inductive Place where
  | shadow
  | evicting
  | saveArea
  /-- the state has been read into a core or discarded; its place waits for the writes in flight to it (R274) -/
  | draining
deriving DecidableEq, Repr

/-- A release that the value at some bytes carries: first byte's key, length, agent and scope (R167, R189). -/
structure RelMark where
  key : Nat
  len : Nat
  agent : CtxId
  quill : Bool
  scope : Nat
deriving DecidableEq, Repr

/-- A saved core: the data of R15, its scratchpad bytes, its drain counter (R274) and the core it came from. -/
structure Image where
  place : Place
  core : Nat
  epoch : Nat
  data : CoreData
  spad : NMap Byte
  drain : Nat
  /-- for a place that drains: the owner epoch of the state now, to which its writes go; none: discarded (R274) -/
  heir : Option Nat := none
  /-- uncorrectable units and carried releases of its scratchpad, by offset (R167, R377) -/
  bad : List (Nat × Nat) := []
  rels : List RelMark := []
  /-- the release counts and horizons of its contexts (R191): local agent, RC, H, PV -/
  race : List (Nat × Nat × List Nat × List Nat)
deriving DecidableEq, Repr

/-- A core (R9, R251, R270). -/
structure Core where
  live : CoreData := {}
  primary : Option Nat := none
  /-- the context that yielded on the last issue (R309) -/
  yielded : Option Nat := none
  pcyc : Nat := 0
  /-- the landings that freeze the core: context and entry (R206) -/
  freeze : List (Nat × Nat) := []
  swap : Swap := .running
  /-- the owner epoch of the scratchpad (R274) -/
  epoch : Nat := 0
  quillTurn : Nat := 0
  /-- a device-level halt of the core (R377) -/
  stopped : Bool := false
deriving DecidableEq, Repr

/-- A bay's race-detection tag store (R189); absent keys are "none" and 0. -/
structure Race where
  tags : NMap (Nat × Nat) := []
  rc : NMap Nat := []
  h : NMap Nat := []
  pv : NMap Nat := []
deriving DecidableEq, Repr

/-- The unit that holds a location (R163), and the switch die for its own traffic. -/
inductive Home where
  | field (pid f : Nat)
  | hbm (pid : Nat)
  | host (pid port : Nat)
  | die (pid : Nat)
deriving DecidableEq, Repr

/-- The kind of an access for the checks of R338 and R346. -/
inductive AccKind where
  | read | write | rmw | group | fetch
deriving DecidableEq, Repr

/-- Where a message's access goes: a physical address, or a target exposure still to be checked (R346). -/
inductive Dest where
  | phys (pid pa : Nat)
  | exposure (tpid tpart texp off : Nat)
deriving DecidableEq, Repr

/-- Who sent an operation (R393): place, image identity, partition, level, in-flight entry, and for a chain its
queue with the entry offset and element index that complete the tag. -/
structure Src where
  id : CtxId
  ident : Nat
  part : Option Nat
  level : Level
  entry : Nat
  seq : BitVec 16
  tag : Word
  issue : Nat
  /-- the KIND of the entry (R408) -/
  kind : Nat := 0
  chain : Bool := false
  off : Nat := 0
  elem : Nat := 0
  /-- resumptions of the context before it was sent (R272) -/
  gen : Nat := 0
deriving DecidableEq, Repr

/-- How an operation ended at its home (R208, R210, R219, R399). -/
inductive Result where
  | ok
  | refused (origin : Nat)
  /-- a chain's CODE and DETAIL -/
  | code (c d : Nat)
deriving DecidableEq, Repr

/-- The read-modify-write operations of R223. -/
inductive AccOp where
  | add | min | max | and | or | xor | swap | fetchAdd | cas
deriving DecidableEq, Repr

/-- What a message carries. -/
inductive Body where
  /-- a posted store or a plain chain write (R208, R222) -/
  | store (d : Dest) (bytes : List Byte) (rel : Option (BitVec 4))
  /-- a group store or GSTORE unit (R209, R227); `need`: the bytes of its unit at that home -/
  | group (d : Dest) (bytes : List Byte) (group epoch need : Nat) (rel : Option (BitVec 4))
  /-- one ACCUM element or a SIGNAL (R223, R227): operation, TYPE, element size, comparand and operand -/
  | accum (d : Dest) (op : AccOp) (fmt z : Nat) (cmp val : Nat) (rel : Option (BitVec 4))
  /-- the signal of `flsig` (R175) -/
  | flsig (d : Dest) (bytes : List Byte) (scope : BitVec 4)
  /-- a landing's read of `n` bytes, the bytes `off` on of its 256 (R204) -/
  | load (d : Dest) (off n : Nat)
  /-- a flush probe (R213); the entry 64 + m of its source marks a probe of the hoop in register m (R257) -/
  | probe
  /-- the answer to an operation -/
  | resp (r : Result) (old : Option Nat)
  /-- `cmb.open` (R230): its descriptor, and whether its opener may write RESULT (R233) -/
  | cmbOpen (desc : List Byte) (mayWrite : Bool)
  /-- a contribution (R224) -/
  | contrib (handle : Word) (rank : Nat) (ret : Word) (bytes : List Byte)
  /-- a delivery record for a partition's address (R233) -/
  | deliver (pid part va : Nat) (bytes : List Byte) (dsc : BitVec 4)
  /-- `cmb.close` of a handle (R234) -/
  | cmbClose (handle : Word)
  /-- MCAST to a group (R225) -/
  | mcast (group : Nat) (off : Nat) (bytes : List Byte)
  /-- an arrival at a named barrier (R226); `exp` is the exposure of a named one -/
  | arrive (pid core bar : Nat) (exp : Option Nat) (scope : BitVec 4)
  /-- a hoop arrival by a membership register, marked leaving or not, and a join (R257, R303) -/
  | hoopArrive (reg : Nat) (leave : Bool)
  | hoopJoin (lev unit part hid nmem reg : Nat)
  | hoopRefuse (reg reason : Nat)
  /-- a seal, a decision and their answers (R239) -/
  | sealMsg (commit : Nat) (cpid : Nat) (group epoch count : Nat) (decw : Nat) (tmo : Nat)
  | sealed (commit : Nat) (home : Nat) (ok : Option (Nat))
  | decision (commit : Nat) (cpid : Nat) (group epoch : Nat) (commitIt : Bool)
  | decided (commit : Nat) (home : Nat)
  /-- a host write or read refused or done: nothing is returned to a context -/
  | successor (inst : Nat)
deriving DecidableEq, Repr

/-- A message in the fabric. -/
structure Msg where
  src : Src
  chan : Nat
  dst : Home
  /-- for a home of a commit: its index; for a piece of an access: the bytes of the access before it -/
  idx : Nat := 0
  body : Body
  /-- ACKT of the source's channel when it was sent (R394) -/
  ackt : BitVec 16 := 0
  /-- the owner epoch of the scratchpad it is bound for (R274) -/
  epoch : Nat := 0
  /-- refused with RETRY: resent after at least 1 µs (R395), of which `left` cycles are still to pass -/
  retry : Bool := false
  left : Nat := 0
  /-- a discard that was held for an unreachable home: it goes before any other traffic to it (R415) -/
  first : Bool := false
  /-- the partition of the home's package and the virtual address through which its access was translated (R360) -/
  via : Option (Nat × Nat) := none
deriving DecidableEq, Repr

/-- A group's record at one home (R183, R210, R279). -/
inductive GState where
  | opened | sealed | published | discarded
deriving DecidableEq, Repr

/-- One staged write unit: the operation that stages it and the bytes it has at this home in all, who staged it, the charged field and
its bytes so far by memory key. -/
structure WriteUnit where
  op : Tag
  need : Nat
  ident : Nat
  field : Nat
  part : Nat
  cells : List (Nat × Byte)
  /-- the release its bytes carry once published: agent and scope (R167) -/
  rel : Option (CtxId × Nat) := none
  /-- the keys of its staged 8-byte units that are uncorrectable (R377) -/
  bad : List Nat := []
  /-- the issue number of the bundle that staged it, and the virtual addresses through which its pieces were translated (R360) -/
  issue : Nat := 0
  vias : List (Nat × Nat) := []
deriving DecidableEq, Repr

/-- A seal waiting at a home (R239). -/
structure SealReq where
  cpid : Nat
  commit : Nat
  idx : Nat
  count : Nat
  decw : Nat
  left : Nat
  tmo : Nat
  /-- as the commit's (R360) -/
  via : Option (Nat × Nat) := none
deriving DecidableEq, Repr

/-- A home's record of a group number. -/
structure GroupRec where
  state : GState
  epoch : Nat
  part : Nat
  units : List WriteUnit
  failed : Bool := false
  sealReq : Option SealReq := none
  /-- the decision timer of R399 and the unreachable attempts in a row -/
  left : Nat := 0
  attempts : Nat := 0
  undecided : Bool := false
deriving DecidableEq, Repr

/-- A home's standing in a commit. -/
inductive CHome where
  | waiting | sealed | failed (code : Nat) | acked
deriving DecidableEq, Repr

/-- The states of a commit's coordinator (R278). -/
inductive CState where
  | sealing
  /-- the decision to be written, while the compare-and-swap on DECW has not completed -/
  | deciding (commitIt : Bool)
  | publishing | discarding
deriving DecidableEq, Repr

/-- A commit or abort under way (R237 to R240, R278). -/
structure Commit where
  id : Nat
  abort : Bool
  src : Src
  decw : Nat
  group : Nat
  epoch : Nat
  sealtmo : Nat
  homes : List (Home × Nat × CHome)
  state : CState
  code : Nat
  detail : Nat
  left : Nat
  /-- the partition and virtual address through which DECW was translated (R360) -/
  via : Option (Nat × Nat) := none
deriving DecidableEq, Repr

/-- A contribution applied to a combiner entry: rank, cycle of its arrival, return address and partition, elements raw. -/
structure Contrib where
  rank : Nat
  cycle : Nat
  ret : Word
  pid : Nat
  part : Option Nat
  bytes : List Byte
deriving DecidableEq, Repr

/-- An open combiner entry (R150, R230, R280). -/
structure Comb where
  key : BitVec 16
  ctrl : BitVec 32
  part : Option Nat
  pid : Nat
  result : Word
  dsc : BitVec 4
  /-- cycles left on the timer; none: no timer -/
  left : Option Nat
  applied : List Contrib
  rankErr : Bool := false
  fmtErr : Bool := false
  /-- DELIVERING: the records still to be written (R280) -/
  owed : Option Nat := none
  /-- opened at device level: RESULT is a physical address of the opener's package (R21) -/
  device : Bool := false
deriving DecidableEq, Repr

/-- A member of a hoop: image identity, place and membership register. -/
structure HMember where
  ident : Nat
  id : CtxId
  reg : Nat
  arrived : Bool := false
  leave : Bool := false
deriving DecidableEq, Repr

/-- A hoop at its home (R255 to R258, R303). -/
structure Hoop where
  /-- LEVEL, the home unit's number in the package, the charged partition and HID name it -/
  level : Nat
  unit : Nat
  part : Nat
  hid : Nat
  forming : Bool
  nmem : Nat
  members : List HMember
  pending : List HMember
  ph : Bool
  seq : Nat
  flushing : Bool
deriving DecidableEq, Repr

/-- A collective at one rank (R235, R236). -/
structure Coll where
  id : Nat
  src : Src
  queue : Nat
  field : Nat
  desc : List Byte
  /-- rank words: package and field of each rank -/
  ranks : List Nat
  /-- the number of the collective that the engines' comparison has made of it -/
  group : Option Nat := none
  chunk : Nat := 0
  partialAt : Option Nat := none
  /-- cycles left on the timer of the chunk in hand; none: not started -/
  left : Option Nat := none
  /-- CODE and DETAIL once it is over at this rank -/
  done : Option (Nat × Nat) := none
  /-- combiner entries that the chunk in hand holds (R236) -/
  combs : Nat := 0
  /-- the chunk in hand has all its ranks' elements, or its timer has run: the elements it delivers, by rank (R155, R280) -/
  cut : Option (List (Nat × List Byte)) := none
  /-- when its last chunk was moved, as an order number (R236, R282) -/
  served : Nat := 0
deriving DecidableEq, Repr

/-- Histogram work (R312, R313); `rel`: the release of its last write (R167, R178). -/
structure Hist where
  id : Nat
  src : Src
  desc : List Byte
  rel : Option (BitVec 4) := none
deriving DecidableEq, Repr

/-- The states of a node instance (R264). -/
inductive IState where
  | blocked | ready | held | placing | running | parked | done | failed
deriving DecidableEq, Repr

/-- A node instance (R264, R391). -/
structure Inst where
  id : Nat
  part : Nat
  replay : Nat
  node : Nat
  field : Nat
  state : IState
  preds : Nat
  level : Nat
  /-- when it entered its level: order number, and CYCLE then -/
  order : Nat
  since : Nat
  cores : List Nat
  ctxMask : Nat
  /-- PRI of its descriptor, when it was last placed (R265) -/
  pri : Nat := 0
  /-- the identities of its contexts, and the order number of its last placing -/
  idents : List Nat := []
  placedAt : Nat := 0
  /-- its rollback slot (R340, R389) -/
  slot : Option Nat
  kills : Nat
  externMark : Bool
  placed : Bool
  /-- matrix-operand bytes its engines have read, and HBM bytes it has read and written (R266) -/
  mat : Nat := 0
  hbm : Nat := 0
  /-- the device status with which it is to be killed (R388, R390) -/
  dying : Option Nat := none
deriving DecidableEq, Repr

/-- A replay under way (R261). -/
structure GReplay where
  part : Nat
  no : Nat
deriving DecidableEq, Repr

/-- The states of a snapshot slot (R361) and its range. -/
inductive SState where
  | free | taking | held | ending
deriving DecidableEq, Repr
structure SnapSlot where
  state : SState
  base : Nat
  len : Nat
deriving DecidableEq, Repr

/-- A partition: control block, resource block, the translation hardware's window table, snapshot slots, histogram
latches and the launch data of its graph (R261, R263, R331 to R333, R345, R361). -/
structure Part where
  block : List Byte
  quota : List Byte
  /-- bytes of each of its vaults that hold partition data: the rest is reserved (R15) -/
  data : Nat := 0x4000000
  wins : NMap (List Byte)
  slots : NMap SnapSlot
  latches : NMap (BitVec 32)
  header : Option Word
  requested : Nat
  started : Nat
  /-- the classifier: by node, the two counts of its last 8 completed instances (R266) -/
  meters : NMap (List (Nat × Nat)) := []
deriving DecidableEq, Repr

/-- A voltage island: its step, and whether it is forced by heat or halted (R16, R30). -/
structure Island where
  step : Nat := 0
  forced : Bool := false
  halted : Bool := false
deriving DecidableEq, Repr

/-- A fabric port (R350). -/
structure Port where
  locked : Bool := false
  tagFails : Nat := 0
  keys : Nat := 0
  /-- partitions with traffic on the port at the moment of locking -/
  traffic : List Nat := []
deriving DecidableEq, Repr

/-- A field: salt, halt, loss, suppression cache (R394, R397, R400, R401). -/
structure Field where
  salt : BitVec 12 := 0
  draws : Nat := 0
  halted : Bool := false
  lost : Bool := false
  cache : List (Tag × Result × Option Nat) := []
  /-- the communicator queue that the field's collective engine served last (R236, R282) -/
  collTurn : Nat := 7
deriving DecidableEq, Repr

/-- An MSI-X table entry (R367); PCIe resets its mask bit to 1 (log entry 19). -/
structure Msix where
  masked : Bool := true
  pending : Bool := false
  sent : Nat := 0
deriving DecidableEq, Repr

/-- A cached translation (R339): partition, page base and size, the entry's key and its 128 bits. -/
structure TlbEntry where
  part : Nat
  base : Nat
  size : Nat
  key : Nat
  word : BitVec 128
deriving DecidableEq, Repr

/-- A record that waits to be posted to a queue with a sealed line (R183, R335, R336). -/
structure Post where
  part : Nat
  kind : Nat
  addr : Nat
  detail : Nat
  agent : Nat
deriving DecidableEq, Repr

/-- A write that waits on BLK (R344): context (or host, none), channel (a context's own access: 16), partition, page and cycles
left. -/
structure Blocked where
  id : Option CtxId
  chan : Nat := 16
  part : Nat
  va : Nat
  left : Nat
  expired : Bool
deriving DecidableEq, Repr

/-- Events counted or signalled at device level (R20, R272, R346, R350, R353, R377, R397). -/
inductive DevEvent where
  | managementVector (id : CtxId)
  | portLocked (port : Nat)
  | islandHalted (island : Nat)
  | registerError (core : Nat)
  | fieldLost (field : Nat)
  | blockRefused (part : Nat)
  | quotaRefused (part : Nat)
  | bringUpFailed
deriving DecidableEq, Repr

/-- A package (R6). -/
structure Pkg where
  up : Bool := false
  flatMesh : Bool := false
  slotsPerCore : Nat := 2
  cycle : Word := 0
  accept : Vector Word 4 := Vector.replicate 4 0
  features : Word := 0
  erlStatus : Word := 0
  parts : NMap Part := []
  /-- resource blocks by partition (R333) -/
  quotas : NMap (List Byte) := []
  /-- plain words of the device control space, by offset / 8; `part.int` payload words among them -/
  ctl : NMap Word := []
  msix : NMap Msix := []
  combs : NMap Comb := []
  keyDraws : Nat := 0
  dieCache : List (Tag × Result × Option Nat) := []
  commits : List Commit := []
  /-- decision words in which a `gabort` has taken part: address, GROUP and EPOCH (R240) -/
  aborts : List (Nat × Nat × Nat) := []
  /-- discards held for an unreachable home (R415) -/
  heldDiscards : List Msg := []
  groups : NMap GroupRec := []
  mcast : NMap (List McMember) := []
  ports : NMap Port := []
  hoops : List Hoop := []
  fields : NMap Field := []
  islands : NMap Island := []
  insts : List Inst := []
  replays : List GReplay := []
  colls : List Coll := []
  hists : List Hist := []
  tlb : List TlbEntry := []
  blocked : List Blocked := []
  posts : List Post := []
  /-- counted refusals and discards by number (R272, R346, R353, R377, R397) -/
  counters : NMap Nat := []
  events : List DevEvent := []
  images : NMap Image := []
  /-- the data of the last host read that completed; none: a write, or Completer Abort (R353) -/
  hostData : Option (List Byte) := none
  /-- what the debug port last read (R22) -/
  debugData : BitVec 32 := 0
  race : NMap Race := []
deriving DecidableEq, Repr

/-- The bundle in hand: whose it is, its address, length, slot, issue number, and the iteration it runs in. -/
structure Cur where
  id : CtxId
  addr : Word
  len : Nat
  slot : Slot
  issue : Nat
deriving DecidableEq, Repr

/-- A bundle chosen by the issue stage whose checks have passed: its slots, its place in a replay, and what R385
counts. -/
structure Chosen where
  id : CtxId
  addr : Word
  bytes : List Byte
  len : Nat
  slots : List (Slot × Slotted)
  /-- it stands in a sequencer replay (R293) -/
  replay : Bool := false
deriving DecidableEq, Repr

/-- What the slots of the bundle in hand tell the issue stage. -/
structure Latch where
  chosen : List Chosen := []
  /-- a precise trap raised by a slot: cause and TVAL -/
  trap : Option (Nat × Word) := none
  /-- the bundle waits (R418) -/
  hold : Bool := false
  /-- the waiting slot's own effect is kept: a hoop message, or a long instruction's progress (R418) -/
  keep : Bool := false
  /-- a performed slot is blocking for the stroke rules (R385) -/
  blocking : Bool := false
  /-- the halt of `halt` and `gnode.done`, applied after the bundle (R310) -/
  halt : Bool := false
  /-- `loop.brk` was performed (R293) -/
  brk : Bool := false
  /-- `stk.end` was performed (R387) -/
  stkEnd : Bool := false
  /-- the wait of the slot is over: its bundle takes effect (R418) -/
  passed : Bool := false
  /-- the slot waits on its translation: its cycles are frozen ones (R195) -/
  frozen : Bool := false
  /-- bytes that a near posted store of this bundle has overwritten: `loop.cfg` does not see it (R291) -/
  hidden : List (Nat × Byte) := []
  /-- the word that an `ifr.rd` of the bundle reads, as it stood when the bundle issued (R409) -/
  record : Option Word := none
deriving DecidableEq, Repr

/-- The whole machine. -/
structure State where
  /-- cores by package × 1,024 + core; an absent core stands at its reset value -/
  cores : NMap Core
  /-- packages by PID; an absent package stands at its reset value -/
  pkgs : NMap Pkg
  /-- memory by package × 2^52 + device physical address (R23); an unlisted byte reads 0 (log entry 3) -/
  mem : List Host.Cell
  /-- units that hold an uncorrectable code: key of the first byte and size (R377) -/
  bad : List (Nat × Nat)
  rels : List RelMark
  net : List Msg
  cur : Cur
  latch : Latch
  /-- who moves next (log entry 1) -/
  agenda : List Instr
  /-- where the running long instruction stops of itself: units before a stop (log entry 1) -/
  longLimit : Option Nat
  /-- landing buffers of a core; none: never one too few (R205; log entry 60) -/
  landRoom : Option Nat
  /-- how many free values have been taken (log entry 4) -/
  fresh : Nat
  /-- device steps so far (R16; log entry 98) -/
  ticks : Nat
  /-- where a cycle stands: 0 at its beginning, 1 before the arrivals of cores' own quills at their barriers, 2 before all others (R300) -/
  phase : Nat
deriving DecidableEq, Repr

/-- Why a step stops. -/
inductive Fault where
  /-- Raised by `step` alone, when the agenda (the model's own schedule) holds a slot operation: only events move of
  themselves, a slot operation runs in its bundle. Safe: the hardware has no such step. -/
  | slotOutsideBundle
deriving DecidableEq, Repr

/-- Why a meaning is refused. -/
inductive Refusal where
  /-- Raised by an arm of `exec` whose instruction has no meaning yet. Safe. -/
  | notModelled (mnemonic : String)
deriving DecidableEq, Repr

/-- The outcome of a meaning. -/
abbrev Out := Host.Outcome State Fault Refusal

/-- The machine right after reset: nothing listed anywhere, so every package, core and context stands at its reset
value (R29); no package is brought up yet (R28) and nothing is scheduled. -/
def State.reset : State where
  cores := []
  pkgs := []
  mem := []
  bad := []
  rels := []
  net := []
  cur := { id := ⟨0, 0, 0⟩, addr := 0, len := 0, slot := .a, issue := 0 }
  latch := {}
  agenda := []
  longLimit := none
  landRoom := none
  fresh := 0
  ticks := 0
  phase := 0

end Sys2Proof.Machine
end

