-- ==== Sys2Proof/Machine/Ops.lean ====
section
/-! DEFINITION. The named operations over cores, contexts, registers, memory and the in-flight record; taking a trap
and returning from one. -/

namespace Sys2Proof.Machine

/-! ### Cores, contexts, packages -/

/-- The key of a core: package × 1,024 + global core number (R7). -/
def coreKey (pid core : Nat) : Nat := pid * 1024 + core

/-- The number of a context's place in the domain. -/
def placeOf (id : CtxId) : Nat := coreKey id.pid id.core * 4 + id.ctx % 4

/-- The field, bay in package, and bay in field of a core (R7). -/
def fieldOf (core : Nat) : Nat := core / 128
/-- The bay's number in the package, 0 to 127. -/
def bayOf (core : Nat) : Nat := core / 8

def State.core (s : State) (pid core : Nat) : Core := (s.cores.get (coreKey pid core)).getD {}
def State.setCore (s : State) (pid core : Nat) (c : Core) : State :=
  { s with cores := s.cores.put (coreKey pid core) (some c) }
def State.updCore (s : State) (pid core : Nat) (f : Core → Core) : State :=
  s.setCore pid core (f (s.core pid core))

def State.pkg (s : State) (pid : Nat) : Pkg := (s.pkgs.get pid).getD {}
def State.setPkg (s : State) (pid : Nat) (p : Pkg) : State := { s with pkgs := s.pkgs.put pid (some p) }
def State.updPkg (s : State) (pid : Nat) (f : Pkg → Pkg) : State := s.setPkg pid (f (s.pkg pid))

/-- A context of a core's state. -/
def CoreData.ctx (d : CoreData) (n : Nat) : Ctx := d.ctxs[n % 4]'(Nat.mod_lt _ (by decide))
def CoreData.setCtx (d : CoreData) (n : Nat) (c : Ctx) : CoreData :=
  { d with ctxs := d.ctxs.set (n % 4) c (Nat.mod_lt _ (by decide)) }

def State.ctx (s : State) (id : CtxId) : Ctx := (s.core id.pid id.core).live.ctx id.ctx
def State.setCtx (s : State) (id : CtxId) (c : Ctx) : State :=
  s.updCore id.pid id.core (fun k => { k with live := k.live.setCtx id.ctx c })
def State.updCtx (s : State) (id : CtxId) (f : Ctx → Ctx) : State := s.setCtx id (f (s.ctx id))

/-- The context whose slot is in hand. -/
def State.me (s : State) : Ctx := s.ctx s.cur.id
def State.updMe (s : State) (f : Ctx → Ctx) : State := s.updCtx s.cur.id f
/-- Its core. -/
def State.myCore (s : State) : Core := s.core s.cur.id.pid s.cur.id.core
def State.updMyCore (s : State) (f : Core → Core) : State := s.updCore s.cur.id.pid s.cur.id.core f
def State.updLive (s : State) (pid core : Nat) (f : CoreData → CoreData) : State :=
  s.updCore pid core (fun k => { k with live := f k.live })

/-- A context's image identity (R306). -/
def State.identOf (s : State) (id : CtxId) : Nat := (s.ctx id).ident.getD (placeOf id)

def Pkg.field (p : Pkg) (f : Nat) : Field := (p.fields.get f).getD {}
def Pkg.island (p : Pkg) (i : Nat) : Island := (p.islands.get i).getD {}
def Pkg.port (p : Pkg) (i : Nat) : Port := (p.ports.get i).getD {}
def State.updField (s : State) (pid f : Nat) (g : Field → Field) : State :=
  s.updPkg pid (fun p => { p with fields := p.fields.put f (some (g (p.field f))) })

/-- Adds one to a device-level counter (R272, R346, R350, R353, R377, R397). -/
def State.count (s : State) (pid n : Nat) : State :=
  s.updPkg pid (fun p => { p with counters := p.counters.put n (some ((p.counters.get n).getD 0 + 1)) })
/-- Raises a device-level event. -/
def State.event (s : State) (pid : Nat) (e : DevEvent) : State :=
  s.updPkg pid (fun p => { p with events := p.events ++ [e] })

/-- Takes a free value's number. -/
def State.bump (s : State) : State := { s with fresh := s.fresh + 1 }

/-- Bits of a control-structure field: `n` bytes from byte `lo`, little-endian (R2). -/
def bytesAt (bs : List Byte) (lo n : Nat) : Nat := leNat ((bs.drop lo).take n)
/-- Bits `hi:lo` of a number. -/
def bitsNat (x lo n : Nat) : Nat := (x >>> lo) % 2 ^ n

/-- Least of a list of byte numbers. -/
def leastByte (bs : List (Bool × Nat)) : Option Nat :=
  (bs.filter (fun b => b.1)).foldl (fun (m : Option Nat) b => match m with
    | none => some b.2
    | some x => if b.2 < x then some b.2 else m) none

/-! ### Partitions -/

def State.part (s : State) (pid p : Nat) : Option Part := (s.pkg pid).parts.get p
def State.updPart (s : State) (pid p : Nat) (f : Part → Part) : State :=
  s.updPkg pid (fun k => match k.parts.get p with
    | some x => { k with parts := k.parts.put p (some (f x)) }
    | none => k)

/-- Whether a partition's BAYS mask names a bay (R332). -/
def Part.hasBay (x : Part) (bay : Nat) : Bool := (bytesAt x.block 0 16).testBit bay

/-- The partition that owns a core's bay (R331). -/
def State.partOfCore (s : State) (pid core : Nat) : Option Nat :=
  ((s.pkg pid).parts.find? (fun x => x.2.hasBay (bayOf core))).map (·.1)

/-- `CTXID` (R7). Of a context whose bay belongs to no partition PART reads 0 (DESIGN CHOICE, log entry 99: no statement rests on it). -/
def State.ctxid (s : State) (id : CtxId) : Word :=
  BitVec.ofNat 64 ((((s.partOfCore id.pid id.core).getD 0) <<< 22) + (id.pid <<< 12) + id.core * 4 + id.ctx % 4)

/-! ### Registers (R41) -/

def Ctx.rg (c : Ctx) (r : GNum) : Word := if r = 0 then 0 else c.g[r.toNat]'r.isLt
def Ctx.ra (c : Ctx) (r : ANum) : Word := c.a[r.toNat]'r.isLt
def Ctx.rp (c : Ctx) (r : PNum) : Bool := r = 7 || c.p.getLsbD r.toNat
def Ctx.rv (c : Ctx) (r : VNum) : VReg := c.v[r.toNat]'r.isLt
def Ctx.rk (c : Ctx) (r : KNum) : Word := if r = 0 then BitVec.allOnes 64 else c.k[r.toNat]'r.isLt

/-- A register of the context in hand, as it stands at issue (R34). -/
def State.rg (s : State) (r : GNum) : Word := s.me.rg r
def State.ra (s : State) (r : ANum) : Word := s.me.ra r
def State.rp (s : State) (r : PNum) : Bool := s.me.rp r
def State.rv (s : State) (r : VNum) : VReg := s.me.rv r
def State.rk (s : State) (r : KNum) : Word := s.me.rk r

/-- R90: flags recorded in a sticky record and in `FCSR.FLAGS` (R87). -/
def Ctx.record (c : Ctx) (r : Rec) (f : Fl) (addr : Word) (issue : Nat) : Ctx :=
  let old := c.xr[r.idx]
  let first := old.extractLsb' 57 7 = 0
  let take := first || issue < c.xrIssue[r.idx]
  let ad : BitVec 57 := if take then addr.extractLsb' 0 57 else old.extractLsb' 0 57
  { c with
    xr := c.xr.set r.idx ((old.extractLsb' 57 7 ||| f) ++ ad)
    xrIssue := if take then c.xrIssue.set r.idx issue else c.xrIssue
    fcsr := c.fcsr ||| f.setWidth 64
    flagged := c.flagged ++ [(r, f, addr, issue)] }

/-- A completed write reaches its register (R34, R39, R41). -/
def Ctx.land (c : Ctx) (t : Target) : Ctx :=
  match t with
  | .g r x => if r = 0 then c else { c with g := c.g.set r.toNat x r.isLt }
  | .a r x => { c with a := c.a.set r.toNat x r.isLt }
  | .p r x => if r = 7 then c else
      { c with p := if x then c.p ||| ((1 : BitVec 8) <<< r.toNat) else c.p &&& ~~~((1 : BitVec 8) <<< r.toNat) }
  | .v r x m => { c with v := c.v.set r.toNat ((x &&& m) ||| (c.rv r &&& ~~~m)) r.isLt }
  | .k r x m => if r = 0 then c else { c with k := c.k.set r.toNat ((x &&& m) ||| (c.rk r &&& ~~~m)) r.isLt }
  | .flags r f addr i => c.record r f addr i

/-- Queues a write behind those due no later (R40: the later completion stands, then the later issue). -/
def insertPend (x : Pend) : List Pend → List Pend
  | [] => [x]
  | y :: ys => if y.due ≤ x.due then y :: insertPend x ys else x :: y :: ys

/-- The writes due by a pipeline cycle, and the rest. -/
def splitDue (now : Nat) : List Pend → List Pend × List Pend
  | [] => ([], [])
  | y :: ys => if y.due ≤ now then let (a, b) := splitDue now ys; (y :: a, b) else ([], y :: ys)

/-- Lands the writes due by a pipeline cycle (R39). -/
def Ctx.landDue (c : Ctx) (now : Nat) : Ctx :=
  let (a, b) := splitDue now c.pend
  a.foldl (fun c x => c.land x.tgt) { c with pend := b }

/-- Completes every fixed-latency operation (R40, R125). -/
def Ctx.drain (c : Ctx) : Ctx := c.pend.foldl (fun c x => c.land x.tgt) { c with pend := [] }

/-- A write with latency `lat` by the slot in hand (R39). -/
def State.pend (s : State) (lat : Nat) (t : Target) : State :=
  s.updMe (fun c => { c with pend := insertPend ⟨s.myCore.pcyc + lat, t, s.cur.issue⟩ c.pend })

/-- Writes to `g0` are discarded (R34). -/
def State.writeG (s : State) (lat : Nat) (r : GNum) (x : Word) : State := if r = 0 then s else s.pend lat (.g r x)
def State.writeA (s : State) (lat : Nat) (r : ANum) (x : Word) : State := s.pend lat (.a r x)
def State.writeP (s : State) (lat : Nat) (r : PNum) (x : Bool) : State := s.pend lat (.p r x)
def State.writeV (s : State) (lat : Nat) (r : VNum) (x mask : VReg) : State := s.pend lat (.v r x mask)
def State.writeK (s : State) (lat : Nat) (r : KNum) (x mask : Word) : State := s.pend lat (.k r x mask)

/-- The sticky record of the slot in hand (R89). -/
def slotRec : Slot → Rec
  | .a => .a | .b => .b | .v0 => .v0 | .v1 => .v1 | _ => .m

/-- Flags of a fixed-latency operation, recorded when its result is written (R90). -/
def State.flag (s : State) (lat : Nat) (f : Fl) : State :=
  if f = 0 then s else s.pend lat (.flags (slotRec s.cur.slot) f s.cur.addr s.cur.issue)

/-! ### Physical memory (R23) -/

/-- The key of a byte: package and device physical address. The host bytes behind each port of each package are memory of their own
(DESIGN CHOICE, log entry 99: R23 leaves to the host which of them are one memory). -/
def memKey (pid pa : Nat) : Nat := pid * 2 ^ 52 + pa % 2 ^ 52
def keyPid (k : Nat) : Nat := k / 2 ^ 52
def keyPa (k : Nat) : Nat := k % 2 ^ 52

def vaultBase : Nat := 0x10000000000
def spadBase : Nat := 0x20000000000
def ctlBase : Nat := 0x30000000000
def hostBase0 : Nat := 0x8000000000000
def hostBase1 : Nat := 0xC000000000000

/-- The regions of R23. -/
inductive Region where
  | hbm | vault | spad | ctl | host0 | host1
deriving DecidableEq, Repr

/-- The region of a physical address; none: no such address (R23). -/
def regionOf (pa : Nat) : Option Region :=
  if pa < Config.hbmBytes then some .hbm
  else if vaultBase ≤ pa ∧ pa < vaultBase + 0x200000000 then some .vault
  else if spadBase ≤ pa ∧ pa < spadBase + 0x40000000 then some .spad
  else if ctlBase ≤ pa ∧ pa < ctlBase + 0x100000000 then some .ctl
  else if hostBase0 ≤ pa ∧ pa < hostBase0 + 2 ^ 50 then some .host0
  else if hostBase1 ≤ pa ∧ pa < hostBase1 + 2 ^ 50 then some .host1
  else none

/-- The key of a scratchpad byte. -/
def spadKey (pid core off : Nat) : Nat := memKey pid (spadBase + core * 0x100000 + off % 0x100000)

/-- The home of a location (R163). -/
def homeOf (pid pa : Nat) : Home :=
  match regionOf pa with
  | some .vault => .field pid ((pa - vaultBase) / 0x40000000)
  | some .spad => .field pid (fieldOf ((pa - spadBase) / 0x100000))
  | some .host0 => .host pid 0
  | some .host1 => .host pid 1
  | some .ctl => .die pid
  | _ => .hbm pid

/-- A home as a number: package × 16 + unit. -/
def Home.code : Home → Nat
  | .field pid f => pid * 16 + f
  | .hbm pid => pid * 16 + 8
  | .host pid p => pid * 16 + 10 + p
  | .die pid => pid * 16 + 12
/-- The package of a home. -/
def Home.pid : Home → Nat
  | .field pid _ => pid
  | .hbm pid => pid
  | .host pid _ => pid
  | .die pid => pid

/-- What one byte of memory reads as; an unlisted byte reads 0 (log entry 3). -/
def State.readByte (s : State) (k : Nat) : Byte := (NMap.get s.mem k).getD 0
def readMem (m : List Host.Cell) : Nat → Nat → List Byte
  | 0, _ => []
  | n + 1, k => (NMap.get m k).getD 0 :: readMem m n (k + 1)
/-- `n` bytes from a key. -/
def State.readBytes (s : State) (k n : Nat) : List Byte := readMem s.mem n k
/-- `Mem(a, n)` of R5. -/
def State.readNat (s : State) (k n : Nat) : Nat := leNat (s.readBytes k n)

/-- Stores one byte, keeping the canonical form: 0 is what an unlisted byte reads as. -/
def putByte (m : List Host.Cell) (k : Nat) (b : Byte) : List Host.Cell := NMap.put m k (if b = 0 then none else some b)
def putBytes (m : List Host.Cell) : Nat → List Byte → List Host.Cell
  | _, [] => m
  | k, b :: bs => putBytes (putByte m k b) (k + 1) bs

/-- The canonical form of memory: addresses strictly rising, no entry equal to what an unlisted address reads as. -/
abbrev Memory.wf (m : List Host.Cell) : Prop := NMap.wf m = true ∧ m.all (fun c => c.2 != 0) = true

/-- Two byte ranges meet. -/
def meets (a la b lb : Nat) : Bool := a < b + lb && b < a + la

/-- Bytes written at a key: memory, the soft-error marks a whole-unit write clears (R377), and the releases that the
overwritten values carried (R167). -/
def State.writeBytes (s : State) (k : Nat) (bs : List Byte) : State :=
  { s with
    mem := putBytes s.mem k bs
    bad := s.bad.filter (fun u => !(k ≤ u.1 && u.1 + u.2 ≤ k + bs.length))
    rels := s.rels.filter (fun r => !meets r.key r.len k bs.length) }
def State.writeNat (s : State) (k n x : Nat) : State := s.writeBytes k (leBytes n x)

/-- The first uncorrectable unit a range touches (R377): the first 8-byte unit of it that the range affects. -/
def State.badAt (s : State) (k n : Nat) : Option Nat :=
  (s.bad.filter (fun u => meets u.1 u.2 k n)).foldl (fun (m : Option Nat) u =>
    let a := if u.1 < k then k / 8 * 8 else u.1
    some (match m with
      | none => a
      | some b => Nat.min a b)) none

/-- Bytes read by a context: each affected 8-byte unit reads as zero (R378). -/
def State.readData (s : State) (k n : Nat) : List Byte :=
  if s.badAt k n = none then s.readBytes k n
  else (List.range n).map (fun i => if (s.badAt ((k + i) / 8 * 8) 8).isSome then 0 else s.readByte (k + i))

/-! ### Consumed errors (R379) -/

/-- A consumed error becomes pending, or sets MORE; an earlier operation's error takes its place. -/
def Ctx.consume (c : Ctx) (e : CErr) : Ctx :=
  match c.err with
  | none => { c with err := some e }
  | some h => { c with err := some (if e.issue < h.issue then { e with more := true } else { h with more := true }) }

/-- A consumed error of ORIGIN 1 of the context in hand, if the range holds an uncorrectable unit (R378). -/
def State.consumeBad (s : State) (w : Bool) (va : Word) (k n : Nat) : State :=
  match s.badAt k n with
  | none => s
  | some u => s.updMe (fun c => c.consume
      { origin := 1, more := false, w := w, addr := va + BitVec.ofNat 64 (u - k), level := c.level, issue := s.cur.issue })

/-! ### Traps (R403 to R407) -/

/-- Trap codes (R403). -/
def causeIllegal : Nat := 1
def causePrivilege : Nat := 2
def causeStall : Nat := 3
def causeMemfault : Nat := 4
def causeMemerr : Nat := 5
def causeQfault : Nat := 6
def causeLate : Nat := 7
def causeRace : Nat := 8
def causeArith : Nat := 9
def causeMoperand : Nat := 10
def causeSysop : Nat := 11
def causeStroke : Nat := 12
def causePoison : Nat := 13
def causeHoop : Nat := 14
def causeUndecided : Nat := 15
def causeTrap : Nat := 16
def causeBrk : Nat := 17

/-- The level whose handler a trap enters (R20, R405). -/
def trapLevel (cause : Nat) (l : Level) : Level :=
  if cause = causeBrk then .device
  else match l with
    | .program => .partition
    | _ => .device

/-- A context's registers as a trap at bundle address `addr` leaves them (R405). -/
def Ctx.enter (c : Ctx) (cause : Nat) (tval addr : Word) : Ctx :=
  let c := { c.drain with efence := none, fence := none, inval := none, next := none }
  let cw : Word := BitVec.ofNat 64 (c.level.toNat * 256 + cause)
  match c.level with
  | .device => { c with halted := true, pc := addr, npc := addr, stall := 0 }
  | l => match trapLevel cause l with
    | .partition => { c with tepc := addr, tcause := cw, tval := tval, level := .partition, pc := c.tvec, npc := c.tvec,
                             stall := 0 }
    | _ => { c with dtepc := addr, dtcause := cw, dtval := tval, level := .device, pc := c.dtvec, npc := c.dtvec,
                    stall := 0 }

/-- Taking a trap at the bundle at `addr` (R405): fixed-latency work completes, the EPC, CAUSE and VAL CSRs are
written and the handler's level entered; at device level the context halts and the management vector is signalled
(R20). -/
def State.takeTrap (s : State) (id : CtxId) (cause : Nat) (tval addr : Word) : State :=
  let was := (s.ctx id).level
  let s := s.updCtx id (fun c => c.enter cause tval addr)
  if was = .device then s.event id.pid (.managementVector id) else s

/-- A precise trap of the slot in hand: taken at its bundle, and marked so that no slot of the bundle takes effect
(R35). -/
def State.raise (s : State) (cause : Nat) (tval : Word) : State :=
  let s := s.takeTrap s.cur.id cause tval s.cur.addr
  { s with latch := { s.latch with trap := some (cause, tval) } }

/-- The slot in hand waits: no slot of the bundle takes effect (R418). -/
def State.hold (s : State) : State := { s with latch := { s.latch with hold := true } }
/-- The slot in hand waits on its translation: frozen cycles (R39, R195). -/
def State.freeze (s : State) : State := { s with latch := { s.latch with hold := true, frozen := true } }
/-- Whether a waiting instruction goes on: its condition holds, or has ended the wait of its bundle (R418). -/
def State.over (s : State) (cond : Bool) : Bool := s.latch.passed || cond
/-- The slot waits, and what it did itself stands (R418's exceptions). -/
def State.holdKeep (s : State) : State := { s with latch := { s.latch with hold := true, keep := true } }
/-- The trap of the slot in hand, what the slot did before it kept (R335, R375). -/
def State.kept (s : State) : State := { s with latch := { s.latch with keep := true } }
/-- The slot is a blocking operation (R385). -/
def State.blocking (s : State) : State := { s with latch := { s.latch with blocking := true } }

/-- `TVAL` of R36. -/
def illegalTval (whole : Bool) (slot sub : Nat) : Word :=
  BitVec.ofNat 64 ((if whole then 2048 else slot * 256) + sub)
/-- `ILLEGAL` (`FIELD`) raised by the slot in hand. -/
def State.illegalField (s : State) : State := s.raise causeIllegal (illegalTval false s.cur.slot.bit 2)
/-- `PRIVILEGE` raised by the slot in hand (R403: R36 layout, SUB 0). -/
def State.privilege (s : State) : State := s.raise causePrivilege (illegalTval false s.cur.slot.bit 0)
/-- `TVAL` of `MEMFAULT` (R195). -/
def memfaultTval (reason : Nat) (w : Bool) (addr : Word) : Word :=
  (BitVec.ofNat 4 reason ++ BitVec.ofBool w ++ (0 : BitVec 2) ++ addr.extractLsb' 0 57 : BitVec 64)
def State.memfault (s : State) (reason : Nat) (w : Bool) (addr : Word) : State :=
  s.raise causeMemfault (memfaultTval reason w addr)
/-- `SYSOP` (R357). -/
def State.sysop (s : State) (reason info : Nat) : State :=
  (s.raise causeSysop (BitVec.ofNat 64 (info % 2 ^ 32 * 2 ^ 32 + reason)))

/-! ### The in-flight record (R196, R197, R393, R408) -/

def Ctx.entry (c : Ctx) (i : Nat) : IfrEntry := c.ifr[i % 64]'(Nat.mod_lt _ (by decide))
def Ctx.setEntry (c : Ctx) (i : Nat) (e : IfrEntry) : Ctx :=
  { c with ifr := c.ifr.set (i % 64) e (Nat.mod_lt _ (by decide)) }
def State.entry (s : State) (id : CtxId) (i : Nat) : IfrEntry := (s.ctx id).entry i
def State.updEntry (s : State) (id : CtxId) (i : Nat) (f : IfrEntry → IfrEntry) : State :=
  s.updCtx id (fun c => c.setEntry i (f (c.entry i)))

/-- An entry a new operation may take: free, or retired and not describing an operation of an interrupted level
(R405). -/
def IfrEntry.usable (e : IfrEntry) (l : Level) : Bool :=
  e.state = .free || (e.state = .retired && l.toNat ≤ e.level.toNat)

/-- The entry taken next: free the longest, then the lowest number (R196). -/
def Ctx.freeEntry (c : Ctx) : Option Nat :=
  (List.range 64).foldl (fun best i =>
    if (c.entry i).usable c.level then
      (match best with
       | none => some i
       | some j => if (c.entry i).freedAt < (c.entry j).freedAt then some i else best)
    else best) none

/-- The source tag of a context (R393). -/
def State.sourceTag (s : State) (id : CtxId) : Word :=
  BitVec.ofNat 64 (((s.pkg id.pid).field (fieldOf id.core)).salt.toNat * 2 ^ 52 + id.pid % 1024 * 2 ^ 42
    + (id.core % 1024 * 4 + id.ctx % 4) * 2 ^ 30)

/-- Ticket KINDs of R197 and record KINDs of R408. -/
def ticket (seq : BitVec 16) (kind entry : Nat) : Word := BitVec.ofNat 64 (seq.toNat * 2 ^ 16 + kind * 2 ^ 12 + entry)

/-- Allocates entry `i` of the context in hand for a new operation on a channel. -/
def State.alloc (s : State) (i kind chan cls : Nat) (target : Word) : State :=
  let id := s.cur.id
  let c := s.me
  let seq := c.chanSeq[chan % 16]'(Nat.mod_lt _ (by decide))
  s.updMe (fun c =>
    { (c.setEntry i { state := .outstanding, seq := seq, chan := BitVec.ofNat 4 chan, cls := BitVec.ofNat 2 cls,
                      level := c.level, kind := BitVec.ofNat 4 kind, tag := s.sourceTag id,
                      target := target &&& 0x01FFFFFFFFFFFFFF, freedAt := (c.entry i).freedAt, issue := s.cur.issue })
      with chanSeq := c.chanSeq.set (chan % 16) (seq + 1) (Nat.mod_lt _ (by decide)) })

/-- Status words of R218. -/
def statusWord (eoff : Nat) (fl : Fl) (detail code : Nat) : Word :=
  BitVec.ofNat 64 (eoff % 65536 * 2 ^ 48 + fl.toNat * 2 ^ 34 + 2 ^ 32 + detail % 65536 * 256 + code % 256)

/-- SEQ values no outstanding entry of a channel holds back: the highest SEQ up to which every response is held
(R394). -/
def Ctx.advanceAckt (c : Ctx) (chan : Nat) : Ctx :=
  let seq := c.chanSeq[chan % 16]'(Nat.mod_lt _ (by decide))
  let old := (List.range 64).foldl (fun (best : BitVec 16) i =>
    let e := c.entry i
    if (e.state = .outstanding || e.state = .stopped) && e.chan.toNat = chan % 16 && (seq - e.seq).toNat > best.toNat
    then seq - e.seq else best) (0 : BitVec 16)
  { c with ackt := c.ackt.set (chan % 16) (seq - old - 1) (Nat.mod_lt _ (by decide)) }

/-- Retires an entry with its completion status (R196, R197). -/
def Ctx.retire (c : Ctx) (i : Nat) (status : Word) : Ctx :=
  let e := c.entry i
  (c.setEntry i { e with state := .retired, status := status, freedAt := c.freeStamp + 1, loops := [], landing := none,
                         gdest := none }).advanceAckt e.chan.toNat
def State.retire (s : State) (id : CtxId) (i : Nat) (status : Word) : State := s.updCtx id (fun c => c.retire i status)

/-- The OK status of an operation other than a chain (R218). -/
def okStatus : Word := statusWord 0 0 0 0

/-- The source of an operation of entry `i` of a context. -/
def State.srcOf (s : State) (id : CtxId) (i : Nat) : Src :=
  let e := s.entry id i
  { id := id, ident := s.identOf id, part := s.partOfCore id.pid id.core, level := e.level, entry := i, seq := e.seq,
    tag := e.tag, issue := e.issue, kind := e.kind.toNat, gen := (s.ctx id).gen }

/-- The core whose scratchpad holds a physical address. -/
def spadCore (pa : Nat) : Option Nat := if regionOf pa = some .spad then some ((pa - spadBase) / 0x100000) else none

/-- The owner epoch of the scratchpad at an address (R274). -/
def State.epochAt (s : State) (pid pa : Nat) : Nat :=
  match spadCore pa with
  | some c => (s.core pid c).epoch
  | none => 0

/-- Where a message's bytes go, if it accesses memory. -/
def Body.dest : Body → Option Dest
  | .store d .. | .group d .. | .accum d .. | .flsig d .. | .load d .. => some d
  | _ => none

/-- The owner epoch a message carries (R274). -/
def State.epochOf (s : State) (b : Body) : Nat :=
  match b.dest with
  | some (.phys pid pa) => s.epochAt pid pa
  | _ => 0

/-- Notes a route, a channel and a home's code, for `probe` and hoop phase ends (R213, R257). -/
def Ctx.addRoute (c : Ctx) (r : Nat × Nat) : Ctx := { c with
  routes := if c.routes.contains r then c.routes else c.routes ++ [r]
  hoopRoutes := if c.hoopRoutes.contains r then c.hoopRoutes else c.hoopRoutes ++ [r] }

/-- The package and context bits of a source tag (R393). -/
def placeBits (w : Word) : Nat := (w.extractLsb' 30 22).toNat

/-- An ACKT held back by the operations of some contexts that are outstanding under one source's tag on a channel (R394). -/
def acktHeld (cs : List Ctx) (place chan : Nat) (a : BitVec 16) : BitVec 16 :=
  cs.foldl (fun a c => c.ifr.toList.foldl (fun (a : BitVec 16) e =>
    if (e.state = .outstanding || e.state = .stopped) && e.chan.toNat = chan % 16 && placeBits e.tag = place && (a - e.seq).toNat < 2 ^ 15
    then e.seq - 1 else a) a) a

/-- Contexts that may hold operations under the tag of a place in which they no longer stand: those in images, and those placed anew. -/
def State.strayCtxs (s : State) : List Ctx :=
  s.pkgs.flatMap (fun (p : Nat × Pkg) => p.2.images.flatMap (fun (i : Nat × Image) => i.2.data.ctxs.toList)) ++
  s.cores.flatMap (fun (c : Nat × Core) => c.2.live.ctxs.toList.filter (fun x => x.ident.isSome))

/-- ACKT of a source tag and channel: past no operation under that tag whose answer is not held, also where the answer was discarded and
the operation stands in a parked context's record (R272, R394). -/
def State.acktFor (s : State) (id : CtxId) (tag : Word) (chan : Nat) : BitVec 16 :=
  acktHeld s.strayCtxs (placeBits tag) chan ((s.ctx id).ackt[chan % 16]'(Nat.mod_lt _ (by decide)))

/-- Sends a message, noting its route for `probe` (R213). -/
def State.send (s : State) (m : Msg) : State :=
  let s := { s with net := s.net ++ [{ m with epoch := s.epochOf m.body, ackt := s.acktFor m.src.id m.src.tag m.chan }] }
  s.updCtx m.src.id (fun c => c.addRoute (m.chan, m.dst.code))

/-- Answers travel back to a source and are ordered with nothing. -/
def Body.isReply : Body → Bool
  | .resp .. | .hoopRefuse .. | .sealed .. | .decided .. => true
  | _ => false

/-- A discard that was held for an unreachable home goes before any other traffic to that package (R415). -/
def Msg.behind (m x : Msg) : Bool := x.first && !m.first && !m.body.isReply && x.dst.pid = m.dst.pid && x.src.id.pid = m.src.id.pid

/-- A message whose homes its target has still to find: a window access before its translation, or MCAST before its members. -/
def Body.unresolved (b : Body) : Bool :=
  match b with
  | .mcast .. => true
  | _ => match b.dest with
    | some (.exposure ..) => true
    | _ => false

/-- Whether an earlier message of a channel may have a home in common with a later one: the same home; a window access, and any home
of its package; a probe of a package's route, and any message to that package; MCAST, and any message (R199, R213). -/
def Msg.before (x m : Msg) : Bool :=
  x.dst = m.dst || (x.dst.pid = m.dst.pid && (x.body.unresolved || (m.body = .probe && m.dst = .die m.dst.pid))) ||
  (match x.body with
   | .mcast .. => true
   | _ => false)

/-- Whether message `n` may be delivered: no earlier message of its source and channel to its home is under way (R199), and no held
discard to its home's package (R415). -/
def deliverable (net : List Msg) (n : Nat) : Bool :=
  match net[n]? with
  | none => false
  | some m => !m.retry && !net.any m.behind && (m.body.isReply ||
      !((net.take n).any (fun x => !x.body.isReply && x.src.ident = m.src.ident && x.chan = m.chan && x.before m)))

/-- Takes message `n` out of the fabric, when it may be delivered. -/
def State.takeMsg (s : State) (n : Nat) : Option (Msg × State) :=
  match s.net[n]? with
  | none => none
  | some m => if deliverable s.net n then some (m, { s with net := s.net.eraseIdx n }) else none

/-- An answer from a home to a message's source. -/
def State.reply (s : State) (m : Msg) (b : Body) : State :=
  { s with net := s.net ++ [{ m with body := b, retry := false, first := false, via := none }] }

/-! ### Return from a trap (R407) -/

/-- EPC and return level at the context's level (R407). -/
def Ctx.tretTarget (c : Ctx) : Word × Level :=
  match c.level with
  | .device => (c.dtepc, levelOf (c.dtcause.extractLsb' 8 2).toNat)
  | _ => (c.tepc, levelOf ((c.tcause.extractLsb' 8 2).toNat % 2))

end Sys2Proof.Machine
end

