-- ==== Sys2Proof/Machine/Flags.lean ====
section
/-! DEFINITION. The arithmetic controls of `FCSR` (R86), the flag rules of scalar and compare operations, and the trap
fence's test of the sticky records (R91). -/

namespace Sys2Proof.Machine

/-- `FCSR.FTZ` (R86). -/
def Ctx.ftz (c : Ctx) : Bool := c.fcsr.getLsbD 8
/-- `FCSR.SAT8` (R86). -/
def Ctx.sat8 (c : Ctx) : Bool := c.fcsr.getLsbD 9
/-- `FCSR.TEN` (R86). -/
def Ctx.ten (c : Ctx) : Fl := c.fcsr.extractLsb' 16 7
/-- FL of a record (R89). -/
def recFl (x : Word) : Fl := x.extractLsb' 57 7
/-- The records that hold an enabled flag, bit i for record i (R91). -/
def Ctx.hits (c : Ctx) : Word :=
  BitVec.ofNat 64 ((List.range 5).foldl (fun n i =>
    n + (if recFl ((c.xr.toList)[i]?.getD 0) &&& c.ten ≠ 0 then 2 ^ i else 0)) 0)

/-- IDZ of `div` and `rem` (R94). -/
def idzFlag (b : Word) : Fl := Fl.on (b = 0) Fl.idz

/-- The flag a comparison raises (R114): NV for a signalling NaN, and for any NaN in an ordering test. -/
def cmpFlag (cond : Nat) (x y : FVal) : Fl :=
  Fl.on (x.isSnan || y.isSnan || ((x.isNan || y.isNan) && 2 ≤ cond && cond ≤ 5)) Fl.nv

/-- The truth of a float comparison (R114), conditions coded as R46. -/
def cmpFloat (cond : Nat) (x y : FVal) : Bool :=
  let un := x.isNan || y.isNan
  match cond with
  | 0 => !un && fcmp x y = .eq
  | 1 => un || fcmp x y != .eq
  | 2 => !un && fcmp x y = .lt
  | 3 => !un && fcmp x y != .gt
  | 4 => !un && fcmp x y = .gt
  | 5 => !un && fcmp x y != .lt
  | 6 => un
  | _ => !un

/-- The truth of an integer comparison (R114). -/
def cmpInt (cond : Nat) (x y : Int) : Bool :=
  match cond with
  | 0 => x = y
  | 1 => x ≠ y
  | 2 => x < y
  | 3 => x ≤ y
  | 4 => y < x
  | 5 => y ≤ x
  | 6 => false
  | _ => true

end Sys2Proof.Machine
end

