-- ==== Sys2Proof/Machine/Operands.lean ====
section
/-! DEFINITION. Operand forms: lanes and masks of `v` registers (R45, R101, R103, R121), rows, addresses of the L slot
(R48, R194). -/

namespace Sys2Proof.Machine

/-- Lane `l` of a register in elements of `b` bits (R101). -/
def lane (b l : Nat) (x : VReg) : Nat := (x.extractLsb' (b * l) b).toNat

/-- Whether the mask governs lane `l` with 1 (R45): one bit per 32-bit lane position. -/
def maskBit (m : Word) (b l : Nat) : Bool := m.getLsbD (l * b / 32)

/-- The lanes of a format that a write mask lets through (R103). -/
def State.active (s : State) (fmt : BitVec 4) (km : KNum) : List Nat :=
  (List.range (fmtLanes fmt)).filter (maskBit (s.rk km) (fmtBits fmt))

/-- Lanes packed into a register's bits. -/
def packLanes (b : Nat) (rs : List (Nat × Nat)) : VReg :=
  rs.foldl (fun v r => v ||| (BitVec.ofNat 2048 (r.2 % 2 ^ b) <<< (b * r.1))) 0

/-- Ones in the bits of the lanes named. -/
def lanesMask (b : Nat) (ls : List Nat) : VReg := packLanes b (ls.map (fun l => (l, 2 ^ b - 1)))

/-- The draws of R82 by the lanes named: each advances its own state once. -/
def Ctx.drawLanes (c : Ctx) (ls : List Nat) : Ctx :=
  { c with sr := ls.foldl (fun v l =>
      v.set (l % 256) (drawState (v[l % 256]'(Nat.mod_lt _ (by decide)))) (Nat.mod_lt _ (by decide))) c.sr }
/-- The draw lane `l` makes. -/
def Ctx.drawOf (c : Ctx) (l : Nat) : BitVec 32 := drawState (c.sr[l % 256]'(Nat.mod_lt _ (by decide)))

/-- The common frame of a lane-wise instruction (R103): lanes `ls` are computed, each drawing once when `sr`, lanes `zs`
are written 0, the flags of all lanes are recorded with the result. -/
def State.lanesOp (s : State) (lat b : Nat) (vd : VNum) (ls zs : List Nat) (sr : Bool) (f : Nat → BitVec 32 → Nat × Fl) :
    State :=
  let c := s.me
  let rs := ls.map (fun l => (l, f l (if sr then c.drawOf l else 0)))
  let val := packLanes b (rs.map (fun r => (r.1, r.2.1)))
  let fl := rs.foldl (fun (a : Fl) r => a ||| r.2.2) 0
  let s := if sr then s.updMe (fun c => c.drawLanes ls) else s
  (s.writeV lat vd val (lanesMask b (ls ++ zs))).flag lat fl

/-- The rows of a register for `vthr` and `vtopk.fix`: first and last lane of each (R121). -/
def rowsOf (m : Word) (lanes : Nat) : List (Nat × Nat) :=
  let g := lanes / 64
  let starts := (List.range lanes).filter (fun l => l = 0 || (l % g = 0 && m.getLsbD (l / g)))
  starts.map (fun a => (a, ((starts.find? (fun b => a < b)).getD lanes) - 1))

/-- Sign extension of a small field to 64 bits. -/
def sext {w : Nat} (x : BitVec w) : Word := x.signExtend 64

/-- The effective address of form LM (R48, R194): base and signed offset in units of the access size. -/
def State.eaLM (s : State) (ab : ANum) (off : BitVec 12) (size : Nat) : Word :=
  s.ra ab + sext off * BitVec.ofNat 64 size

/-- The scratchpad offset of an address (R21): bits 19:0. -/
def spadOff (a : Word) : Nat := (a.extractLsb' 0 20).toNat

/-- The virtual address of an offset of the own scratchpad (R22). -/
def ownVa (off : Nat) : Word := 0xFFFFFFFFF0000000 + BitVec.ofNat 64 (off % 0x100000)

end Sys2Proof.Machine
end

