-- ==== Sys2Proof/Machine/Csr.lean ====
section
/-! DEFINITION. Control and status registers: reading, the checks of a write, writing (R42, R74, R75, R81, R86, R89, R188, R249,
R250, R254, R255, R315 to R317, R374, R384, R404). -/

namespace Sys2Proof.Machine

/-- Bits `lo` to `lo + n − 1` of a word. -/
def fieldW (v : Word) (lo n : Nat) : Nat := bitsNat v.toNat lo n

/-- The level a CSR number demands (R42). -/
def csrLevel (n : BitVec 12) : Nat := (n.extractLsb' 10 2).toNat

def Core.bfReg (k : Core) (i : Nat) : Word := k.live.bf[i % 16]'(Nat.mod_lt _ (by decide))
def CoreData.engine (d : CoreData) (e : Nat) : Engine := d.eng[e % 2]'(Nat.mod_lt _ (by decide))
def CoreData.setEngine (d : CoreData) (e : Nat) (x : Engine) : CoreData :=
  { d with eng := d.eng.set (e % 2) x (Nat.mod_lt _ (by decide)) }

/-- Entries of a queue that have not completed (R128, R144): the outstanding instructions. -/
def Engine.open (x : Engine) (now : Nat) : List MEntry :=
  x.queue.filter (fun e => match e.doneAt with
    | some d => now < d
    | none => true)

/-- The active configuration as it stood when the bundles of a pipeline cycle issued (R34, R317). -/
def Engine.cfgAt (x : Engine) (now : Nat) : Word :=
  match x.was with
  | some (c, w) => if c = now then w else x.active
  | none => x.active

/-- What a CSR reads as, for the context in hand (R42, R315). -/
def State.csrRead (s : State) (n : BitVec 12) : Word :=
  let c := s.me
  match n.toNat with
  | 0x000 => c.fcsr
  | 0x001 => c.seed
  | 0x002 => c.prog
  | 0x003 => c.role.setWidth 64
  | 0x004 => c.sbchk
  | 0x008 => c.hoopm[0]
  | 0x009 => c.hoopm[1]
  | 0x00A => c.hoopm[2]
  | 0x00B => c.hoopm[3]
  | 0x010 => c.xr[0]
  | 0x011 => c.xr[1]
  | 0x012 => c.xr[2]
  | 0x013 => c.xr[3]
  | 0x014 => c.xr[4]
  | 0x020 => (s.pkg s.cur.id.pid).cycle
  | 0x021 => s.ctxid s.cur.id
  | 0x110 => (s.myCore.live.engine 0).cfgAt s.myCore.pcyc
  | 0x111 => (s.myCore.live.engine 1).cfgAt s.myCore.pcyc
  | 0x400 => c.tvec
  | 0x401 => c.tcause
  | 0x402 => c.tepc
  | 0x403 => c.tval
  | 0x404 => c.landbnd
  | 0x405 => c.agebnd
  | 0x406 => c.racedet
  | 0x407 => c.stkchk
  | 0x800 => c.dtvec
  | 0x801 => c.dtcause
  | 0x802 => c.dtepc
  | 0x803 => c.dtval
  | k => if 0x100 ≤ k ∧ k ≤ 0x10F then s.myCore.bfReg (k - 0x100) else 0

/-- Bytes of a bank's scale plane (R70). -/
def planeBytes (fmt : Nat) : Nat := if fmt = 5 then 2731 else 5462

/-- A table of `n` bytes at an offset runs past the scratchpad or overlaps a bank (R75). -/
def misplaced (bank base n : Nat) : Bool := 0x100000 < base + n || meets base n (bank * 0x10000) 0x10000

/-- The states R74 and R75 allow of bank format register `bank`. -/
def bankOk (bank : Nat) (v : Word) : Bool :=
  let fmt := fieldW v 0 4
  fieldW v 48 16 = 0 && fieldW v 7 1 = 0 && fieldW v 4 3 ≤ 5 && fmt ≠ 7 &&
  (if fmt = 5 ∨ fmt = 6 then !misplaced bank (fieldW v 8 20) (planeBytes fmt) else true) &&
  (if fmt = 6 then fieldW v 28 20 % 8 = 0 && !misplaced bank (fieldW v 28 20) 2048 else true)

/-- The opcodes `PROG` may name (R374). -/
def progOk (v : Word) : Bool :=
  fieldW v 56 7 = 0 &&
  (!v.getLsbD 63 || ((fieldW v 48 8 = 0x63 || fieldW v 48 8 = 0x64 || fieldW v 48 8 = 0x66) && fieldW v 46 2 ≤ 1 &&
    !(fieldW v 46 2 = 1 && fieldW v 48 8 = 0x66)))

/-- A new value that the CSR's own table admits (R316). -/
def csrOk (n : BitVec 12) (v : Word) : Bool :=
  match n.toNat with
  | 0x000 => fieldW v 23 41 = 0 && fieldW v 10 6 = 0 && fieldW v 7 1 = 0
  | 0x001 => fieldW v 32 32 = 0
  | 0x002 => progOk v
  | 0x004 => fieldW v 1 63 = 0
  | 0x400 | 0x402 | 0x800 | 0x802 => fieldW v 57 7 = 0
  | 0x401 => fieldW v 10 54 = 0 && fieldW v 8 2 ≤ 1
  | 0x801 => fieldW v 10 54 = 0 && fieldW v 8 2 ≤ 2
  | 0x404 => fieldW v 10 54 = 0
  | 0x405 => fieldW v 16 48 = 0 && 16 ≤ fieldW v 0 16
  | 0x406 => fieldW v 2 62 = 0
  | 0x407 => fieldW v 60 4 = 0 && fieldW v 52 4 = 0
  | k => if 0x100 ≤ k ∧ k ≤ 0x10F then bankOk (k - 0x100) v else true

/-- A write of `SEED` sets every stochastic state (R81). -/
def Ctx.reseed (c : Ctx) (v : Word) : Ctx :=
  { c with seed := v, sr := Vector.ofFn (fun l => seedState (v.setWidth 32) l.val) }

/-- Software's write of a sticky record: both fields as given; a written ADDR counts as set before every later
operation (R89, R90). -/
def Ctx.setXr (c : Ctx) (i : Fin 5) (v : Word) : Ctx :=
  { c with xr := c.xr.set i v, xrIssue := c.xrIssue.set i 0 }

/-- The flags recorded on the cycle of a write of `FCSR` or of a sticky record (`only`) stand after it (R317). -/
def Ctx.reflag (c : Ctx) (only : Option (Fin 5)) : Ctx :=
  { (c.flagged.filter (fun f => only = none || only = some f.1.idx)).foldl (fun c f => c.record f.1 f.2.1 f.2.2.1 f.2.2.2) c with
    flagged := c.flagged }

/-- A write to a bank format register (R74). -/
def State.setBank (s : State) (i : Nat) (v : Word) : State :=
  s.updMyCore (fun k => { k with live := { k.live with bf := k.live.bf.set (i % 16) v (Nat.mod_lt _ (by decide)) } })

/-- A CSR write that has passed its checks. -/
def State.csrSet (s : State) (n : BitVec 12) (v : Word) : State :=
  match n.toNat with
  | 0x000 => s.updMe (fun c => { c with fcsr := v }.reflag none)
  | 0x001 => s.updMe (fun c => c.reseed v)
  | 0x002 => s.updMe (fun c => { c with prog := v })
  | 0x004 => s.updMe (fun c => { c with sbchk := v })
  | 0x010 => s.updMe (fun c => (c.setXr 0 v).reflag (some 0))
  | 0x011 => s.updMe (fun c => (c.setXr 1 v).reflag (some 1))
  | 0x012 => s.updMe (fun c => (c.setXr 2 v).reflag (some 2))
  | 0x013 => s.updMe (fun c => (c.setXr 3 v).reflag (some 3))
  | 0x014 => s.updMe (fun c => (c.setXr 4 v).reflag (some 4))
  | 0x400 => s.updMe (fun c => { c with tvec := v })
  | 0x401 => s.updMe (fun c => { c with tcause := v })
  | 0x402 => s.updMe (fun c => { c with tepc := v })
  | 0x403 => s.updMe (fun c => { c with tval := v })
  | 0x404 => s.updMe (fun c => { c with landbnd := v })
  | 0x405 => s.updMe (fun c => { c with agebnd := v })
  | 0x406 => s.updMe (fun c => { c with racedet := v })
  | 0x407 => s.updMe (fun c => { c with stkchk := v })
  | 0x800 => s.updMe (fun c => { c with dtvec := v })
  | 0x801 => s.updMe (fun c => { c with dtcause := v })
  | 0x802 => s.updMe (fun c => { c with dtepc := v })
  | 0x803 => s.updMe (fun c => { c with dtval := v })
  | k => if 0x100 ≤ k ∧ k ≤ 0x10F then s.setBank (k - 0x100) v else s

/-- An operation above the context's level raises `PRIVILEGE` (R19). -/
def State.needs (s : State) (level : Nat) (k : Out) : Out :=
  if s.me.level.toNat < level then .next s.privilege else k

/-- A write of a CSR: level, read-only mark and the table's checks; a trap leaves it unchanged (R42, R316). -/
def State.csrWrite (s : State) (n : BitVec 12) (v : Word) : Out :=
  if !csrWritable n then .next s.illegalField
  else s.needs (csrLevel n) (.next (if csrOk n v then s.csrSet n v else s.illegalField))

def execCsrr (gd : GNum) (csr : BitVec 12) (s : State) : Out :=
  if (csrAccess csr).isNone then .next s.illegalField
  else s.needs (csrLevel csr) (.next (s.writeG 2 gd (s.csrRead csr)))
def execCsrw (gs : GNum) (csr : BitVec 12) (s : State) : Out := s.csrWrite csr (s.rg gs)
def execCsrs (gs : GNum) (csr : BitVec 12) (s : State) : Out := s.csrWrite csr (s.csrRead csr ||| s.rg gs)
def execCsrc (gs : GNum) (csr : BitVec 12) (s : State) : Out := s.csrWrite csr (s.csrRead csr &&& ~~~s.rg gs)

/-- R81: a write of `SEED` by the context in hand. -/
def execSeedWrite (v : Word) (s : State) : Out :=
  .next (if csrOk 0x001 v then s.updMe (fun c => c.reseed v) else s.illegalField)
/-- R75: a write of a bank format register by the context in hand. -/
def execBankFormatWrite (n : BitVec 4) (v : Word) (s : State) : Out :=
  .next (if bankOk n.toNat v then s.setBank n.toNat v else s.illegalField)

end Sys2Proof.Machine
end

