-- ==== Sys2Proof/Machine/Race.lean ====
section
/-! DEFINITION. Scopes (R17), race detection (R187 to R191) and the stores and acquires that carry it. -/

namespace Sys2Proof.Machine

/-- A tracked agent: a context, or the quill of its core at work for it. -/
structure Agent where
  id : CtxId
  quill : Bool
deriving DecidableEq, Repr

/-- Whether a place is a member of scope `sc`, from `.core` on, taken from another (R17); `mesh`: flat-mesh wiring (R13). -/
def placeInScope (mesh : Bool) (sc : Nat) (a b : CtxId) : Bool :=
  match sc with
  | 0 | 1 => a.pid = b.pid && a.core = b.core
  | 2 => a.pid = b.pid && bayOf a.core = bayOf b.core
  | 3 => a.pid = b.pid && fieldOf a.core = fieldOf b.core
  | 4 => a.pid = b.pid && fieldOf a.core / 4 = fieldOf b.core / 4
  | 5 => a.pid = b.pid
  | 6 => mesh || a.pid / 32 = b.pid / 32
  | _ => true

/-- Whether agent `b` is a member of scope `sc` taken from agent `a` (R17): of `.ctx` the issuing context alone, a quill of `.core` and
wider. -/
def inScope (mesh : Bool) (sc : Nat) (a b : Agent) : Bool :=
  if sc = 0 then !b.quill && a.id = b.id else placeInScope mesh sc a.id b.id

/-- An agent's identity in its bay (R187). -/
def Agent.num (a : Agent) : Nat := if a.quill then 32 + a.id.core % 8 else a.id.core % 8 * 4 + a.id.ctx % 4
def Agent.bay (a : Agent) : Nat := bayOf a.id.core

/-- The bay and granule of a memory key in a scratchpad or vault, and whether it is a scratchpad (R187, R189). -/
def granuleOf (k : Nat) : Option (Nat × Nat × Bool) :=
  let pa := keyPa k
  match regionOf pa with
  | some .spad =>
    let c := (pa - spadBase) / 0x100000
    some (c / 8, c % 8 * 4096 + (pa - spadBase) % 0x100000 / 256, true)
  | some .vault =>
    let v := (pa - vaultBase) / 0x4000000
    some (v, 32768 + (pa - vaultBase) % 0x4000000 / 256, false)
  | _ => none

def State.race (s : State) (pid bay : Nat) : Race := ((s.pkg pid).race.get bay).getD {}
def State.updRace (s : State) (pid bay : Nat) (f : Race → Race) : State :=
  s.updPkg pid (fun p => { p with race := p.race.put bay (some (f ((p.race.get bay).getD {}))) })

def Race.rcOf (r : Race) (a : Nat) : Nat := (r.rc.get a).getD 0
def Race.hOf (r : Race) (a i : Nat) : Nat := (r.h.get (a * 64 + i)).getD 0
def Race.pvOf (r : Race) (a i : Nat) : Nat := (r.pv.get (a * 64 + i)).getD 0

/-- The check of R189 for one granule: the writer in conflict. -/
def Race.conflict (r : Race) (a gran : Nat) : Option Nat :=
  match r.tags.get gran with
  | none => none
  | some (w, e) => if w ≠ a ∧ r.hOf a w ≤ e then some w else none

/-- `TVAL` of `RACE` (R190). -/
def raceTval (write : Bool) (writer : Nat) (sp : Bool) (k : Nat) : Word :=
  let pa := keyPa k
  let addr := if sp then (pa - spadBase) / 0x100000 % 8 * 0x100000 + (pa - spadBase) % 0x100000 else pa
  BitVec.ofNat 64 ((if write then 2 ^ 63 else 0) + writer * 2 ^ 57 + (if sp then 2 ^ 56 else 0) + addr)

/-- The keys at which an access of `n` bytes enters a granule, ascending. -/
def granuleStarts (k n : Nat) : List Nat :=
  if n = 0 then [] else
  (List.range ((k + n - 1) / 256 + 1 - k / 256)).map (fun i => if i = 0 then k else (k / 256 + i) * 256)

/-- Whether a byte is staged for a group that is neither published nor discarded (R182). -/
def State.stagedByte (s : State) (k : Nat) : Bool :=
  (s.pkg (keyPid k)).groups.any (fun g => (g.2.state = .opened || g.2.state = .sealed) &&
    g.2.units.any (fun u => u.cells.any (fun c => c.1 = k)))

/-- The bytes of an access of `n` bytes at `k` that lie in the granule entered at `q` are all group-staged (R189). -/
def State.stagedGranule (s : State) (k n q : Nat) : Bool :=
  (List.range (Nat.min (k + n) ((q / 256 + 1) * 256) - q)).all (fun i => s.stagedByte (q + i))

/-- The check of R189 over an access by a tracked agent with the enables `en` (R188): the `TVAL` of the first
conflict. A read of group-staged bytes has none. -/
def State.raceCheck (s : State) (a : Agent) (en : Word) (write : Bool) (k n : Nat) : Option Word :=
  (granuleStarts k n).findSome? (fun q =>
    match granuleOf q with
    | some (bay, g, sp) =>
      if keyPid q = a.id.pid && bay = a.bay && en.getLsbD (if sp then 0 else 1) && (write || !s.stagedGranule k n q) then
        ((s.race a.id.pid bay).conflict a.num g).map (fun w => raceTval write w sp q)
      else none
    | none => none)

/-- Tags of the granules a write touches: the tracked agent with its count, or "none" for any other (R187, R189). -/
def State.raceTag (s : State) (a : Option Agent) (k n : Nat) : State :=
  (granuleStarts k n).foldl (fun s q =>
    match granuleOf q with
    | some (bay, g, _) =>
      let pid := keyPid q
      let r := s.race pid bay
      let t := match a with
        | some a => if a.id.pid = pid && a.bay = bay then some (a.num, r.rcOf a.num) else none
        | none => none
      if t.isNone && (r.tags.get g).isNone then s
      else s.updRace pid bay (fun r => { r with tags := r.tags.put g t })
    | none => s) s

/-- A release by a tracked agent at scope `.core` or wider (R189); past 2^32 − 1 the bay starts afresh. -/
def State.raceRelease (s : State) (a : Agent) (scope : Nat) : State :=
  if scope = 0 then s
  else
    let r := s.race a.id.pid a.bay
    let n := r.rcOf a.num + 1
    if 2 ^ 32 ≤ n then s.updRace a.id.pid a.bay (fun _ => {})
    else s.updRace a.id.pid a.bay (fun r =>
      let h := r.h.put (a.num * 64 + a.num) (some n)
      { r with rc := r.rc.put a.num (some n), h := h,
               pv := (List.range 40).foldl (fun (m : NMap Nat) i => match h.get (a.num * 64 + i) with
                 | some x => m.put (a.num * 64 + i) (some x)
                 | none => m.put (a.num * 64 + i) none) r.pv })

/-- An acquire by `a` that synchronises with a release by `b` of the same bay (R189). -/
def State.raceAcquire (s : State) (a : Agent) (bnum : Nat) : State :=
  s.updRace a.id.pid a.bay (fun r =>
    { r with h := (List.range 40).foldl (fun (h : NMap Nat) i =>
        if r.hOf a.num i < r.pvOf bnum i then h.put (a.num * 64 + i) (some (r.pvOf bnum i)) else h) r.h })

/-- Two agents of one bay of one package. -/
def Agent.sameBay (a b : Agent) : Bool := a.id.pid = b.id.pid && a.bay = b.bay

/-- The releases whose values a read returns (R167). -/
def State.heardAt (s : State) (k n : Nat) : List Heard :=
  (s.rels.filter (fun m => meets m.key m.len k n)).map (fun m => ⟨m.agent, m.quill, m.scope⟩)

/-- An acquire at scope `sc`: it synchronises with each release heard, each agent a member of the other's scope
(R167). -/
def State.acquireFrom (s : State) (a : Agent) (sc : Nat) (hs : List Heard) : State :=
  hs.foldl (fun s m =>
    let b : Agent := ⟨m.agent, m.quill⟩
    let mesh := (s.pkg a.id.pid).flatMesh
    if a.sameBay b && inScope mesh sc a b && inScope mesh m.scope b a then s.raceAcquire a b.num else s) s

/-- An acquire by a read. -/
def State.acquireRead (s : State) (a : Agent) (sc : Nat) (k n : Nat) : State := s.acquireFrom a sc (s.heardAt k n)

/-- What a context's read with acquire mark `acq` means for later accesses (R167, R171): the acquire, or what a later
`fence.sc` acts on. -/
def State.readBy (s : State) (id : CtxId) (acq : Option Nat) (hs : List Heard) : State :=
  match acq with
  | some sc => s.acquireFrom ⟨id, false⟩ sc hs
  | none => if hs = [] then s else s.updCtx id (fun c => { c with heard := c.heard ++ hs.filter (fun h => !c.heard.contains h) })

/-- The value at some bytes carries a release (R167). -/
def State.markRel (s : State) (a : Agent) (k n : Nat) (rel : Option (BitVec 4)) : State :=
  match rel with
  | some sc => { s with rels := s.rels ++ [{ key := k, len := n, agent := a.id, quill := a.quill, scope := sc.toNat }] }
  | none => s

/-- A store by an agent: bytes, tags, and the release its value carries (R167, R189). -/
def State.storeBy (s : State) (a : Option Agent) (k : Nat) (bs : List Byte) (rel : Option (BitVec 4)) : State :=
  let s := (s.writeBytes k bs).raceTag a k bs.length
  match a, rel with
  | some a, some sc => (s.raceRelease a sc.toNat).markRel a k bs.length rel
  | _, _ => s

/-- A write by a unit of the device for no agent that race detection tracks (R187). -/
def State.deviceBytes (s : State) (k : Nat) (bs : List Byte) : State := s.storeBy none k bs none
def State.deviceNat (s : State) (k n x : Nat) : State := s.deviceBytes k (leBytes n x)

/-- `Arrive(b)` of R299 by a member: its release is counted with it. -/
def Barrier.arrive (x : Barrier) (who : Heard) : Barrier :=
  let now := x.now ++ [who]
  if x.arr + 1 = x.count then { x with arr := 0, ph := !x.ph, last := now, now := [] }
  else { x with arr := x.arr + 1, now := now }

/-- The widest scope among the releases counted in a barrier's completed phase, and `.core` at least (R167). -/
def Barrier.widest (x : Barrier) : Nat := x.last.foldl (fun m h => Nat.max m h.scope) 1

/-- The numbers of a core's contexts as agents of their bay. -/
def coreAgents (core : Nat) : List Nat := (List.range 4).map (fun x => core % 8 * 4 + x)

/-- The release count and horizons of an agent of a bay, as an image keeps them (R191). -/
def Race.agentData (r : Race) (a : Nat) : Nat × Nat × List Nat × List Nat :=
  (a, r.rcOf a, (List.range 40).map (r.hOf a), (List.range 40).map (r.pvOf a))

/-- A release and an acquire between the agents of one bay with no value: an engine edge, a barrier or hoop phase
(R189). -/
def State.raceEdge (s : State) (b a : Agent) : State :=
  if a.sameBay b then (s.raceRelease b 1).raceAcquire a b.num else s

end Sys2Proof.Machine
end

