-- ==== Sys2Proof/Machine/Translate.lean ====
section
/-! DEFINITION. Translation: page walks, windows and exposures, copy on write, write blocking, access counters, the
fault and notification queues (R21 to R23, R331 to R348). -/

namespace Sys2Proof.Machine

/-! ### Control-block fields (R332) -/

def Part.root (x : Part) : Nat := bytesAt x.block 16 8
def Part.wtab (x : Part) : Nat := bytesAt x.block 24 8
def Part.fqbase (x : Part) : Nat := bytesAt x.block 32 8
def Part.nqbase (x : Part) : Nat := bytesAt x.block 40 8
def Part.fqlog (x : Part) : Nat := bytesAt x.block 48 1
def Part.nqlog (x : Part) : Nat := bytesAt x.block 49 1
def Part.fqvec (x : Part) : Nat := bytesAt x.block 50 1
def Part.nqvec (x : Part) : Nat := bytesAt x.block 51 1
def Part.vecbase (x : Part) : Nat := bytesAt x.block 52 2
def Part.nvec (x : Part) : Nat := bytesAt x.block 54 1
def Part.poolbase (x : Part) : Nat := bytesAt x.block 56 8
def Part.poolcap (x : Part) : Nat := bytesAt x.block 64 4
def Part.logcap (x : Part) : Nat := bytesAt x.block 68 4
def Part.logbase (x : Part) : Nat := bytesAt x.block 72 8
def Part.cthresh (x : Part) : Nat := bytesAt x.block 80 4
def Part.blktmo (x : Part) : Nat := bytesAt x.block 84 4
def Part.gbase (x : Part) : Nat := bytesAt x.block 88 2
def Part.gcount (x : Part) : Nat := bytesAt x.block 90 2
def Part.mbase (x : Part) : Nat := bytesAt x.block 92 2
def Part.mcount (x : Part) : Nat := bytesAt x.block 94 2
/-- Quotas of R333: staging units, combiner entries, field hoops, switch-die hoops. -/
def Part.stgq (x : Part) : Nat := bytesAt x.quota 0 2
def Part.cmbq (x : Part) : Nat := bytesAt x.quota 2 2
def Part.fhoopq (x : Part) : Nat := bytesAt x.quota 4 2
def Part.shoopq (x : Part) : Nat := bytesAt x.quota 6 2

/-- The lowest field in which a partition has a bay. -/
def Part.lowestField (x : Part) : Nat :=
  ((List.range 8).find? (fun f => bitsNat (bytesAt x.block 0 16) (16 * f) 16 != 0)).getD 0

/-- Whether ranges (base, length) cover the addresses from `pa` up to `fin`, each used once at most. -/
def covered (rs : List (Nat × Nat)) : Nat → Nat → Nat → Bool
  | 0, pa, fin => fin ≤ pa
  | n + 1, pa, fin => fin ≤ pa || (match rs.find? (fun r => r.1 ≤ pa && pa < r.1 + r.2) with
    | some r => covered rs n (r.1 + r.2) fin
    | none => false)

/-- The HBM and host ranges of a control block (R332). -/
def Part.hbmRanges (x : Part) : List (Nat × Nat) :=
  (List.range 8).map (fun i => (bytesAt x.block (96 + 16 * i) 8, bytesAt x.block (104 + 16 * i) 4 * 65536))
def Part.hostRanges (x : Part) : List (Nat × Nat) :=
  (List.range 2).map (fun i => (bytesAt x.block (224 + 16 * i) 8, bytesAt x.block (232 + 16 * i) 8))

/-- Whether every byte of a physical range lies in memory the partition owns (R334): of its vaults, the partition data, which
stand below the reservations of R15 (log entry 91). -/
def Part.owns (x : Part) (pa len : Nat) : Bool :=
  match regionOf pa with
  | some .vault =>
    pa + len ≤ vaultBase + 0x200000000 && x.hasBay ((pa - vaultBase) / 0x4000000) &&
    (pa - vaultBase) % 0x4000000 + len ≤ x.data
  | some .hbm => pa + len ≤ Config.hbmBytes && covered x.hbmRanges 8 pa (pa + len)
  | some .host0 | some .host1 => covered x.hostRanges 2 pa (pa + len)
  | _ => false

/-! ### Group-committed lines (R183) -/

/-- The key of a home's group record: field 0 to 7, or 8 for the package's HBM (R163, R209). -/
def groupKey (home group : Nat) : Nat := home * 65536 + group
/-- The home number, within its package, of a physical address (R163). -/
def homeNum (pa : Nat) : Nat := (homeOf 0 pa).code % 16

/-- What a sealed group means for an access to some bytes. -/
inductive Line where
  | clear
  | waits
  /-- `UNDECIDED` (R399): group and epoch -/
  | undecided (group epoch : Nat)
deriving DecidableEq, Repr

/-- Whether a staged unit has a byte in the 256-byte granules that a range touches (R183). -/
def WriteUnit.touches (u : WriteUnit) (k n : Nat) : Bool :=
  u.cells.any (fun c => k / 256 ≤ c.1 / 256 && c.1 / 256 ≤ (k + n - 1) / 256)

/-- The state of the target lines that a range touches (R183, R399). -/
def State.lineAt (s : State) (pid pa n : Nat) : Line :=
  match (s.pkg pid).groups.find? (fun g =>
      g.2.state = .sealed && g.2.units.any (fun u => u.touches (memKey pid pa) n)) with
  | none => .clear
  | some g => if g.2.undecided then .undecided (g.1 % 65536) g.2.epoch else .waits

/-! ### Queues (R335, R336) -/

/-- Sends an MSI-X table entry, or sets its pending bit when masked (R367). -/
def State.msix (s : State) (pid e : Nat) : State :=
  s.updPkg pid (fun p =>
    let m := (p.msix.get e).getD {}
    { p with msix := p.msix.put e (some (if m.masked then { m with pending := true } else { m with sent := m.sent + 1 })) })

/-- Record kinds posted to the notification queue. -/
def isNotification (kind : Nat) : Bool := 16 ≤ kind

/-- A record's queue: base, log2 of its record count, vector. -/
def Part.queueOf (x : Part) (kind : Nat) : Nat × Nat × Nat :=
  if isNotification kind then (x.nqbase, x.nqlog, x.nqvec) else (x.fqbase, x.fqlog, x.fqvec)

/-- Posts a record to a partition's fault or notification queue (R335); a TAKE ahead of PUT makes the queue look full. -/
def State.postNow (s : State) (pid part kind : Nat) (addr detail agent : Nat) : State :=
  match s.part pid part with
  | none => s
  | some x =>
    let (base, lg, vec) := x.queueOf kind
    let k := memKey pid base
    let put := s.readNat k 8
    let take := s.readNat (k + 8) 8
    let held := (put + 2 ^ 64 - take) % 2 ^ 64
    if held = 2 ^ lg ∨ 2 ^ 63 ≤ held then s.deviceNat (k + 16) 8 ((s.readNat (k + 16) 8 + 1) % 2 ^ 64)
    else
      let r := leBytes 2 kind ++ leBytes 2 0 ++ leBytes 4 agent ++ leBytes 8 addr ++ leBytes 8 detail
        ++ leBytes 8 (s.pkg pid).cycle.toNat
      let s := s.deviceBytes (k + 64 + 32 * (put % 2 ^ lg)) r
      let s := s.deviceNat k 8 ((put + 1) % 2 ^ 64)
      if put = take then s.msix pid (x.vecbase + vec) else s

/-- Whether a record can be posted now: no line of its queue is sealed (R183). -/
def State.postable (s : State) (pid : Nat) (p : Post) : Bool :=
  match s.part pid p.part with
  | none => true
  | some x => let (base, lg, _) := x.queueOf p.kind; s.lineAt pid base (64 + 32 * 2 ^ lg) = .clear

/-- Two records of one queue. -/
def Post.sameQueue (a b : Post) : Bool := a.part = b.part && isNotification a.kind = isNotification b.kind

/-- Posts a record, or keeps it behind those of its queue that wait for a sealed line (R183, R335). -/
def State.post (s : State) (pid part kind : Nat) (addr detail agent : Nat) : State :=
  let r : Post := { part := part, kind := kind, addr := addr, detail := detail, agent := agent }
  if !(s.pkg pid).posts.any r.sameQueue && s.postable pid r then s.postNow pid part kind addr detail agent
  else s.updPkg pid (fun p => { p with posts := p.posts ++ [r] })

/-- Posts the records that waited, each queue's in order, up to the first of it that waits still; `left` wait so far. -/
def State.postHeld (s : State) (pid : Nat) (left : List Post) : List Post → State
  | [] => s.updPkg pid (fun p => { p with posts := left })
  | r :: rs =>
    if !left.any r.sameQueue && s.postable pid r then (s.postNow pid r.part r.kind r.addr r.detail r.agent).postHeld pid left rs
    else s.postHeld pid (left ++ [r]) rs

/-- AGENT of a context, and of a field unit (R336). -/
def State.agentOf (s : State) (id : CtxId) : Nat := (s.ctxid id).toNat % 2 ^ 28
def agentOfField (f : Nat) : Nat := f * 512

/-! ### Page tables (R337, R338) -/

/-- A leaf met by a walk: its key, its 128 bits, its page's virtual base and size. -/
structure Leaf where
  key : Nat
  word : BitVec 128
  base : Nat
  size : Nat
deriving DecidableEq, Repr

def pteV (w : BitVec 128) : Bool := w.getLsbD 0
def pteLeaf (w : BitVec 128) : Bool := w.getLsbD 55
def pteR (w : BitVec 128) : Bool := w.getLsbD 56
def pteW (w : BitVec 128) : Bool := w.getLsbD 57
def pteX (w : BitVec 128) : Bool := w.getLsbD 58
def pteCow (w : BitVec 128) : Bool := w.getLsbD 59
def pteBlk (w : BitVec 128) : Bool := w.getLsbD 60
def pteCnte (w : BitVec 128) : Bool := w.getLsbD 61
def pteLoc (w : BitVec 128) : Nat := (w.extractLsb' 62 2).toNat
def pteAddr (w : BitVec 128) : Nat := (w.extractLsb' 9 43).toNat * 512
def pteHeld (w : BitVec 128) : BitVec 64 := w.extractLsb' 64 64
/-- An entry with its ADDR, HELD and COW replaced; COW is kept as HELD ≠ 0 (R337). -/
def pteSet (w : BitVec 128) (addr : Nat) (held : BitVec 64) : BitVec 128 :=
  let low : BitVec 64 := w.extractLsb' 0 64
  let low := (low &&& ~~~(0x080FFFFFFFFFFE00 : BitVec 64)) ||| (BitVec.ofNat 64 addr &&& 0x000FFFFFFFFFFE00)
    ||| (if held = 0 then 0 else 0x0800000000000000)
  held ++ low

/-- A checked field of an entry is nonzero (R337): reserved bits; for a table entry every field but V, LEAF, ADDR. -/
def pteBad (w : BitVec 128) : Bool :=
  w.extractLsb' 52 3 != 0 || w.extractLsb' 1 8 != 0 || pteLoc w = 3 ||
  (if pteLeaf w then pteLoc w = 2 && w.extractLsb' 96 32 != 0 else w.extractLsb' 56 72 != 0)

/-- A partition's virtual address's index, and the table's size, at a level (R337). -/
def levelIndex (va lvl : Nat) : Nat := if lvl = 0 then bitsNat va 16 5 else bitsNat va (12 + 9 * lvl) 9
def levelShift (lvl : Nat) : Nat := if lvl = 0 then 16 else 12 + 9 * lvl
def tableBytes (lvl : Nat) : Nat := if lvl = 0 then 512 else 8192

/-- Why a walk ends without a leaf: a REASON (5 NOTMAPPED, 8 PHYS), or an entry in a sealed line (R183). -/
inductive WalkStop where
  | reason (n : Nat)
  | line (l : Line)
deriving DecidableEq, Repr

/-- The walk of R338 from level `lvl` with its table at `table`. -/
def walkFrom (s : State) (pid : Nat) (x : Part) (va : Nat) : Nat → Nat → Except WalkStop Leaf
  | lvl, table =>
    let pa := table + 16 * levelIndex va lvl
    let k := memKey pid pa
    if s.lineAt pid pa 16 ≠ .clear then .error (.line (s.lineAt pid pa 16))
    else if (s.badAt k 16).isSome then .error (.reason 8)
    else
      let w : BitVec 128 := BitVec.ofNat 128 (s.readNat k 16)
      if !pteV w || pteBad w || (pteLeaf w && 3 ≤ lvl) || (!pteLeaf w && lvl = 0) then .error (.reason 5)
      else if !x.owns pa 16 then .error (.reason 8)
      else if pteLeaf w then
        .ok { key := k, word := w, base := va / 2 ^ levelShift lvl * 2 ^ levelShift lvl, size := 2 ^ levelShift lvl }
      else match lvl with
        | 0 => .error (.reason 5)
        | l + 1 => if pteAddr w % tableBytes l != 0 then .error (.reason 8) else walkFrom s pid x va l (pteAddr w)

/-- A partition's translation of a virtual address: the cached entry if one covers it (R339), else a walk. -/
def State.walk (s : State) (pid part va : Nat) : Except WalkStop Leaf :=
  match s.part pid part with
  | none => .error (.reason 5)
  | some x =>
    match (s.pkg pid).tlb.find? (fun t => t.part = part && t.base ≤ va && va < t.base + t.size) with
    | some t => .ok { key := t.key, word := t.word, base := t.base, size := t.size }
    | none => walkFrom s pid x va 4 x.root

/-- The frame check of R338 and R23: alignment, ownership, region and LOC. -/
def Leaf.frameOk (l : Leaf) (x : Part) : Bool :=
  let a := pteAddr l.word
  a % l.size = 0 && x.owns a l.size &&
  (match regionOf a with
   | some .hbm => pteLoc l.word = 0
   | some .vault => pteLoc l.word = 1 && l.size = 65536
   | some .host0 | some .host1 => pteLoc l.word = 2 && l.size = 65536
   | _ => false)

/-- Whether an entry gives an access the permissions it needs (R338). -/
def leafAllows (w : BitVec 128) : AccKind → Bool
  | .read => pteR w
  | .write => pteW w
  | .rmw | .group => pteR w && pteW w
  | .fetch => pteX w

/-- An entry with its HELD replaced, and COW with it. -/
def pteHold (w : BitVec 128) (held : BitVec 64) : BitVec 128 := pteSet w (pteAddr w) held

/-- A device update of an entry: the change `f` to the entry as memory holds it, and to every cached copy together; what software has
written in the entry's other fields stands (R339). -/
def State.editLeaf (s : State) (pid : Nat) (key : Nat) (f : BitVec 128 → BitVec 128) : State :=
  (s.deviceNat key 16 (f (BitVec.ofNat 128 (s.readNat key 16))).toNat).updPkg pid (fun p =>
    { p with tlb := p.tlb.map (fun t => if t.key = key then { t with word := f t.word } else t) })

/-! ### Windows (R345, R346) -/

/-- A window descriptor as the translation hardware holds it; absent: 32 zero bytes (R359). -/
def Part.win (x : Part) (n : Nat) : List Byte := (x.wins.get n).getD (List.replicate 32 0)
def winBase (d : List Byte) : Nat := bytesAt d 0 8
def winLen (d : List Byte) : Nat := bytesAt d 8 8
def winPerm (d : List Byte) : Nat := bytesAt d 27 1
def expPerm (d : List Byte) : Nat := bytesAt d 26 1

/-- The byte number of the first offending field of a window descriptor (R345, R359). -/
def winBad (n : Nat) (d : List Byte) : Option Nat :=
  let base := winBase d
  let len := winLen d
  if n < 256 then
    let v := (winPerm d).testBit 7
    leastByte ([(v && (base % 65536 ≠ 0 || 2 ^ 57 ≤ base), 0), (v && (len % 65536 ≠ 0 || len = 0), 8),
      (v && bytesAt d 16 8 % 65536 ≠ 0, 16), (bitsNat (winPerm d) 4 3 ≠ 0, 27), (bytesAt d 28 4 ≠ 0, 28)] : List (Bool × Nat))
  else
    let v := (expPerm d).testBit 7
    leastByte ([(v && (base % 65536 ≠ 0 || 2 ^ 57 ≤ base), 0), (v && (len % 65536 ≠ 0 || len = 0), 8),
      (bytesAt d 20 4 ≠ 0, 20), (bytesAt d 24 2 / 128 ≠ 0, 24), (bitsNat (expPerm d) 5 2 ≠ 0, 26), (bytesAt d 27 1 ≠ 0, 27),
      (bytesAt d 28 4 ≠ 0, 28)] : List (Bool × Nat))

/-- The valid outbound window that holds an address. -/
def Part.findWin (x : Part) (va : Nat) : Option (List Byte) :=
  ((x.wins.filter (fun w => w.1 < 256)).find? (fun w =>
    (winPerm w.2).testBit 7 && winBase w.2 ≤ va && va < winBase w.2 + winLen w.2)).map (·.2)

/-- Whether a PERM field allows an access (R345). -/
def permAllows (perm : Nat) : AccKind → Bool
  | .read => perm.testBit 0
  | .write => perm.testBit 1
  | .rmw => perm.testBit 2
  | .group => perm.testBit 3
  | .fetch => false

/-! ### Resolving an access (R21, R22, R338, R346) -/

/-- Who accesses: package, core, partition and level. -/
structure Who where
  pid : Nat
  core : Nat
  part : Option Nat
  level : Level
  agent : Option CtxId := none
  /-- the replay slot through which a node instance reads its parameter region (R261, R342) -/
  slot : Option Nat := none
deriving DecidableEq, Repr

/-- The replay slot of the node instance a context belongs to (R340). -/
def State.replaySlot (s : State) (id : CtxId) : Option Nat :=
  (s.ctx id).inst.bind (fun n => ((s.pkg id.pid).insts.find? (fun i => i.id = n)).map (fun i => 56 + i.replay % 8))

/-- The context in hand, or any context, as an accessor. -/
def State.whoOf (s : State) (id : CtxId) : Who :=
  { pid := id.pid, core := id.core, part := s.partOfCore id.pid id.core, level := (s.ctx id).level, agent := some id,
    slot := s.replaySlot id }

/-- One piece of an access: where it goes, and how many bytes. -/
structure Piece where
  dest : Dest
  len : Nat
deriving DecidableEq, Repr

/-- How an access resolves. -/
inductive Resolved where
  | ok (pieces : List Piece)
  | fault (reason : Nat) (addr : Word)
  /-- a write that waits on BLK (R344): partition and page -/
  | blocked (part va : Nat)
  /-- a table entry, or a page that a write has to copy, stands in a sealed line (R183) -/
  | lined (l : Line)
deriving DecidableEq, Repr

/-- Bytes from `va` up to the next 64 KiB boundary, at most `len`. -/
def pieceLen (va len : Nat) : Nat := if len ≤ 65536 - va % 65536 then len else 65536 - va % 65536

/-- A partition's own page tables (R338), one piece within one 64 KiB page. -/
def State.viaTables (s : State) (pid part : Nat) (kind : AccKind) (va len : Nat) : Resolved :=
  match s.part pid part, s.walk pid part va with
  | some x, .ok l =>
    if !l.frameOk x then .fault 8 (BitVec.ofNat 64 va)
    else if !leafAllows l.word kind then .fault 6 (BitVec.ofNat 64 va)
    else if kind = .group && pteLoc l.word = 2 then .fault 9 (BitVec.ofNat 64 va)
    else if (kind = .write || kind = .rmw || kind = .group) && pteBlk l.word then .blocked part (va / 65536 * 65536)
    else .ok [{ dest := .phys pid (pteAddr l.word + (va - l.base)), len := len }]
  | _, .error (.reason e) => .fault e (BitVec.ofNat 64 va)
  | _, .error (.line l) => .lined l
  | none, _ => .fault 5 (BitVec.ofNat 64 va)

/-- The local aperture (R22): an address outside it faults APERTURE, a run past the end of the scratchpad it names
RANGE (R194). -/
def viaAperture (w : Who) (a len : Nat) : Resolved :=
  let off := a % 0x100000
  if a / 0x100000 = 0xFFFFFFFFF00 ∨ (0xFFFFFFFFF8000000 ≤ a ∧ a < 0xFFFFFFFFF8800000) then
    let c := if a / 0x100000 = 0xFFFFFFFFF00 then w.core else w.core / 8 * 8 + a / 0x100000 % 8
    if 0x100000 < off + len then .fault 1 (BitVec.ofNat 64 (a / 0x100000 * 0x100000 + 0x100000))
    else .ok [{ dest := .phys w.pid (spadBase + c * 0x100000 + off), len := len }]
  else .fault 4 (BitVec.ofNat 64 a)

/-- A device-level context's physical address (R21, R23): an access that runs from one home's bytes into another's, host port 0's
into port 1's or one field's vaults into the next one's, has a piece in each. -/
def viaPhysical (w : Who) (kind : AccKind) (a len : Nat) : Resolved :=
  match regionOf a, regionOf (a + len - 1) with
  | some r, some _ =>
    if kind = .group && r ≠ .hbm && r ≠ .vault then .fault 9 (BitVec.ofNat 64 a)
    else if r = .spad && 0x100000 < a % 0x100000 + len then .fault 1 (BitVec.ofNat 64 (a / 0x100000 * 0x100000 + 0x100000))
    else
      let cut := (a + len - 1) / 2 ^ 30 * 2 ^ 30
      if homeOf w.pid a = homeOf w.pid (a + len - 1) then .ok [{ dest := .phys w.pid a, len := len }]
      else .ok [{ dest := .phys w.pid a, len := cut - a }, { dest := .phys w.pid cut, len := a + len - cut }]
  | some _, none =>
    .fault 8 (BitVec.ofNat 64 (a + ((List.range len).find? (fun i => (regionOf (a + i)).isNone)).getD 0))
  | none, _ => .fault 8 (BitVec.ofNat 64 a)

/-- Whether a slot's range holds an address (R340). -/
def Part.inSlot (x : Part) (slot va : Nat) : Bool :=
  match x.slots.get slot with
  | some r => r.state ≠ .free && r.base ≤ va && va < r.base + r.len
  | none => false

/-- The log record of a page whose MASK has bit `slot` (R342): its frame. -/
def State.slotFrame (s : State) (pid : Nat) (x : Part) (slot page : Nat) : Option Nat :=
  ((List.range x.logcap).find? (fun i =>
    let k := memKey pid (x.logbase + 32 * i)
    s.readNat k 8 = page && (s.readNat (k + 16) 8).testBit slot)).map
    (fun i => s.readNat (memKey pid (x.logbase + 32 * i) + 8) 8)

/-- An access by a node instance within its replay's parameter region: reads see the snapshot, writes fault PERM
(R342). -/
def State.viaReplay (s : State) (pid part : Nat) (slot : Option Nat) (kind : AccKind) (va len : Nat) : Resolved :=
  match slot, s.part pid part with
  | some n, some x =>
    if x.inSlot n va then
      (if kind = .read || kind = .fetch then
        match s.viaTables pid part kind va len, s.walk pid part va with
        | .ok ps, .ok l =>
          if (pteHeld l.word).getLsbD n then .ok ps
          else match s.slotFrame pid x n (va / 65536 * 65536) with
            | some f =>
              if f % 65536 = 0 && x.owns f 65536 then .ok [{ dest := .phys pid (f + va % 65536), len := len }]
              else .fault 8 (BitVec.ofNat 64 va)
            | none => .ok ps
        | r, _ => r
      else .fault 6 (BitVec.ofNat 64 va))
    else s.viaTables pid part kind va len
  | _, _ => s.viaTables pid part kind va len

/-- Appends the pieces of a later part of an access. -/
def Resolved.append (a : Resolved) (b : Resolved) : Resolved :=
  match a, b with
  | .ok x, .ok y => .ok (x ++ y)
  | .ok _, r => r
  | r, _ => r

/-- A translated range, page by page (`fuel` pages at most). -/
def State.translated (s : State) (w : Who) (kind : AccKind) : Nat → Nat → Nat → Resolved
  | 0, _, _ => .ok []
  | fuel + 1, va, len =>
    if len = 0 then .ok []
    else
      let n := pieceLen va len
      match w.part with
      | none => .fault 5 (BitVec.ofNat 64 va)
      | some p =>
        match (s.part w.pid p).bind (fun x => x.findWin va) with
        | some d =>
          let fin := winBase d + winLen d
          if fin < va + len then .fault 7 (BitVec.ofNat 64 fin)
          else if !permAllows (winPerm d) kind then .fault 6 (BitVec.ofNat 64 va)
          else .ok [{ dest := .exposure (bytesAt d 24 2 % 1024) (bytesAt d 24 2 / 1024) (bytesAt d 26 1)
                                (bytesAt d 16 8 + (va - winBase d)), len := len }]
        | none => (s.viaReplay w.pid p w.slot kind va n).append (s.translated w kind fuel (va + n) (len - n))

/-- An access of `len` bytes at an effective address (R21), nothing yet changed. A run past the last address of the form faults there,
behind what its earlier bytes meet (R195). -/
def State.resolve (s : State) (w : Who) (kind : AccKind) (ea : Word) (len : Nat) : Resolved :=
  let a := ea.toNat
  if a / 2 ^ 28 = 0xFFFFFFFFF then viaAperture w a len
  else if a / 2 ^ 57 ≠ 0 then .fault 3 ea
  else
    let n := if 2 ^ 57 < a + len then 2 ^ 57 - a else len
    let r := if w.level = .device then viaPhysical w kind a n else s.translated w kind (n / 65536 + 2) a n
    if n = len then r else r.append (.fault 3 (BitVec.ofNat 64 (2 ^ 57)))

/-! ### Copy on write and access counters (R341, R343) -/

/-- The free log record's key, if there is one (R341). -/
def Part.freeLog (x : Part) (s : State) (pid : Nat) : Option Nat :=
  ((List.range x.logcap).find? (fun i => s.readNat (memKey pid (x.logbase + 32 * i) + 16) 8 = 0)).map
    (fun i => memKey pid (x.logbase + 32 * i))

/-- The releases that the values of `n` bytes at `k` carry, as a copy of the bytes at `k'` carries them (R167). -/
def State.relsMoved (s : State) (k n k' : Nat) : List RelMark :=
  (s.rels.filter (fun r => meets r.key r.len k n)).map (fun r =>
    let lo := Nat.max r.key k
    { r with key := k' + (lo - k), len := Nat.min (r.key + r.len) (k + n) - lo })

/-- The page-walk unit copies bytes of one frame to another: a write tracked for no agent, whose values carry the releases they carried
(R167, R187). -/
def State.copyPage (s : State) (pid src dst n : Nat) : State :=
  let t := s.deviceBytes (memKey pid dst) (s.readBytes (memKey pid src) n)
  { t with rels := t.rels ++ s.relsMoved (memKey pid src) n (memKey pid dst) }

/-- Staged bytes of open groups on a page follow it to its new frame: they are published where the page then stands (R182, R184). -/
def State.moveStaged (s : State) (pid src dst : Nat) : State :=
  let k := memKey pid src
  s.updPkg pid (fun p => { p with groups := p.groups.map (fun (g : Nat × GroupRec) => (g.1, { g.2 with
    units := g.2.units.map (fun u => { u with
      cells := u.cells.map (fun c => if k ≤ c.1 && c.1 < k + 65536 then (memKey pid dst + (c.1 - k), c.2) else c)
      bad := u.bad.map (fun x => if k ≤ x && x < k + 65536 then memKey pid dst + (x - k) else x) }) })) })

/-- A write to a page with COW set (R341): a frame is popped, the old one logged, the page copied, the entry switched: the frame
the write is performed on. Or the reason of the MEMFAULT: 6 PERM (frame pool or log exhausted, with its record), 8 PHYS (a popped
frame that is not owned). -/
def State.cowBreak (s : State) (pid part : Nat) (l : Leaf) (agent : Nat) : State × Except Nat Nat :=
  match s.part pid part with
  | none => (s, .error 5)
  | some x =>
    let pool := memKey pid x.poolbase
    let put := s.readNat pool 8
    let take := s.readNat (pool + 8) 8
    if put = take ∨ x.poolcap = 0 then (s.post pid part 4 l.base 0 agent, .error 6)
    else
      let f := s.readNat (pool + 64 + 8 * (take % x.poolcap)) 8
      let s := s.deviceNat (pool + 8) 8 ((take + 1) % 2 ^ 64)
      match x.freeLog s pid with
      | none => (s.post pid part 5 l.base 0 agent, .error 6)
      | some r =>
        if f % 65536 ≠ 0 ∨ !x.owns f 65536 then (s, .error 8)
        else
          let s := (s.copyPage pid (pteAddr l.word) f 65536).moveStaged pid (pteAddr l.word) f
          let s := s.deviceBytes r (leBytes 8 l.base ++ leBytes 8 (pteAddr l.word) ++ leBytes 8 (pteHeld l.word).toNat)
          (s.editLeaf pid l.key (fun w => pteSet w f 0), .ok f)

/-- CNT of an entry (R337). -/
def cntSet (w : BitVec 128) (n : Nat) : BitVec 128 := (w &&& ~~~((0xFFFFFFFF : BitVec 128) <<< 64)) ||| (BitVec.ofNat 128 (n % 2 ^ 32) <<< 64)

/-- Adds an access's granules to a counted host page's CNT, as the entry in memory then holds it, posting COUNTER on crossing
CTHRESH (R343). No other bit of the entry is written. -/
def State.countAccess (s : State) (pid part : Nat) (l : Leaf) (va len agent : Nat) : State :=
  if pteLoc l.word = 2 && pteCnte l.word && (s.pkg pid).features.getLsbD 2 then
    match s.part pid part with
    | none => s
    | some x =>
      let old := s.readNat (l.key + 8) 4
      let new := Nat.min (2 ^ 32 - 1) (old + ((va + len - 1) / 256 - va / 256 + 1))
      let s := (s.deviceNat (l.key + 8) 4 new).updPkg pid (fun p =>
        { p with tlb := p.tlb.map (fun t => if t.key = l.key then { t with word := cntSet t.word new } else t) })
      if old < x.cthresh && x.cthresh ≤ new then s.post pid part 16 (va / 65536 * 65536) new agent else s
  else s

/-- What a translated access does to its page before it is performed: the copy of R341 for a write, the count of R343. The frame of a
page that was copied, or why the access does not go on: a page with a sealed line is copied once the line is released (R183). COW of a
2 MiB or 1 GiB leaf has no effect (log entry 61). -/
def State.touch (s : State) (pid part : Nat) (kind : AccKind) (va len agent : Nat) : State × Except Resolved (Option Nat) :=
  match s.walk pid part va with
  | .error (.reason e) => (s, .error (.fault e (BitVec.ofNat 64 va)))
  | .error (.line l) => (s, .error (.lined l))
  | .ok l =>
    if (kind = .write || kind = .rmw || kind = .group) && pteCow l.word && l.size = 65536 then
      if s.lineAt pid (pteAddr l.word) 65536 ≠ .clear then (s, .error (.lined (s.lineAt pid (pteAddr l.word) 65536)))
      else match s.cowBreak pid part l agent with
        | (s, .ok f) => (s, .ok (some f))
        | (s, .error e) => (s, .error (.fault e (BitVec.ofNat 64 va)))
    else (s.countAccess pid part l va len agent, .ok none)

/-- Whether an address lies in one of a partition's outbound windows. -/
def State.inWindow (s : State) (pid part va : Nat) : Bool := ((s.part pid part).bind (fun x => x.findWin va)).isSome

/-- Touches every page of a range that a partition's own tables translate, from the first on; with `win`, the part in an outbound
window is left to its target. The pages copied with their new frames, or why the access does not go on. -/
def State.touchAll (s : State) (pid part : Nat) (kind : AccKind) (agent : Nat) (win : Bool) :
    Nat → Nat → Nat → State × Except Resolved (List (Nat × Nat))
  | 0, _, _ => (s, .ok [])
  | fuel + 1, va, len =>
    if len = 0 ∨ (win ∧ s.inWindow pid part va) then (s, .ok [])
    else
      let n := pieceLen va len
      match s.touch pid part kind va n agent with
      | (s, .error e) => (s, .error e)
      | (s, .ok f) =>
        match s.touchAll pid part kind agent win fuel (va + n) (len - n) with
        | (s, .ok m) => (s, .ok (match f with
          | some f => (va / 65536, f) :: m
          | none => m))
        | r => r

/-- The pieces of an access at `va` whose copied pages are performed on their new frames (R341). -/
def movePieces (moved : List (Nat × Nat)) : Nat → List Piece → List Piece
  | _, [] => []
  | va, p :: ps =>
    (match moved.find? (fun m => m.1 = va / 65536), p.dest with
     | some m, .phys pid _ => { p with dest := .phys pid (m.2 + va % 65536) }
     | _, _ => p) :: movePieces moved (va + p.len) ps

/-- The partition whose page tables an access goes through: below device level, in the first form of R21. -/
def ownPages (w : Who) (ea : Word) : Option Nat := if w.level = .device ∨ ea.toNat / 2 ^ 57 ≠ 0 then none else w.part

/-- Resolves an access and makes the page changes it needs (COW, counts): the state and how it resolves then. -/
def State.access (s : State) (w : Who) (kind : AccKind) (ea : Word) (len : Nat) : State × Resolved :=
  match s.resolve w kind ea len, ownPages w ea with
  | .ok ps, some p =>
    let agent := (w.agent.map s.agentOf).getD (agentOfField (fieldOf w.core))
    (match s.touchAll w.pid p kind agent true (len / 65536 + 2) ea.toNat len with
     | (s, .error r) => (s, r)
     | (s, .ok m) => (s, .ok (movePieces m ea.toNat ps)))
  | r, _ => (s, r)

/-! ### The target of a window access (R346) -/

/-- Whether an exposure admits an access (R346): partition and exposure valid, source PID and partition allowed, range
inside, kind permitted (`kindOk` of its PERM). -/
def State.exposureOk (s : State) (tpid tpart texp off len : Nat) (kindOk : Nat → Bool) (spid : Nat) (spart : Option Nat) :
    Bool :=
  match s.part tpid tpart with
  | none => false
  | some x =>
    let d := x.win (256 + texp)
    (expPerm d).testBit 7 && bytesAt d 16 2 ≤ spid && spid ≤ bytesAt d 18 2 &&
    ((bytesAt d 24 2).testBit 6 || spart = some (bytesAt d 24 2 % 64)) &&
    off + len ≤ winLen d && kindOk (expPerm d)

/-- A range translated page by page through a partition's own tables alone (R346, R353). -/
def State.ownRange (s : State) (pid part : Nat) (kind : AccKind) : Nat → Nat → Nat → Resolved
  | 0, _, _ => .ok []
  | fuel + 1, va, n =>
    if n = 0 then .ok []
    else (s.viaTables pid part kind va (pieceLen va n)).append (s.ownRange pid part kind fuel (va + pieceLen va n) (n - pieceLen va n))

/-- A window access at its target: checked against the exposure, then translated by the target partition's page tables, COW, BLK
and counters included (R346). What the exposure refuses is counted per exposure, a translation fault
behind it is not (DEDUCED, log entry 115); a refusal leaves the target's memory and queues as they were. -/
def State.atTarget (s : State) (tpid tpart texp off len : Nat) (kind : AccKind) (spid : Nat) (spart : Option Nat) :
    State × Resolved :=
  if s.exposureOk tpid tpart texp off len (fun p => permAllows p kind) spid spart then
    match s.part tpid tpart with
    | none => (s, .fault 7 0)
    | some x =>
      let va := winBase (x.win (256 + texp)) + off
      match s.ownRange tpid tpart kind (len / 65536 + 2) va len with
      | .ok ps =>
        (match s.touchAll tpid tpart kind (agentOfField x.lowestField) false (len / 65536 + 2) va len with
         | (_, .error r) => (s, r)
         | (s, .ok m) => (s, .ok (movePieces m va ps)))
      | r => (s, r)
  else ((s.count tpid (1000 + tpart * 256 + texp)), .fault 6 0)

/-- An access by a unit of the device for an accessor: the pieces it reaches, windows checked at their target. -/
def State.unitAccess (s : State) (w : Who) (kind : AccKind) (va : Word) (n : Nat) : State × Resolved :=
  match s.access w kind va n with
  | (s, .ok ps) =>
    ps.foldl (fun (r : State × Resolved) p => match r.2, p.dest with
      | .ok qs, .phys .. => (r.1, .ok (qs ++ [p]))
      | .ok qs, .exposure tpid tpart texp off =>
        (match r.1.atTarget tpid tpart texp off p.len kind w.pid w.part with
         | (s, .ok more) => (s, .ok (qs ++ more))
         | (s, .blocked q v) => (s, .blocked q v)
         | (s, .lined l) => (s, .lined l)
         | (s, .fault ..) => (s, .fault 7 va))
      | _, _ => r) (s, .ok [])
  | r => r

end Sys2Proof.Machine
end

