-- ==== Sys2Proof/Machine/Boot.lean ====
section
/-! DEFINITION. The device control space and the steps of bring-up: Erlimel, control and resource blocks, context start
words, islands (R3, R28 to R30, R331 to R334, R349, R354, R355, R367). -/

namespace Sys2Proof.Machine

/-! ### Context states (R248) -/

/-- The step an island runs at: 4 while heat forces it (R16, R30). -/
def Island.eff (i : Island) : Nat := if i.forced then 4 else i.step

/-- Whether a core's field is halted by the debugger or lost, its island halted by heat, or the core itself has stopped (R30, R377,
R400, R401): its contexts and its quill stand still. -/
def State.coreDead (s : State) (pid core : Nat) : Bool :=
  let p := s.pkg pid
  (p.field (fieldOf core)).halted || (p.field (fieldOf core)).lost || (p.island (bayOf core)).halted || (s.core pid core).stopped

/-- Whether an island skips a device cycle (R16, R30): at step n an island skips n of every 8 cycles, spread evenly. -/
def Island.skipsAt (i : Island) (cycle : Nat) : Bool :=
  i.halted || (i.eff ≠ 0 && (cycle + Config.skipPhase i.eff) * i.eff % 8 < i.eff)
/-- Whether a core's island skips this cycle. -/
def State.skips (s : State) (pid core : Nat) : Bool :=
  ((s.pkg pid).island (bayOf core)).skipsAt (s.pkg pid).cycle.toNat

/-- The device cycle of the `k`-th pipeline cycle after a device cycle, no freeze lying between (R16, R39). -/
def Island.cycleAfter (i : Island) : Nat → Nat → Nat → Nat
  | 0, c, _ => c
  | _ + 1, c, 0 => c
  | fuel + 1, c, k + 1 => if i.skipsAt (c + 1) then i.cycleAfter fuel (c + 1) (k + 1) else i.cycleAfter fuel (c + 1) k

/-- Whether a core's pipeline advances (R16, R39, R206, R270, R377, R400). -/
def State.advances (s : State) (pid core : Nat) : Bool :=
  (s.core pid core).swap = .running && (s.core pid core).freeze = [] && !s.coreDead pid core && !s.skips pid core

/-- Whether a core is being restored: the state that it is to hold is still parked in its image. -/
def Swap.restores : Swap → Bool
  | .restoring _ => true
  | _ => false

/-- STATE of R29: 0 READY, 1 STALLED, 2 WAITING, 3 FROZEN, 4 PARKED, 5 HALTED. -/
def State.stateCode (s : State) (id : CtxId) : Nat :=
  let k := s.core id.pid id.core
  let c := s.ctx id
  if k.swap = .parked || k.swap.restores || c.parkMark then 4
  else if c.halted then 5
  else if k.freeze ≠ [] || s.coreDead id.pid id.core then 3
  else if c.waiting then 2
  else if c.stall ≠ 0 then 1
  else 0

/-! ### Start words (R29) -/

/-- A write of a START word. -/
def State.startContext (s : State) (id : CtxId) (v : Word) : State :=
  let lvl := (v.extractLsb' 57 2).toNat
  if v.getLsbD 63 && v.extractLsb' 59 4 = 0 && lvl ≠ 3 && s.stateCode id = 5 &&
     (lvl = 2 || (s.partOfCore id.pid id.core).isSome) then
    s.updCtx id (fun c => { c with halted := false, waiting := false, stall := 0, age := 0, level := levelOf lvl,
                                   pc := v &&& 0x01FFFFFFFFFFFFFF, npc := v &&& 0x01FFFFFFFFFFFFFF })
  else s

/-! ### Erlimel (R354, R355) -/

/-- OFFER0: GRPCOMMIT, SNAPSHOT, HOSTCNT. -/
def offer0 : Word := 7

/-- A write of an ACCEPT register: ignored once STATUS is 1. -/
def State.writeAccept (s : State) (pid n : Nat) (v : Word) : State :=
  s.updPkg pid (fun p => if p.erlStatus = 1 then p
    else { p with accept := p.accept.set (n % 4) v (Nat.mod_lt _ (by decide)) })

/-- A write of CTL: with GO, the accepted set is fixed, or STATUS becomes 2. -/
def State.writeCtl (s : State) (pid : Nat) (v : Word) : State :=
  s.updPkg pid (fun p =>
    if p.erlStatus = 1 ∨ v ≠ 1 then p
    else if p.accept[0] &&& ~~~offer0 ≠ 0 ∨ p.accept[1] ≠ 0 ∨ p.accept[2] ≠ 0 ∨ p.accept[3] ≠ 0 then
      { p with erlStatus := 2 }
    else { p with erlStatus := 1, features := p.accept[0] })

/-! ### Control and resource blocks (R331 to R334) -/

/-- A partition's fields as its control block would give them. -/
def Part.ofBlock (b q : List Byte) : Part :=
  { block := b, quota := q, wins := [], slots := [], latches := [], header := none, requested := 0, started := 0 }

/-- A structure named by a control block lies wholly in owned HBM or vault memory (R334). -/
def Part.holds (x : Part) (pa len : Nat) : Bool :=
  len = 0 || (x.owns pa len && (regionOf pa = some .hbm || regionOf pa = some .vault))

/-- The "0, checked" fields of a control block are zero (R3, R332). -/
def blockReserved (b : List Byte) : Bool :=
  b.length = 256 && bytesAt b 55 1 = 0 && (List.range 8).all (fun i => bytesAt b (108 + 16 * i) 4 = 0)

/-- The value column of R332, and blocks of group numbers that end within the 1,024 multicast groups and the 65,536 group numbers (DEDUCED,
log entry 113: R332 bounds base and count one by one). -/
def Part.blockOk (x : Part) : Bool :=
  bytesAt x.block 94 2 ≤ 1024 && x.mbase ≤ 1023 && x.mbase + x.mcount ≤ 1024 && x.gbase + x.gcount ≤ 65536 &&
  1 ≤ x.blktmo && 1 ≤ x.cthresh && x.logbase % 32 = 0 && x.logcap ≤ 2 ^ 20 && x.poolcap ≤ 2 ^ 20 &&
  x.poolbase % 64 = 0 && 1 ≤ x.nvec && x.nvec ≤ 32 && x.vecbase ≤ 2047 && x.nqvec < x.nvec && x.fqvec < x.nvec &&
  6 ≤ x.nqlog && x.nqlog ≤ 16 && 6 ≤ x.fqlog && x.fqlog ≤ 16 && x.nqbase % 64 = 0 && x.fqbase % 64 = 0 &&
  x.wtab % 16384 = 0 && x.root % 8192 = 0 &&
  (List.range 2).all (fun i => bytesAt x.block (224 + 16 * i) 8 % 65536 = 0 && bytesAt x.block (232 + 16 * i) 8 % 65536 = 0)

/-- Every structure a control block names is owned (R334). -/
def Part.structsOk (x : Part) : Bool :=
  x.holds x.root 8192 && x.holds x.wtab 16384 && x.holds x.fqbase (64 + 32 * 2 ^ x.fqlog) &&
  x.holds x.nqbase (64 + 32 * 2 ^ x.nqlog) && x.holds x.logbase (32 * x.logcap) && x.holds x.poolbase (64 + 8 * x.poolcap)

/-- A control block names no bay of another partition (R331). -/
def baysFree (p : Pkg) (part : Nat) (x : Part) : Bool :=
  p.parts.all (fun y => y.1 = part || bytesAt y.2.block 0 16 &&& bytesAt x.block 0 16 = 0)

/-- The 512 window descriptors as memory at WTAB holds them, nonzero ones kept (log entry 7). One that breaks a rule of R345 is
rejected, and nothing in it takes effect (R3). Valid windows that overlap are all loaded; an address in several is the lowest-numbered
one's (DESIGN CHOICE, log entry 114). -/
def State.loadWindows (s : State) (pid wtab : Nat) : NMap (List Byte) :=
  (List.range 512).foldr (fun n (m : NMap (List Byte)) =>
    let d := s.readBytes (memKey pid (wtab + 32 * n)) 32
    if d.all (· = 0) || (winBad n d).isSome then m else (n, d) :: m) []

/-- Bytes of a vault that hold partition data: what the shadow slots of eight cores and 2 MiB of staging leave (R15). -/
def vaultData (slots : Nat) : Nat := 0x4000000 - (8 * slots * 1680 * 1024 + 0x200000)

/-- A partition as a control block and its resource block would make it in a package. -/
def Pkg.partOf (p : Pkg) (part : Nat) (b : List Byte) : Part :=
  { Part.ofBlock b ((p.quotas.get part).getD (List.replicate 64 0)) with data := vaultData p.slotsPerCore }

/-- Whether a partition's quotas, with those of every other valid partition, are within the capacities of R10, R15 and R304
(R333). -/
def quotasFit (p : Pkg) (part : Nat) (x : Part) : Bool :=
  let others := p.parts.filter (fun y => y.1 ≠ part)
  let sum (f : Part → Nat) : Nat := (others.map (fun y => f y.2)).sum + f x
  sum Part.stgq ≤ 128 && sum Part.cmbq ≤ 4096 && sum Part.fhoopq ≤ 256 && sum Part.shoopq ≤ 1024

/-- A control block written whole: ignored with a reserved bit set (R3), refused when it fails validation, its resource block's
included (R333), and otherwise the partition stands as it says. -/
def State.writeBlock (s : State) (pid part : Nat) (b : List Byte) : State :=
  let p := s.pkg pid
  let old := p.parts.get part
  let x := p.partOf part b
  if !blockReserved b || 64 ≤ part then s
  else if !x.blockOk || !baysFree p part x || !x.structsOk then s.event pid (.blockRefused part)
  else if !quotasFit p part x then s.event pid (.quotaRefused part)
  else s.setPkg pid { p with parts := p.parts.put part (some { x with
    wins := s.loadWindows pid x.wtab
    slots := (old.map (·.slots)).getD []
    latches := (old.map (·.latches)).getD []
    header := old.bind (·.header)
    requested := (old.map (·.requested)).getD 0
    started := (old.map (·.started)).getD 0 }) }

/-- A resource block written whole: ignored with a reserved bit set, refused when the quotas of the valid partitions
would exceed a capacity of R10, R15 or R304 (R333). -/
def State.writeQuota (s : State) (pid part : Nat) (b : List Byte) : State :=
  let p := s.pkg pid
  if b.length ≠ 64 ∨ bytesAt b 8 56 ≠ 0 ∨ 64 ≤ part then s
  else if !quotasFit p part (Part.ofBlock [] b) then s.event pid (.quotaRefused part)
  else (s.setPkg pid { p with quotas := p.quotas.put part (some b) }).updPart pid part (fun y => { y with quota := b })

/-! ### The control space as memory -/

/-- Where the control space reports that bring-up stopped at step 2 (R28 places no register for it; DESIGN CHOICE, log entry 2). -/
def bringUpStatus : Nat := 0x50

/-- A word of the control space as it reads (R3, R29, R354). A START word, which R29 makes write only, reads 0 (DESIGN CHOICE, log entry 2). -/
def State.ctlWord (s : State) (pid off : Nat) : Word :=
  let p := s.pkg pid
  if off < 0x20 then (if off / 8 = 0 then offer0 else 0)
  else if off < 0x40 then p.accept[off / 8 % 4]'(Nat.mod_lt _ (by decide))
  else if off / 8 = 8 then 0
  else if off / 8 = 9 then p.erlStatus
  else if off / 8 = bringUpStatus / 8 then (if p.events.contains .bringUpFailed then 1 else 0)
  else if 0x10000 ≤ off ∧ off < 0x14000 then
    BitVec.ofNat 64 (bytesAt (((p.parts.get ((off - 0x10000) / 256)).map (·.block)).getD []) (off % 256 / 8 * 8) 8)
  else if 0x14000 ≤ off ∧ off < 0x15000 then
    BitVec.ofNat 64 (bytesAt ((p.quotas.get ((off - 0x14000) / 64)).getD []) (off % 64 / 8 * 8) 8)
  else if 0x40000 ≤ off ∧ off < 0x50000 then
    let n := (off - 0x40000) / 16
    if off / 8 % 2 = 1 then BitVec.ofNat 64 (s.stateCode ⟨pid, n / 4, n % 4⟩) else 0
  else (p.ctl.get (off / 8)).getD 0

/-- A write of a register with no behaviour of its own. -/
def State.writePlain (s : State) (pid off : Nat) (v : Word) : State :=
  s.updPkg pid (fun p => { p with ctl := p.ctl.put (off / 8) (some v) })

/-- An 8-byte write to the control space, by offset. A write of a word that only reads (an offered feature word, STATUS, a STATE word
of R29) is dropped (DESIGN CHOICE, log entry 2). -/
def State.ctlWrite (s : State) (pid off : Nat) (v : Word) : State :=
  if off < 0x20 ∨ off / 8 = 9 ∨ off / 8 = bringUpStatus / 8 then s
  else if off < 0x40 then s.writeAccept pid (off / 8 % 4) v
  else if off / 8 = 8 then s.writeCtl pid v
  else if 0x10000 ≤ off ∧ off < 0x15000 then s
  else if 0x40000 ≤ off ∧ off < 0x50000 then
    let n := (off - 0x40000) / 16
    if off / 8 % 2 = 0 then s.startContext ⟨pid, n / 4, n % 4⟩ v else s
  else s.writePlain pid off v

/-- Bytes written to the control space: a whole control or resource block, or aligned words (log entry 8). -/
def State.ctlBytes (s : State) (pid off : Nat) (bs : List Byte) : State :=
  if bs.length = 256 ∧ off % 256 = 0 ∧ 0x10000 ≤ off ∧ off < 0x14000 then s.writeBlock pid ((off - 0x10000) / 256) bs
  else if off % 64 = 0 ∧ 0x14000 ≤ off ∧ off < 0x15000 ∧ bs.length % 64 = 0 then
    (List.range (bs.length / 64)).foldl (fun s i =>
      s.writeQuota pid ((off - 0x14000) / 64 + i) ((bs.drop (64 * i)).take 64)) s
  else if off % 8 = 0 ∧ bs.length % 8 = 0 then
    (List.range (bs.length / 8)).foldl (fun s i => s.ctlWrite pid (off + 8 * i) (BitVec.ofNat 64 (bytesAt bs (8 * i) 8))) s
  else s

/-- Bytes read from the control space. -/
def State.ctlRead (s : State) (pid off n : Nat) : List Byte :=
  (List.range n).map (fun i =>
    BitVec.ofNat 8 ((s.ctlWord pid ((off + i) / 8 * 8)).toNat >>> (8 * ((off + i) % 8))))

/-! ### Routes (R281, R351) -/

/-- Whether the direct link between two packages carries traffic: both are brought up, without which no link trains, and neither end is
locked (R28, R350, R351). -/
def State.directLink (s : State) (a b : Nat) : Bool :=
  (s.pkg a).up && (s.pkg b).up && !((s.pkg a).port (Config.routePort a b)).locked && !((s.pkg b).port (Config.routePort b a)).locked

/-- A route within a pod: the direct link, or past a third member on L0 and L1 (R351). -/
def State.podRoute (s : State) (a b : Nat) : Bool :=
  s.directLink a b || (List.range 32).any (fun i =>
    let c := 32 * (a / 32) + i
    c ≠ a && c ≠ b && s.directLink a c && s.directLink c b)

/-- A route between pods: one global link that has trained and is not locked, and a local hop at each end where the link is another member's
(R281, R351). -/
def State.globalRoute (s : State) (a b : Nat) : Bool :=
  ((Config.globalLinks (a / 32) (b / 32)).zip (Config.globalLinks (b / 32) (a / 32))).any (fun l =>
    let x := 32 * (a / 32) + l.1.1
    let y := 32 * (b / 32) + l.2.1
    (s.pkg x).up && (s.pkg y).up && !((s.pkg x).port l.1.2).locked && !((s.pkg y).port l.2.2).locked &&
    (x = a || s.directLink a x) && (y = b || s.directLink y b))

/-- Whether some route joins two packages (R351): in a flat mesh, the direct link alone. -/
def State.route (s : State) (a b : Nat) : Bool :=
  a = b || (if (s.pkg a).flatMesh then s.directLink a b
    else if a / 32 = b / 32 then s.podRoute a b else s.globalRoute a b)

end Sys2Proof.Machine
end

