-- ==== Sys2Proof/Machine/Perform.lean ====
section
/-! DEFINITION. Performing an access at its home: sealed lines, physical reads and writes, duplicate suppression, and the
answers that reach a source (R24, R183, R192, R208, R272, R274, R394, R397, R399). -/

namespace Sys2Proof.Machine

/-! ### Physical accesses -/

/-- Whether a core is being saved or restored: a device-level access to its scratchpad waits (R24). -/
def Core.moving (c : Core) : Bool :=
  match c.swap with
  | .saving _ | .restoring _ => true
  | _ => false

/-- An access by device level to a scratchpad that is being saved or restored (R24). -/
def State.spadBusy (s : State) (pid pa : Nat) : Bool :=
  match spadCore pa with
  | some c => (s.core pid c).moving
  | none => false

/-- An access bound for a scratchpad of an owner epoch that is neither in the core nor in any image: its state has been discarded
(R274, R391). -/
def State.epochLost (s : State) (epoch pid pa : Nat) : Bool :=
  match spadCore pa with
  | some c => epoch ≠ (s.core pid c).epoch && !(s.pkg pid).images.any (fun (i : Nat × Image) => i.2.core = c && i.2.epoch = epoch)
  | none => false

/-- Host memory (R23). -/
def isHost (pa : Nat) : Bool := regionOf pa = some .host0 || regionOf pa = some .host1

/-- Bytes at a physical address, the control space included. -/
def State.physBytes (s : State) (pid pa n : Nat) : List Byte :=
  if regionOf pa = some .ctl then s.ctlRead pid (pa - ctlBase) n else s.readData (memKey pid pa) n

/-- Whether a home is near to a core: its own field (R163). -/
def nearTo (id : CtxId) (h : Home) : Bool := h = .field id.pid (fieldOf id.core)

/-! ### A context's own accesses under way (R165, R170, R174, R193) -/

/-- The kind of access and the bytes of a message's body. -/
def Body.access : Body → AccKind × Nat
  | .load _ _ n => (.read, n)
  | .group _ bs .. => (.group, bs.length)
  | .accum _ _ _ z _ _ _ => (.rmw, z)
  | .store _ bs _ => (.write, bs.length)
  | .flsig _ bs _ => (.write, bs.length)
  | _ => (.read, 0)

/-- A store or signal, or with `reads` also an `ldt`, that a context has under way; its chains are the quill's. -/
def Msg.ownOf (m : Msg) (ident : Nat) (reads : Bool) : Bool :=
  !m.src.chain && m.src.ident = ident && (match m.body with
    | .store .. | .flsig .. => true
    | .load .. => reads
    | _ => false)

/-- Whether a message's access may touch some bytes; a window access is looked up at its target. -/
def State.msgMeets (s : State) (m : Msg) (pid pa n : Nat) : Bool :=
  let len := m.body.access.2
  match m.body.dest with
  | some (.phys p a) => p = pid && meets a len pa n
  | some (.exposure tp tpart texp off) => tp = pid &&
    (match (s.part tp tpart).map (fun x => s.ownRange tp tpart .read 4 (winBase (x.win (256 + texp)) + off) len) with
     | some (.ok ps) => ps.any (fun p => match p.dest with
       | .phys _ a => meets a p.len pa n
       | .exposure .. => true)
     | _ => true)
  | none => false

/-- The pieces that a piece of a context's access reaches within its own package: itself, or for a window access that its target admits,
what the target's page tables give. -/
def State.windowed (s : State) (id : CtxId) (w : Bool) (p : Piece) : List Piece :=
  match p.dest with
  | .phys .. => [p]
  | .exposure tp tpart texp off =>
    let kind : AccKind := if w then .write else .read
    if tp = id.pid && s.exposureOk tp tpart texp off p.len (fun k => permAllows k kind) id.pid (s.partOfCore id.pid id.core) then
      match (s.part tp tpart).map (fun x => s.ownRange tp tpart kind (p.len / 65536 + 2) (winBase (x.win (256 + texp)) + off) p.len) with
      | some (.ok ps) => ps
      | _ => []
    else []

/-- Whether an access of a context that touches some bytes is still under way: a near access of those bytes waits for it (R165,
R170). -/
def State.ownMeets (s : State) (id : CtxId) (reads : Bool) (pid pa n : Nat) : Bool :=
  s.net.any (fun m => m.ownOf (s.identOf id) reads && s.msgMeets m pid pa n)

/-- A message that may be performed in its sender's own field (R163). -/
def Msg.near (m : Msg) : Bool :=
  match m.body.dest with
  | some (.phys p a) => homeOf p a = .field m.src.id.pid (fieldOf m.src.id.core)
  | some (.exposure tp ..) => tp = m.src.id.pid
  | none => false

/-- Whether a near posted store or signal of a context is still under way: its releases and fences wait for it (R174). -/
def State.nearOut (s : State) (id : CtxId) : Bool := s.net.any (fun m => m.ownOf (s.identOf id) false && m.near)

/-- Whether an `ldt` of an image, of a bundle up to an issue number, has still to read its bytes at their home: what happens after it by
a release, a command's issue or a commit waits until it has, since no read returns a write that happens after it (R168, R170, R180). -/
def State.loadsOut (s : State) (ident issue : Nat) : Bool :=
  s.net.any (fun m => !m.src.chain && m.src.ident = ident && m.src.issue ≤ issue && (match m.body with
    | .load .. => true
    | _ => false))

/-- The same for every `ldt` that a context has issued. -/
def State.myLoadsOut (s : State) (id : CtxId) : Bool := s.loadsOut (s.identOf id) (s.ctx id).issued

/-- Whether a write of a context to host memory is still under way: its releases at `.sys` wait for it (R193). -/
def State.hostOut (s : State) (id : CtxId) : Bool :=
  s.net.any (fun m => m.ownOf (s.identOf id) false && (match m.body.dest with
    | some (.phys _ a) => isHost a
    | some (.exposure ..) => true
    | none => false))

/-- Whether a release at a scope waits for earlier accesses of its context (R167, R168, R170, R174, R193); a far one waits for every
`ldt` too, where R174 binds it to those of its own home (DESIGN CHOICE, log entry 117). -/
def State.releaseWaits (s : State) (id : CtxId) (rel : Option (BitVec 4)) : Bool :=
  match rel with
  | none => false
  | some sc => s.nearOut id || s.myLoadsOut id || (8 ≤ sc.toNat && s.hostOut id)

/-- A store that carries a release reaches its home: near, the release is made with it; far, it was made at issue (R167,
R174, R189). -/
def State.storeHome (s : State) (a : Agent) (pid pa : Nat) (bs : List Byte) (rel : Option (BitVec 4)) : State :=
  let k := memKey pid pa
  if nearTo a.id (homeOf pid pa) then s.storeBy (some a) k bs rel
  else
    (s.storeBy (some a) k bs none).markRel a k bs.length rel

/-- A write at a physical address by an agent, the control space included. -/
def State.physWrite (s : State) (a : Option Agent) (pid pa : Nat) (bs : List Byte) (rel : Option (BitVec 4)) : State :=
  if regionOf pa = some .ctl then s.ctlBytes pid (pa - ctlBase) bs
  else match a with
    | some a => s.storeHome a pid pa bs rel
    | none => s.storeBy none (memKey pid pa) bs none

/-- Where a destination's message goes: the home of a physical address, or the package of an exposure (its switch die
hands it on after the check of R346). -/
def Dest.home : Dest → Home
  | .phys pid pa => homeOf pid pa
  | .exposure tpid _ _ _ => .die tpid

/-- Bytes of a partition's virtual memory as a unit of the device reads them (R338); none where a page does not
translate. -/
def State.virtBytes (s : State) (pid part : Nat) : Nat → Nat → Nat → Option (List Byte)
  | 0, _, _ => some []
  | fuel + 1, va, n =>
    if n = 0 then some []
    else
      let m := pieceLen va n
      match s.viaTables pid part .read va m, s.virtBytes pid part fuel (va + m) (n - m) with
      | .ok [{ dest := .phys p a, .. }], some bs => some (s.physBytes p a m ++ bs)
      | _, _ => none
def State.virt (s : State) (pid part va n : Nat) : Option (List Byte) := s.virtBytes pid part (n / 65536 + 2) va n

/-! ### Sources that may have moved (R272, R306) -/

/-- Whether a context's image is resident in a running core. -/
def State.resident (s : State) (id : CtxId) : Bool :=
  match (s.core id.pid id.core).swap with
  | .running | .stopping | .saving _ => true
  | _ => false

/-- The resident context whose image issued an operation: at its place, or wherever its image has been restored. -/
def State.locate (s : State) (src : Src) : Option CtxId :=
  if s.identOf src.id = src.ident && s.resident src.id then some src.id
  else s.cores.findSome? (fun c => (List.range 4).findSome? (fun x =>
    let id : CtxId := ⟨c.1 / 1024, c.1 % 1024, x⟩
    if (s.ctx id).ident = some src.ident && s.resident id then some id else none))

/-- The package and field whose salt a source tag carries (R393). -/
def Src.tagPid (x : Src) : Nat := (x.tag.extractLsb' 42 10).toNat
def Src.tagField (x : Src) : Nat := (x.tag.extractLsb' 39 3).toNat

/-- The resident context whose entry still waits for an answer, if the salt is current (R272, R397). -/
def State.awaits (s : State) (m : Msg) : Option CtxId :=
  if (m.src.tag.extractLsb' 52 12) ≠ ((s.pkg m.src.tagPid).field m.src.tagField).salt then none
  else match s.locate m.src with
    | none => none
    | some id =>
      let e := s.entry id m.src.entry
      if (e.state = .outstanding || e.state = .stopped) && e.seq = m.src.seq && m.src.gen = (s.ctx id).gen then some id else none

/-- The counter of discarded responses of a field's contexts (R272, R397, R417). -/
def discardCounter (field : Nat) : Nat := 400 + field % 8
/-- The counter of contributions with a wrong KEY (R231). -/
def keyCounter : Nat := 2
/-- The counter of refused host accesses, per aperture (R353). -/
def hostCounter : Nat := 100

/-- A consumed error of the operation of entry `i` (R379). -/
def State.consumeAt (s : State) (id : CtxId) (i origin : Nat) (w : Bool) (va : Word) : State :=
  let e := s.entry id i
  s.updCtx id (fun c => c.consume { origin := origin, more := false, w := w, addr := va, level := e.level, issue := e.issue })

/-- One answer of a context's operation: the entry is retired with the last (R196). -/
def State.answered (s : State) (id : CtxId) (i : Nat) (status : Word) : State :=
  let e := s.entry id i
  if e.probes ≤ 1 then s.retire id i status else s.updEntry id i (fun e => { e with probes := e.probes - 1 })

/-! ### Duplicate suppression (R393 to R397) -/

/-- The port that suppresses duplicates for a location: a field's memory port (the rim field of an HBM granule), or the
switch die (R209, R394; log entry 9 for host memory). -/
inductive CachePort where
  | field (pid f : Nat)
  | die (pid : Nat)
deriving DecidableEq, Repr

/-- The field whose rim carries an HBM stack (R8). -/
def stackField (n : Nat) : Nat :=
  if n < 2 then 0 else if n < 4 then 1 else if n = 4 then 2 else if n = 5 then 3 else if n < 8 then 4
  else if n < 10 then 5 else if n = 10 then 6 else 7

/-- The field that stages a group store or serves an address (R209). -/
def servingField (pa : Nat) : Nat :=
  match homeOf 0 pa with
  | .field _ f => f
  | _ => stackField (Config.hbmStack (pa / 256)).val

def portOf (pid pa : Nat) : CachePort :=
  match homeOf pid pa with
  | .field p f => .field p f
  | .hbm p => .field p (servingField pa)
  | .host p _ => .die p
  | .die p => .die p

abbrev Cache := List (Tag × Result × Option Nat)

def State.cache (s : State) : CachePort → Cache
  | .field pid f => ((s.pkg pid).field f).cache
  | .die pid => (s.pkg pid).dieCache
def State.setCache (s : State) (p : CachePort) (c : Cache) : State :=
  match p with
  | .field pid f => s.updField pid f (fun x => { x with cache := c })
  | .die pid => s.updPkg pid (fun x => { x with dieCache := c })

/-- The tag of a message's operation (R393). -/
def Msg.tag (m : Msg) : Tag :=
  { src := m.src.tag, chan := m.chan, seq := m.src.seq, off := m.src.off, elem := m.src.elem, piece := m.idx }

/-- An entry that ACKT retires: its source and channel, and a SEQ within the 2^15 values at or before ACKT (R394). -/
def Tag.retiredBy (t : Tag) (src : Word) (chan : Nat) (ackt : BitVec 16) : Bool :=
  t.src = src && t.chan = chan && (ackt - t.seq).toNat < 2 ^ 15

/-- An entry with another salt than the latest message of the same field (R397). -/
def Tag.oldSalt (t : Tag) (src : Word) : Bool :=
  t.src.extractLsb' 42 10 = src.extractLsb' 42 10 && t.src.extractLsb' 39 3 = src.extractLsb' 39 3 &&
  t.src.extractLsb' 52 12 ≠ src.extractLsb' 52 12

/-- A message's ACKT and salt retire entries of a port's cache (R394, R397). -/
def State.retireBy (s : State) (p : CachePort) (m : Msg) : State :=
  if s.cache p = [] then s
  else s.setCache p ((s.cache p).filter (fun e => !e.1.retiredBy m.src.tag m.chan m.ackt && !e.1.oldSalt m.src.tag))
/-- The same at every port of a message's home: those of the package's rims for its HBM (R394). -/
def State.retireAt (s : State) (m : Msg) : State :=
  match m.dst with
  | .field pid f => s.retireBy (.field pid f) m
  | .hbm pid => (List.range 8).foldl (fun s f => s.retireBy (.field pid f) m) s
  | .host pid _ | .die pid => s.retireBy (.die pid) m

/-- Entries of a suppression cache (R394). -/
def cacheSize : Nat := 16384

/-- Message `n` leaves the fabric. -/
def State.dropMsg (s : State) (n : Nat) : State := { s with net := s.net.eraseIdx n }
/-- Other messages take the place of message `n`. -/
def State.replaceMsg (s : State) (n : Nat) (ms : List Msg) : State :=
  { s with net := s.net.take n ++ ms ++ s.net.drop (n + 1) }

/-- A message refused with RETRY: it is resent after 1 µs (R395). -/
def Msg.refused (m : Msg) : Msg := { m with retry := true, left := Config.cyclesPerMicrosecond }

/-- The arrival of once operation `n` (R394): answered from the cache, refused with RETRY, or applied and kept. -/
def State.once (s : State) (n : Nat) (p : CachePort) (m : Msg) (apply : State → State × Result × Option Nat) : State :=
  let s := s.retireBy p m
  match (s.cache p).find? (fun e => e.1 = m.tag) with
  | some e => (s.dropMsg n).reply m (.resp e.2.1 e.2.2)
  | none =>
    if cacheSize ≤ (s.cache p).length then s.replaceMsg n [m.refused]
    else
      let (s, r, old) := apply (s.dropMsg n)
      (s.setCache p (s.cache p ++ [(m.tag, r, old)])).reply m (.resp r old)

/-! ### Counts of the classifier (R266) -/

/-- Counts HBM bytes that a context of a node instance reads or writes, by the identity of its image. -/
def State.meter (s : State) (pid ident pa n : Nat) : State :=
  if regionOf pa = some .hbm && (s.pkg pid).insts.any (fun i => i.idents.contains ident) then
    s.updPkg pid (fun p => { p with insts := p.insts.map (fun i => if i.idents.contains ident then { i with hbm := i.hbm + n } else i) })
  else s

/-- Counts matrix-operand bytes that an engine reads for a context of a node instance. -/
def State.meterMatrix (s : State) (id : CtxId) (n : Nat) : State :=
  match (s.ctx id).inst with
  | none => s
  | some x => s.updPkg id.pid (fun p => { p with insts := p.insts.map (fun i => if i.id = x then { i with mat := i.mat + n } else i) })

/-! ### Messages for a range -/

/-- The partition and virtual address through which a source's access at an address reaches a destination: its own page tables', below
device level and in the first form of R21 (R360). -/
def Src.via (x : Src) (ea : Word) (d : Dest) : Option (Nat × Nat) :=
  match d with
  | .phys .. => if x.level = .device ∨ 2 ^ 57 ≤ ea.toNat then none else x.part.map (fun p => (p, ea.toNat))
  | .exposure .. => none

/-- The messages of an operation at an address: one for each piece that meets a condition, with the bytes before it. -/
def State.sendSome (s : State) (c : Piece → Bool) (src : Src) (chan : Nat) (ea : Word) (ps : List Piece) (mk : Dest → Nat → Nat → Body) :
    State :=
  (ps.foldl (fun (acc : State × Nat) p =>
    (if c p then acc.1.send { src := src, chan := chan, dst := p.dest.home, idx := acc.2, body := mk p.dest acc.2 p.len,
                              via := src.via (ea + BitVec.ofNat 64 acc.2) p.dest } else acc.1,
      acc.2 + p.len)) (s, 0)).1

/-- The same for every piece. -/
def State.sendPieces (s : State) (src : Src) (chan : Nat) (ea : Word) (ps : List Piece) (mk : Dest → Nat → Nat → Body) : State :=
  s.sendSome (fun _ => true) src chan ea ps mk

/-- Bytes of an access whose pieces go to the home of one of them: together they are one write unit there (R209). -/
def homeShare (ps : List Piece) (d : Dest) : Nat := ((ps.filter (fun p => p.dest.home = d.home)).map (·.len)).sum

/-- The bytes of one piece of an access. -/
def pieceBytes (bs : List Byte) (off n : Nat) : List Byte := (bs.drop off).take n

/-! ### Landings (R180, R204 to R207) -/

/-- The bytes of a landing once one more piece has been read. -/
def Landing.take (l : Landing) (off : Nat) (bs : List Byte) (hs : List Heard) : Landing :=
  { l with data := l.data ||| (BitVec.ofNat 2048 (leNat bs) <<< (8 * off)), left := l.left - 1, heard := l.heard ++ hs }

/-- One piece of an `ldt` is read at its home: its bytes, the releases they carry; an uncorrectable unit reads as zero and is a consumed
error (R167, R180, R378). -/
def State.landPiece (s : State) (id : CtxId) (i off pid pa len : Nat) : State :=
  let k := memKey pid pa
  let t := match s.badAt k len with
    | some u => s.consumeAt id i 1 false ((s.entry id i).target + BitVec.ofNat 64 (off + (u - k)))
    | none => s
  (t.meter id.pid (s.identOf id) pa len).updEntry id i (fun e => { e with
    landing := e.landing.map (fun l => l.take off (s.physBytes pid pa len) (s.heardAt k len)) })

/-- The cycle from which a landing is due: its promise, or the resumption (R207). -/
def IfrEntry.due (e : IfrEntry) : Nat :=
  match e.landing with
  | some l => l.base.getD e.promised.toNat
  | none => e.promised.toNat

/-- Fixed-latency writes to `v[r]` that complete by pipeline cycle `now` and were issued before a landing in it do not stand (R40). -/
def Ctx.outdone (c : Ctx) (v : VNum) (issue now : Nat) : Ctx :=
  { c with pend := c.pend.filter (fun p => match p.tgt with
    | .v r _ _ => !(r = v && p.due ≤ now && p.issue < issue)
    | _ => true) }

/-- The bytes of an arrived `ldt` enter their register, the acquire of an `ldt` with `ord` 1 is made, and the entry is
retired (R180, R196). A freeze on this landing ends (R206). -/
def State.landLdt (s : State) (id : CtxId) (i : Nat) : State :=
  match (s.entry id i).landing with
  | some { vd := some v, data := d, acq := a, heard := hs, .. } =>
    let issue := (s.entry id i).issue
    let s := s.updCtx id (fun c => c.land (.v v d (BitVec.allOnes 2048)))
    let s := s.readBy id (a.map (·.toNat)) hs
    let s := s.retire id i okStatus
    let s := s.updCore id.pid id.core (fun k => { k with freeze := k.freeze.filter (· ≠ (id.ctx % 4, i)) })
    if s.advances id.pid id.core then s.updCtx id (fun c => c.outdone v issue ((s.core id.pid id.core).pcyc + 1)) else s
  | _ => s

/-- `TVAL` of `UNDECIDED` (R399). An access that meets the line before it has an entry of its own, a fetch or a translation, gives no
ticket (log entry 93). -/
def undecidedTval (group epoch ticket : Nat) : Word :=
  BitVec.ofNat 64 (group % 65536 * 2 ^ 48 + epoch % 65536 * 2 ^ 32 + ticket % 2 ^ 32)

/-- A pending trap of R405, one an entry (R381: each stop raises one). -/
def State.addTrap (s : State) (id : CtxId) (t : PTrap) : State :=
  s.updCtx id (fun c => { c with traps := c.traps ++ [t] })

/-- A freeze of the core by a landing ends. -/
def State.thaw (s : State) (id : CtxId) (i : Nat) : State :=
  s.updCore id.pid id.core (fun k => { k with freeze := k.freeze.filter (· ≠ (id.ctx % 4, i % 64)) })

/-- A message that still asks for bytes of a landing. -/
def Msg.asks (m : Msg) (ident i : Nat) (seq : BitVec 16) : Bool :=
  m.src.ident = ident && m.src.entry = i && m.src.seq = seq && !m.src.chain &&
  (match m.body with
   | .load .. => true
   | _ => false)

/-- An `ldt` ends without bytes: its landing is over, its other reads are dropped (R399). -/
def State.landingOver (s : State) (id : CtxId) (i : Nat) : State :=
  let e := s.entry id i
  let s := { s with net := s.net.filter (fun m => !m.asks (s.identOf id) i e.seq) }
  (s.retire id i okStatus).thaw id i

/-- An `ldt` meets the line of an undecided group: it returns nothing, and `UNDECIDED` is pending with its ticket (R399). -/
def State.landingUndecided (s : State) (id : CtxId) (i group epoch : Nat) : State :=
  let e := s.entry id i
  (s.landingOver id i).addTrap id
    { cause := causeUndecided, level := e.level, entry := i, tval := undecidedTval group epoch (ticket e.seq 0 i).toNat }

end Sys2Proof.Machine
end

