-- ==== Sys2Proof/Machine/Arrivals.lean ====
section
/-! DEFINITION. Messages at their homes and answers at their sources: window checks, posted and group stores, read-modify-writes,
signals, probes, refusals, retries, acknowledgements (R175, R179, R183, R192, R199, R208 to R213, R272, R274, R346, R351,
R379, R393 to R399). -/

namespace Sys2Proof.Machine

/-! ### What a message meets at its home -/

/-- Whether a home is a lost field (R401). -/
def State.homeLost (s : State) (h : Home) : Bool :=
  match h with
  | .field pid f => ((s.pkg pid).field f).lost
  | _ => false

/-- What an access meets at its home. -/
inductive Gate where
  | go
  | waits
  | refuse (origin : Nat)
deriving DecidableEq, Repr

/-- The state of a home for an access of a message: lost field, no route to it, moving or swapped scratchpad, sealed lines (R24, R183,
R192, R274, R350, R401). -/
def State.gate (s : State) (m : Msg) (pid pa n : Nat) : Gate :=
  if s.homeLost (homeOf pid pa) then .refuse 4
  else if !s.route m.src.id.pid pid then .waits
  else if s.epochLost m.epoch pid pa then .refuse 2
  else if s.spadBusy pid pa ∨ m.epoch ≠ s.epochAt pid pa then .waits
  else match s.lineAt pid pa n with
    | .clear => .go
    | .waits => .waits
    | .undecided .. => .refuse 6

/-- The agent of a message. -/
def Msg.agent (m : Msg) : Agent := ⟨m.src.id, m.src.chain⟩

/-- The bytes of a message's access count for the node instance of its source (R266). -/
def State.counted (s : State) (m : Msg) (pa n : Nat) : State := s.meter m.src.id.pid m.src.ident pa n

/-- Refuses message `n` (R208, R210, R346). -/
def State.refuse (s : State) (n : Nat) (m : Msg) (origin : Nat) : State := (s.dropMsg n).reply m (.resp (.refused origin) none)

/-! ### Window accesses at their target (R346) -/

/-- The part of a body that accesses `n` bytes from `off` on, at a destination. -/
def Body.part (b : Body) (off n : Nat) (d : Dest) : Body :=
  match b with
  | .load _ o _ => .load d (o + off) n
  | .group _ bs g e _ r => .group d (pieceBytes bs off n) g e n r
  | .accum _ op f z c v r => .accum d op f z c v r
  | .store _ bs r => .store d (pieceBytes bs off n) r
  | .flsig _ bs sc => .flsig d (pieceBytes bs off n) sc
  | b => b

/-- The body of a group store's piece, with the bytes of its unit at that piece's home (R209). -/
def Body.sharing (b : Body) (all : List Piece) : Body :=
  match b with
  | .group d bs g e _ r => .group d bs g e (homeShare all d) r
  | b => b

/-- The messages of the pieces of a message's access, translated by partition `tp` at address `va` on. -/
def State.splitMsg (s : State) (m : Msg) (tp va : Nat) (all : List Piece) : Nat → List Piece → List Msg
  | _, [] => []
  | off, p :: ps =>
    let b := (m.body.part off p.len p.dest).sharing all
    { m with body := b, dst := p.dest.home, idx := m.idx + off, epoch := s.epochOf b, via := some (tp, va + off) } ::
      s.splitMsg m tp va all (off + p.len) ps

/-- A chain is the one a source names. -/
def Chain.of (c : Chain) (src : Src) : Bool := c.entry = src.entry && c.seq = src.seq && c.ident = src.ident
/-- Changes the chain a source names, in the core of a context. -/
def State.updChain (s : State) (id : CtxId) (src : Src) (f : Chain → Chain) : State :=
  s.updLive id.pid id.core (fun d => { d with chains := d.chains.map (fun c => if c.of src then f c else c) })

/-- A message of a source has become `k` more messages. -/
def State.morePieces (s : State) (m : Msg) (k : Nat) : State :=
  match s.awaits m with
  | none => s
  | some id =>
    if m.src.chain then s.updChain id m.src (fun c => { c with acks := c.acks + k })
    else s.updEntry id m.src.entry (fun e => { e with
      probes := e.probes + k, landing := e.landing.map (fun l => { l with left := l.left + k }) })

/-- A waiting write is the one of a message's source and channel. -/
def Blocked.of (b : Blocked) (m : Msg) : Bool := b.id = some m.src.id && b.chan = m.chan

/-- The write of a message's source and channel waits on BLK no longer (R344). -/
def State.unblockAt (s : State) (m : Msg) (tpid : Nat) : State :=
  s.updPkg tpid (fun p => { p with blocked := p.blocked.filter (fun b => !b.of m) })

/-- A write at a target that meets BLK: it waits there, BLKTMO µs at most (R344, R346). -/
def State.blockedAt (s : State) (n : Nat) (m : Msg) (tpid part va : Nat) : State :=
  match (s.pkg tpid).blocked.find? (fun b => b.of m && b.part = part && b.va = va) with
  | some b => if b.expired then (s.refuse n m 2).unblockAt m tpid else s
  | none =>
    let left := ((s.part tpid part).map (fun x => x.blktmo * Config.cyclesPerMicrosecond)).getD 0
    s.updPkg tpid (fun p => { p with
      blocked := p.blocked.filter (fun b => !b.of m) ++
        [{ id := some m.src.id, chan := m.chan, part := part, va := va, left := left, expired := false }] })

/-- GROUP and EPOCH of an undecided line, as an answer carries them to the source of an `ldt` (R399). -/
def undecidedName (group epoch : Nat) : Nat := group % 65536 * 65536 + epoch % 65536

/-- REMOTE_ACCESS_ARRIVAL (R346): the exposure is checked and the address translated at the target; the access then goes on to
its homes, or is refused. -/
def execRemoteAccessArrival (n : Nat) (s : State) : Out :=
  match s.net[n]? with
  | none => .next s
  | some m =>
    match m.body.dest with
    | some (.exposure tpid tpart texp off) =>
      if !deliverable s.net n then .next s
      else
        let (kind, len) := m.body.access
        let va := ((s.part tpid tpart).map (fun x => winBase (x.win (256 + texp)))).getD 0 + off
        match s.atTarget tpid tpart texp off len kind m.src.id.pid m.src.part with
        | (t, .fault ..) => .next ((t.refuse n m 2).unblockAt m tpid)
        | (t, .blocked part va) => .next (t.blockedAt n m tpid part va)
        | (_, .lined (.undecided g ep)) => .next ((s.dropMsg n).reply m (.resp (.refused 6) (some (undecidedName g ep))))
        | (_, .lined _) => .next s
        | (t, .ok ps) => .next (((t.morePieces m (ps.length - 1)).replaceMsg n (t.splitMsg m tpart va ps 0 ps)).unblockAt m tpid)
    | _ => .next s

/-! ### Stores and signals (R174, R175, R208) -/

/-- POSTED_STORE_ARRIVAL: a posted store or plain chain write is performed at its home. -/
def execPostedStoreArrival (n : Nat) (s : State) : Out :=
  match s.net[n]? with
  | some m =>
    (match m.body with
     | .store (.phys pid pa) bs rel =>
       if !deliverable s.net n then .next s
       else match s.gate m pid pa bs.length with
         | .waits => .next s
         | .refuse o => .next (s.refuse n m o)
         | .go => .next (((((s.dropMsg n).retireBy (portOf pid pa) m).physWrite (some m.agent) pid pa bs rel).counted m pa bs.length).reply m
             (.resp .ok none))
     | _ => .next s)
  | none => .next s

/-- FLSIG_ARRIVAL: the signal is performed once, after the earlier stores to its home (R175, R212). -/
def execFlsigArrival (n : Nat) (s : State) : Out :=
  match s.net[n]? with
  | some m =>
    (match m.body with
     | .flsig (.phys pid pa) bs sc =>
       if !deliverable s.net n then .next s
       else match s.gate m pid pa bs.length with
         | .waits => .next s
         | .refuse o => .next (s.refuse n m o)
         | .go => .next (s.once n (portOf pid pa) m (fun s =>
             ((s.physWrite (some m.agent) pid pa bs (some sc)).counted m pa bs.length, .ok, none)))
     | _ => .next s)
  | none => .next s

/-! ### Read-modify-writes (R179, R223, R353) -/

/-- The new value of an element and the flags of float arithmetic (R223). -/
def accNew (op : AccOp) (fmt z old y cmp : Nat) : Nat × Fl :=
  let b := 8 * z
  let sp := fspec fmt
  match op with
  | .add | .fetchAdd =>
    if isFloatCode fmt then
      let (v, f) := faddX 0 (fread sp false old) (fread sp false y)
      let (r, g) := roundF sp false false 0 0 v
      (r, f ||| g)
    else ((old + y) % 2 ^ b, 0)
  | .min => if isFloatCode fmt then fminmaxBits sp false false old y
      else (if laneInt fmt y b < laneInt fmt old b then y else old, 0)
  | .max => if isFloatCode fmt then fminmaxBits sp true false old y
      else (if laneInt fmt old b < laneInt fmt y b then y else old, 0)
  | .and => (old &&& y, 0)
  | .or => (old ||| y, 0)
  | .xor => (old ^^^ y, 0)
  | .swap => (y, 0)
  | .cas => (if old = cmp then y else old, 0)

/-- Whether an element can be a PCIe AtomicOp (R223, R353). -/
def hostAtomOk (op : AccOp) (fmt : Nat) : Bool :=
  (op = .fetchAdd || op = .swap || op = .cas) && (fmt = 10 || fmt = 11 || fmt = 14 || fmt = 15)
/-- Whether an element at a host address stops with HOSTATOM: no AtomicOp, or its root port did not report AtomicOp completion. -/
def hostAtomBad (pid pa : Nat) (op : AccOp) (fmt : Nat) : Bool :=
  isHost pa && (!hostAtomOk op fmt || Config.rootNoAtomics pid (if regionOf pa = some .host1 then 1 else 0))

/-- ACCUM_ARRIVAL: one element, its read and write adjacent, once (R179, R394); the answer carries the old value and the flags, or, where the
element holds an uncorrectable unit, the error that ends the chain before it (R378). The read-modify-write of an `ACCUM` or SIGNAL is its issuing
quill's, under whose identity it is tagged and checked (DESIGN CHOICE, log entry 94: R162 lists it under the quill and under the memory port). -/
def execAccumArrival (n : Nat) (s : State) : Out :=
  match s.net[n]? with
  | some m =>
    (match m.body with
     | .accum (.phys pid pa) op fmt z cmp y rel =>
       if !deliverable s.net n then .next s
       else if hostAtomBad pid pa op fmt then
         .next ((s.dropMsg n).reply m (.resp (.code 4 (m.src.elem % 65536)) none))
       else match s.gate m pid pa z with
         | .waits => .next s
         | .refuse o => .next (s.refuse n m o)
         | .go => .next (s.once n (portOf pid pa) m (fun s =>
             if (s.badAt (memKey pid pa) z).isSome then (s, .code 2 0, none) else
             let old := leNat (s.physBytes pid pa z)
             let (new, f) := accNew op fmt z old y cmp
             ((s.physWrite (some m.agent) pid pa (leBytes z new) rel).counted m pa (2 * z), .ok, some (f.toNat * 2 ^ 64 + old))))
     | _ => .next s)
  | none => .next s

/-! ### Group stores (R182, R209, R210, R333) -/

/-- The partition that owns a physical address. -/
def State.ownerOf (s : State) (pid pa : Nat) : Option Nat := ((s.pkg pid).parts.find? (fun x => x.2.owns pa 1)).map (·.1)

/-- Bytes a partition has staged at a field. -/
def Pkg.staged (p : Pkg) (field part : Nat) : Nat :=
  (p.groups.map (fun (g : Nat × GroupRec) =>
    if g.2.state = .opened || g.2.state = .sealed then
      ((g.2.units.filter (fun u => u.field = field && u.part = part)).map (fun u => u.cells.length)).sum
    else 0)).sum

/-- A unit is complete: every byte it has at its home has arrived (R209). -/
def WriteUnit.complete (u : WriteUnit) : Bool := u.need ≤ u.cells.length

/-- Adds a unit to those staged; the pieces of one operation at one home make one unit (R209). -/
def addUnit (us : List WriteUnit) (u : WriteUnit) : List WriteUnit :=
  if us.any (fun x => x.op = u.op) then us.map (fun x => if x.op = u.op then { x with cells := x.cells ++ u.cells, vias := x.vias ++ u.vias } else x)
  else us ++ [u]

/-- How a home treats an arriving group store (R210): the new record and whether the writer is refused. -/
def stageAt (r : Option GroupRec) (part epoch : Nat) (u : WriteUnit) (room : Bool) : Option GroupRec × Bool :=
  let add (g : GroupRec) : GroupRec := if room then { g with units := addUnit g.units u } else { g with failed := true }
  let fresh : GroupRec := { state := .opened, epoch := epoch, part := part, units := [] }
  match r with
  | none => (some (add fresh), false)
  | some g =>
    match g.state with
    | .opened => if g.part = part && g.epoch = epoch then (some (add g), false) else (some g, true)
    | .sealed => (some g, true)
    | .published | .discarded => if g.epoch = epoch then (some g, true) else (some (add fresh), false)

/-- The source of a message that a switch die or a home sends of itself: no context, and ordered with no other. -/
def dieSrc (pid n : Nat) : Src :=
  { id := ⟨pid, 1024, n⟩, ident := 2 ^ 40 + n, part := none, level := .device, entry := 0, seq := 0, tag := 0, issue := 0 }

/-- A message of a switch die's or a home's own. -/
def State.sendDie (s : State) (pid : Nat) (dst : Home) (b : Body) : State :=
  { s.bump with net := s.net ++ [{ src := dieSrc pid s.fresh, chan := 0, dst := dst, body := b }] }

/-- Changes a home's record of a group. -/
def State.setGroup (s : State) (pid k : Nat) (g : GroupRec) : State :=
  s.updPkg pid (fun p => { p with groups := p.groups.put k (some g) })

/-- A group's record discarded at its home, or closed without any bytes (R183, R279). -/
def GroupRec.close (g : GroupRec) (st : GState) : GroupRec :=
  { g with state := st, units := [], sealReq := none, undecided := false, attempts := 0, left := 0 }

/-- A home's answer to a seal: sealed, or the CODE of its failure (R239); a failed seal discards the group there (R279). -/
def State.sealEnds (s : State) (pid k : Nat) (g : GroupRec) (q : SealReq) (bad : Option Nat) : State :=
  let g := match bad with
    | some _ => g.close .discarded
    | none => { g with state := .sealed, left := q.tmo, attempts := 0 }
  (s.setGroup pid k g).sendDie pid (.die q.cpid) (.sealed q.commit q.idx bad)

/-- An open group with a seal waiting: it seals when its staged units, all complete, equal COUNT, fails when they exceed it or staging failed, and
otherwise waits (R239). -/
def State.sealCheck (s : State) (pid k : Nat) : State :=
  match (s.pkg pid).groups.get k with
  | some g =>
    (match g.state, g.sealReq with
     | .opened, some q =>
       if g.failed then s.sealEnds pid k g q (some 0x21)
       else if q.count < g.units.length then s.sealEnds pid k g q (some 0x20)
       else if g.units.length = q.count && g.units.all (·.complete) then s.sealEnds pid k g q none
       else s
     | _, _ => s)
  | none => s

/-- GROUP_STORE_ARRIVAL: a group store is staged at its home, once, or refused (R210). What reaches an HBM home as one piece is staged and
charged whole at the field of its first byte, also where it lies over two 256-byte granules (DESIGN CHOICE, log entry 116). -/
def execGroupStoreArrival (n : Nat) (s : State) : Out :=
  match s.net[n]? with
  | some m =>
    (match m.body with
     | .group (.phys pid pa) bs group epoch need rel =>
       if !deliverable s.net n then .next s
       else if s.homeLost (homeOf pid pa) then .next (s.refuse n m 4)
       else if !s.route m.src.id.pid pid then .next s
       else .next (s.once n (.field pid (servingField pa)) m (fun s =>
         let p := s.pkg pid
         let f := servingField pa
         let owner := (s.ownerOf pid pa).getD 64
         let q := ((p.parts.get owner).map (fun x => x.stgq * 262144)).getD 0
         let u : WriteUnit := { op := { m.tag with piece := 0 }, need := need, ident := m.src.ident, field := f, part := owner,
                                cells := bs.zipIdx.map (fun b => (memKey pid pa + b.2, b.1)),
                                rel := rel.map (fun sc => (m.src.id, sc.toNat)), issue := m.src.issue, vias := m.via.toList }
         let k := groupKey (homeNum pa) group
         let (r, bad) := stageAt (p.groups.get k) (m.src.part.getD 64) epoch u
           (owner = 64 || p.staged f owner + bs.length ≤ q)
         if !p.features.getLsbD 0 || bad then (s, .refused 3, none)
         else (((s.setPkg pid { p with groups := p.groups.put k r }).sealCheck pid k).counted m pa bs.length, .ok, none)))
     | _ => .next s)
  | none => .next s

/-! ### Barrier arrivals (R226, R299, R301) -/

/-- BARRIER_ARRIVAL: an `ARRIVE` is counted at the target core's barrier, once; a named one is checked against its
exposure. -/
def execBarrierArrival (n : Nat) (s : State) : Out :=
  match s.net[n]? with
  | some m =>
    (match m.body with
     | .arrive pid core bar exp sc =>
       let admitted := match exp, s.partOfCore pid core with
         | none, _ => true
         | some e, some tp => s.exposureOk pid tp e 0 0 (fun p => p.testBit 4) m.src.id.pid m.src.part
         | some _, none => false
       if !deliverable s.net n then .next s
       else if s.homeLost (.field pid (fieldOf core)) then .next (s.refuse n m 4)
       else if !admitted then
         .next ((s.refuse n m 2).count pid (1000 + (s.partOfCore pid core).getD 0 * 256 + exp.getD 0))
       else .next (s.once n (.field pid (fieldOf core)) m (fun s =>
         let x := (s.core pid core).live.barriers[bar % 32]'(Nat.mod_lt _ (by decide))
         if x.count = 0 then (s, .code 1 4, none)
         else if x.poison then (s, .code 7 bar, none)
         else
           let y := x.arrive ⟨m.src.id, m.src.chain, sc.toNat⟩
           (s.updLive pid core (fun d => { d with barriers := d.barriers.set (bar % 32) y (Nat.mod_lt _ (by decide)) }),
            .ok, none)))
     | _ => .next s)
  | none => .next s

/-- Whether a message arrives at a barrier: from the quill of the barrier's core, or from elsewhere (R300). -/
def Msg.atBarrier (m : Msg) (own : Bool) : Bool :=
  match m.body with
  | .arrive pid core .. => own = (m.src.chain && m.src.id.pid = pid && m.src.id.core = core)
  | _ => false

/-- The places of such messages, the last one first: an arrival changes the places of none before it. -/
def State.barrierMail (s : State) (own : Bool) : List Nat := ((s.net.zipIdx.filter (fun m => m.1.atBarrier own)).map (·.2)).reverse

/-- The state left after all of a cycle's arrivals at barriers: own quills' first, then all others (R300). -/
def State.allArrived (s : State) : State :=
  let perform (own : Bool) (s : State) : State := (s.barrierMail own).foldl (fun s n => match execBarrierArrival n s with
    | .next t => t
    | _ => s) s
  perform false (perform true s)

/-! ### Answers at the source (R196, R208, R212, R213, R219, R272, R379) -/

/-- A piece of a landing that has ended without bytes. -/
def State.landingLess (s : State) (id : CtxId) (i : Nat) : State :=
  s.updEntry id i (fun e => { e with landing := e.landing.map (fun l => { l with left := l.left - 1 }) })

/-- A chain's message is answered: its count, its old value, its flags, or the code that ends it (R219); a refusal by an
undecided line stops the chain (R381). -/
def Chain.answer (c : Chain) (r : Result) (old : Option Nat) : Chain :=
  let c := { c with acks := c.acks - 1 }
  match r with
  | .ok => { c with got := if c.wait then old.map (· % 2 ^ 64) else c.got
                    fl := c.fl ||| BitVec.ofNat 7 ((old.getD 0) / 2 ^ 64) }
  | .refused 6 => { c with bad := some (256 + 10, 0) }
  | .refused _ => { c with bad := some (8, 0) }
  | .code a d => { c with bad := some (a, d) }

/-- ORIGIN of an access refused with `o`: a posted store that its home refuses has 5 (R208, R379; log entry 64). -/
def IfrEntry.origin (e : IfrEntry) (o : Nat) : Nat := if e.kind = 9 && o = 2 then 5 else o

/-- An answer reaches the context that waits for it. The address of a consumed error is that of the first byte of the piece that failed
(R379). -/
def State.respond (s : State) (id : CtxId) (m : Msg) (r : Result) (old : Option Nat) : State :=
  let i := m.src.entry
  let e := s.entry id i
  if m.src.chain then s.updChain id m.src (fun c => c.answer r old)
  else match r with
    | .refused o =>
      let at_ := e.target + BitVec.ofNat 64 m.idx
      match e.kind.toNat, o, old with
      | 0, 6, some u => s.landingUndecided id i (u / 65536) (u % 65536)
      | 0, _, _ => (s.consumeAt id i o false at_).landingLess id i
      | _, _, _ => (s.consumeAt id i (e.origin o) true at_).answered id i okStatus
    | .ok =>
      let s := match e.gdest, old with
        | some g, some h => s.updCtx id (fun c => c.land (.g g (BitVec.ofNat 64 h)))
        | _, _ => s
      s.answered id i okStatus
    | .code c d => s.answered id i (statusWord 0 0 d c)

/-- Takes answer `n` to its context, or discards and counts it where no resident context waits for it (R272, R397). -/
def State.takeAnswer (s : State) (n : Nat) (m : Msg) (k : CtxId → State → State) : State :=
  match s.awaits m with
  | none => (s.dropMsg n).count m.src.id.pid (discardCounter m.src.tagField)
  | some id => k id (s.dropMsg n)

/-- An answer crosses from its home's package to its source's: not over a locked port, where no other route is (R350, R351). -/
def State.answerRoute (s : State) (m : Msg) : Bool := s.route m.src.id.pid m.dst.pid

/-- RESPONSE_ARRIVAL: an acknowledgement, a code, an old value or a handle. -/
def execResponseArrival (n : Nat) (s : State) : Out :=
  match s.net[n]? with
  | some m =>
    (match m.body with
     | .resp r old =>
       if m.src.kind = 2 || !s.answerRoute m then .next s
       else .next (s.takeAnswer n m (fun id s => s.respond id m r old))
     | _ => .next s)
  | none => .next s

/-- FLSIG_TOKEN_RETURN: the completion token of a `flsig` (R175, R212). -/
def execFlsigTokenReturn (n : Nat) (s : State) : Out :=
  match s.net[n]? with
  | some m =>
    (match m.body with
     | .resp .ok old => if m.src.kind = 2 && s.answerRoute m then .next (s.takeAnswer n m (fun id s => s.respond id m .ok old)) else .next s
     | _ => .next s)
  | none => .next s

/-- CONSUMED_ERROR_REPORT: the report of a refused or failed access becomes a consumed error of its context (R379). -/
def execConsumedErrorReport (n : Nat) (s : State) : Out :=
  match s.net[n]? with
  | some m =>
    (match m.body with
     | .resp (.refused o) old =>
       if !s.answerRoute m then .next s else .next (s.takeAnswer n m (fun id s => s.respond id m (.refused o) old))
     | _ => .next s)
  | none => .next s

/-- PROBE_RETURN: a flush probe has passed every earlier message of its route and channel (R213); a hoop's probe (entry 64 on)
is only gone. -/
def execProbeReturn (n : Nat) (s : State) : Out :=
  match s.net[n]? with
  | some m =>
    (match m.body with
     | .probe =>
       if !deliverable s.net n then .next s
       else
         let s := s.retireAt m
         if 64 ≤ m.src.entry then .next (s.dropMsg n)
         else .next (s.takeAnswer n m (fun id s => s.answered id m.src.entry okStatus))
     | _ => .next s)
  | none => .next s

/-! ### Retries, acknowledgements, unreachable homes (R351, R394, R395, R415) -/

/-- RETRY_RESEND (R395): once 1 µs has passed. -/
def execRetryResend (n : Nat) (s : State) : Out :=
  match s.net[n]? with
  | some m => .next (if m.retry && m.left = 0 then s.replaceMsg n [{ m with retry := false }] else s)
  | none => .next s

/-- Drops entries from every suppression cache of the domain. -/
def State.purge (s : State) (p : Tag → Bool) : State :=
  let keep (c : Cache) : Cache := c.filter (fun e => !p e.1)
  { s with pkgs := s.pkgs.map (fun (x : Nat × Pkg) => (x.1, { x.2 with
      dieCache := keep x.2.dieCache
      fields := x.2.fields.map (fun (f : Nat × Field) => (f.1, { f.2 with cache := keep f.2.cache })) })) }

/-- ACKT_IDLE_MESSAGE: a source's ACKT of a channel retires entries at every port (R394). -/
def execAcktIdleMessage (id : CtxId) (chan : Nat) (s : State) : Out :=
  let a := s.acktFor id (s.sourceTag id) chan
  .next (s.purge (fun t => t.retiredBy (s.sourceTag id) (chan % 16) a))

/-- RETIRE_ALL_MESSAGE: every entry of sources of a field that have no operation left in their record (R394). -/
def execRetireAllMessage (pid field : Nat) (sources : List CtxId) (s : State) : Out :=
  let ok := sources.all (fun id => id.pid = pid && fieldOf id.core = field &&
    (s.ctx id).ifr.toList.all (fun e => e.state = .free || e.state = .retired))
  .next (if ok then s.purge (fun t => sources.any (fun id => placeBits (s.sourceTag id) = placeBits t.src)) else s)

/-- Whether the home of a message is out of reach: a lost field, or no route (R351, R401); of an answer, whether no route is left. -/
def State.unreachable (s : State) (m : Msg) : Bool := (!m.body.isReply && s.homeLost m.dst) || !s.route m.src.id.pid m.dst.pid

/-- HOME_UNREACHABLE: no route reaches the home (R213, R239, R351, R379, R415). An answer that no route carries fails its operation as
one to an unreachable home (R350); hoop traffic waits for the route, and ends at a lost field (R401). -/
def execHomeUnreachable (n : Nat) (s : State) : Out :=
  match s.net[n]? with
  | some m =>
    if !s.unreachable m then .next s
    else match m.body with
      | .resp .. => .next (s.takeAnswer n m (fun id s => s.respond id m (.refused 4) none))
      | .sealed c h _ => .next (s.replaceMsg n [{ m with src := dieSrc m.dst.pid s.fresh, body := .sealed c h (some 0x22) }])
      | .decided .. => .next (s.dropMsg n)
      | .hoopRefuse .. => .next s
      | .probe =>
        if 64 ≤ m.src.entry then .next (s.dropMsg n)
        else .next (s.takeAnswer n m (fun id s => s.answered id m.src.entry okStatus))
      | .sealMsg c cpid .. => .next ((s.dropMsg n).sendDie cpid (.die cpid) (.sealed c m.idx (some 0x22)))
      | .decision _ _ _ _ commitIt =>
        .next (if commitIt then s.dropMsg n
          else (s.dropMsg n).updPkg m.src.id.pid (fun p => { p with heldDiscards := p.heldDiscards ++ [m] }))
      | .hoopArrive .. | .hoopJoin .. => .next (if s.homeLost m.dst then s.dropMsg n else s)
      | .deliver .. | .successor .. => .next s
      | _ => .next (s.refuse n m 4)
  | none => .next s

/-! ### Writes to a swapped core's scratchpad (R274) -/

/-- Bytes written to an image's scratchpad. -/
def putSpad (m : NMap Byte) : Nat → List Byte → NMap Byte
  | _, [] => m
  | k, b :: bs => putSpad (NMap.put m k (if b = 0 then none else some b)) (k + 1) bs
/-- Bytes of an image's scratchpad. -/
def getSpad (m : NMap Byte) (k n : Nat) : List Byte := (List.range n).map (fun i => (NMap.get m (k + i)).getD 0)

/-- The release that a message's write carries (R167). -/
def Body.rel : Body → Option (BitVec 4)
  | .store _ _ r | .accum _ _ _ _ _ _ r | .group _ _ _ _ _ r => r
  | .flsig _ _ sc => some sc
  | _ => none

/-- What a message's write leaves of `n` bytes that stand as `old`, and its answer. -/
def Body.effect (b : Body) (old : List Byte) : List Byte × Option Nat :=
  match b with
  | .store _ bs _ | .flsig _ bs _ => (bs, none)
  | .accum _ op fmt z cmp y _ =>
    let (new, f) := accNew op fmt z (leNat old) y cmp
    (leBytes z new, some (f.toNat * 2 ^ 64 + leNat old))
  | _ => (old, none)

/-- A write in flight to an image has been performed or dropped: one less to drain; a place that drains is free with the last (R274). -/
def State.drained (s : State) (pid k : Nat) : State :=
  s.updPkg pid (fun p => match p.images.get k with
    | some i => { p with images := p.images.put k (if i.place = .draining && i.drain ≤ 1 then none else some { i with drain := i.drain - 1 }) }
    | none => p)

/-- A once operation in flight to an image, which drains by it, a duplicate too; not where it is refused with RETRY (R181, R274,
R395). -/
def State.drainOnce (s : State) (n pid k : Nat) (m : Msg) (f : State → State × Result × Option Nat) : State :=
  let pa := match m.body.dest with
    | some (.phys _ a) => a
    | _ => 0
  let t := s.once n (portOf pid pa) m f
  if t.net[n]? = some m.refused then t else t.drained pid k

/-- A write into an image's scratchpad: bytes, the soft-error marks that a whole-unit write clears, the releases of the overwritten
values and the release of its own (R167, R377). -/
def Image.write (i : Image) (a : Agent) (off : Nat) (bs : List Byte) (rel : Option (BitVec 4)) : Image :=
  { i with
    spad := putSpad i.spad off bs
    bad := i.bad.filter (fun u => !(off ≤ u.1 && u.1 + u.2 ≤ off + bs.length))
    rels := i.rels.filter (fun r => !meets r.key r.len off bs.length) ++ (match rel with
      | some sc => [{ key := off, len := bs.length, agent := a.id, quill := a.quill, scope := sc.toNat }]
      | none => []) }

/-- What a write to a state no longer in its core does: it changes the state's image, or the core or image in which the state now is
(R274), and makes its release (R167); and its answer: the old value it fetches, or the error of an uncorrectable unit that a
read-modify-write meets (R378). -/
def State.ownerWrite (s : State) (pid k : Nat) (i : Image) (off : Nat) (m : Msg) : (State → State) × Result × Option Nat :=
  let b := m.body
  let fails (bad : List (Nat × Nat)) (at_ : Nat) : Bool := b.access.1 = .rmw && bad.any (fun u => meets u.1 u.2 at_ b.access.2)
  let inImage (k : Nat) (i : Image) : (State → State) × Result × Option Nat :=
    if fails i.bad off then ((fun s => s), .code 2 0, none)
    else
      let (bs, old) := b.effect (getSpad i.spad off b.access.2)
      ((fun s =>
        let s := s.updPkg pid (fun p => { p with images := p.images.put k (some (i.write m.agent off bs b.rel)) })
        match b.rel with
        | some sc => if nearTo m.src.id m.dst then s.raceRelease m.agent sc.toNat else s
        | none => s), .ok, old)
  match i.heir with
  | none => inImage k i
  | some e =>
    match s.cores.find? (fun (c : Nat × Core) => c.1 / 1024 = pid && c.2.epoch = e) with
    | some c =>
      let pa := spadBase + c.1 % 1024 * 0x100000 + off
      if fails s.bad (memKey pid pa) then ((fun s => s), .code 2 0, none)
      else
        let (bs, old) := b.effect (s.physBytes pid pa b.access.2)
        ((fun s => s.physWrite (some m.agent) pid pa bs b.rel), .ok, old)
    | none =>
      match (s.pkg pid).images.find? (fun (x : Nat × Image) => x.2.epoch = e) with
      | some (k, i) => inImage k i
      | none => ((fun s => s), .ok, none)

/-- SWAPPED_WRITE_ARRIVAL: a write that carries the owner epoch of a state no longer in the core is applied to that state's
image (R274). -/
def execSwappedWriteArrival (n : Nat) (s : State) : Out :=
  match s.net[n]? with
  | some m =>
    (match m.body.dest with
     | some (.phys pid pa) =>
       (match spadCore pa, (s.pkg pid).images.find? (fun i => some i.2.core = spadCore pa && i.2.epoch = m.epoch) with
        | some _, some (k, i) =>
          if !deliverable s.net n || m.epoch = s.epochAt pid pa || m.body.access.1 = .read then .next s
          else
            let off := (pa - spadBase) % 0x100000
            let (put, r, old) := s.ownerWrite pid k i off m
            (match m.body with
             | .store .. => .next (((put ((s.dropMsg n).retireBy (portOf pid pa) m)).drained pid k).reply m (.resp .ok none))
             | _ => .next (s.drainOnce n pid k m (fun s => (put s, r, old))))
        | _, _ => .next s)
     | _ => .next s)
  | none => .next s

end Sys2Proof.Machine
end

