-- ==== Sys2Proof/Machine/Landing.lean ====
section
/-! DEFINITION. Landing slots: the reading of an `ldt`'s bytes, arrival, landing at the promised cycle, freezes and lateness
(R180, R204 to R207, R217, R378, R399). -/

namespace Sys2Proof.Machine

/-- `CYCLE` of a package, as a number. -/
def State.now (s : State) (pid : Nat) : Nat := (s.pkg pid).cycle.toNat

/-- The first deliverable read of a landing, at its home. -/
def State.nextLoad (s : State) (id : CtxId) (i : Nat) : Option (Nat × Msg) :=
  (List.range s.net.length).findSome? (fun n => match s.net[n]? with
    | some m =>
      if m.asks (s.identOf id) i (s.entry id i).seq && deliverable s.net n then
        (match m.body with
         | .load (.phys ..) _ _ => some (n, m)
         | _ => none)
      else none
    | none => none)

/-- The bytes of a landing have arrived: where the core is frozen by it, or its context parked by `ctx.park`, they enter at once (R206,
R368). -/
def State.landingHere (s : State) (id : CtxId) (i : Nat) : State :=
  let s := s.updEntry id i (fun e => { e with landing := e.landing.map (fun l => { l with arrived := true }) })
  if (s.core id.pid id.core).freeze.contains (id.ctx % 4, i % 64) || (s.ctx id).parkMark then s.landLdt id i else s

/-- One read of a landing at its home (R180, R183, R378, R399). -/
def State.landingRead (s : State) (id : CtxId) (i n : Nat) (m : Msg) : State :=
  match m.body with
  | .load (.phys pid pa) off len =>
    let e := s.entry id i
    if s.homeLost (homeOf pid pa) then ((s.dropMsg n).consumeAt id i 4 false (e.target + BitVec.ofNat 64 off)).landingLess id i
    else if s.spadBusy pid pa then s
    else match s.lineAt pid pa len with
      | .waits => s
      | .undecided g ep => s.landingUndecided id i g ep
      | .clear => ((s.dropMsg n).retireAt m).landPiece id i off pid pa len
  | _ => s

/-- LANDING_ARRIVAL: the bytes of a landing are read at their home and arrive (R180, R206). -/
def execLandingArrival (id : CtxId) (entry : Nat) (s : State) : Out :=
  let e := s.entry id entry
  match e.landing with
  | some { vd := some _, left := 0, arrived := false, .. } =>
    .next (if e.state = .outstanding && s.resident id then s.landingHere id entry else s)
  | some { vd := some _, left := _ + 1, .. } =>
    if e.state = .outstanding && s.resident id then
      (match s.nextLoad id entry with
       | some (n, m) => .next (s.landingRead id entry n m)
       | none => .next s)
    else .next s
  | _ => .next s

/-- Whether a landing is due on this cycle (R204, R207). -/
def State.landingDue (s : State) (id : CtxId) (i : Nat) : Bool :=
  let e := s.entry id i
  e.landing.isSome && (e.state = .outstanding || e.state = .stopped) && e.due ≤ s.now id.pid && (s.core id.pid id.core).swap = .running

/-- The status of a chain that completed with a code (R218). -/
def Chain.status (c : Chain) (code detail : Nat) : Word := statusWord (c.off / 16) c.fl detail code

/-- Two records of one chain. -/
def Chain.same (a b : Chain) : Bool := a.ctx = b.ctx && a.entry = b.entry && a.seq = b.seq

/-- A chain that has ended leaves its queue with its status; its own release follows its last write (R167, R216, R218). -/
def State.closeChain (s : State) (id : CtxId) (c : Chain) (code detail : Nat) : State :=
  let s := match c.rel with
    | some sc => if code = 0 then s.raceRelease ⟨id, true⟩ sc.toNat else s
    | none => s
  ((s.updLive id.pid id.core (fun d => { d with chains := d.chains.filter (fun x => !x.same c) })).retire id c.entry
    (c.status code detail)).thaw id c.entry

/-- The held bytes of a `cpy.land` whose COPY is complete take their values all together; a chain that has ended completes with them
(R217). -/
def State.landCopy (s : State) (id : CtxId) (i : Nat) : State :=
  let e := s.entry id i
  match (s.core id.pid id.core).live.chains.find? (fun c => c.ctx = id.ctx % 4 && c.entry = i % 64 && c.seq = e.seq &&
      c.land && !c.landed && c.off ≠ c.head) with
  | none => s
  | some c =>
    let s := c.held.foldl (fun s b => s.storeBy (some ⟨id, true⟩) b.1 [b.2] none) s
    match c.final with
    | some (k, d) => s.closeChain id c k d
    | none =>
      ((s.updLive id.pid id.core (fun d => { d with chains := d.chains.map (fun x =>
        if x.same c then { x with held := [], landed := true } else x) })).updEntry id i (fun e => { e with landing := none })).thaw id i

/-- The COPY of a `cpy.land` is complete: its bytes land at the promised cycle, or now where that has come (R217). -/
def State.copyDone (s : State) (id : CtxId) (i : Nat) : State :=
  let s := s.updEntry id i (fun e => { e with landing := e.landing.map (fun l => { l with arrived := true }) })
  if s.landingDue id i then s.landCopy id i else s

/-- LANDING_SLOT: at the promised cycle, or later under R206, the bytes enter their destination (R204, R217). -/
def execLandingSlot (id : CtxId) (entry : Nat) (s : State) : Out :=
  if !s.landingDue id entry then .next s
  else match (s.entry id entry).landing with
    | some { vd := some _, arrived := true, .. } => .next (s.landLdt id entry)
    | some { vd := none, arrived := true, .. } => .next (s.landCopy id entry)
    | _ => .next s

/-- LANDING_FREEZE: a landing is not present at its promised cycle, and the whole core freezes (R206). -/
def execLandingFreeze (id : CtxId) (entry : Nat) (s : State) : Out :=
  let e := s.entry id entry
  match e.landing with
  | some l =>
    if s.landingDue id entry && !(s.ctx id).parkMark && !l.arrived && !l.late && e.bnd ≠ 0 &&
       !(s.core id.pid id.core).freeze.contains (id.ctx % 4, entry % 64) then
      .next (s.updCore id.pid id.core (fun k => { k with freeze := k.freeze ++ [(id.ctx % 4, entry % 64)] }))
    else .next s
  | none => .next s

/-- LANDING_BOUND_EXPIRY: the freeze has lasted the bound, or the bound is 0: the freeze ends and `LATE` is pending, with the
landing's ticket (R206, R217, R254). -/
def execLandingBoundExpiry (id : CtxId) (entry : Nat) (s : State) : Out :=
  let e := s.entry id entry
  match e.landing with
  | some l =>
    if s.landingDue id entry && !(s.ctx id).parkMark && !l.arrived && !l.late &&
       (e.bnd = 0 || ((s.core id.pid id.core).freeze.contains (id.ctx % 4, entry % 64) && e.bnd.toNat ≤ l.frozen)) then
      let s := (s.thaw id entry).updEntry id entry (fun e => { e with landing := e.landing.map (fun l => { l with late := true }) })
      .next (s.addTrap id { cause := causeLate, level := e.level, entry := entry % 64,
                            tval := ticket e.seq e.kind.toNat (entry % 64) })
    else .next s
  | none => .next s

end Sys2Proof.Machine
end

