-- ==== Sys2Proof/Machine/Fetch.lean ====
section
/-! DEFINITION. Fetching instruction bytes (R32, R33, R292, R376, R378). -/

namespace Sys2Proof.Machine

/-- What a fetch gives. -/
inductive Fetched where
  | ok (bs : List Byte)
  | trap (cause : Nat) (tval : Word)
  /-- the bytes lie on a sealed line, or in a scratchpad that is being moved: the fetch waits (R24, R183) -/
  | waits
deriving DecidableEq, Repr

/-- `TVAL` of `MEMERR` (R379). -/
def memerrTval (origin : Nat) (more impr w : Bool) (addr : Word) : Word :=
  (BitVec.ofNat 4 origin ++ BitVec.ofBool more ++ BitVec.ofBool impr ++ BitVec.ofBool w ++ addr.extractLsb' 0 57 : BitVec 64)

/-- What a sealed line means for a fetch (R183, R192). -/
def Line.fetched : Line → Fetched
  | .undecided g e => .trap causeUndecided (undecidedTval g e 0)
  | _ => .waits

/-- The pieces of a fetch: waits on a line, an uncorrectable unit (R378), or the bytes. -/
def State.fetchPieces (s : State) : Word → List Piece → Fetched
  | _, [] => .ok []
  | va, p :: ps =>
    match p.dest with
    | .exposure .. => .trap causeMemfault (memfaultTval 6 false va)
    | .phys pid pa =>
      if s.spadBusy pid pa then .waits
      else if s.lineAt pid pa p.len ≠ .clear then (s.lineAt pid pa p.len).fetched
      else match s.badAt (memKey pid pa) p.len with
        | some u => .trap causeMemerr (memerrTval 1 false true false (va + BitVec.ofInt 64 ((u : Int) - memKey pid pa)))
        | none =>
          match s.fetchPieces (va + BitVec.ofNat 64 p.len) ps with
          | .ok bs => .ok (s.physBytes pid pa p.len ++ bs)
          | r => r

/-- `n` bytes fetched by a context at an address of the first form of R21 (R33). At an address of another form, the local aperture's included,
the fetch raises `MEMFAULT` NONCANON (DEDUCED, log entry 110: R33 names no reason). -/
def State.fetch (s : State) (id : CtxId) (addr : Word) (n : Nat) : Fetched :=
  if addr.toNat / 2 ^ 57 ≠ 0 then .trap causeMemfault (memfaultTval 3 false addr)
  else match s.resolve (s.whoOf id) .fetch addr n with
    | .fault e a => .trap causeMemfault (memfaultTval e false a)
    | .blocked .. => .waits
    | .lined l => l.fetched
    | .ok ps => s.fetchPieces addr ps

/-- The page changes a fetch makes: the access counts of R343. -/
def State.fetchTouch (s : State) (id : CtxId) (addr : Word) (n : Nat) : State :=
  if addr.toNat / 2 ^ 57 ≠ 0 then s else (s.access (s.whoOf id) .fetch addr n).1

/-- The start of the 64-byte line after an address (R32). -/
def nextLine (a : Word) : Word := BitVec.ofNat 64 (a.toNat / 64 * 64 + 64)

/-- What the fetch of a bundle gives. -/
inductive Bundled where
  | ok (addr : Word) (bytes : List Byte)
  | trap (addr : Word) (cause : Nat) (tval : Word)
  | waits
deriving DecidableEq, Repr

/-- The bundle at an address: pad headers are skipped (R32). The lines run out with the address space. -/
def State.fetchBundle (s : State) (id : CtxId) : Nat → Word → Bundled
  | 0, a => .trap a causeMemfault (memfaultTval 3 false a)
  | fuel + 1, a =>
    match s.fetch id a 1 with
    | .trap c t => .trap a c t
    | .waits => .waits
    | .ok bs =>
      let h := bs.headD 0
      if h = 0 then s.fetchBundle id fuel (nextLine a)
      else match s.fetch id a (bundleLength h) with
        | .trap c t => .trap a c t
        | .waits => .waits
        | .ok bs => .ok a bs

/-- The lines of the address space (R21, R32). -/
def padFuel : Nat := 2 ^ 51

/-- The address after the `n` bundles that start at an address, found by fetching them (R296): or the fetch fault. -/
def State.skipBundles (s : State) (id : CtxId) : Nat → Word → Except (Option (Nat × Word)) Word
  | 0, a => .ok a
  | n + 1, a =>
    match s.fetchBundle id padFuel a with
    | .ok b bs => s.skipBundles id n (b + BitVec.ofNat 64 bs.length)
    | .trap _ c t => .error (some (c, t))
    | .waits => .error none

end Sys2Proof.Machine
end

