-- ==== Sys2Proof/Machine/Control.lean ====
section
/-! DEFINITION. Control transfers, the loop sequencer, named barriers, hoops, waits and the rest of the C slot at program
level (R284 to R311, R387, R406). -/

namespace Sys2Proof.Machine

/-! ### Transfers (R284 to R288) -/

/-- The next bundle of the context in hand (R285). -/
def State.jump (s : State) (t : Word) : State := s.updMe (fun c => { c with npc := t })
/-- The target of a displacement (R285). -/
def State.target (s : State) (disp : BitVec 32) : Word := s.cur.addr + sext disp
/-- The address after the bundle in hand. -/
def State.after (s : State) : Word := s.cur.addr + BitVec.ofNat 64 s.cur.len

def execBr (disp : BitVec 32) (s : State) : Out := .next (s.jump (s.target disp))
def execJmp (disp : BitVec 32) (s : State) : Out := .next (s.jump (s.target disp))
def execCall (disp : BitVec 32) (s : State) : Out := .next ((s.writeG 1 63 s.after).jump (s.target disp))
def execCallr (ga : GNum) (s : State) : Out := .next ((s.writeG 1 63 s.after).jump (s.rg ga))
def execJr (ga : GNum) (s : State) : Out := .next (s.jump (s.rg ga))
def execRet (s : State) : Out := .next (s.jump (s.rg 63))

/-- What the search of a bucket table comes to (R288). -/
inductive Bucketed where
  | target (t : Word)
  | trap (cause : Nat) (tval : Word)
  | waits
  /-- no entry fits -/
  | ends
deriving DecidableEq, Repr

/-- The search of R288 by a context from entry `e`, `fuel` entries more. -/
def State.bucket (s : State) (id : CtxId) (base : Word) (n : Nat) : Nat → Nat → Bucketed
  | 0, _ => .ends
  | fuel + 1, e =>
    match s.fetch id (base + BitVec.ofNat 64 (8 * e)) 8 with
    | .trap c t => .trap c t
    | .waits => .waits
    | .ok bs =>
      let cap := bytesAt bs 0 4
      if cap = 0xFFFFFFFF ∨ n ≤ cap then .target (base + sext (BitVec.ofNat 32 (bytesAt bs 4 4)))
      else s.bucket id base n fuel (e + 1)

/-- The search of a `jmp.bkt` of the bundle at an address. -/
def State.bucketOf (s : State) (id : CtxId) (addr : Word) (gc : GNum) (off : BitVec 20) : Bucketed :=
  s.bucket id ((addr &&& ~~~7) + sext off) ((s.ctx id).rg gc).toNat 64 0

/-- R288. -/
def execJmpBkt (gc : GNum) (off : BitVec 20) (s : State) : Out :=
  match s.bucketOf s.cur.id s.cur.addr gc off with
  | .target t => .next (s.jump t)
  | .trap c t => .next (s.raise c t)
  | .waits => .next s.hold
  | .ends => .next s.illegalField

/-! ### Descriptors in the own scratchpad (R198, R291, R302, R312) -/

/-- The key of the own scratchpad's byte at an offset (R21). -/
def State.ownKey (s : State) (off : Nat) : Nat := spadKey s.cur.id.pid s.cur.id.core off

/-- A descriptor of `n` bytes at bits 19:0 of `a`: its alignment and range, its bytes; an uncorrectable unit reads as zero
and is a consumed error (R195, R198, R378). -/
def State.descr (s : State) (a : Word) (n : Nat) (k : State → List Byte → Out) : Out :=
  let off := spadOff a
  if off % 16 ≠ 0 then .next (s.memfault 2 false (BitVec.ofNat 64 off))
  else if 0x100000 < off + n then .next (s.memfault 1 false (BitVec.ofNat 64 off))
  else k (s.consumeBad false (ownVa off) (s.ownKey off) n) (s.readData (s.ownKey off) n)

/-! ### The loop sequencer (R289 to R297) -/

/-- Bytes as they stood before a near posted store of the same bundle, which `loop.cfg` does not observe (R291). -/
def State.unseen (s : State) (k : Nat) (bs : List Byte) : List Byte :=
  bs.zipIdx.map (fun b => ((s.latch.hidden.find? (fun o => o.1 = k + b.2)).map (·.2)).getD b.1)

/-- A level as a descriptor gives it (R290). -/
def loopLevelOf (bs : List Byte) : LoopLevel :=
  { count := bytesAt bs 0 4
    strides := Vector.ofFn (fun j =>
      if (bytesAt bs 4 2).testBit j.val then BitVec.ofNat 64 (bytesAt bs (16 + 8 * j.val) 8) else 0) }

/-- R291. -/
def execLoopCfg (gd : GNum) (lev : BitVec 3) (s : State) : Out :=
  s.descr (s.rg gd) 144 (fun s bs =>
    let bs := s.unseen (s.ownKey (spadOff (s.rg gd))) bs
    if bytesAt bs 0 4 = 0 ∨ bytesAt bs 6 10 ≠ 0 then .next s.illegalField
    else if h : lev.toNat < 6 then
      .next (s.updMe (fun c => { c with seqr := { c.seqr with levels := c.seqr.levels.set lev.toNat (loopLevelOf bs) h } }))
    else .next s.illegalField)

/-- R292: the replay of the `nm1` + 1 bundles that follow. -/
def execLoopRun (nm1 : BitVec 6) (flev : BitVec 3) (s : State) : Out :=
  let r (l : Level) : Replay :=
    { n := nm1.toNat + 1, flev := flev.toNat, level := l, want := s.after, buf := [], pos := 0,
      iter := Vector.replicate 6 0, first := true }
  .next (s.updMe (fun c => { c with seqr := { c.seqr with replay := some (r c.level) } }))

/-- The replay that governs a context at its level. -/
def Ctx.running (c : Ctx) : Option Replay := c.seqr.replay.filter (fun r => r.level = c.level)

/-- A context's count at level `l` of its sequencer. -/
def Ctx.loopLevel (c : Ctx) (l : Nat) : LoopLevel := c.seqr.levels[l % 6]'(Nat.mod_lt _ (by decide))
def Replay.at (r : Replay) (l : Nat) : Nat := r.iter[l % 6]'(Nat.mod_lt _ (by decide))

/-- Whether a slot's iteration class performs it, in a replay or not (R37, R293). -/
def Ctx.itPerforms (c : Ctx) (inReplay : Bool) (it : BitVec 2) : Bool :=
  if !inReplay then true
  else match c.running with
    | none => true
    | some r =>
      let i := r.at r.flev
      if it = 1 then i = 0 else if it = 2 then i + 1 = (c.loopLevel r.flev).count else true

/-- Whether a slot is performed: its iteration class, and in slot C its predicate (R37, R51). -/
def Ctx.performs (c : Ctx) (inReplay : Bool) (x : Slot × Slotted) : Bool :=
  c.itPerforms inReplay x.2.it && (x.1 ≠ .c || (c.rp x.2.pr != x.2.pn))

/-- The end of a replay: every level count 1, strides 0 (R289). -/
def Ctx.endReplay (c : Ctx) : Ctx := { c with seqr := {} }

/-- R296: the replay ends after its bundle; in the first pass the address after bundle n is found by fetching. -/
def execLoopBrk (s : State) : Out :=
  match s.me.running with
  | none => .next s
  | some r =>
    let done (t : Word) : Out := .next { s.jump t with latch := { s.latch with brk := true } }
    if r.first then
      match s.skipBundles s.cur.id (r.n - 1 - r.pos) s.after with
      | .ok t => done t
      | .error (some (c, t)) => .next (s.raise c t)
      | .error none => .next s.hold
    else done ((r.buf.getLast?.map (fun b => b.addr + BitVec.ofNat 64 b.bytes.length)).getD s.after)

/-! ### Named barriers (R298 to R301) -/

def CoreData.barrier (d : CoreData) (b : Nat) : Barrier := d.barriers[b % 32]'(Nat.mod_lt _ (by decide))
def CoreData.setBarrier (d : CoreData) (b : Nat) (x : Barrier) : CoreData :=
  { d with barriers := d.barriers.set (b % 32) x (Nat.mod_lt _ (by decide)) }

/-- A barrier of the own core. -/
def State.myBarrier (s : State) (b : Nat) : Barrier := s.myCore.live.barrier b
def State.setMyBarrier (s : State) (b : Nat) (x : Barrier) : State :=
  s.updMyCore (fun k => { k with live := k.live.setBarrier b x })
def State.meAgent (s : State) : Agent := ⟨s.cur.id, false⟩

/-- A barrier of the own core as `bar.wait` and `bar.test` see it: after all of the cycle's arrivals (R300). -/
def State.seenBarrier (s : State) (b : Nat) : Barrier := s.allArrived.myBarrier b

/-- The acquire of a completed phase, at the widest scope counted in it, from every member counted (R167, R185, R189). -/
def State.phaseAcquire (s : State) (b : Nat) : State :=
  s.acquireFrom s.meAgent (s.seenBarrier b).widest (s.seenBarrier b).last

/-- R299, R300: COUNT := g[N]; PH unchanged. -/
def execBarInit (b : BitVec 5) (gn : GNum) (s : State) : Out :=
  let n := (s.rg gn).toNat
  if n = 0 ∨ 65535 < n then .next s.illegalField
  else
    let x := s.myBarrier b.toNat
    .next (s.setMyBarrier b.toNat { x with count := BitVec.ofNat 16 n, arr := 0, poison := false, now := [] })

/-- R299: the phase seen is kept and one arrival counted; a release at `.core` (R167), made once the context's near stores have been
performed and its loads have read (R168, R174). A poisoned phase counts no arrival (R226, R301). -/
def execBarArrive (b : BitVec 5) (s : State) : Out :=
  let x := s.myBarrier b.toNat
  if x.count = 0 then .next s.illegalField
  else if s.nearOut s.cur.id || s.myLoadsOut s.cur.id then .next s.hold
  else
    let s := s.updMe (fun c => { c with
      wph := if x.ph then c.wph ||| ((1 : BitVec 32) <<< b.toNat) else c.wph &&& ~~~((1 : BitVec 32) <<< b.toNat) })
    let s := s.raceRelease s.meAgent 1
    .next (if x.poison then s else s.setMyBarrier b.toNat (x.arrive ⟨s.cur.id, false, 1⟩))

/-- Whether the phase a context arrived in has completed (R299). -/
def State.phaseOver (s : State) (b : BitVec 5) : Bool := (s.seenBarrier b.toNat).ph ≠ s.me.wph.getLsbD b.toNat

/-- R299, R301. -/
def execBarWait (b : BitVec 5) (s : State) : Out :=
  if s.over (s.phaseOver b) then .next (s.phaseAcquire b.toNat).blocking
  else if (s.seenBarrier b.toNat).poison then .next (s.raise causePoison (b.setWidth 64))
  else .next s.hold

/-- R299, R301. -/
def execBarTest (b : BitVec 5) (pd : PNum) (s : State) : Out :=
  if s.phaseOver b then .next ((s.phaseAcquire b.toNat).writeP 2 pd true)
  else if (s.seenBarrier b.toNat).poison then .next (s.raise causePoison (b.setWidth 64))
  else .next (s.writeP 2 pd false)

/-! ### Hoops (R255 to R259, R302 to R306) -/

/-- Fields of a `HOOPM` register (R255). -/
def hoopmV (w : Word) : Bool := w.getLsbD 63
def hoopmLevel (w : Word) : Nat := fieldW w 56 3
def hoopmSeq (w : Word) : Nat := fieldW w 32 15
def hoopmHid (w : Word) : Nat := fieldW w 0 22

def Ctx.hoopReg (c : Ctx) (m : Nat) : Word := c.hoopm[m % 4]'(Nat.mod_lt _ (by decide))
def Ctx.setHoopReg (c : Ctx) (m : Nat) (w : Word) : Ctx :=
  { c with hoopm := c.hoopm.set (m % 4) w (Nat.mod_lt _ (by decide)) }

/-- The register of a member as its hoop stands (R255). -/
def Hoop.word (h : Hoop) : Word :=
  BitVec.ofNat 64 (2 ^ 63 + h.level * 2 ^ 56 + (if h.ph then 2 ^ 47 else 0) + h.seq % 2 ^ 15 * 2 ^ 32
    + (h.members.length - 1) % 1024 * 2 ^ 22 + h.hid)

/-- LEVEL and HID of a hoop as one number: which hoop an arrival is meant for, beside its home (R257, R303). -/
def Hoop.name (h : Hoop) : Nat := h.hid * 8 + h.level

/-- A member of an image and register. -/
def HMember.is (m : HMember) (ident reg : Nat) : Bool := m.ident = ident && m.reg = reg

/-- A hoop with a member of an image and register that is not leaving. -/
def Hoop.holds (h : Hoop) (ident reg : Nat) : Bool := !h.forming && h.members.any (fun m => m.is ident reg && !m.leave)

/-- The hoop that a context image's register belongs to, and its package. -/
def State.hoopOf (s : State) (ident reg : Nat) : Option (Nat × Hoop) :=
  s.pkgs.findSome? (fun p => (p.2.hoops.find? (fun h => h.holds ident reg)).map (fun h => (p.1, h)))

/-- The home of a hoop (R256). -/
def hoopHome (pid level unit : Nat) : Home :=
  match level with
  | 0 => .field pid (fieldOf unit)
  | 1 => .field pid (unit / 16)
  | 2 => .field pid unit
  | _ => .die pid

/-- The source of a hoop message of register m: no in-flight entry, marked 64 + m. -/
def State.hoopSrc (s : State) (m : Nat) : Src :=
  let id := s.cur.id
  { id := id, ident := s.identOf id, part := s.partOfCore id.pid id.core, level := s.me.level, entry := 64 + m, seq := 0,
    tag := s.sourceTag id, issue := s.cur.issue }

/-- A home from its number (R163). -/
def homeOfCode (n : Nat) : Home :=
  let k := n % 16
  if k < 8 then .field (n / 16) k else if k = 8 then .hbm (n / 16) else if k < 12 then .host (n / 16) (k - 10)
  else .die (n / 16)

/-- An arrival at the hoop of register m: flush probes on every route used since the last phase end, and the arrival's
message (R257). -/
def State.hoopArrival (s : State) (m : Nat) (leave : Bool) : State :=
  match s.hoopOf (s.identOf s.cur.id) m with
  | none => s
  | some (pid, h) =>
    let src := s.hoopSrc m
    let routes := s.me.hoopRoutes
    let s := routes.foldl (fun s r => s.send { src := src, chan := r.1, dst := homeOfCode r.2, body := .probe }) s
    s.send { src := src, chan := 0, dst := hoopHome pid h.level h.unit, idx := h.name, body := .hoopArrive m leave }

/-- The routes of a phase have been probed. -/
def State.probed (s : State) : State := s.updMe (fun c => { c with hoopRoutes := [] })

/-- The departure from a phase end: the acquire from every other member that was counted in it, leavers included (R186, R189). -/
def State.hoopAcquire (s : State) : State :=
  (s.me.phase.foldl (fun s x =>
    let b : Agent := ⟨x, false⟩
    if s.meAgent.sameBay b then s.raceAcquire s.meAgent b.num else s) s).updMe (fun c => { c with phase := [] })

/-- The arrival of a `hoop.end` is sent, and the bundle waits. -/
def State.startHoopEnd (s : State) (m : Nat) (w : Word) : State :=
  ((s.hoopArrival m false).probed.updMe (fun c => { c with
    hoopWait := some { reg := m, join := false, addr := s.cur.addr, seq := hoopmSeq w } })).holdKeep

/-- A hoop arrival is a release of the context's earlier accesses (R167): it is sent once every `ldt` has read its bytes (R170). -/
def State.beginHoopEnd (s : State) (m : Nat) (w : Word) : State := if s.myLoadsOut s.cur.id then s.hold else s.startHoopEnd m w

/-- R305, R257: the arrival is sent once; the bundle waits until the phase has ended. -/
def execHoopEnd (m : BitVec 2) (s : State) : Out :=
  let c := s.me
  let w := c.hoopReg m.toNat
  if !hoopmV w then .next s.illegalField
  else match c.hoopWait with
    | some { reg := r, join := false, addr := a, seq := q } =>
      if r = m.toNat ∧ a = s.cur.addr then
        (if hoopmSeq w ≠ q then .next (s.updMe (fun c => { c with hoopWait := none })).hoopAcquire.blocking
         else .next s.hold)
      else .next (s.beginHoopEnd m.toNat w)
    | _ => .next (s.beginHoopEnd m.toNat w)

/-- A join descriptor (R302). -/
structure JoinReq where
  pid : Nat
  level : Nat
  unit : Nat
  part : Nat
  hid : Nat
  nmem : Nat
deriving DecidableEq, Repr

/-- NMEM's limit by level (R302). -/
def hoopLimit (level : Nat) : Nat :=
  match level with
  | 0 => 3 | 1 => 31 | 2 => 511 | _ => 1023

/-- The descriptor's checks and its meaning for a context (R302). A context in a bay of no partition joins under number 0 (DESIGN CHOICE,
log entry 112). -/
def State.joinReq (s : State) (bs : List Byte) : Option JoinReq :=
  let x := bytesAt bs 0 8
  let level := bitsNat x 51 3
  let nmem := bitsNat x 41 10
  let hid := bitsNat x 0 22
  let id := s.cur.id
  if bytesAt bs 8 8 ≠ 0 ∨ bitsNat x 22 19 ≠ 0 ∨ 4 < level ∨ hoopLimit level < nmem ∨ (level ≠ 4 ∧ bitsNat x 54 10 ≠ 0)
  then none
  else some { pid := if level = 4 then bitsNat x 54 10 else id.pid, level := level,
              unit := (match level with
                | 0 => id.core
                | 1 => bayOf id.core
                | 2 => fieldOf id.core
                | _ => 0),
              part := if level = 4 then bitsNat hid 16 6 else (s.partOfCore id.pid id.core).getD 0, hid := hid, nmem := nmem }

/-- A hoop is the one a join names (R302). -/
def Hoop.named (h : Hoop) (q : JoinReq) : Bool :=
  h.level = q.level && h.unit = q.unit && h.part = q.part && h.hid = q.hid

/-- Whether another membership register already names the hoop of a join (R302). -/
def State.joinedElsewhere (s : State) (m : Nat) (q : JoinReq) : Bool :=
  (List.range 4).any (fun j => j ≠ m && hoopmV (s.me.hoopReg j) &&
    (match s.hoopOf (s.identOf s.cur.id) j with
     | some (pid, h) => pid = q.pid && h.named q
     | none => false))

/-- The hoop that has admitted the context for register m under a join (R306). -/
def State.admitted (s : State) (m : Nat) (q : JoinReq) : Option Hoop :=
  (s.pkg q.pid).hoops.find? (fun h => !h.forming && h.named q && h.members.any (fun x => x.is (s.identOf s.cur.id) m && !x.leave))

/-- Whether the context still belongs to a hoop that it is leaving. -/
def State.leaving (s : State) (m : Nat) : Bool :=
  s.pkgs.any (fun p => p.2.hoops.any (fun h => h.members.any (fun x => x.is (s.identOf s.cur.id) m && x.leave)))

/-- The message of a join (R303). -/
def State.sendJoin (s : State) (m : Nat) (q : JoinReq) : State :=
  s.send { src := s.hoopSrc m, chan := 0, dst := hoopHome q.pid q.level q.unit,
           body := .hoopJoin q.level q.unit q.part q.hid q.nmem m }

/-- A join under way: it is sent again where its home has lost it, and waits until the old hoop's phase has ended and the new hoop has
admitted the context (R258, R303, R306). -/
def State.joinOn (s : State) (m : Nat) (q : JoinReq) (w : HoopWait) : Out :=
  match s.admitted m q with
  | some h =>
    if s.leaving m then .next s.hold
    else .next (s.updMe (fun c => { c.setHoopReg m h.word with hoopWait := none })).hoopAcquire.blocking
  | none =>
    if w.seq = 0 then .next ((s.sendJoin m q).updMe (fun c => { c with hoopWait := some { w with seq := 1 } })).holdKeep
    else .next s.hold

/-- The first execution of a join: it goes to the new home, and counts in the old hoop as an arrival marked leaving (R303). The arrival
stands where the new home refuses the join: the old hoop then ends its phase without the context, and its register becomes 0 (DEDUCED
from R303, log entry 58; R304 leaves `HOOPMm` unchanged by the refusal itself). -/
def State.startJoin (s : State) (m : Nat) (q : JoinReq) : Out :=
  if hoopmV (s.me.hoopReg m) && s.myLoadsOut s.cur.id then .next s.hold else
  let t := if hoopmV (s.me.hoopReg m) then (s.hoopArrival m true).probed else s
  .next ((t.sendJoin m q).updMe (fun c => { c with
    hoopWait := some { reg := m, join := true, addr := s.cur.addr, seq := 1 } })).holdKeep

/-- R302, R303: joining (V = 0), or moving, the join being also the arrival in the old hoop, marked leaving. -/
def execHoopJoin (m : BitVec 2) (gd : GNum) (s : State) : Out :=
  s.descr (s.rg gd) 16 (fun s bs =>
    match s.joinReq bs with
    | none => .next s.illegalField
    | some q =>
      match s.me.hoopWait with
      | some w =>
        if w.join && w.reg = m.toNat && w.addr = s.cur.addr then s.joinOn m.toNat q w
        else if s.joinedElsewhere m.toNat q then .next s.illegalField
        else s.startJoin m.toNat q
      | none => if s.joinedElsewhere m.toNat q then .next s.illegalField else s.startJoin m.toNat q)

/-! ### Waiting, yielding and ending (R307 to R311) -/

/-- Whether a landing promised by a cycle has not yet entered its destination (R307). -/
def Ctx.landingBy (c : Ctx) (t : Nat) : Bool :=
  c.ifr.toList.any (fun e => e.landing.isSome && (e.state = .outstanding || e.state = .stopped) && e.promised.toNat ≤ t)

/-- A `cpy.land` of the record that has landed by a cycle: passing it is an acquire from the quill (R167). -/
def Ctx.landedCopyBy (c : Ctx) (t : Nat) : Bool :=
  c.ifr.toList.any (fun e => e.state ≠ .free && e.landing.isNone && e.kind = 1 && e.promised ≠ 0 && e.promised.toNat ≤ t)

/-- The quill of the own core. -/
def State.myQuill (s : State) : Agent := ⟨s.cur.id, true⟩

/-- R307. -/
def execWaitAt (gt : GNum) (s : State) : Out :=
  let t := (s.rg gt).toNat
  if !s.over (t ≤ (s.pkg s.cur.id.pid).cycle.toNat && !s.me.landingBy t) then .next s.hold
  else .next (if s.me.landedCopyBy t then s.raceEdge s.myQuill s.meAgent else s).blocking

/-- A ticket's fields (R197). -/
def ticketSeq (w : Word) : BitVec 16 := w.extractLsb' 16 16
def ticketKind (w : Word) : Nat := fieldW w 12 4
def ticketEntry (w : Word) : Nat := fieldW w 0 6
/-- A ticket with a reserved bit, or KIND 9 to 15 (R308). -/
def ticketBad (w : Word) : Bool := fieldW w 32 32 ≠ 0 || fieldW w 6 6 ≠ 0 || 8 < ticketKind w

/-- A ticket's operation is done: its entry holds another SEQ or has been retired (R197). -/
def Ctx.ticketDone (c : Ctx) (w : Word) : Bool :=
  let e := c.entry (ticketEntry w)
  e.seq ≠ ticketSeq w || e.state = .retired || e.state = .free

/-- The acquire of an observed completion: from the quill for a chain (R167, R189). -/
def State.observe (s : State) (w : Word) : State :=
  if ticketKind w = 1 then s.raceEdge s.myQuill s.meAgent else s

/-- R308. -/
def execWaitEv (gk : GNum) (s : State) : Out :=
  let w := s.rg gk
  if gk = 0 then .next s.illegalField
  else if ticketBad w then .next s.blocking
  else if s.over (s.me.ticketDone w) then .next (s.observe w).blocking
  else .next s.hold

/-- R309. -/
def execYield (s : State) : Out :=
  .next (s.updMyCore (fun k => if k.primary = some (s.cur.id.ctx % 4) then { k with yielded := some (s.cur.id.ctx % 4) } else k))
/-- R309. -/
def execRole (r : BitVec 2) (s : State) : Out := .next (s.updMe (fun c => { c with role := r }))

/-- A chain of the context in hand is STOPPED: after its end it cannot be resumed, which in a node instance is the instance's fault
(R382). Outside a node the quill ends the chain. -/
def State.chargeStopped (s : State) : State :=
  match s.me.inst with
  | some i =>
    if s.myCore.live.chains.any (fun c => c.ctx = s.cur.id.ctx % 4 && c.stopped) then
      s.updPkg s.cur.id.pid (fun p => { p with insts := p.insts.map (fun x =>
        if x.id = i && x.dying.isNone then { x with dying := some 0xF000000000000002 } else x) })
    else s
  | none => s

/-- Whether a context that ends is still to read for an `ldt` while it belongs to a hoop: its leaving arrivals release its accesses
(R167, R170, R306). -/
def State.leaveWaits (s : State) : Bool := (List.range 4).any (fun m => hoopmV (s.me.hoopReg m)) && s.myLoadsOut s.cur.id

/-- The end of a context: HALTED after its bundle, leaving its hoops; the stroke is closed (R306, R310, R385). -/
def State.haltMe (s : State) : State :=
  let s := ((List.range 4).foldl (fun s m => if hoopmV (s.me.hoopReg m) then s.hoopArrival m true else s) s).probed
  { s.updMe (fun c => { c with halted := true, stkchk := c.stkchk &&& ~~~0x0100000000000000 }) with
    latch := { s.latch with halt := true } }

/-- R310. -/
def execHalt (s : State) : Out := if s.leaveWaits then .next s.hold else .next s.chargeStopped.haltMe

/-- R311: the status is kept for the dispatcher, then as `halt`. -/
def execGnodeDone (gs : GNum) (s : State) : Out :=
  if s.leaveWaits then .next s.hold
  else .next (s.chargeStopped.updMe (fun c => if c.inst.isSome then { c with doneStatus := some (s.rg gs) } else c)).haltMe

/-! ### Traps and the stroke (R91, R387, R406) -/

/-- `TVAL` of `TRAP` and `BRK` (R406). -/
def State.codeTval (s : State) (code : BitVec 20) : Word := BitVec.ofNat 64 (s.cur.len % 64 * 2 ^ 24 + code.toNat)

def execTrap (code : BitVec 20) (s : State) : Out := .next (s.raise causeTrap (s.codeTval code))
def execBrk (code : BitVec 20) (s : State) : Out := .next (s.raise causeBrk (s.codeTval code))

/-- Whether arithmetic flags issued before the bundle in hand are still to be recorded (R90, R91). -/
def State.flagsOut (s : State) : Bool :=
  s.me.pend.any (fun x => match x.tgt with
    | .flags _ _ _ i => i < s.cur.issue
    | _ => false) ||
  s.myCore.live.eng.toList.any (fun e => (e.open s.myCore.pcyc).any (fun q => q.ctx = s.cur.id.ctx % 4 && q.issue < s.cur.issue))

/-- The records that meet an enabled flag (R91). -/
def Ctx.arithHits (c : Ctx) : Word :=
  BitVec.ofNat 64 ((List.range 5).foldl (fun a i =>
    if h : i < 5 then (if fieldW c.xr[i] 57 7 &&& fieldW c.fcsr 16 7 ≠ 0 then a + 2 ^ i else a) else a) 0)

/-- R91. -/
def execTfence (s : State) : Out :=
  if !s.over (!s.flagsOut) then .next s.hold
  else if s.me.arithHits ≠ 0 then .next (s.raise causeArith s.me.arithHits)
  else .next s.blocking

/-! Fields of `STKCHK` (R384). -/
def stkDis (w : Word) : Bool := w.getLsbD 59
def stkBlkf (w : Word) : Bool := w.getLsbD 58
def stkOvf (w : Word) : Bool := w.getLsbD 57
def stkOpen (w : Word) : Bool := w.getLsbD 56
def stkCnt (w : Word) : Nat := fieldW w 32 20
def stkDuct (w : Word) : BitVec 32 := w.extractLsb' 0 32

/-- `STKCHK` from its fields, keeping DIS. -/
def stkWord (dis blkf ovf isOpen : Bool) (cnt : Nat) (duct : BitVec 32) : Word :=
  BitVec.ofNat 64 ((if dis then 2 ^ 59 else 0) + (if blkf then 2 ^ 58 else 0) + (if ovf then 2 ^ 57 else 0)
    + (if isOpen then 2 ^ 56 else 0) + cnt % 2 ^ 20 * 2 ^ 32 + duct.toNat)

/-- One byte of the ductus: CRC-32C, reflected (R386). -/
def crcByte (d : BitVec 32) (b : Byte) : BitVec 32 :=
  (List.range 8).foldl (fun x _ => if x.getLsbD 0 then (x >>> 1) ^^^ 0x82F63B78 else x >>> 1) (d ^^^ b.setWidth 32)

/-- The stroke's update by one bundle at program level (R385): whether it performs a blocking instruction, its
1 + max(`st`), and its C slot's bytes if it enters the ductus. -/
def stkUpdate (w : Word) (blocking : Bool) (cost : Nat) (cbytes : List Byte) : Word :=
  let start := !stkOpen w && !blocking
  if !stkOpen w && blocking then w
  else
    let blkf := if start then false else stkBlkf w || blocking
    let cnt := (if start then 0 else stkCnt w) + cost
    let ovf := (if start then false else stkOvf w) || 1048575 < cnt
    let duct := cbytes.foldl crcByte (if start then 0xFFFFFFFF else stkDuct w)
    stkWord (stkDis w) blkf ovf true (if 1048575 < cnt then 1048575 else cnt) duct

/-- The bundle in hand, as the issue stage chose it. -/
def State.myBundle (s : State) : Option Chosen := s.latch.chosen.find? (fun b => b.id = s.cur.id)
/-- The largest stall count of a bundle's slots (R38). -/
def maxSt (xs : List (Slot × Slotted)) : Nat := xs.foldl (fun m x => if m < x.2.st.toNat then x.2.st.toNat else m) 0
/-- The count of the paired `stk.cnt` (R57, R99). -/
def pairedCount (xs : List (Slot × Slotted)) : Nat :=
  (xs.findSome? (fun x => match x.2.op with
    | .stkCnt n => some n.toNat
    | _ => none)).getD 0

/-- The blocking operations that may stand beside `stk.end` (R146, R200). -/
def blocksBeside : Instr → Bool
  | .fenceFar _ | .fenceScAcq _ | .fenceScAr _ | .efence | .mwait _ => true
  | _ => false
/-- Whether the bundle in hand performs a blocking operation beside its `stk.end` (R385). -/
def State.myBlocks (s : State) : Bool :=
  s.myBundle.any (fun b => b.slots.any (fun x => blocksBeside x.2.op && s.me.performs b.replay x))

/-- `TVAL` of `STROKE` (R387): the stroke state, the expected count and ductus. -/
def strokeTval (w : Word) (n : Nat) (d : BitVec 32) : Word :=
  let u := stkDuct w ^^^ 0xFFFFFFFF
  BitVec.ofNat 64 ((if stkCnt w ≠ n then 2 ^ 59 else 0) + (if stkBlkf w then 2 ^ 58 else 0) + (if stkOvf w then 2 ^ 57 else 0)
    + (if u ≠ d then 2 ^ 56 else 0) + stkCnt w * 2 ^ 32 + u.toNat)

/-- Whether the check of R387 fails. -/
def strokeBad (w : Word) (n : Nat) (d : BitVec 32) : Bool :=
  !stkDis w && (stkCnt w ≠ n || (stkDuct w ^^^ 0xFFFFFFFF) ≠ d || stkBlkf w || stkOvf w)

/-- A node instance that is to be killed with a status (R388, R390); `NODE_KILL` does the rest. -/
def State.doom (s : State) (pid inst : Nat) (status : Nat) : State :=
  s.updPkg pid (fun p => { p with insts := p.insts.map (fun i =>
    if i.id = inst && i.dying.isNone then { i with dying := some status } else i) })

/-- R387, R388: the check, with the bundle itself counted; a node instance is killed with status 1 instead of a trap. -/
def execStkEnd (ductus : BitVec 32) (s : State) : Out :=
  if s.me.level ≠ .program then .next s
  else
    let xs := (s.myBundle.map (·.slots)).getD []
    let w := stkUpdate s.me.stkchk s.myBlocks (1 + maxSt xs) []
    if strokeBad w (pairedCount xs) ductus then
      (match s.me.inst with
       | some i => .next (s.doom s.cur.id.pid i 0xF000000000000001).holdKeep
       | none => .next (s.raise causeStroke (strokeTval w (pairedCount xs) ductus)))
    else .next { s with latch := { s.latch with stkEnd := true } }

end Sys2Proof.Machine
end

