-- ==== Sys2Proof/Machine/Tiles.lean ====
section
/-! DEFINITION. Matrix operands: format pairs, segments and vectors in the scratchpad, tiles, and the bytes an outstanding
instruction still uses (R127, R130, R133, R139 to R141, R147). -/

namespace Sys2Proof.Machine

/-! ### Configurations and pairs (R129, R130) -/

def cfgFA (c : Word) : Nat := fieldW c 0 4
def cfgFB (c : Word) : Nat := fieldW c 4 4
/-- Strides in bytes (R129). -/
def cfgASTR (c : Word) : Nat := fieldW c 8 18 * 4
def cfgBSTR (c : Word) : Nat := fieldW c 26 18 * 4
/-- The epilogue table's offset. -/
def cfgEDB (c : Word) : Nat := fieldW c 44 16 * 16

/-- A legal format pair: k-step length, bytes of an A and a B segment, cycles of a k-step, and whether the tile is I32
(R130, R144). -/
structure MPair where
  k : Nat
  sa : Nat
  sb : Nat
  cyc : Nat
  int : Bool
deriving DecidableEq, Repr

def pairOf (fa fb : Nat) : Option MPair :=
  if (fa = 3 ∨ fa = 4) ∧ (fb = 3 ∨ fb = 4) then some ⟨48, 48, 48, 48, false⟩
  else if fa = 1 ∧ fb = 1 ∨ fa = 2 ∧ fb = 2 then some ⟨24, 48, 48, 48, false⟩
  else if (fa = 3 ∨ fa = 4 ∨ fa = 5) ∧ (fb = 5 ∨ fb = 6) then
    some ⟨48, if fa = 5 then 24 else 48, if fb = 5 then 24 else 12, 24, false⟩
  else if fa = 8 ∧ fb = 8 then some ⟨48, 48, 48, 48, true⟩
  else none

/-- The pair of a configuration. -/
def cfgPair (c : Word) : Option MPair := pairOf (cfgFA c) (cfgFB c)

/-! ### Bank format registers an instruction latched (R74, R77) -/

def bfFmt (v : Word) : Nat := fieldW v 0 4
def bfRm (v : Word) : Nat := fieldW v 4 3
def bfSpb (v : Word) : Nat := fieldW v 8 20
def bfCbt (v : Word) : Nat := fieldW v 28 20
/-- The register of the bank that holds an offset. -/
def bankOf (bf : Vector Word 16) (off : Nat) : Word := bf[off / 65536 % 16]'(Nat.mod_lt _ (by decide))

/-! ### Objects (R133) -/

/-- An object of a matrix instruction: OPND of R134, offset of its first byte, bytes, whether it must lie in one bank, and
the format its bank must have. -/
structure MObj where
  opnd : Nat
  off : Nat
  len : Nat
  bank : Bool := false
  fmt : Option Nat := none
deriving DecidableEq, Repr

/-- The A segments of k-step `k`, in row order. -/
def MEntry.aSegs (e : MEntry) (p : MPair) (k : Nat) : List MObj :=
  let rows : List Nat := match e.op with
    | .mmaG _ => e.idx.filter (· ≠ 0xFFFF)
    | _ => List.range 64
  rows.map (fun r => { opnd := 0, off := e.offA + k * cfgASTR e.cfg + r * p.sa, len := p.sa, bank := true, fmt := some (cfgFA e.cfg) })
/-- The B segments of k-step `k`, in column order. -/
def MEntry.bSegs (e : MEntry) (p : MPair) (k : Nat) : List MObj :=
  (List.range 128).map (fun j =>
    { opnd := 1, off := e.offB + k * cfgBSTR e.cfg + j * p.sb, len := p.sb, bank := true, fmt := some (cfgFB e.cfg) })

/-- Fields of an epilogue descriptor (R141). -/
def descScoff (d : List Byte) : Nat := bitsNat (bytesAt d 0 4) 0 20
def descScen (d : List Byte) : Bool := (bytesAt d 0 4).testBit 20
def descBioff (d : List Byte) : Nat := bitsNat (bytesAt d 4 4) 0 20
def descBien (d : List Byte) : Bool := (bytesAt d 4 4).testBit 20
def descOstr (d : List Byte) : Nat := bitsNat (bytesAt d 8 4) 0 20
def descAct (d : List Byte) : Nat := bitsNat (bytesAt d 8 4) 20 3
def descParam (d : List Byte) : Nat := bytesAt d 12 4

/-- Destination formats of `mout` (R140). -/
def moutDst (f : Nat) : Bool := f ≤ 4 || (8 ≤ f && f ≤ 10) || (12 ≤ f && f ≤ 14)
/-- The row length rule of R134: bytes of an output element. -/
def MEntry.outBytes (e : MEntry) : Nat :=
  let f := bfFmt (bankOf e.bf e.offA)
  if moutDst f then codeBits f / 8 else 4
/-- The output rows of `mout`. -/
def MEntry.outRows (e : MEntry) : List MObj :=
  (List.range 64).map (fun i => { opnd := 7, off := e.offA + i * descOstr e.desc, len := 128 * e.outBytes, bank := true })
/-- The scale and bias vectors of `mout`. -/
def MEntry.vectors (e : MEntry) : List MObj :=
  (if descScen e.desc then [{ opnd := 5, off := descScoff e.desc, len := 512 }] else []) ++
  (if descBien e.desc then [{ opnd := 6, off := descBioff e.desc, len := 512 }] else [])

/-! ### Tiles (R127) -/

/-- The key of a tile element. -/
def tileKey (eng td i j : Nat) : Nat := eng % 2 * 65536 + td * 8192 + i * 128 + j
/-- A tile element. -/
def CoreData.tile (d : CoreData) (eng td i j : Nat) : BitVec 32 := (d.tiles.get (tileKey eng td i j)).getD 0
/-- Elements from a key on, absent where +0. -/
def tileCells : Nat → List (BitVec 32) → NMap (BitVec 32)
  | _, [] => []
  | k, x :: xs => if x = 0 then tileCells (k + 1) xs else (k, x) :: tileCells (k + 1) xs
/-- Rows of a tile replaced, whole (R136, R139): a write of a whole 8-byte unit clears its soft error (R377). -/
def CoreData.setRows (d : CoreData) (eng td row : Nat) (xs : List (BitVec 32)) : CoreData :=
  let k := tileKey eng td row 0
  let f := k + xs.length
  { d with
    tiles := d.tiles.filter (fun x => x.1 < k) ++ tileCells k xs ++ d.tiles.filter (fun x => f ≤ x.1)
    badTiles := d.badTiles.filter (fun u => 2 * u < k || f ≤ 2 * u) }

/-! ### Decoding segments (R69 to R72, R133) -/

/-- The decoded elements of a segment of a float format, by the bytes of the scratchpad. -/
def segFloats (rd : Nat → Nat → List Byte) (bf : Vector Word 16) (fmt off k : Nat) : List FVal :=
  let bank := bankOf bf off
  let o := off % 65536
  match fmt with
  | 1 | 2 =>
    let bs := rd off (2 * k)
    (List.range k).map (fun q => fdecode (fspec fmt) (bytesAt bs (2 * q) 2))
  | 5 =>
    let sc := bytesAt (rd (bfSpb bank + o / 24) 1) 0 1
    let bs := rd off 24
    (List.range k).map (fun q => scaled sc (fdecode (fspec 5) (bytesAt bs (q / 2) 1 / 16 ^ (q % 2) % 16)))
  | 6 =>
    let sc := bytesAt (rd (bfSpb bank + o / 12) 1) 0 1
    let bs := rd off 12
    (List.range 6).flatMap (fun w =>
      let idx := bytesAt bs (2 * w) 2
      let entry := leNat (rd (bfCbt bank + 8 * (idx / 256)) 8)
      (List.range 8).map (fun i => scaled sc (cb2Element entry idx i)))
  | _ =>
    let bs := rd off k
    (List.range k).map (fun q => fdecode (fspec fmt) (bytesAt bs q 1))

/-- The decoded elements of an `i8` segment. -/
def segInts (rd : Nat → Nat → List Byte) (off k : Nat) : List Int :=
  (rd off k).map (fun b => laneInt 8 b.toNat 8)

/-- The other bytes that decoding a segment reads: its scale byte and its codebook entries. -/
def segSide (rd : Nat → Nat → List Byte) (bf : Vector Word 16) (fmt off : Nat) : List (Nat × Nat) :=
  let bank := bankOf bf off
  let o := off % 65536
  if fmt = 5 then [(bfSpb bank + o / 24, 1)]
  else if fmt = 6 then
    (bfSpb bank + o / 12, 1) :: (List.range 6).map (fun w => (bfCbt bank + 8 * (bytesAt (rd off 12) (2 * w) 2 / 256), 8))
  else []

/-! ### The bytes of an outstanding instruction (R147) -/

/-- The bytes a k-step reads: its segments, then scales and codebook entries. -/
def MEntry.kstepReads (e : MEntry) (rd : Nat → Nat → List Byte) (p : MPair) (k : Nat) : List (Nat × Nat) :=
  (e.aSegs p k ++ e.bSegs p k).flatMap (fun o => (o.off, o.len) :: segSide rd e.bf (o.fmt.getD 3) o.off)

/-- The bytes an outstanding instruction reads while it runs: offset and number. -/
def MEntry.reads (e : MEntry) (rd : Nat → Nat → List Byte) : List (Nat × Nat) :=
  match e.op with
  | .mma _ | .mmaG _ =>
    (match cfgPair e.cfg with
     | some p => (List.range e.units).flatMap (e.kstepReads rd p)
     | none => [])
  | .minit => [(e.offA, 32768)]
  | .mout => e.vectors.map (fun o => (o.off, o.len))
  | .mzero => []
/-- The bytes an outstanding `mout` writes. -/
def MEntry.writes (e : MEntry) : List (Nat × Nat) :=
  match e.op with
  | .mout => e.outRows.map (fun o => (o.off, o.len))
  | _ => []

/-- Scratchpad bytes as a queued instruction of a context reads them: not as a store in the L slot of its own bundle left them. -/
def State.unitBytes (s : State) (id : CtxId) (e : MEntry) (off n : Nat) : List Byte :=
  let bs := s.readData (spadKey id.pid id.core off) n
  if e.hidden = [] then bs
  else bs.zipIdx.map (fun b => ((e.hidden.find? (fun h => h.1 = off + b.2)).map (·.2)).getD b.1)

/-- An own-scratchpad access of the context in hand conflicts with an outstanding matrix instruction of its own: a store to
bytes one reads or writes, a load of bytes one writes. The reads of an instruction of the access's own bundle come before it (log entry
100). -/
def State.matrixClash (s : State) (w : Bool) (off n : Nat) : Option Word :=
  if !s.me.racedet.getLsbD 0 then none
  else
    let hit (o : Nat × Nat) : Bool := meets o.1 o.2 off n
    let mine := s.myCore.live.eng.toList.flatMap (fun e => (e.open s.myCore.pcyc).filter (fun q => q.ctx = s.cur.id.ctx % 4))
    if mine.any (fun q => q.writes.any hit || (w && q.issue ≠ s.cur.issue && (q.reads (s.unitBytes s.cur.id q)).any hit)) then
      some (raceTval w (Agent.num ⟨s.cur.id, false⟩) true (spadKey s.cur.id.pid s.cur.id.core off))
    else none

/-- KStep of R137: the exact sum of the products, +0 when it is 0, and NV where a NaN forms. -/
def kstep (xs ys : List FVal) : FVal × Fl :=
  if xs.any FVal.isNan || ys.any FVal.isNan then
    (.nan false, Fl.on (xs.any FVal.isSnan || ys.any FVal.isSnan) Fl.nv)
  else
    let r := (xs.zip ys).foldl (fun (a : FVal × Fl) p =>
      let (v, f) := fmulX p.1 p.2
      let (w, g) := faddX 0 a.1 v
      (w, a.2 ||| f ||| g)) (.fin false 0 0, 0)
    match r.1 with
    | .fin _ 0 _ => (.fin false 0 0, r.2)
    | v => (v, r.2)

end Sys2Proof.Machine
end

