-- ==== Sys2Proof/Machine/Memory.lean ====
section
/-! DEFINITION. The L slot: scratchpad accesses, timed loads, posted and group stores, fences, flush-and-signal, probes
(R194 to R214, R344, R380). -/

namespace Sys2Proof.Machine

/-! ### Releases a store carries (R167, R171) -/

/-- The widest of a store's own release and one left by `fence.sc` (R171). -/
def State.relScope (s : State) (rel : Bool) (sc : BitVec 4) : Option (BitVec 4) :=
  match (if rel then some sc else none), s.me.relNext with
  | none, none => none
  | some a, none => some a
  | none, some b => some (BitVec.ofNat 4 b)
  | some a, some b => some (if a.toNat < b then BitVec.ofNat 4 b else a)

/-- A near store of the context in hand at a key, with its release. -/
def State.ownStore (s : State) (k : Nat) (bs : List Byte) (rel : Option (BitVec 4)) : State :=
  (s.storeBy (some s.meAgent) k bs rel).updMe (fun c => { c with relNext := none })

/-! ### The own scratchpad (R201 to R203) -/

/-- The `TVAL` of RANGE by scratchpad offset (R195). -/
def State.rangeFault (s : State) (w : Bool) (off : Nat) : State := s.memfault 1 w (BitVec.ofNat 64 off)

/-- An access of the own scratchpad runs past its end (R194). -/
def offBad (off n : Nat) : Bool := 0x100000 < off + n

/-- The device physical address of an offset of the own scratchpad (R23). -/
def State.ownPa (s : State) (off : Nat) : Nat := spadBase + s.cur.id.core * 0x100000 + off

/-- The conflict of an own-scratchpad access: by the bay's tags (R189), or with an outstanding matrix instruction of the
context's own (R147). `t` is the state once the access's acquire is made. -/
def State.ownRace (s t : State) (w : Bool) (off n : Nat) : Option Word :=
  match t.raceCheck s.meAgent s.me.racedet w (s.ownKey off) n with
  | some tv => some tv
  | none => s.matrixClash w off n

/-- A read of `n` bytes by offset: range, acquire, race check, consumed error (R194, R167, R189, R378). -/
def State.spadRead (s : State) (acq : Bool) (sc : BitVec 4) (off n : Nat) (k : State → List Byte → State) : Out :=
  if offBad off n then .next (s.rangeFault false off)
  else if s.ownMeets s.cur.id false s.cur.id.pid (s.ownPa off) n then .next s.hold
  else
    let key := s.ownKey off
    let t := s.readBy s.cur.id (if acq then some sc.toNat else none) (s.heardAt key n)
    match s.ownRace t false off n with
    | some tv => .next (s.raise causeRace tv)
    | none => .next (k (t.consumeBad false (ownVa off) key n) (s.readData key n))

/-- A store by offset: range, race check, bytes, tags and release (R194, R189, R167). -/
def State.spadWrite (s : State) (rel : Bool) (sc : BitVec 4) (off : Nat) (bs : List Byte) : Out :=
  if offBad off bs.length then .next (s.rangeFault true off)
  else if s.ownMeets s.cur.id true s.cur.id.pid (s.ownPa off) bs.length || s.releaseWaits s.cur.id (s.relScope rel sc) then
    .next s.hold
  else
    let key := s.ownKey off
    match s.ownRace s true off bs.length with
    | some tv => .next (s.raise causeRace tv)
    | none => .next (s.ownStore key bs (s.relScope rel sc))

/-- A scalar load of `n` bytes (R201): latency 4. -/
def State.ld (s : State) (signed acq : Bool) (sc : BitVec 4) (n : Nat) (off : BitVec 12) (ab : ANum) (rd : GNum) : Out :=
  s.spadRead acq sc (spadOff (s.eaLM ab off n)) n (fun s bs =>
    let x := leNat bs
    s.writeG 4 rd (if signed && x.testBit (8 * n - 1) then BitVec.ofInt 64 ((x : Int) - 2 ^ (8 * n)) else BitVec.ofNat 64 x))
/-- A scalar store of the low `n` bytes (R201). -/
def State.st (s : State) (rel : Bool) (sc : BitVec 4) (n : Nat) (off : BitVec 12) (ab : ANum) (rs : GNum) : Out :=
  s.spadWrite rel sc (spadOff (s.eaLM ab off n)) (leBytes n (s.rg rs).toNat)

def execLdI8 (acq : Bool) (sc : BitVec 4) (off : BitVec 12) (ab : ANum) (rd : GNum) (s : State) : Out := s.ld true acq sc 1 off ab rd
def execLdW8 (acq : Bool) (sc : BitVec 4) (off : BitVec 12) (ab : ANum) (rd : GNum) (s : State) : Out := s.ld false acq sc 1 off ab rd
def execLdI16 (acq : Bool) (sc : BitVec 4) (off : BitVec 12) (ab : ANum) (rd : GNum) (s : State) : Out := s.ld true acq sc 2 off ab rd
def execLdW16 (acq : Bool) (sc : BitVec 4) (off : BitVec 12) (ab : ANum) (rd : GNum) (s : State) : Out := s.ld false acq sc 2 off ab rd
def execLdI32 (acq : Bool) (sc : BitVec 4) (off : BitVec 12) (ab : ANum) (rd : GNum) (s : State) : Out := s.ld true acq sc 4 off ab rd
def execLdW32 (acq : Bool) (sc : BitVec 4) (off : BitVec 12) (ab : ANum) (rd : GNum) (s : State) : Out := s.ld false acq sc 4 off ab rd
def execLdI64 (acq : Bool) (sc : BitVec 4) (off : BitVec 12) (ab : ANum) (rd : GNum) (s : State) : Out := s.ld true acq sc 8 off ab rd
def execStI8 (rel : Bool) (sc : BitVec 4) (off : BitVec 12) (ab : ANum) (rs : GNum) (s : State) : Out := s.st rel sc 1 off ab rs
def execStI16 (rel : Bool) (sc : BitVec 4) (off : BitVec 12) (ab : ANum) (rs : GNum) (s : State) : Out := s.st rel sc 2 off ab rs
def execStI32 (rel : Bool) (sc : BitVec 4) (off : BitVec 12) (ab : ANum) (rs : GNum) (s : State) : Out := s.st rel sc 4 off ab rs
def execStI64 (rel : Bool) (sc : BitVec 4) (off : BitVec 12) (ab : ANum) (rs : GNum) (s : State) : Out := s.st rel sc 8 off ab rs

/-- A `v` register's 256 bytes, lane 0 first (R101). -/
def vBytes (x : VReg) : List Byte := leBytes 256 x.toNat
/-- A `v` register from 256 bytes (R101). -/
def vOfBytes (bs : List Byte) : VReg := BitVec.ofNat 2048 (leNat bs)

/-- R202. -/
def execVld (acq : Bool) (sc : BitVec 4) (off : BitVec 12) (ab : ANum) (vd : VNum) (s : State) : Out :=
  s.spadRead acq sc (spadOff (s.eaLM ab off 256)) 256 (fun s bs => s.writeV 4 vd (vOfBytes bs) (BitVec.allOnes 2048))
/-- R202. -/
def execVst (rel : Bool) (sc : BitVec 4) (off : BitVec 12) (ab : ANum) (vs : VNum) (s : State) : Out :=
  s.spadWrite rel sc (spadOff (s.eaLM ab off 256)) (vBytes (s.rv vs))

/-- The lanes of a gather or scatter that are not null, ascending, with their offsets (R203). -/
def State.laneOffs (s : State) (ab : ANum) (vi : VNum) : List (Nat × Nat) :=
  (List.range 64).filterMap (fun l =>
    let x := lane 32 l (s.rv vi)
    if x = 0xFFFFFFFF then none else some (l, spadOff (s.ra ab + BitVec.ofNat 64 (4 * x))))

/-- The first lane in race (R203). -/
def State.lanesRace (s t : State) (w : Bool) (ls : List (Nat × Nat)) : Option Word :=
  ls.findSome? (fun l => s.ownRace t w l.2 4)

/-- R203: 64 separate 4-byte reads; null lanes keep their lanes. -/
def execVgather (acq : Bool) (sc : BitVec 4) (vi : VNum) (ab : ANum) (vd : VNum) (s : State) : Out :=
  let ls := s.laneOffs ab vi
  match ls.find? (fun l => offBad l.2 4) with
  | some l => .next (s.rangeFault false l.2)
  | none =>
    if ls.any (fun l => s.ownMeets s.cur.id false s.cur.id.pid (s.ownPa l.2) 4) then .next s.hold else
    let t := s.readBy s.cur.id (if acq then some sc.toNat else none) (ls.flatMap (fun l => s.heardAt (s.ownKey l.2) 4))
    match s.lanesRace t false ls with
    | some tv => .next (s.raise causeRace tv)
    | none =>
      let t := match ls.find? (fun l => (s.badAt (s.ownKey l.2) 4).isSome) with
        | some l => t.consumeBad false (ownVa l.2) (s.ownKey l.2) 4
        | none => t
      let xs := ls.map (fun l => (l.1, leNat (s.readData (s.ownKey l.2) 4)))
      .next (t.writeV 8 vd (packLanes 32 xs) (lanesMask 32 (ls.map (·.1))))

/-- R203: ascending lanes, the highest stands; a release is made once, by the last lane's store. -/
def execVscatter (rel : Bool) (sc : BitVec 4) (vi : VNum) (ab : ANum) (vs : VNum) (s : State) : Out :=
  let ls := s.laneOffs ab vi
  match ls.find? (fun l => offBad l.2 4) with
  | some l => .next (s.rangeFault true l.2)
  | none =>
    if ls.any (fun l => s.ownMeets s.cur.id true s.cur.id.pid (s.ownPa l.2) 4) || s.releaseWaits s.cur.id (s.relScope rel sc) then
      .next s.hold
    else match s.lanesRace s true ls with
    | some tv => .next (s.raise causeRace tv)
    | none =>
      let a := s.meAgent
      let t := ls.foldl (fun t l => t.storeBy (some a) (s.ownKey l.2) (leBytes 4 (lane 32 l.1 (s.rv vs))) none) s
      match s.relScope rel sc with
      | none => .next t
      | some r =>
        if ls = [] then .next t
        else
          .next ((ls.foldl (fun t l => t.markRel a (s.ownKey l.2) 4 (some r)) (t.raceRelease a r.toNat)).updMe
            (fun c => { c with relNext := none }))

/-! ### Resolving a full address (R21 to R23, R194, R195, R344) -/

/-- A fault of a full-address access, with the records its page raised kept (R195, R341). -/
def State.accessFault (s : State) (reason : Nat) (w : Bool) (a : Word) : State := (s.memfault reason w a).kept

/-- No write of the context in hand waits on BLK any longer. -/
def State.unblock (s : State) : State :=
  s.updPkg s.cur.id.pid (fun p => { p with blocked := p.blocked.filter (fun b => !(b.id = some s.cur.id && b.chan = 16)) })

/-- A write that meets BLK waits at translation, BLKTMO µs at most, and then faults with PERM at its first byte on the page (R195,
R344). -/
def State.waitBlk (s : State) (part va : Nat) (ea : Word) : State :=
  match (s.pkg s.cur.id.pid).blocked.find? (fun b => b.id = some s.cur.id && b.chan = 16 && b.part = part && b.va = va) with
  | some b => if b.expired then s.unblock.accessFault 6 true (if va < ea.toNat then ea else BitVec.ofNat 64 va) else s.freeze
  | none =>
    let left := ((s.part s.cur.id.pid part).map (fun x => x.blktmo * Config.cyclesPerMicrosecond)).getD 0
    (s.unblock.updPkg s.cur.id.pid (fun p => { p with
      blocked := p.blocked ++ [{ id := some s.cur.id, part := part, va := va, left := left, expired := false }] })).freeze.holdKeep

/-- Resolves an access of the slot in hand and goes on with its pieces, or faults, or waits. -/
def State.reach (s : State) (kind : AccKind) (ea : Word) (n : Nat) (k : State → List Piece → Out) : Out :=
  let w := kind ≠ .read
  match s.access (s.whoOf s.cur.id) kind ea n with
  | (t, .fault e a) => .next (t.unblock.accessFault e w a)
  | (t, .blocked part va) => .next (t.waitBlk part va ea)
  | (t, .lined (.undecided g e)) => .next (t.unblock.raise causeUndecided (undecidedTval g e 0)).kept
  | (_, .lined _) => .next s.freeze
  | (t, .ok ps) => k t.unblock ps

/-- The conflict of an access of the context in hand to bytes of its own bay (R147, R187, R189). -/
def State.placeRace (s t : State) (w : Bool) (d : Dest) (n : Nat) : Option Word :=
  match d with
  | .phys pid pa =>
    if pid ≠ s.cur.id.pid then none
    else if spadCore pa = some s.cur.id.core then s.ownRace t w ((pa - spadBase) % 0x100000) n
    else t.raceCheck s.meAgent s.me.racedet w (memKey pid pa) n
  | .exposure .. => none

/-- The conflict of an access's pieces, those that reach the own bay through a window included. -/
def State.piecesRace (s t : State) (w : Bool) (ps : List Piece) : Option Word :=
  ps.findSome? (fun p => (s.windowed s.cur.id w p).findSome? (fun q => s.placeRace t w q.dest q.len))

/-! ### Timed loads (R204, R205) -/

/-- Lmin of R205 for a route from a core to a home, by R14's first-data figures in core cycles; a window to the own package has that of
the page it reaches there, and a package of the pod whose direct link is locked is reached over a bypass route (R351). -/
def State.lmin (s : State) (id : CtxId) (d : Dest) : Nat :=
  let field (f : Nat) : Nat := if f = fieldOf id.core then 40 else if f / 4 = fieldOf id.core / 4 then 70 else 110
  match d with
  | .exposure tpid _ _ _ =>
    if tpid = id.pid then (if (s.windowed id false { dest := d, len := 1 }).any (fun q => match q.dest with
        | .phys _ pa => isHost pa
        | .exposure .. => false) then 700 else 140)
    else if (s.pkg id.pid).flatMesh || (tpid / 32 = id.pid / 32 && s.directLink id.pid tpid) then 182 else 280
  | .phys _ pa =>
    match regionOf pa with
    | some .spad =>
      let c := (pa - spadBase) / 0x100000
      if c = id.core then 4 else if bayOf c = bayOf id.core then 12 else field (fieldOf c)
    | some .vault =>
      let b := (pa - vaultBase) / 0x4000000
      if b = bayOf id.core then 9 else field (b / 16)
    | some .host0 | some .host1 => 700
    | _ => 140

/-- The promise of R205: issue cycle, requested cycle, earliest arrival. -/
def promise (i q e : Nat) : Nat := if q = 0 ∨ q < i + e ∨ i + 2 ^ 24 < q then i + e else q

/-- `LANDBND.BND` (R254). -/
def Ctx.bnd (c : Ctx) : Nat := fieldW c.landbnd 0 10

/-- The promise of an `ldt` of a context for the pieces of its address and a requested cycle (R205). -/
def State.promised (s : State) (id : CtxId) (ps : List Piece) (q : Word) : Nat :=
  promise (s.pkg id.pid).cycle.toNat q.toNat (((ps.head?).map (fun p => s.lmin id p.dest)).getD 4 + Config.congestion s.fresh)

/-- Whether a core has no landing buffer left for another `ldt` (R205), where their number is limited (log entry 60). -/
def State.landFull (s : State) (id : CtxId) : Bool :=
  match s.landRoom with
  | none => false
  | some n => n ≤ ((s.core id.pid id.core).live.ctxs.toList.map (fun c =>
      (c.ifr.toList.filter (fun e => e.landing.any (fun l => l.vd.isSome))).length)).sum

/-- A piece whose home is the own field (R163). -/
def State.isNear (s : State) (p : Piece) : Bool :=
  match p.dest with
  | .phys pid pa => nearTo s.cur.id (homeOf pid pa)
  | .exposure .. => false

/-- A near piece of an `ldt` is read when it issues, where no line of it is sealed: R180 allows any moment up to the landing (DESIGN CHOICE,
log entry 45). -/
def State.readsNow (s : State) (p : Piece) : Bool :=
  match p.dest with
  | .phys pid pa => s.isNear p && s.lineAt pid pa p.len = .clear
  | .exposure .. => false

/-- Such a read waits: for a scratchpad that is being moved, for a store of its context to the same bytes that is under way (R24, R165). -/
def State.readWaits (s : State) (p : Piece) : Bool :=
  match p.dest with
  | .phys pid pa => s.readsNow p && (s.spadBusy pid pa || s.ownMeets s.cur.id false pid pa p.len)
  | .exposure .. => false

/-- The near pieces of an `ldt` in entry `i`, read at its issue. -/
def State.readPieces (s : State) (i : Nat) (ps : List Piece) : State :=
  (ps.foldl (fun (acc : State × Nat) p => match p.dest with
    | .phys pid pa => (if s.readsNow p then acc.1.landPiece s.cur.id i acc.2 pid pa p.len else acc.1, acc.2 + p.len)
    | .exposure .. => (acc.1, acc.2 + p.len)) (s, 0)).1

/-- R204, R205. An `ldt` whose 256 bytes lie on two pages with different homes takes the first one's Lmin (DESIGN CHOICE, log entry 94). -/
def execLdt (acq : Bool) (sc : BitVec 4) (gt : GNum) (ab : ANum) (vd : VNum) (s : State) : Out :=
  if gt = 0 then .next s.illegalField
  else
    match s.me.freeEntry.filter (fun _ => !s.landFull s.cur.id) with
    | none => .next s.hold
    | some i =>
      let ea := s.ra ab
      s.reach .read ea 256 (fun t ps =>
        let acqd (t : State) : State := if acq then
            t.acquireFrom s.meAgent sc.toNat (ps.flatMap (fun p => match p.dest with
              | .phys pid pa => t.heardAt (memKey pid pa) p.len
              | .exposure .. => []))
          else t
        match s.piecesRace (acqd t) false ps with
        | some tv => .next (s.raise causeRace tv)
        | none =>
          if ps.any t.readWaits then .next s.hold else
          let p := s.promised s.cur.id ps (s.rg gt)
          let t := (t.bump.alloc i 0 0 1 ea).updEntry s.cur.id i (fun x => { x with
            bnd := BitVec.ofNat 10 s.me.bnd
            promised := BitVec.ofNat 64 p
            landing := some { vd := some vd, left := ps.length, acq := if acq then some sc else none } })
          let u := t.readPieces i ps
          .next ((u.sendSome (fun p => !t.readsNow p) (t.srcOf s.cur.id i) 0 ea ps (fun d o n => .load d o n)).writeG 1 gt (BitVec.ofNat 64 p)))

/-! ### Posted and group stores (R208, R209) -/

/-- A near piece of a store waits: for a sealed line's decision, for a scratchpad that is being moved, for an access of its context to
the same bytes that is under way (R24, R165, R183). -/
def State.nearWaits (s : State) (p : Piece) : Bool :=
  match p.dest with
  | .phys pid pa => s.isNear p &&
      (s.lineAt pid pa p.len = .waits || s.spadBusy pid pa || s.ownMeets s.cur.id true pid pa p.len)
  | .exposure .. => false

/-- One near piece of a posted store performed: its bytes, the release they carry; `loop.cfg` of the same bundle does not see them
(R291). On an undecided line nothing is written, and a consumed error is pending (R399). -/
def State.storePiece (s : State) (ea : Word) (bs : List Byte) (rel : Option (BitVec 4)) (off pid pa n : Nat) : State :=
  let k := memKey pid pa
  if s.lineAt pid pa n ≠ .clear then
    s.updMe (fun c => c.consume
      { origin := 6, more := false, w := true, addr := ea + BitVec.ofNat 64 off, level := c.level, issue := s.cur.issue })
  else
    let old := (List.range n).map (fun i => (k + i, s.readByte (k + i)))
    let t := (s.storeBy (some s.meAgent) k (pieceBytes bs off n) none).markRel s.meAgent k n rel
    { t with latch := { t.latch with hidden := t.latch.hidden ++ old } }

/-- The near pieces of a posted store performed in order; its release is made once (R174). -/
def State.storePieces (s : State) (ea : Word) (bs : List Byte) (rel : Option (BitVec 4)) (ps : List Piece) : State :=
  (ps.foldl (fun (acc : State × Nat) p => match p.dest with
    | .phys pid pa => (if s.isNear p then acc.1.storePiece ea bs rel acc.2 pid pa p.len else acc.1, acc.2 + p.len)
    | .exposure .. => (acc.1, acc.2 + p.len)) (s, 0)).1

/-- The release of a store at its issue: a pending `fence.sc` release is carried by the store, and the release is made, but for a
signal whose every piece is near: with that one it is made at its home (R171, R174). -/
def State.issueRelease (s : State) (now : Bool) (rel : Option (BitVec 4)) : State :=
  match rel with
  | some sc => (if now then s.raceRelease s.meAgent sc.toNat else s).updMe (fun c => { c with relNext := none })
  | none => s

/-- R208: the near pieces of a store are performed in slot order; any other piece travels on channel 0. -/
def State.postStore (s : State) (rel : Bool) (sc : BitVec 4) (ea : Word) (bs : List Byte) : Out :=
  match s.me.freeEntry with
  | none => .next s.hold
  | some i =>
    s.reach .write ea bs.length (fun t ps =>
      match s.piecesRace t true ps with
      | some tv => .next (s.raise causeRace tv)
      | none =>
        let r := s.relScope rel sc
        if ps.any s.nearWaits || s.releaseWaits s.cur.id r then .next s.hold
        else
          let far := ps.filter (fun p => !s.isNear p)
          let t := ((t.alloc i 9 0 2 ea).storePieces ea bs r ps).issueRelease true r
          if far = [] then .next (t.retire s.cur.id i okStatus)
          else
            let t := t.updEntry s.cur.id i (fun x => { x with probes := far.length, bytes := bs, scope := r })
            .next (t.sendSome (fun p => !s.isNear p) (t.srcOf s.cur.id i) 0 ea ps (fun d o n => .store d (pieceBytes bs o n) r)))

def execStpD (rel : Bool) (sc : BitVec 4) (off : BitVec 12) (ab : ANum) (rs : GNum) (s : State) : Out :=
  s.postStore rel sc (s.eaLM ab off 8) (leBytes 8 (s.rg rs).toNat)
def execStpV (rel : Bool) (sc : BitVec 4) (off : BitVec 12) (ab : ANum) (vs : VNum) (s : State) : Out :=
  s.postStore rel sc (s.eaLM ab off 256) (vBytes (s.rv vs))

/-- Whether a group number is one of the context's partition's (R348); device level owns none and is not bound. -/
def State.ownsGroup (s : State) (g : Nat) : Bool :=
  s.me.level = .device ||
  (match (s.partOfCore s.cur.id.pid s.cur.id.core).bind (s.part s.cur.id.pid) with
   | some x => x.gbase ≤ g && g < x.gbase + x.gcount
   | none => false)

/-- R209, R348: a group store is staged at its home. -/
def State.groupStore (s : State) (rel : Bool) (sc : BitVec 4) (ea gg : Word) (bs : List Byte) : Out :=
  let g := fieldW gg 0 16
  let e := fieldW gg 16 16
  match s.me.freeEntry with
  | none => .next s.hold
  | some i =>
    if !s.ownsGroup g then .next (s.memfault 6 true ea)
    else s.reach .group ea bs.length (fun t ps =>
      if ps.any (fun p => match p.dest with
          | .phys _ pa => regionOf pa ≠ some .vault && regionOf pa ≠ some .hbm
          | .exposure .. => false) then .next (s.memfault 9 true ea)
      else
        let r := s.relScope rel sc
        if s.releaseWaits s.cur.id r then .next s.hold
        else
          let t := ((t.alloc i 10 0 3 ea).updEntry s.cur.id i (fun x => { x with
            probes := ps.length, bytes := bs, group := g, epoch := e, scope := r })).issueRelease true r
          .next (t.sendPieces (t.srcOf s.cur.id i) 0 ea ps (fun d o n => .group d (pieceBytes bs o n) g e (homeShare ps d) r)))

def execStgD (rel : Bool) (sc : BitVec 4) (gg : GNum) (ab : ANum) (rs : GNum) (s : State) : Out :=
  s.groupStore rel sc (s.ra ab) (s.rg gg) (leBytes 8 (s.rg rs).toNat)
def execStgV (rel : Bool) (sc : BitVec 4) (gg : GNum) (ab : ANum) (vs : VNum) (s : State) : Out :=
  s.groupStore rel sc (s.ra ab) (s.rg gg) (vBytes (s.rv vs))

/-! ### Fences (R171 to R173, R211) -/

/-- The bytes of the own scratchpad that a store in the L slot is about to overwrite: offset and number (R147, R201 to R203). -/
def State.storeSpans (s : State) : Instr → List (Nat × Nat)
  | .stI8 _ _ off ab _ => [(spadOff (s.eaLM ab off 1), 1)]
  | .stI16 _ _ off ab _ => [(spadOff (s.eaLM ab off 2), 2)]
  | .stI32 _ _ off ab _ => [(spadOff (s.eaLM ab off 4), 4)]
  | .stI64 _ _ off ab _ => [(spadOff (s.eaLM ab off 8), 8)]
  | .vst _ _ off ab _ => [(spadOff (s.eaLM ab off 256), 256)]
  | .vscatter _ _ vi ab _ => (s.laneOffs ab vi).map (fun l => (l.2, 4))
  | _ => []

/-- Whether every earlier `ldt` of the context has its bytes. -/
def Ctx.loadsDone (c : Ctx) : Bool :=
  c.ifr.toList.all (fun e => !(e.state = .outstanding && e.kind = 0))

/-- The acquire side of `fence.sc` (R171). -/
def State.fenceAcquire (s : State) (sc : BitVec 4) : State := s.acquireFrom s.meAgent sc.toNat s.me.heard
/-- The release side of `fence.sc`: the next store carries it (R171). -/
def State.fenceRelease (s : State) (sc : BitVec 4) : State :=
  s.updMe (fun c => { c with relNext := some (match c.relNext with
    | some x => if x < sc.toNat then sc.toNat else x
    | none => sc.toNat) })

/-- R172: by itself it orders nothing, and never waits. -/
def execFenceOwn (_sc : BitVec 4) (s : State) : Out := .next s
/-- R171, R211. -/
def execFenceScAcq (sc : BitVec 4) (s : State) : Out :=
  if s.over s.me.loadsDone then .next (s.fenceAcquire sc).blocking else .next s.hold
/-- R171: never waits. -/
def execFenceScRel (sc : BitVec 4) (s : State) : Out := .next (s.fenceRelease sc)
/-- R171, R211. -/
def execFenceScAr (sc : BitVec 4) (s : State) : Out :=
  if s.over (s.me.loadsDone && !s.nearOut s.cur.id) then .next ((s.fenceAcquire sc).fenceRelease sc).blocking else .next s.hold
/-- An access that a `fence.far` serialises: a near store of a member's buffer, or an `ldt` that has still to read (R170, R172). -/
def Msg.buffers (m : Msg) : Bool := m.ownOf m.src.ident true && (m.near || m.body.access.1 = .read)
/-- The accesses of the members of a scope taken from a context that are under way: image and issue number (R172). -/
def State.buffered (s : State) (id : CtxId) (sc : Nat) : List (Nat × Nat) :=
  (s.net.filter (fun m => m.buffers && inScope (s.pkg id.pid).flatMesh sc ⟨id, false⟩ ⟨m.src.id, false⟩)).map
    (fun m => (m.src.ident, m.src.issue))
/-- The accesses that the fence in hand waits for: those under way when it began. -/
def State.fenced (s : State) (sc : Nat) : List (Nat × Nat) :=
  match s.me.fence with
  | some (a, l) => if a = s.cur.addr then l else s.buffered s.cur.id sc
  | none => s.buffered s.cur.id sc
/-- R172: once the accesses that every member had under way when the fence began have been performed, as `fence.sc.ar`. -/
def execFenceFar (sc : BitVec 4) (s : State) : Out :=
  let l := s.fenced sc.toNat
  if s.over (s.me.loadsDone && !s.nearOut s.cur.id && !s.net.any (fun m => m.buffers && l.contains (m.src.ident, m.src.issue))) then
    .next (((s.fenceAcquire sc).fenceRelease sc).updMe (fun c => { c with fence := none })).blocking
  else .next (s.updMe (fun c => { c with fence := some (s.cur.addr, l) })).holdKeep

/-! ### Flush-and-signal, probes, `efence` (R175, R212 to R214, R380) -/

/-- R175, R212: the context's near stores have been performed; the signal follows the context's earlier stores to its home on channel 0. -/
def execFlsig (sc : BitVec 4) (ab : ANum) (gs : GNum) (s : State) : Out :=
  match s.me.freeEntry with
  | none => .next s.hold
  | some i =>
    let ea := s.ra ab
    let bs := leBytes 8 (s.rg gs).toNat
    s.reach .write ea 8 (fun t ps =>
      match s.piecesRace t true ps with
      | some tv => .next (s.raise causeRace tv)
      | none =>
        let r := (s.relScope true sc).getD sc
        if s.releaseWaits s.cur.id (some r) then .next s.hold
        else
          let t := ((t.alloc i 2 0 3 ea).updEntry s.cur.id i (fun x => { x with probes := ps.length, bytes := bs, scope := some r })).issueRelease
            (ps.any (fun p => !s.isNear p)) (some r)
          let tk := ticket (t.entry s.cur.id i).seq 2 i
          .next ((t.sendPieces (t.srcOf s.cur.id i) 0 ea ps (fun d o n => .flsig d (pieceBytes bs o n) r)).writeG 1 gs tk))

/-- R213: a flush probe on every route of a channel used since the last one; with none the ticket is done at once. -/
def execProbe (vc : BitVec 4) (gd : GNum) (s : State) : Out :=
  match s.me.freeEntry with
  | none => .next s.hold
  | some i =>
    let rs := s.me.routes.filter (fun r => r.1 = vc.toNat)
    let t := (s.alloc i 3 vc.toNat 1 0).updEntry s.cur.id i (fun x => { x with
      probes := rs.length, routes := rs.map (·.2) })
    let src := t.srcOf s.cur.id i
    let tk := ticket (t.entry s.cur.id i).seq 3 i
    let t := if rs = [] then t.retire s.cur.id i okStatus
      else rs.foldl (fun t r => t.send { src := src, chan := vc.toNat, dst := homeOfCode r.2, body := .probe }) t
    .next ((t.updMe (fun c => { c with routes := c.routes.filter (fun r => r.1 ≠ vc.toNat) })).writeG 1 gd tk)

/-- Whether the error status of every earlier operation of the context is known (R380). -/
def State.statusKnown (s : State) : Bool :=
  s.me.ifr.toList.all (fun e => !(e.state = .outstanding && (e.kind = 0 || e.kind = 2 || e.kind = 9 || e.kind = 10))) &&
  !(s.myCore.live.eng.toList.any (fun e => e.queue.any (fun q => q.ctx = s.cur.id.ctx % 4 && q.issue < s.cur.issue && q.doneAt.isNone)))

/-- R380: waits, then raises the pending error with IMPR 0. -/
def execEfence (s : State) : Out :=
  if !s.over s.statusKnown then
    .next (if s.me.efence = some s.cur.addr then s.hold
           else (s.updMe (fun c => { c with efence := some s.cur.addr })).holdKeep)
  else match s.me.err with
    | some e =>
      if e.level = s.me.level then
        .next ((s.updMe (fun c => { c with err := none })).raise causeMemerr (memerrTval e.origin e.more false e.w e.addr)).kept
      else .next (s.updMe (fun c => { c with efence := none })).blocking
    | none => .next (s.updMe (fun c => { c with efence := none })).blocking

end Sys2Proof.Machine
end

