-- ==== Sys2Proof/Machine/Snapshot.lean ====
section
/-! DEFINITION. Snapshot slots: taking, releasing and restoring a page, the shared operations of `pg.snap`, `pg.cow`, `snap`, replays
and rollback (R340 to R342, R361, R362). -/

namespace Sys2Proof.Machine

/-- A snapshot page's virtual address. -/
def pageVa (base i : Nat) : Nat := base + 65536 * i

/-- What a step on one page met. -/
inductive PageEnd where
  | ok
  /-- a 2 MiB or 1 GiB leaf, at this virtual address -/
  | large (va : Nat)
  /-- the walk faulted with PHYS (R338) -/
  | phys
  /-- a table entry stands in a sealed line (R183) -/
  | waits
  /-- in that of an undecided group (R192) -/
  | undecided (group epoch : Nat)
deriving DecidableEq, Repr

/-- How a walk that finds no leaf ends a step on a page: a page without a valid leaf takes no part (R362). -/
def WalkStop.pageEnd : WalkStop → PageEnd
  | .reason e => if e = 8 then .phys else .ok
  | .line (.undecided g e) => .undecided g e
  | .line _ => .waits

/-- Whether a step on a page is still to be made, for a sealed line. -/
def PageEnd.held : PageEnd → Bool
  | .waits | .undecided .. => true
  | _ => false

/-- The check pass: a page covered by a valid large leaf (R340, R362). -/
def State.snapCheck (s : State) (pid part va : Nat) : PageEnd :=
  match s.walk pid part va with
  | .ok l => if l.size = 65536 then .ok else .large l.base
  | .error e => e.pageEnd

/-- A leaf that takes part in snapshots: 64 KiB, in HBM or a vault (R340). -/
def Leaf.snapped (l : Leaf) : Bool := l.size = 65536 && pteLoc l.word < 2

/-- Sets HELD bit `slot` and COW of a page (R340, R362). -/
def State.snapPage (s : State) (pid part slot va : Nat) : State × PageEnd :=
  match s.walk pid part va with
  | .ok l =>
    if l.snapped then (s.editLeaf pid l.key (fun w => pteHold w (pteHeld l.word ||| ((1 : BitVec 64) <<< slot))), .ok)
    else (s, .ok)
  | .error e => (s, e.pageEnd)

/-! ### Log records (R341, R342) -/

/-- Keys of the log records in use whose MASK has bit `slot`, of one page or of any. -/
def State.logOf (s : State) (pid : Nat) (x : Part) (slot : Nat) (page : Option Nat) : List Nat :=
  ((List.range x.logcap).map (fun i => memKey pid (x.logbase + 32 * i))).filter (fun k =>
    (s.readNat (k + 16) 8).testBit slot && (match page with
      | some p => s.readNat k 8 = p
      | none => true))

/-- Clears bit `slot` of a log record; a record whose MASK becomes 0 frees its frame with FRAMEFREE (R342). -/
def State.logClear (s : State) (pid part slot agent k : Nat) : State :=
  let m : BitVec 64 := BitVec.ofNat 64 (s.readNat (k + 16) 8) &&& ~~~((1 : BitVec 64) <<< slot)
  let f := s.readNat (k + 8) 8
  let s := s.deviceNat (k + 16) 8 m.toNat
  if m = 0 then s.post pid part 17 f slot agent else s

/-! ### Release and restore (R342) -/

/-- Release of one page: the entry's bit, then its log records. -/
def State.releasePage (s : State) (pid part slot agent va : Nat) : State × PageEnd :=
  match s.part pid part with
  | none => (s, .ok)
  | some x =>
    let (s, e) : State × PageEnd := match s.walk pid part va with
      | .ok l =>
        if l.snapped && (pteHeld l.word).getLsbD slot then
          (s.editLeaf pid l.key (fun w => pteHold w (pteHeld l.word &&& ~~~((1 : BitVec 64) <<< slot))), .ok)
        else (s, .ok)
      | .error e => (s, e.pageEnd)
    if e = .ok then ((s.logOf pid x slot (some va)).foldl (fun s k => s.logClear pid part slot agent k) s, .ok) else (s, e)

/-- Restore of one page: the frame its record names becomes current again, and staged bytes of the page follow it there; a frame that later
snapshots hold is logged, any other is freed (R342). LOC stands as it is (log entry 92). Staged bytes follow only to a frame that the partition
owns: one that it does not own is refused at translation (R330, R338). With no free record the page's own, which the restore frees, is used (log
entry 10). -/
def State.restorePage (s : State) (pid part slot agent va : Nat) : State × PageEnd :=
  match s.part pid part with
  | none => (s, .ok)
  | some x =>
    match s.walk pid part va with
    | .error e => (s, e.pageEnd)
    | .ok l =>
      let bit : BitVec 64 := (1 : BitVec 64) <<< slot
      if !l.snapped then (s, .ok)
      else if (pteHeld l.word).getLsbD slot then
        (s.editLeaf pid l.key (fun w => pteHold w (pteHeld l.word &&& ~~~bit)), .ok)
      else match s.logOf pid x slot (some va) with
        | [] => (s, .ok)
        | r :: _ =>
          let f := s.readNat (r + 8) 8
          let m : BitVec 64 := BitVec.ofNat 64 (s.readNat (r + 16) 8) &&& ~~~bit
          let free := x.freeLog s pid
          let s := s.deviceNat (r + 16) 8 0
          let s := if pteHeld l.word ≠ 0 then
              s.deviceBytes (free.getD r) (leBytes 8 va ++ leBytes 8 (pteAddr l.word) ++ leBytes 8 (pteHeld l.word).toNat)
            else s.post pid part 17 (pteAddr l.word) 255 agent
          let s := if f % 65536 = 0 && x.owns f 65536 then s.moveStaged pid (pteAddr l.word) f else s
          (s.editLeaf pid l.key (fun w => pteSet w f m), .ok)

/-- The end of a release: no log record keeps the bit, and the slot is free (R342). -/
def State.releaseLog (s : State) (pid part slot agent : Nat) : State :=
  match s.part pid part with
  | none => s
  | some x => (s.logOf pid x slot none).foldl (fun s k => s.logClear pid part slot agent k) s

/-- Changes a slot's record. -/
def State.setSlot (s : State) (pid part slot : Nat) (r : Option SnapSlot) : State :=
  s.updPart pid part (fun x => { x with slots := x.slots.put slot r })
/-- A slot's record. -/
def Part.slot (x : Part) (n : Nat) : SnapSlot := (x.slots.get n).getD { state := .free, base := 0, len := 0 }

/-- Performs page steps `f i` from `i` on, `n` at most, until one does not end well: how far it came, and how it ended. -/
def pageRun (f : Nat → State → State × PageEnd) : Nat → Nat → State → State × Nat × PageEnd
  | 0, i, s => (s, i, .ok)
  | n + 1, i, s =>
    match f i s with
    | (t, .ok) => pageRun f n (i + 1) t
    | (t, e) => (t, i, e)

/-- Whether a page of a range has a table entry in a sealed line: a pass over the range waits (R183). -/
def State.rangeWaits (s : State) (pid part base pages : Nat) : Bool :=
  (List.range pages).any (fun i => (s.snapCheck pid part (pageVa base i)).held)
/-- The same for the range of a slot. -/
def State.slotWaits (s : State) (pid part slot : Nat) : Bool :=
  match (s.part pid part).bind (fun x => x.slots.get slot) with
  | none => false
  | some r => s.rangeWaits pid part r.base (r.len / 65536)

/-- A whole snapshot of a range into a slot (a replay's or a rollback's, R261, R262, R340): none where the range holds a large
leaf, or a page whose walk faults with PHYS (log entry 95). -/
def State.takeRange (s : State) (pid part slot base pages : Nat) : Option State :=
  if (List.range pages).any (fun i => s.snapCheck pid part (pageVa base i) ≠ .ok) then none
  else
    let (s, _, _) := pageRun (fun i s => s.snapPage pid part slot (pageVa base i)) pages 0 s
    some (s.setSlot pid part slot (some { state := .held, base := base, len := pages * 65536 }))

/-- The release of a held slot, whole. -/
def State.releaseSlot (s : State) (pid part slot agent : Nat) : State :=
  match (s.part pid part).bind (fun x => x.slots.get slot) with
  | none => s
  | some r =>
    let (s, _, _) := pageRun (fun i s => s.releasePage pid part slot agent (pageVa r.base i)) (r.len / 65536) 0 s
    (s.releaseLog pid part slot agent).setSlot pid part slot none

/-- The restore of a held slot, then its release, whole (R342, R391). -/
def State.restoreSlot (s : State) (pid part slot agent : Nat) : State :=
  match (s.part pid part).bind (fun x => x.slots.get slot) with
  | none => s
  | some r =>
    let (s, _, _) := pageRun (fun i s => s.restorePage pid part slot agent (pageVa r.base i)) (r.len / 65536) 0 s
    s.releaseSlot pid part slot agent

end Sys2Proof.Machine
end

