-- ==== Sys2Proof/Machine/Quill.lean ====
section
/-! DEFINITION. The quill: `cpy` and `cpyq`, queues, chain entries one progress unit at a time, stops and ends (R83, R177 to R179,
R215 to R228, R364, R381 to R383). -/

namespace Sys2Proof.Machine

/-! ### Chains of a core -/

/-- The context that issued a chain. -/
def Chain.id (c : Chain) (pid core : Nat) : CtxId := ⟨pid, core, c.ctx⟩
/-- Writes a chain back and mirrors its progress in its in-flight entry (R228, R408). -/
def State.putChain (s : State) (id : CtxId) (c : Chain) : State :=
  let s := s.updLive id.pid id.core (fun d => { d with chains := d.chains.map (fun x => if x.same c then c else x) })
  s.updEntry id c.entry (fun e => { e with off := BitVec.ofNat 20 c.off, elem := BitVec.ofNat 32 c.elem, loops := c.loops })
/-- Takes a chain out of its queue. -/
def State.dropChain (s : State) (id : CtxId) (c : Chain) : State :=
  s.updLive id.pid id.core (fun d => { d with chains := d.chains.filter (fun x => !x.same c) })

/-- The quill as an agent. -/
def Chain.agent (id : CtxId) : Agent := ⟨id, true⟩

/-- The source of a chain's messages for one element of its current entry (R228). -/
def State.chainSrc (s : State) (id : CtxId) (c : Chain) (elem : Nat) : Src :=
  { id := id, ident := c.ident, part := c.part, level := c.level, entry := c.entry, seq := c.seq,
    tag := (s.entry id c.entry).tag, issue := c.issue, kind := 1, chain := true, off := c.off, elem := elem,
    gen := (s.ctx id).gen }

/-- Who a chain's accesses are made for (R215, R338). -/
def State.chainWho (s : State) (id : CtxId) (c : Chain) : Who :=
  { pid := id.pid, core := id.core, part := c.part, level := c.level, agent := some id, slot := s.replaySlot id }

/-! ### How a unit ends -/

/-- What keeps a unit from being performed. -/
inductive Quit where
  /-- it waits at its progress point -/
  | waits
  /-- a write that meets BLK (R344) -/
  | blocked (part va : Nat)
  /-- a fault that stops the chain: REASON, W and address of R381 -/
  | fault (reason : Nat) (w : Bool) (addr : Word)
  /-- CODE and DETAIL of R219 -/
  | code (c d : Nat)
deriving DecidableEq, Repr

/-- A part of a unit: the state it leaves, and its value or why it cannot go on. -/
abbrev Unit' (α : Type) := State × Except Quit α

/-- Goes on with a value. -/
def Unit'.on {α β : Type} (r : Unit' α) (k : State → α → Unit' β) : Unit' β :=
  match r with
  | (s, .ok a) => k s a
  | (s, .error q) => (s, .error q)

/-- The first obstacle among checks, none changing the state. -/
def firstQuit (qs : List (Option Quit)) : Option Quit := qs.findSome? (fun x => x)

/-! ### A chain's accesses (R163, R190, R346, R378, R381) -/

/-- Resolves an access of a chain; reasons that no handler can repair complete it with MEMFAULT (R381). -/
def State.chainReach (s : State) (id : CtxId) (c : Chain) (kind : AccKind) (va : Word) (n : Nat) : Unit' (List Piece) :=
  match s.access (s.chainWho id c) kind va n with
  | (t, .ok ps) => (t, .ok ps)
  | (t, .blocked p v) => (t, .error (.blocked p v))
  | (t, .lined (.undecided ..)) => (t, .error (.fault 10 (kind ≠ .read) va))
  | (t, .lined _) => (t, .error .waits)
  | (t, .fault r a) =>
    (t, .error (if 5 ≤ r ∧ r ≤ 8 then .fault r (kind ≠ .read) a else .code 2 r))

/-- Whether an access of a chain would go on, before it is made: its page is copied and counted when it is (R341, R343). -/
def State.chainAllows (s : State) (id : CtxId) (c : Chain) (kind : AccKind) (va : Word) (n : Nat) : Unit' Unit :=
  match s.chainReach id c kind va n with
  | (_, .ok _) => (s, .ok ())
  | (t, .error q) => (t, .error q)

/-- What an access to physical bytes meets before it is performed: a lost home, a moving scratchpad, sealed lines. -/
def State.physQuit (s : State) (w : Bool) (va : Word) (pid pa n : Nat) : Option Quit :=
  if s.homeLost (homeOf pid pa) then some (.code 8 0)
  else if s.spadBusy pid pa then some .waits
  else match s.lineAt pid pa n with
    | .clear => none
    | .waits => some .waits
    | .undecided .. => some (.fault 10 w va)

/-- A conflict of the quill's own-bay access (R190). -/
def State.chainRace (s : State) (id : CtxId) (c : Chain) (w : Bool) (pid pa n : Nat) : Option Quit :=
  if pid ≠ id.pid then none
  else (s.raceCheck (Chain.agent id) c.race w (memKey pid pa) n).map (fun _ => .code 3 0)

/-- A byte as a chain sees it: a byte of a `cpy.land` that waits for its landing is the newest. -/
def Chain.sees (c : Chain) (k : Nat) (b : Byte) : Byte :=
  ((c.held.reverse.find? (fun h => h.1 = k)).map (·.2)).getD b

/-- A read of physical bytes. -/
def State.chainPhys (s : State) (id : CtxId) (c : Chain) (va : Word) (pid pa n : Nat) : Unit' (List Byte) :=
  match firstQuit [s.physQuit false va pid pa n,
      (s.badAt (memKey pid pa) n).map (fun _ => .code 2 0), s.chainRace id c false pid pa n] with
  | some q => (s, .error q)
  | none =>
    let bs := s.physBytes pid pa n
    (s.meter id.pid c.ident pa n, .ok (if c.held = [] then bs else bs.zipIdx.map (fun b => c.sees (memKey pid pa + b.2) b.1)))

/-- The physical pieces of a piece: a window's are checked and translated at its target (R346); refused, or out of reach (R351):
REMOTE. -/
def State.chainTarget (s : State) (id : CtxId) (c : Chain) (va : Word) (p : Piece) : Unit' (List Piece) :=
  match p.dest with
  | .phys .. => (s, .ok [p])
  | .exposure tpid tpart texp off =>
    if !s.route id.pid tpid then (s, .error (.code 8 0))
    else match s.atTarget tpid tpart texp off p.len .read id.pid c.part with
    | (t, .ok ps) => (t, .ok ps)
    | (t, .lined (.undecided ..)) => (t, .error (.fault 10 false va))
    | (t, .lined _) => (t, .error .waits)
    | (t, _) => (t, .error (.code 8 0))

/-- Reads the pieces of an access in order. -/
def State.chainPieces (s : State) (id : CtxId) (c : Chain) : Word → List Piece → Unit' (List Byte)
  | _, [] => (s, .ok [])
  | va, p :: ps =>
    match p.dest with
    | .phys pid pa =>
      Unit'.on (s.chainPhys id c va pid pa p.len) (fun s bs =>
        Unit'.on (s.chainPieces id c (va + BitVec.ofNat 64 p.len) ps) (fun s rest => (s, .ok (bs ++ rest))))
    | .exposure .. => (s, .error (.code 8 0))

/-- A read of `n` bytes by a chain. -/
def State.chainRead (s : State) (id : CtxId) (c : Chain) (va : Word) (n : Nat) : Unit' (List Byte) :=
  Unit'.on (s.chainReach id c .read va n) (fun s ps =>
    Unit'.on (ps.foldl (fun (r : Unit' (List Piece)) p =>
        Unit'.on r (fun s qs => Unit'.on (s.chainTarget id c va p) (fun s more => (s, .ok (qs ++ more))))) (s, .ok []))
      (fun s ps => s.chainPieces id c va ps))

/-- The check of a write's pieces before any is performed: conflicts, and for near pieces what stands at the home. -/
def State.writeQuit (s : State) (id : CtxId) (c : Chain) : Word → List Piece → Option Quit
  | _, [] => none
  | va, p :: ps =>
    (match p.dest with
     | .phys pid pa =>
       if nearTo id (homeOf pid pa) then firstQuit [s.physQuit true va pid pa p.len, s.chainRace id c true pid pa p.len]
       else if s.homeLost (homeOf pid pa) then some (.code 8 0) else none
     | .exposure .. => (s.windowed id true p).findSome? (fun (q : Piece) => match q.dest with
         | .phys pid pa => s.chainRace id c true pid pa q.len
         | .exposure .. => none)).or (s.writeQuit id c (va + BitVec.ofNat 64 p.len) ps)

/-- How a write's bytes travel: plain chain writes, or once with a release (R181, R227). -/
inductive Carry where
  | plain
  | once (sc : BitVec 4)
deriving DecidableEq, Repr

def Carry.rel : Carry → Option (BitVec 4)
  | .plain => none
  | .once sc => some sc
def Carry.body (k : Carry) (d : Dest) (bs : List Byte) : Body :=
  match k with
  | .plain => .store d bs none
  | .once sc => .flsig d bs sc

/-- Performs one piece of a write: held for a landing, at once at a near home, or as a message. The count of messages. -/
def State.writePiece (s : State) (id : CtxId) (c : Chain) (elem : Nat) (k : Carry) (va : Word) (p : Piece) (bs : List Byte) :
    State × Chain × Nat :=
  let src := s.chainSrc id c elem
  let far (s : State) : State × Chain × Nat :=
    (s.send { src := src, chan := c.queue, dst := p.dest.home, body := k.body p.dest bs, via := src.via va p.dest }, c, 1)
  match p.dest with
  | .phys pid pa =>
    if c.land then (s, { c with held := c.held ++ bs.zipIdx.map (fun b => (memKey pid pa + b.2, b.1)) }, 0)
    else if nearTo id (homeOf pid pa) then (s.physWrite (some (Chain.agent id)) pid pa bs k.rel, c, 0)
    else far s
  | .exposure .. => far s

/-- A write of a chain whose pieces have been checked; the chain's count of acknowledgements grows by its messages. -/
def State.writePieces (s : State) (id : CtxId) (c : Chain) (elem : Nat) (k : Carry) (va : Word) (bs : List Byte) (ps : List Piece) :
    State × Chain :=
  let s := match k with
    | .once sc => if ps.any (fun p => !nearTo id p.dest.home) then s.raceRelease (Chain.agent id) sc.toNat else s
    | .plain => s
  let (s, c, _) := ps.foldl (fun (a : State × Chain × Nat) p =>
    let (s, c, n) := a.1.writePiece id a.2.1 elem k (va + BitVec.ofNat 64 a.2.2) p (pieceBytes bs a.2.2 p.len)
    (s, { c with acks := c.acks + n }, a.2.2 + p.len)) (s, c, 0)
  (s, c)

/-- A write of bytes by a chain. -/
def State.chainWrite (s : State) (id : CtxId) (c : Chain) (elem : Nat) (k : Carry) (va : Word) (bs : List Byte) : Unit' Chain :=
  Unit'.on (s.chainReach id c .write va bs.length) (fun s ps =>
    match s.writeQuit id c va ps with
    | some q => (s, .error q)
    | none => let (s, c) := s.writePieces id c elem k va bs ps; (s, .ok c))

/-! ### The EXTERN mark (R391) -/

/-- Marks the node instance of a context. -/
def State.markExtern (s : State) (id : CtxId) : State :=
  match (s.ctx id).inst with
  | none => s
  | some n => s.updPkg id.pid (fun p => { p with insts := p.insts.map (fun i => if i.id = n then { i with externMark := true } else i) })

/-- Whether an address lies in the rollback range of a context's instance, in its own package's pages. -/
def State.inRollback (s : State) (id : CtxId) (va : Nat) (ps : List Piece) : Bool :=
  let own := ps.all (fun p => match p.dest with
    | .phys pid pa => pid = id.pid && !isHost pa
    | .exposure .. => false)
  own && (match (s.ctx id).inst.bind (fun n => (s.pkg id.pid).insts.find? (fun i => i.id = n)) with
    | some i => (match i.slot, s.part id.pid i.part with
      | some n, some x => x.inSlot n va
      | _, _ => false)
    | none => false)

/-! ### Ends and stops (R219, R381 to R383) -/

/-- A raw 16-byte unit of a core's scratchpad. -/
def State.chainUnit (s : State) (pid core off : Nat) : Nat := leNat (s.readBytes (spadKey pid core off) 16)

/-- Fields of an entry's header (R220). -/
def hKind (h : Nat) : Nat := bitsNat h 0 8
def hPlen (h : Nat) : Nat := bitsNat h 12 5
def hSc (h : Nat) : Nat := bitsNat h 20 4
def hOpt (h : Nat) : Nat := bitsNat h 24 8
def hArg (h : Nat) : Nat := bitsNat h 32 32
def hDst (h : Nat) : Nat := bitsNat h 64 64

/-- The offset a LOOP goes back to. -/
def loopBody (off h : Nat) : Nat := (off + hDst h) % 2 ^ 64

/-- The offsets and headers of the entries from an offset up to the END, as they stand one after another. -/
def State.entriesFrom (s : State) (pid core : Nat) : Nat → Nat → List (Nat × Nat)
  | 0, _ => []
  | fuel + 1, off =>
    if 0x100000 < off + 16 then []
    else
      let h := s.chainUnit pid core off
      if hKind h = 12 then [] else (off, h) :: s.entriesFrom pid core fuel (off + 16 + 16 * hPlen h)

/-- The target core of an ARRIVE entry: package, core and exposure (R226). -/
def arriveTarget (id : CtxId) (h : Nat) : Option (Nat × Nat × Option Nat) :=
  let d := hDst h
  if hArg h / 2 ^ 31 = 1 then
    some (bitsNat d 0 10, bitsNat d 10 3 * 128 + bitsNat d 13 4 * 8 + bitsNat d 17 3, some (bitsNat d 20 8))
  else match viaAperture { pid := id.pid, core := id.core, part := none, level := .program } d 1 with
    | .ok [{ dest := .phys _ pa, .. }] => some (id.pid, (pa - spadBase) / 0x100000, none)
    | _ => none

/-- Whether an arrival from a chain is admitted: a named one by the exposure it names (R226). -/
def State.arriveOk (s : State) (src : CtxId) (part : Option Nat) (pid core : Nat) (exp : Option Nat) : Bool :=
  match exp, s.partOfCore pid core with
  | none, _ => true
  | some e, some tp => s.exposureOk pid tp e 0 0 (fun p => p.testBit 4) src.pid part
  | some _, none => false

/-- Sets POISON on a barrier (R301). -/
def State.poison (s : State) (pid core bar : Nat) : State :=
  s.updLive pid core (fun d =>
    let x := d.barriers[bar % 32]'(Nat.mod_lt _ (by decide))
    { d with barriers := d.barriers.set (bar % 32) { x with poison := true } (Nat.mod_lt _ (by decide)) })

/-- Whether a LOOP entry still goes back to its body: by its counter, or where it has none yet by its ARG (R227). -/
def Chain.loopsBack (c : Chain) (e : Nat × Nat) : Bool :=
  hKind e.2 = 9 && (((c.loops.find? (fun l => l.1 = e.1)).map (·.2)).getD (hArg e.2)) ≠ 0

/-- The least offset that the LOOPs from an offset on, and those that their bodies hold, bring back; none: no further back than it
(R383). -/
def State.owedFrom (s : State) (pid core : Nat) (c : Chain) : Nat → Nat → Option Nat
  | 0, _ => none
  | fuel + 1, off =>
    let bodies := ((s.entriesFrom pid core 65536 off).filter c.loopsBack).map (fun e => loopBody e.1 e.2)
    match bodies.filter (· ≤ off) with
    | [] => none
    | b :: bs =>
      let low := bs.foldl Nat.min b
      if low < off then some ((s.owedFrom pid core c fuel low).getD low) else some low

/-- A chain that ends without performing an owed ARRIVE poisons its barrier (R301, R383): an entry whose one unit is under way has
sent its arrival. -/
def State.poisonOwed (s : State) (id : CtxId) (c : Chain) : State :=
  match c.kind with
  | .snap .. => s
  | .chain =>
    let es := match s.owedFrom id.pid id.core c 8 c.off with
      | some low => s.entriesFrom id.pid id.core 65536 low
      | none => (s.entriesFrom id.pid id.core 65536 c.off).drop (if c.unit ≠ 0 then 1 else c.skip)
    es.foldl (fun s e =>
      if hKind e.2 ≠ 5 then s
      else match arriveTarget id e.2 with
        | some (pid, core, exp) => if s.arriveOk id c.part pid core exp then s.poison pid core (hArg e.2 % 32) else s
        | none => s) s

/-- A chain completes (R216 to R219, R227): its own release, owed arrivals, its status; a `cpy.land` whose COPY is complete completes with
its landing, any other end of it lands nothing (R217). -/
def State.endChain (s : State) (id : CtxId) (c : Chain) (code detail : Nat) : State :=
  let s := if code = 0 then s else s.poisonOwed id c
  if c.land && !c.landed && c.off ≠ c.head then s.putChain id { c with final := some (code, detail) }
  else s.closeChain id c code detail

/-- A chain stops at its progress point: its entry is STOPPED and QFAULT pending (R381); one whose context has ended cannot be
resumed (R382). -/
def State.stopChain (s : State) (id : CtxId) (c : Chain) (reason : Nat) (w : Bool) (addr : Word) : State :=
  let x := s.ctx id
  if x.halted then
    (match x.inst with
     | some n => (s.putChain id { c with stopped := true, reason := reason }).doom id.pid n 0xF000000000000002
     | none => s.endChain id c 2 reason)
  else
    let s := s.putChain id { c with stopped := true, reason := reason }
    let e := s.entry id c.entry
    let s := s.updEntry id c.entry (fun e => { e with state := .stopped, faultAddr := addr &&& 0x01FFFFFFFFFFFFFF })
    s.addTrap id { cause := causeQfault, level := e.level, entry := c.entry,
                   tval := BitVec.ofNat 64 (reason * 2 ^ 60 + (if w then 2 ^ 59 else 0)) + ticket c.seq 1 c.entry }

/-- The mark of a chain's wait on BLK, beside its context: its queue. -/
def Chain.blockChan (c : Chain) : Nat := 32 + c.queue
/-- No write of a chain waits on BLK any longer. -/
def State.unblockChain (s : State) (id : CtxId) (c : Chain) : State :=
  if (s.pkg id.pid).blocked = [] then s
  else s.updPkg id.pid (fun p => { p with blocked := p.blocked.filter (fun b => !(b.id = some id && b.chan = c.blockChan)) })

/-- A chain's write meets BLK: it waits at its progress point, BLKTMO µs at most, and then stops with PERM (R344). -/
def State.chainBlocked (s : State) (id : CtxId) (c : Chain) (part va : Nat) : State :=
  match (s.pkg id.pid).blocked.find? (fun b => b.id = some id && b.chan = c.blockChan && b.part = part && b.va = va) with
  | some b => if b.expired then (s.unblockChain id c).stopChain id c 6 true (BitVec.ofNat 64 va) else s
  | none =>
    let left := ((s.part id.pid part).map (fun x => x.blktmo * Config.cyclesPerMicrosecond)).getD 0
    (s.unblockChain id c).updPkg id.pid (fun p => { p with
      blocked := p.blocked ++ [{ id := some id, chan := c.blockChan, part := part, va := va, left := left, expired := false }] })

/-- How a unit that cannot go on leaves the chain: `s` before the unit, `t` after what it did. -/
def State.quit (s t : State) (id : CtxId) (c : Chain) : Quit → State
  | .waits => s
  | .blocked p va => s.chainBlocked id c p va
  | .fault r w a => (t.unblockChain id c).stopChain id c r w a
  | .code k d => (t.unblockChain id c).endChain id c k d

/-! ### Progress (R216, R220, R228) -/

/-- A chain at the next entry; a `cpy.land`, whose COPY may be made again, keeps what it has latched (R77, R207). -/
def Chain.goto (c : Chain) (off : Nat) : Chain := { c with
  off := off, elem := 0, unit := 0, banks := if c.land then c.banks else [], timer := none, ahead := [], wait := false, got := none }
/-- The offset after an entry. -/
def Chain.nextOff (c : Chain) (h : Nat) : Nat := c.off + 16 + 16 * hPlen h

/-- A chain after `n` elements of an entry of `total`: counted at once where no message is under way. -/
def Chain.did (c : Chain) (h n total : Nat) : Chain :=
  if c.acks ≠ 0 then { c with unit := n }
  else if c.elem + n < total then { c with elem := c.elem + n, unit := 0, wait := false, got := none } else c.goto (c.nextOff h)

/-- A unit whose messages have all been answered counts (R228): the entry's element count, or the next entry. -/
def Chain.settle (c : Chain) (h total : Nat) : Chain :=
  if c.unit = 0 then c
  else if c.elem + c.unit < total then { c with elem := c.elem + c.unit, unit := 0, wait := false, got := none }
  else c.goto (c.nextOff h)

/-- What is put back where the unit under way is done again (R228). -/
def Chain.before (c : Chain) : Undo := { sr := c.sr, draws := c.draws, fl := c.fl, ahead := c.ahead }
/-- A chain whose unit under way is to be done again: its stochastic states, draws and flags as before it (R83, R228). -/
def Chain.redo (c : Chain) : Chain :=
  match c.undo with
  | some u => if c.unit = 0 then { c with wait := false }
    else { c with unit := 0, wait := false, sr := u.sr, draws := u.draws, fl := u.fl, ahead := u.ahead }
  | none => { c with unit := 0, wait := false }

/-! Checks of an entry (R219 to R227): the byte number of the first offending field. -/

/-- Whether a type code is one of R223's, and its size. -/
def accSize (ty : Nat) : Nat :=
  match ty with
  | 0 | 10 | 14 => 4
  | 1 => 2
  | 11 | 15 => 8
  | _ => 0

/-- The range of PLEN of a kind (R220). -/
def plenOk (kind plen : Nat) : Bool :=
  if kind = 1 then 1 ≤ plen && plen ≤ 16
  else if kind = 5 || kind = 9 || kind = 12 then plen = 0 else plen = 1

/-- Kinds with an SC field (R220). -/
def hasSc (kind : Nat) : Bool := kind = 5 || kind = 6 || kind = 8 || kind = 11

/-- Offending fields of a header (R220); bits 31:10 of MCAST's ARG are ignored (DESIGN CHOICE, log entry 94). -/
def headerBad (h : Nat) : List (Bool × Nat) :=
  let k := hKind h
  [(bitsNat h 8 4 ≠ 0 || !plenOk k (hPlen h), 1),
   (bitsNat h 17 3 ≠ 0 || 8 < hSc h || (hSc h ≠ 0 && !hasSc k), 2),
   (k = 2 && (8 < hOpt h % 16 || accSize (hOpt h / 16) = 0 || (3 ≤ hOpt h % 16 && hOpt h % 16 ≤ 5 && hOpt h / 16 < 2)), 3),
   ((k = 10 || k = 11) && hOpt h / 4 ≠ 0, 3),
   (k ≠ 2 && k ≠ 10 && k ≠ 11 && hOpt h ≠ 0, 3),
   ((k = 1 || k = 6 || k = 8 || k = 12) && hArg h ≠ 0, 4),
   ((k = 2 || k = 9) && hArg h = 0, 4),
   (k = 10 && (hArg h = 0 || 65535 < hArg h), 4),
   (k = 5 && bitsNat h 37 26 ≠ 0, 4),
   (k = 3 && bitsNat h 42 22 ≠ 0, 5),
   (k = 12 && hDst h ≠ 0, 8),
   (k = 9 && (hDst h < 2 ^ 63 || hDst h % 16 ≠ 0), 8),
   (k = 5 && hArg h / 2 ^ 31 = 1 && bitsNat (hDst h) 28 36 ≠ 0, 11)]

/-- Fields of a COPY's unit 0 (R221). -/
def cSrc (u : Nat) : Nat := bitsNat u 0 64
def cCount (u : Nat) : Nat := bitsNat u 64 32
def cSfmt (u : Nat) : Nat := bitsNat u 96 4
def cShas (u : Nat) : Bool := u.testBit 100
def cDfmt (u : Nat) : Nat := bitsNat u 104 4
def cDhas (u : Nat) : Bool := u.testBit 108
def cDrm (u : Nat) : Nat := bitsNat u 109 3

/-- Whether an address of a chain lies in a scratchpad: core and offset (R22; R23 at device level). -/
def spadEnd (id : CtxId) (level : Level) (va : Nat) : Option (Nat × Nat) :=
  match viaAperture { pid := id.pid, core := id.core, part := none, level := level } va 1 with
  | .ok [{ dest := .phys _ pa, .. }] => some ((pa - spadBase) / 0x100000, pa % 0x100000)
  | _ => if level = .device && regionOf va = some .spad then some ((va - spadBase) / 0x100000, va % 0x100000) else none

/-- Offending fields of a COPY's units. A format field of an end in a scratchpad whose SHAS or DHAS is 0 is checked, not ignored
(DESIGN CHOICE, log entry 94). -/
def copyBad (id : CtxId) (level : Level) (h : Nat) (us : List Nat) : List (Bool × Nat) :=
  let u := us.headD 0
  let sp := (spadEnd id level (cSrc u)).isSome
  let dp := (spadEnd id level (hDst h)).isSome
  let own : List (Bool × Nat) := [(cCount u = 0, 24),
   ((!cShas u && cSfmt u ≠ 0) || (cShas u && !sp && cSfmt u = 7), 28), (bitsNat u 101 3 ≠ 0, 28),
   ((!cDhas u && cDfmt u ≠ 0) || (cDhas u && !dp && cDfmt u = 7) || (!dp && 5 < cDrm u), 29), (bitsNat u 112 16 ≠ 0, 30)]
  own ++ (us.zipIdx.drop 1).map (fun x => (decide (bitsNat x.1 0 32 = 0), 16 + 16 * x.2))

/-- Offending fields of the payload of another kind (R224 to R227). -/
def payloadBad (h u : Nat) : List (Bool × Nat) :=
  let k := hKind h
  let len := bitsNat u 64 32
  [(k = 7 && (len = 0 || 4096 < len), 24), (k = 4 && (len = 0 || 65536 < len), 24),
   ((k = 7 || k = 4) && bitsNat u 96 32 ≠ 0, 28),
   ((k = 6 || k = 8 || k = 10 || k = 11) && bitsNat u 64 64 ≠ 0, 24)]

/-- The first offending field of an entry at an offset, and its header and units. -/
def State.entryBad (s : State) (id : CtxId) (c : Chain) : Option Nat × Nat × List Nat :=
  if 0x100000 < c.off + 16 then (some 0, 0, [])
  else
    let h := s.chainUnit id.pid id.core c.off
    let us := (List.range (hPlen h)).map (fun i => s.chainUnit id.pid id.core (c.off + 16 + 16 * i))
    let k := hKind h
    if k = 0 ∨ 12 < k ∨ (k = 7 ∧ !(s.pkg id.pid).features.getLsbD 0) then (some 0, h, us)
    else if 0x100000 < c.nextOff h then (some 1, h, us)
    else if !plenOk k (hPlen h) then (leastByte (headerBad h), h, us)
    else (leastByte (headerBad h ++ (if k = 1 then copyBad id c.level h us else payloadBad h (us.headD 0))), h, us)

/-- Whether the entry at a chain's progress point holds an uncorrectable unit; of one that is passed over only the header is read
(R378). -/
def State.entryLost (s : State) (id : CtxId) (c : Chain) : Bool :=
  c.off + 16 ≤ 0x100000 &&
  (let h := s.chainUnit id.pid id.core c.off
   (s.badAt (spadKey id.pid id.core c.off) (if 0 < c.skip || 0x100000 < c.nextOff h then 16 else 16 + 16 * hPlen h)).isSome)

/-- Whether an earlier store of the context is still on its way (R177). -/
def Ctx.storesOut (c : Ctx) (issue : Nat) : Bool :=
  c.ifr.toList.any (fun e => e.state = .outstanding && (e.kind = 2 || e.kind = 9) && e.issue ≤ issue)

/-- Elements of a copy. -/
def copyTotal (us : List Nat) : Nat :=
  (us.drop 1).foldl (fun n x => n * bitsNat x 0 32) (cCount (us.headD 0))

/-- Elements of an entry. -/
def entryTotal (h : Nat) (us : List Nat) : Nat :=
  if hKind h = 1 then copyTotal us else if hKind h = 2 then hArg h else 1

/-- A chain has reached its END, though messages of its last entry may still be unanswered (R216). -/
def State.atItsEnd (s : State) (id : CtxId) (c : Chain) : Bool :=
  c.kind = .chain && (match s.entryBad id c with
    | (none, h, us) => hKind h = 12 ||
      (c.unit ≠ 0 && entryTotal h us ≤ c.elem + c.unit && hKind (s.chainUnit id.pid id.core (c.nextOff h)) = 12)
    | _ => false)

/-- The chains of a queue that have started, in issue order: each starts when the one before has reached its END (R216). -/
def State.started (s : State) (pid core : Nat) : List Chain → List Chain
  | [] => []
  | c :: cs => if s.atItsEnd (c.id pid core) c then c :: s.started pid core cs else [c]

/-- The chain of a queue that is served next: the first started one that waits for no answer (R216). -/
def State.headChain (s : State) (pid core queue : Nat) : Option Chain :=
  let cs := s.started pid core ((s.core pid core).live.chains.filter (fun c => c.queue = queue && c.final.isNone))
  (cs.find? (fun c => c.acks = 0 && !c.stopped)).or cs.getLast?

/-- The unit of a queue's head chain, when its current entry is of a kind: the chain, its header and units. Nothing while the
core does not run, the chain is stopped, or a message of it is unanswered (R216, R228, R270). -/
def State.atEntry (s : State) (pid core queue kind : Nat) (k : CtxId → Chain → Nat → List Nat → State) : Out :=
  match s.headChain pid core queue with
  | none => .next s
  | some c =>
    let id := c.id pid core
    if (s.core pid core).swap ≠ .running || s.coreDead pid core || c.stopped || c.acks ≠ 0 || c.bad.isSome || 0 < c.skip ||
       (s.ctx id).storesOut c.issue || s.loadsOut c.ident c.issue || s.entryLost id c || c.kind ≠ .chain then .next s
    else match s.entryBad id c with
      | (none, h, us) => if hKind h = kind then .next (k id c h us) else .next s
      | _ => .next s

/-- Performs a unit: its obstacle, or the chain it leaves, with what stood before it while messages of it are unanswered. -/
def State.unitOf (s : State) (id : CtxId) (c : Chain) (r : Unit' Chain) : State :=
  match r with
  | (t, .ok d) =>
    let d := if d.land then d else { d with undo := if d.unit = 0 then none else some c.before }
    (t.unblockChain id c).putChain id d
  | (t, .error q) => s.quit t id c q

/-! ### COPY (R78, R79, R222) -/

/-- One end of a copy: format and rounding mode, and for a scratchpad its core and offset, and the bytes from there to the end of the
aperture or region, over the scratchpads of the next cores (R22, R76). -/
structure End where
  fmt : Option Nat
  rm : Nat
  spad : Option (Nat × Nat)
  lim : Nat := 0
deriving DecidableEq, Repr

/-- The register of a bank: latched at issue for the own core, when the entry first touches it for another (R77). An offset past the end
of a core's scratchpad lies in the next core's (R22, R76). -/
def State.chainBank (s : State) (id : CtxId) (c : Chain) (core off : Nat) : Word :=
  let core := core + off / 0x100000
  let off := off % 0x100000
  if core = id.core then bankOf c.bf off
  else ((c.banks.find? (fun b => b.1 = core * 16 + off / 65536 % 16)).map (·.2)).getD (bankOf (s.core id.pid core).live.bf off)

/-- Latches the registers of the banks of another core that a run touches (R77). -/
def State.latchBanks (s : State) (id : CtxId) (c : Chain) (spad : Option (Nat × Nat)) (n : Nat) : Chain :=
  match spad with
  | some (core, off) =>
    let n := Nat.min n (0x100000 - off)
    if core = id.core then c
    else (List.range ((off + n - 1) / 65536 + 1 - off / 65536)).foldl (fun (c : Chain) i =>
      let b := (off / 65536 + i) % 16
      if c.banks.any (fun x => x.1 = core * 16 + b) then c
      else { c with banks := c.banks ++ [(core * 16 + b, bankOf (s.core id.pid core).live.bf (65536 * b))] }) c
  | none => c

/-- An end at an address: `fmt` and `rm` are the entry's, for an end outside a scratchpad (R78). -/
def State.copyEnd (s : State) (id : CtxId) (c : Chain) (va : Nat) (fmt : Option Nat) (rm : Nat) : End :=
  match spadEnd id c.level va with
  | some (core, off) =>
    let b := s.chainBank id c core off
    let cores := if va / 0x100000 = 0xFFFFFFFFF00 then 1 else if va / 2 ^ 57 = 0 then 1024 - core else 8 - core % 8
    { fmt := some (bfFmt b), rm := bfRm b, spad := some (core, off), lim := cores * 0x100000 - off }
  | none => { fmt := fmt, rm := rm, spad := none }

/-- Whether a run of `n` bytes at a scratchpad end lies in banks of one FMT (R222). -/
def State.oneFmt (s : State) (id : CtxId) (c : Chain) (e : End) (n : Nat) : Bool :=
  match e.spad with
  | none => true
  | some (core, off) =>
    let n := Nat.min n e.lim
    (List.range ((off + n - 1) / 65536 + 1 - off / 65536)).all (fun i =>
      some (bfFmt (s.chainBank id c core ((off / 65536 + i) * 65536))) = e.fmt)

/-- Where element `q` of a run stands (R222): the start of its dimension-0 run at each end, and its index in the run. -/
def copyIndex (h : Nat) (us : List Nat) (q : Nat) : Int × Int × Nat :=
  let u := us.headD 0
  let i0 := q % cCount u
  let (s, t, _) := (us.drop 1).foldl (fun (a : Int × Int × Nat) x =>
    let (s, t, r) := a
    let n := bitsNat x 0 32
    let sg (lo : Nat) : Int := (BitVec.ofNat 48 (bitsNat x lo 48)).toInt
    (s + (r % n : Nat) * sg 32, t + (r % n : Nat) * sg 80, r / n)) ((cSrc u : Int), (hDst h : Int), q / cCount u)
  (s, t, i0)

/-- Bits of an element: 2 for a `cb2` one (an eighth of an index). -/
def elemBits (f : Nat) : Nat := if f = 6 then 2 else codeBits f

/-- A block format (R70). -/
def isBlock (f : Nat) : Bool := f = 5 || f = 6
/-- Bytes of a block. -/
def blockBytes (f : Nat) : Nat := if f = 5 then 24 else 12

/-- What is wrong with the formats of a copy (R78, R222): the byte number of FORMAT. -/
def State.copyFormatBad (s : State) (id : CtxId) (c : Chain) (u : Nat) (a b : End) (fs fd : Nat) : Option Nat :=
  let raw := fs = fd
  let n (f : Nat) : Nat := if raw then cCount u else (cCount u * elemBits f + 7) / 8
  let start (e : End) : Nat := ((e.spad.map (·.2)).getD 0) % 65536
  leastByte
    [(!raw && isBlock fd && b.spad.isSome && start b % blockBytes fd ≠ 0, 8),
     (!raw && isBlock fs && a.spad.isSome && start a % blockBytes fs ≠ 0, 16),
     (!raw && (isBlock fs || isBlock fd) && cCount u % 48 ≠ 0, 24),
     (!s.oneFmt id c a (n fs) || !s.oneFmt id c b (n fd), 24),
     (!raw && isBlock fs && a.spad.isNone, 28),
     (!raw && (fd = 6 || (fd = 5 && b.spad.isNone)), 29)]

/-- The first offset of the scratchpad that holds an offset: a run may go on into the next core's (R22). -/
def spadStart (o : Nat) : Nat := o / 0x100000 * 0x100000

/-- One element of a block read at a scratchpad: `q` counted from its run's start at offset `off` (R70, R72). -/
def blockElem (rd : Nat → Nat → List Byte) (bf : Nat → Word) (f off q : Nat) : FVal :=
  let half := off * 2 + q
  if f = 5 then
    let o := half / 2
    let j := half % 131072
    let bank := bf o
    scaled (bytesAt (rd (spadStart o + bfSpb bank + j / 48) 1) 0 1)
      (fdecode (fspec 5) (bytesAt (rd o 1) 0 1 / 16 ^ (half % 2) % 16))
  else
    let o := off + q / 8 * 2
    let bank := bf o
    let idx := bytesAt (rd o 2) 0 2
    let entry := leNat (rd (spadStart o + bfCbt bank + 8 * (idx / 256)) 8)
    scaled (bytesAt (rd (spadStart o + bfSpb bank + o % 65536 / 12) 1) 0 1) (cb2Element entry idx (q % 8))

/-- A converted element (R78): its value read, then rounded under the destination's mode. -/
def copyElem (fs fd rm : Nat) (sat8 : Bool) (draw : BitVec 32) (bits : Nat ⊕ FVal) : Nat × Fl :=
  match bits with
  | .inl x => convert fd fs sat8 false rm draw x
  | .inr v => roundTo fd sat8 false rm draw v

/-- An element's exact value. -/
def elemValue (fs : Nat) (bits : Nat ⊕ FVal) : FVal :=
  match bits with
  | .inr v => v
  | .inl x => if isFloatCode fs then fdecode (fspec fs) x else
      let z := laneInt fs x (codeBits fs)
      .fin (z < 0) z.natAbs 0

/-- The next draws of a copy, one an element, whatever it holds (R83): every element of a converting entry counts; the states
advance for the conversions under SR. -/
def Chain.draw (c : Chain) (sr : Bool) (n : Nat) : Chain × List (BitVec 32) :=
  if !sr then ({ c with draws := c.draws + n }, List.replicate n 0)
  else (List.range n).foldl (fun (a : Chain × List (BitVec 32)) _ =>
    let l := a.1.draws % 256
    let x := drawState (a.1.sr[l]'(Nat.mod_lt _ (by decide)))
    ({ a.1 with draws := a.1.draws + 1, sr := a.1.sr.set l x (Nat.mod_lt _ (by decide)) }, a.2 ++ [x])) (c, [])

/-- The codes of an `e2` block, its scale byte and its flags (R79); codes that R79 does not form are free values. -/
def e2Block (fresh rm : Nat) (xs : List FVal) (draws : List (BitVec 32)) : List Nat × Nat × Fl :=
  let free : List Nat := (List.range xs.length).map (fun i => (Config.freeWord (fresh + i)).toNat % 16)
  if xs.any (fun x => x.isNan || (match x with
      | .inf _ => true
      | _ => false)) then (free, 0xFF, Fl.on (xs.any FVal.isSnan) Fl.nv)
  else
    let amax := xs.foldl (fun m x => let y : FVal := (match x with
      | .fin _ a e => .fin false a e
      | v => v)
      if fcmp m y = .lt then y else m) (.fin false 0 0)
    if amax.isZero then (free, 0, 0)
    else
      let sc := blockScale amax
      let rs := (xs.zip draws).map (fun x => e2Element sc rm x.2 x.1)
      (rs.map (·.1), sc, rs.foldl (fun (f : Fl) r => f ||| r.2) 0)

/-- Nibbles packed into bytes, the even element low (R70). -/
def packNibbles : List Nat → List Byte
  | a :: b :: r => BitVec.ofNat 8 (a + 16 * b) :: packNibbles r
  | [a] => [BitVec.ofNat 8 a]
  | [] => []

/-- Lengths of a unit: whole aligned 64-byte lines of the destination, at most 64 elements, within one 64 KiB page at each end; at most
the rest of the run. A block is formed whole, from what the run has left of it: where a run passes the final part block of a bank, its
last block in the next bank is formed from the elements left (R79; DESIGN CHOICE, log entry 104). -/
def copyUnit (raw : Bool) (fs fd : Nat) (sa ta rest : Nat) (tblk : Option Nat) : Nat :=
  let ss := if raw then 8 else elemBits fs
  let ds := if raw then 8 else elemBits fd
  let room (a z lim : Nat) : Nat := Nat.max 1 ((lim - a % lim) * 8 / z)
  let n := Nat.min rest (Nat.min (room sa ss 65536) (room ta ds 65536))
  if !raw && isBlock fd then Nat.min rest (match tblk with
    | some off => let j := off % 65536 * 2; Nat.min (48 - j % 48) (131072 - j)
    | none => 48)
  else Nat.min n (Nat.min 64 (room ta ds 64))

/-- The converted bytes of a unit, and for an `e2` destination its scale byte. -/
def State.convertUnit (s : State) (c : Chain) (fs fd rm : Nat) (xs : List (Nat ⊕ FVal)) :
    State × Chain × List Byte × Option Nat :=
  let (c, ds) := c.draw (rm = 5) xs.length
  if fd = 5 then
    let (cs, sc, f) := e2Block s.fresh rm (xs.map (elemValue fs)) ds
    ({ s with fresh := s.fresh + xs.length }, { c with fl := c.fl ||| f }, packNibbles cs, some sc)
  else
    let rs := (xs.zip ds).map (fun x => copyElem fs fd rm c.sat8 x.2 x.1)
    (s, { c with fl := rs.foldl (fun (f : Fl) r => f ||| r.2) c.fl },
      rs.flatMap (fun r => leBytes (codeBits fd / 8) r.1), none)

/-- A read of elements of `z` bytes that may go on in the next page, where one begins (R22). -/
def State.readOver (s : State) (id : CtxId) (c : Chain) (va : Word) (n z : Nat) : Unit' (List Byte) :=
  let cut := 65536 - va.toNat % 65536
  if n = 0 then (s, .ok [])
  else if cut < n && cut % z = 0 then
    Unit'.on (s.chainRead id c va cut) (fun s a =>
      Unit'.on (s.chainRead id c (va + BitVec.ofNat 64 cut) (n - cut)) (fun s b => (s, .ok (a ++ b))))
  else s.chainRead id c va n

/-- Reads `n` bytes at `va`: those read ahead stand as they were read, and the aligned 8-byte piece that holds the last is read with them
as far as the run's `rest` bytes go: each such piece is read once (R164). The bytes, and those left after the `used` ones. -/
def State.readAhead (s : State) (id : CtxId) (c : Chain) (va : Word) (n used rest z : Nat) : Unit' (List Byte × List Byte) :=
  let tail := Nat.min ((8 - (va.toNat + n) % 8) % 8) (rest - n)
  Unit'.on (s.readOver id c (va + BitVec.ofNat 64 c.ahead.length) (n + tail - c.ahead.length)
      (if c.ahead = [] then z else 1)) (fun s bs =>
    (s, .ok ((c.ahead ++ bs).take n, (c.ahead ++ bs).drop used)))

/-- The other scratchpad bytes that elements `i0` on of a block run at offset `off` are decoded with: scale bytes and codebook entries
(R70, R72). -/
def blockSide (rd : Nat → Nat → List Byte) (bf : Nat → Word) (f off i0 n : Nat) : List (Nat × Nat) :=
  (List.range n).foldl (fun l q =>
    let o := off + (i0 + q) * elemBits f / 8
    let sc := (spadStart o + bfSpb (bf o) + o % 65536 / blockBytes f, 1)
    let l := if l.contains sc then l else l ++ [sc]
    if f = 5 then l
    else
      let w := off + (i0 + q) / 8 * 2
      let cb := (spadStart w + bfCbt (bf w) + 8 * (bytesAt (rd w 2) 0 2 / 256), 8)
      if l.contains cb then l else l ++ [cb]) []

/-- Reads of a chain at offsets of a scratchpad, one after another, for their obstacles. -/
def State.spadReads (s : State) (id : CtxId) (c : Chain) (va : Word) (core : Nat) : List (Nat × Nat) → Unit' Unit
  | [] => (s, .ok ())
  | o :: os => Unit'.on (s.chainPhys id c va id.pid (spadBase + core * 0x100000 + o.1) o.2) (fun s _ => s.spadReads id c va core os)

/-- The bytes of a block run, from its start, that elements from `i` on begin with, and that elements up to `i` end with: an `e2` element
is half a byte, eight `cb2` elements are one index of two bytes (R70). -/
def blockLo (f i : Nat) : Nat := if f = 5 then i / 2 else i / 8 * 2
def blockHi (f i : Nat) : Nat := if f = 5 then (i + 1) / 2 else (i + 7) / 8 * 2

/-- The source elements of a unit of `n`, from element `i0` of a run at `va`, `rest` of it left, and the bytes left for the next unit. -/
def State.sourceUnit (s : State) (id : CtxId) (c : Chain) (a : End) (fs : Nat) (va : Word) (i0 n rest : Nat) :
    Unit' (List (Nat ⊕ FVal) × List Byte) :=
  let z := codeBits fs / 8
  match a.spad, isBlock fs with
  | some (core, off), true =>
    let lo := blockLo fs i0
    let len := blockHi fs (i0 + n) - lo
    Unit'.on (s.readAhead id c (va + BitVec.ofNat 64 lo) len (blockLo fs (i0 + n) - lo) (blockHi fs (i0 + rest) - lo) 1) (fun s r =>
      let rd (o n : Nat) : List Byte :=
        if off + lo ≤ o && o + n ≤ off + lo + len then (r.1.drop (o - (off + lo))).take n
        else s.readBytes (spadKey id.pid (core + o / 0x100000) o) n
      Unit'.on (s.spadReads id c va core (blockSide rd (s.chainBank id c core) fs off i0 n)) (fun s _ =>
        (s, .ok ((List.range n).map (fun q => .inr (blockElem rd (s.chainBank id c core) fs off (i0 + q))), r.2))))
  | _, _ => Unit'.on (s.readAhead id c (va + BitVec.ofNat 64 (i0 * z)) (n * z) (n * z) (rest * z) z) (fun s r =>
      (s, .ok ((List.range n).map (fun q => .inl (bytesAt r.1 (q * z) z)), r.2)))

/-- The physical place of an address's first byte, if it resolves to one, at a window's target too. -/
def State.chainPlace (s : State) (id : CtxId) (c : Chain) (kind : AccKind) (va : Word) : Option (Nat × Nat) :=
  match s.resolve (s.chainWho id c) kind va 1 with
  | .ok [{ dest := .phys pid pa, .. }] => some (pid, pa)
  | .ok [{ dest := .exposure tp tt te off, .. }] =>
    (match (s.part tp tt).map (fun x => s.viaTables tp tt kind (winBase (x.win (256 + te)) + off) 1) with
     | some (.ok [{ dest := .phys pid pa, .. }]) => some (pid, pa)
     | _ => none)
  | _ => none

/-- A write of an `e2` block: its codes, then its scale byte in the bank's scale plane. -/
def State.blockWrite (s : State) (id : CtxId) (c : Chain) (b : End) (ta : Word) (off : Nat) (bs : List Byte) (sc : Nat) :
    Unit' Chain :=
  match b.spad with
  | none => (s, .ok c)
  | some (core, _) =>
    let at_ := spadStart off + bfSpb (s.chainBank id c core off) + off % 65536 / 24
    Unit'.on (s.chainWrite id c c.elem .plain ta bs) (fun s c =>
      let p : Piece := { dest := .phys id.pid (spadBase + core * 0x100000 + at_), len := 1 }
      match s.writeQuit id c ta [p] with
      | some q => (s, .error q)
      | none => let (s, c) := s.writePieces id c c.elem .plain ta [BitVec.ofNat 8 sc] [p]; (s, .ok c))

/-- Where a COPY stands at an element (R222): its ends and formats there, its run at each end, the element's addresses, its index in the
run and the elements left of it. -/
structure CopyAt where
  a : End
  b : End
  fs : Nat
  fd : Nat
  sva : Word
  tva : Word
  i0 : Nat
  rest : Nat
deriving DecidableEq, Repr

/-- Neither end has a format, or both the same one (R222). -/
def CopyAt.raw (x : CopyAt) : Bool := x.fs = x.fd
/-- Bits of an element at each end. -/
def CopyAt.sbits (x : CopyAt) : Nat := if x.raw then 8 else elemBits x.fs
def CopyAt.tbits (x : CopyAt) : Nat := if x.raw then 8 else elemBits x.fd
def CopyAt.sa (x : CopyAt) : Word := x.sva + BitVec.ofNat 64 (x.i0 * x.sbits / 8)
def CopyAt.ta (x : CopyAt) : Word := x.tva + BitVec.ofNat 64 (x.i0 * x.tbits / 8)
/-- The element's offset in the scratchpad of its destination. -/
def CopyAt.toff (x : CopyAt) : Nat := ((x.b.spad.map (·.2)).getD 0) + x.i0 * x.tbits / 8

/-- A COPY at element `q`. -/
def State.copyAt (s : State) (id : CtxId) (c : Chain) (h : Nat) (us : List Nat) (q : Nat) : CopyAt :=
  let u := us.headD 0
  let (si, ti, i0) := copyIndex h us q
  let sva : Word := BitVec.ofInt 64 si
  let tva : Word := BitVec.ofInt 64 ti
  let a := s.copyEnd id c sva.toNat (if cShas u then some (cSfmt u) else none) 0
  let b := s.copyEnd id c tva.toNat (if cDhas u then some (cDfmt u) else none) (cDrm u)
  { a := a, b := b, fs := (a.fmt.or b.fmt).getD 3, fd := (b.fmt.or a.fmt).getD 3, sva := sva, tva := tva, i0 := i0, rest := cCount u - i0 }

/-- The rounding mode of an element's destination: its bank's, or the entry's outside a scratchpad (R76, R78). -/
def State.copyRm (s : State) (id : CtxId) (c : Chain) (x : CopyAt) : Nat :=
  match x.b.spad with
  | some (core, _) => bfRm (s.chainBank id c core x.toff)
  | none => x.b.rm

/-- What is wrong with the formats of a copy in its dimension-0 runs `r` on, `n` of them: the least byte number (R222). -/
def State.copyRunsBad (s : State) (id : CtxId) (c : Chain) (h : Nat) (us : List Nat) : Nat → Nat → Option Nat → Option Nat
  | 0, _, m => m
  | n + 1, r, m =>
    let x := s.copyAt id c h us (r * cCount (us.headD 0))
    let d := s.copyFormatBad id c (us.headD 0) x.a x.b x.fs x.fd
    s.copyRunsBad id c h us n (r + 1) (match m, d with
      | some a, some b => some (Nat.min a b)
      | none, d => d
      | m, none => m)

/-- The check of a copy's formats: of every run before the first element, then of the run in hand (R78, R222). -/
def State.copyBad (s : State) (id : CtxId) (c : Chain) (h : Nat) (us : List Nat) : Option Nat :=
  let n := cCount (us.headD 0)
  if c.elem = 0 then s.copyRunsBad id c h us (copyTotal us / n) 0 none else s.copyRunsBad id c h us 1 (c.elem / n) none

/-- Elements of the unit at a chain's progress point. -/
def CopyAt.len (x : CopyAt) : Nat :=
  copyUnit x.raw x.fs x.fd x.sa.toNat x.ta.toNat x.rest (x.b.spad.map (fun _ => x.toff))

/-- How far the destination of a unit of `n` elements lies from its source, where their bytes meet: each element then sees what those
before it have written (R222). Blocks are read and formed whole. -/
def State.overlap (s : State) (id : CtxId) (c : Chain) (x : CopyAt) (n : Nat) : Option Int :=
  if !x.raw && (isBlock x.fs || isBlock x.fd) then none
  else match s.chainPlace id c .read x.sa, s.chainPlace id c .write x.ta with
    | some (p, a), some (q, b) =>
      if p = q && meets a ((n * x.sbits + 7) / 8 + 8) b ((n * x.tbits + 7) / 8) then some ((b : Int) - a) else none
    | _, _ => none

/-- A source byte `j` of a unit as it stands once the unit's first bytes `out` have been written, `d` bytes on from the source. -/
def seenByte (d : Int) (out : List Byte) (j : Nat) (b : Byte) : Byte :=
  if (j : Int) < d then b else (out[(j - d).toNat]?).getD b

/-- A raw copy over its own source, byte by byte. -/
def rawOver (d : Int) (src : List Byte) : List Byte :=
  src.zipIdx.foldl (fun out b => out ++ [seenByte d out b.2 b.1]) []

/-- The same for a converting copy of `n` elements of `z` bytes. -/
def State.convertOver (s : State) (c : Chain) (fs fd rm : Nat) (d : Int) (src : List Byte) (z n : Nat) : State × Chain × List Byte :=
  (List.range n).foldl (fun (a : State × Chain × List Byte) i =>
    let e := ((src.drop (i * z)).take z).zipIdx.map (fun b => seenByte d a.2.2 (i * z + b.2) b.1)
    let (s, c, bs, _) := a.1.convertUnit a.2.1 fs fd rm [.inl (leNat e)]
    (s, c, a.2.2 ++ bs)) (s, c, [])

/-- The registers of other cores' banks that the unit at a chain's progress point touches, latched (R77). -/
def State.copyLatch (s : State) (id : CtxId) (c : Chain) (h : Nat) (us : List Nat) : Chain :=
  let (si, ti, _) := copyIndex h us c.elem
  let c := s.latchBanks id c (spadEnd id c.level (BitVec.ofInt 64 si).toNat) 1
  let c := s.latchBanks id c (spadEnd id c.level (BitVec.ofInt 64 ti).toNat) 1
  let x := s.copyAt id c h us c.elem
  let n := x.len
  let c := s.latchBanks id c (spadEnd id c.level x.sa.toNat) ((n * x.sbits + 7) / 8)
  s.latchBanks id c (spadEnd id c.level x.ta.toNat) ((n * x.tbits + 7) / 8)

/-- `n` elements of a COPY from its progress point on, each as though copied after the ones before it (R222). -/
def State.copyElems (s : State) (id : CtxId) (c : Chain) (h : Nat) (us : List Nat) (x : CopyAt) (n : Nat) : Unit' Chain :=
  let z := if x.raw then 1 else codeBits x.fs / 8
  let done (ah : List Byte) (s : State) (c : Chain) : Unit' Chain := (s, .ok ({ c with ahead := ah }.did h n (copyTotal us)))
  match s.overlap id c x n with
  | some d =>
    Unit'.on (s.readAhead id c x.sa (n * z) (n * z) (x.rest * z) z) (fun s r =>
      let (s, c, bs) := if x.raw then (s, c, rawOver d r.1) else s.convertOver c x.fs x.fd (s.copyRm id c x) d r.1 z n
      Unit'.on (s.chainWrite id c c.elem .plain x.ta bs) (done (r.2.zipIdx.map (fun b => seenByte d bs (n * z + b.2) b.1))))
  | none =>
    if x.raw then
      Unit'.on (s.readAhead id c x.sa n n x.rest 1) (fun s r => Unit'.on (s.chainWrite id c c.elem .plain x.ta r.1) (done r.2))
    else
      Unit'.on (s.sourceUnit id c x.a x.fs x.sva x.i0 n x.rest) (fun s r =>
        let (s, c, bs, sc) := s.convertUnit c x.fs x.fd (s.copyRm id c x) r.1
        match sc with
        | some sc => Unit'.on (s.blockWrite id c x.b x.ta x.toff bs sc) (done r.2)
        | none => Unit'.on (s.chainWrite id c c.elem .plain x.ta bs) (done r.2))

/-- A part of a unit cannot be performed. -/
def Unit'.fails {α : Type} (r : Unit' α) : Bool :=
  match r.2 with
  | .error _ => true
  | .ok _ => false

/-- One progress unit of a COPY (R222). Where it meets an obstacle, the elements before the one that meets it are performed first; a
block is formed whole. -/
def State.copyStep (s : State) (id : CtxId) (c : Chain) (h : Nat) (us : List Nat) : Unit' Chain :=
  match s.copyBad id c h us with
  | some d => (s, .error (.code 1 d))
  | none =>
    let x := s.copyAt id c h us c.elem
    let n := x.len
    let go := s.copyElems id c h us x
    if !Unit'.fails (go n) || (!x.raw && isBlock x.fd) then go n
    else match (List.range n).find? (fun m => Unit'.fails (go (m + 1))) with
      | some 0 | none => go 1
      | some (m + 1) => go (m + 1)

/-- The form a `cpy.land` demands (R217): one COPY into the own scratchpad of at most 64 KiB, then END. -/
def State.landForm (s : State) (id : CtxId) (c : Chain) (h : Nat) (us : List Nat) : Bool :=
  let u := us.headD 0
  let fd := (s.copyEnd id c (hDst h) (if cDhas u then some (cDfmt u) else none) 0).fmt
  let fs := (s.copyEnd id c (cSrc u) (if cShas u then some (cSfmt u) else none) 0).fmt
  let bits := match fs, fd with
    | some a, some b => if a = b then 8 else elemBits b
    | _, _ => 8
  let run := (cCount u * bits + 7) / 8
  let sg (x : Nat) : Int := (BitVec.ofNat 48 (bitsNat x 80 48)).toInt
  let (lo, hi) := (us.drop 1).foldl (fun (r : Int × Int) x =>
    let d := ((bitsNat x 0 32 : Int) - 1) * sg x
    (if d < 0 then r.1 + d else r.1, if 0 < d then r.2 + d else r.2)) ((hDst h : Int), (hDst h : Int) + run)
  let own (v : Int) : Bool := (match spadEnd id c.level (BitVec.ofInt 64 v).toNat with
    | some (core, _) => core = id.core
    | none => false)
  hKind h = 1 && plenOk 1 (hPlen h) && c.nextOff h + 16 ≤ 0x100000 &&
  hKind (s.chainUnit id.pid id.core (c.nextOff h)) = 12 &&
  own lo && own (hi - 1) && (hi - lo).toNat ≤ 0x100000 && copyTotal us * bits ≤ 8 * 65536

/-- A `cpy.land` whose progress has passed its COPY is complete but for its landing (R217). -/
def State.copyEnded (s : State) (id : CtxId) (c : Chain) : State :=
  match (s.core id.pid id.core).live.chains.find? (fun x => x.same c) with
  | some d => if d.land && !d.landed && c.off = c.head && d.off ≠ d.head then s.copyDone id d.entry else s
  | none => s

/-- CHAIN_COPY. -/
def execChainCopy (pid core queue : Nat) (s : State) : Out :=
  s.atEntry pid core queue 1 (fun id c h us =>
    let d := c.settle h (copyTotal us)
    if d.off ≠ c.off then (s.putChain id d).copyEnded id c
    else
      let d := s.copyLatch id d h us
      (s.unitOf id d (s.copyStep id d h us)).copyEnded id c)

/-! ### The other kinds -/

/-- An entry that is one unit: settled first, so that one whose messages are answered is over. -/
def State.single (s : State) (id : CtxId) (c : Chain) (h : Nat) (k : Chain → Unit' Chain) : State :=
  if c.unit ≠ 0 then s.putChain id (c.settle h 1) else s.unitOf id c (k c)

/-- The operation an OP code names (R223). -/
def accOpOf (n : Nat) : AccOp :=
  match n with
  | 0 => .add | 1 => .min | 2 => .max | 3 => .and | 4 => .or | 5 => .xor | 6 => .swap | 7 => .fetchAdd | _ => .cas
/-- Operations that return the old value. -/
def fetches (op : AccOp) : Bool := op = .swap || op = .fetchAdd || op = .cas
/-- Operations whose repetition adds to what stands (R391). -/
def accumulates (op : AccOp) : Bool := op = .add || op = .xor || fetches op

/-- One read-modify-write of a chain at a resolved place: at once at a near home, or as a message. -/
def State.chainRmw (s : State) (id : CtxId) (c : Chain) (elem : Nat) (op : AccOp) (fmt z cmp y : Nat) (rel : Option (BitVec 4))
    (va : Word) (p : Piece) : Unit' (Chain × Option Nat) :=
  let far : Unit' (Chain × Option Nat) :=
    let src := s.chainSrc id c elem
    let s := match rel with
      | some sc => s.raceRelease (Chain.agent id) sc.toNat
      | none => s
    (s.send { src := src, chan := c.queue, dst := p.dest.home, body := .accum p.dest op fmt z cmp y rel, via := src.via va p.dest },
     .ok ({ c with acks := c.acks + 1 }, none))
  match p.dest with
  | .phys pid pa =>
    if hostAtomBad pid pa op fmt then (s, .error (.code 4 (elem % 65536)))
    else if nearTo id (homeOf pid pa) then
      (match firstQuit [s.physQuit true va pid pa z, (s.badAt (memKey pid pa) z).map (fun _ => .code 2 0),
          s.chainRace id c true pid pa z] with
       | some q => (s, .error q)
       | none =>
         let old := leNat (s.physBytes pid pa z)
         let (new, f) := accNew op fmt z old y cmp
         (s.physWrite (some (Chain.agent id)) pid pa (leBytes z new) rel, .ok ({ c with fl := c.fl ||| f }, some old)))
    else far
  | .exposure .. => match s.writeQuit id c va [p] with
    | some q => (s, .error q)
    | none => far

/-- The write of a fetched old value, which ends its element (R223); the value is kept until the write is acknowledged, so that the
element is never applied twice. -/
def State.accumRet (s : State) (id : CtxId) (c : Chain) (h z : Nat) (ret : Word) (old : Nat) : Unit' Chain :=
  Unit'.on (s.chainWrite id c c.elem .plain ret (leBytes z old)) (fun s c =>
    (s, .ok ({ c with wait := false, got := some old }.did h 1 (hArg h))))

/-- One element of an ACCUM (R223). -/
def State.accumStep (s : State) (id : CtxId) (c : Chain) (h u : Nat) : Unit' Chain :=
  let op := accOpOf (hOpt h % 16)
  let ty := hOpt h / 16
  let z := accSize ty
  let i := c.elem
  let t : Word := BitVec.ofNat 64 (hDst h + i * z)
  let src := bitsNat u 0 64
  let ret : Word := BitVec.ofNat 64 (bitsNat u 64 64 + i * z)
  match c.got with
  | some old => s.accumRet id c h z ret old
  | none =>
    if t.toNat % z ≠ 0 ∨ src % z ≠ 0 ∨ (fetches op ∧ ret.toNat % z ≠ 0) then (s, .error (.code 5 0))
    else
      Unit'.on (s.chainReach id c .rmw t z) (fun s ps =>
        let host : Bool := ps.any (fun p => match p.dest with
          | .phys pid pa => hostAtomBad pid pa op ty
          | _ => false)
        if host then (s, .error (.code 4 (i % 65536)))
        else
        let operand (k : Nat) : Word := BitVec.ofNat 64 (src + k * z)
        Unit'.on (if op = .cas then s.chainRead id c (operand (2 * i)) z else (s, .ok [])) (fun s cs =>
          Unit'.on (s.chainRead id c (operand (if op = .cas then 2 * i + 1 else i)) z) (fun s ys =>
            Unit'.on (if fetches op then s.chainAllows id c .write ret z else (s, .ok ())) (fun s _ =>
              match ps with
              | [p] =>
                let s := if accumulates op && !s.inRollback id t.toNat ps then s.markExtern id else s
                Unit'.on (s.chainRmw id c i op ty z (leNat cs) (leNat ys) none t p) (fun s r =>
                  match r.2 with
                  | some old => (s, .ok (if fetches op then { r.1 with got := some old } else r.1.did h 1 (hArg h)))
                  | none => (s, .ok { r.1 with unit := if fetches op then 0 else 1, wait := fetches op }))
              | _ => (s, .error (.code 5 0))))))

/-- CHAIN_ACCUM. -/
def execChainAccum (pid core queue : Nat) (s : State) : Out :=
  s.atEntry pid core queue 2 (fun id c h us =>
    if c.unit ≠ 0 then s.putChain id (c.settle h (hArg h)) else s.unitOf id c (s.accumStep id c h (us.headD 0)))

/-! Combiner handles and types (R150, R231). -/

/-- Fields of a handle (R231). -/
def hdKey (w : Word) : BitVec 16 := w.extractLsb' 48 16
def hdPid (w : Word) : Nat := fieldW w 38 10
def hdEntry (w : Word) : Nat := fieldW w 26 12
/-- Fields of CTRL (R150). -/
def ctlNelem (c : BitVec 32) : Nat := bitsNat c.toNat 22 10 + 1
def ctlNcon (c : BitVec 32) : Nat := bitsNat c.toNat 12 10
def ctlOtype (c : BitVec 32) : Nat := bitsNat c.toNat 8 3
def ctlItype (c : BitVec 32) : Nat := bitsNat c.toNat 5 3
def ctlOp (c : BitVec 32) : Nat := bitsNat c.toNat 2 3
def ctlMode (c : BitVec 32) : Nat := bitsNat c.toNat 0 2
/-- Bytes of an element of a combiner type (R224). -/
def typeBytes (t : Nat) : Nat :=
  match t with
  | 0 | 2 => 4 | 1 => 2 | 3 => 8 | _ => 48
/-- Bytes of a delivery record (R232). -/
def recordBytes (c : BitVec 32) : Nat := 256 + ctlNelem c * typeBytes (ctlOtype c)

/-- The open entry a handle names, with its key (R231). -/
def State.combOf (s : State) (hd : Word) : Option Comb :=
  ((s.pkg (hdPid hd)).combs.get (hdEntry hd)).filter (fun e => e.key = hdKey hd && e.owed.isNone)

/-- The contribution of a REDUCE (R224, R233): RET is translated first, then the contribution read and sent; for a handle that
names no open entry nothing is read. -/
def State.reduceStep (s : State) (id : CtxId) (c : Chain) (h u : Nat) : Unit' Chain :=
  let hd : Word := BitVec.ofNat 64 (hDst h)
  let ret : Word := BitVec.ofNat 64 (bitsNat u 64 64)
  match s.combOf hd with
  | none =>
    (s.send { src := s.chainSrc id c 0, chan := c.queue, dst := .die (hdPid hd), body := .contrib hd (hArg h % 1024) 0 [] },
     .ok { c with acks := c.acks + 1, unit := 1 })
  | some e =>
    Unit'.on (if ret = 0 then (s, .ok []) else s.chainReach id c .write ret (recordBytes e.ctrl)) (fun s ps =>
      if ps.any (fun p => match p.dest with
          | .exposure tp tt te off => !s.exposureOk tp tt te off p.len (fun p => permAllows p .write) id.pid c.part
          | _ => false) then (s, .error (.code 8 0))
      else Unit'.on (s.chainRead id c (BitVec.ofNat 64 (bitsNat u 0 64)) (ctlNelem e.ctrl * typeBytes (ctlItype e.ctrl)))
        (fun s bs =>
          (s.send { src := s.chainSrc id c 0, chan := c.queue, dst := .die (hdPid hd),
                    body := .contrib hd (hArg h % 1024) ret bs },
           .ok { c with acks := c.acks + 1, unit := 1 })))

/-- CHAIN_REDUCE. -/
def execChainReduce (pid core queue : Nat) (s : State) : Out :=
  s.atEntry pid core queue 3 (fun id c h us => s.single id c h (fun c => s.reduceStep id c h (us.headD 0)))

/-- Whether a chain's partition owns a multicast group, a device-level chain's too (R21, R349). -/
def State.ownsMcast (s : State) (id : CtxId) (c : Chain) (g : Nat) : Bool :=
  match c.part.bind (s.part id.pid) with
  | some x => x.mbase ≤ g && g < x.mbase + x.mcount
  | none => false
/-- Whether a chain's partition owns a commit group (R348). -/
def State.ownsGroupBy (s : State) (id : CtxId) (c : Chain) (g : Nat) : Bool :=
  c.level = .device || (match c.part.bind (s.part id.pid) with
    | some x => x.gbase ≤ g && g < x.gbase + x.gcount
    | none => false)

/-- The routes to a multicast group's members (R213, R225). -/
def State.mcastRoutes (s : State) (id : CtxId) (chan g : Nat) : State :=
  (((s.pkg id.pid).mcast.get g).getD []).foldl (fun s m => s.updCtx id (fun c => c.addRoute (chan, (Home.die m.pid).code))) s

/-- CHAIN_MCAST (R225, R349): the packet goes to the own switch die. -/
def execChainMcast (pid core queue : Nat) (s : State) : Out :=
  s.atEntry pid core queue 4 (fun id c h us => s.single id c h (fun c =>
    let u := us.headD 0
    let g := hArg h % 1024
    if !s.ownsMcast id c g then (s, .error (.code 1 4))
    else Unit'.on (s.chainRead id c (BitVec.ofNat 64 (bitsNat u 0 64)) (bitsNat u 64 32)) (fun s bs =>
      ((s.send { src := s.chainSrc id c 0, chan := c.queue, dst := .die pid, body := .mcast g (hDst h) bs }).mcastRoutes id c.queue g,
       .ok { c with acks := c.acks + 1, unit := 1 }))))

/-- CHAIN_ARRIVE (R226): one arrival, a release at SC. -/
def execChainArrive (pid core queue : Nat) (s : State) : Out :=
  s.atEntry pid core queue 5 (fun id c h _ => s.single id c h (fun c =>
    match arriveTarget id h with
    | none => (s, .error (.code 1 8))
    | some (tp, tc, exp) =>
      let s := s.raceRelease (Chain.agent id) (hSc h)
      (s.send { src := s.chainSrc id c 0, chan := c.queue, dst := .field tp (fieldOf tc),
                body := .arrive tp tc (hArg h % 32) exp (BitVec.ofNat 4 (hSc h)) },
       .ok { c with acks := c.acks + 1, unit := 1 })))

/-- CHAIN_FLAG (R227): VALUE written as a release at SC. -/
def execChainFlag (pid core queue : Nat) (s : State) : Out :=
  s.atEntry pid core queue 6 (fun id c h us => s.single id c h (fun c =>
    if hDst h % 8 ≠ 0 then (s, .error (.code 5 0))
    else Unit'.on (s.chainWrite id c 0 (.once (BitVec.ofNat 4 (hSc h))) (BitVec.ofNat 64 (hDst h))
        (leBytes 8 (bitsNat (us.headD 0) 0 64))) (fun s c => (s, .ok (c.did h 1 1)))))

/-- CHAIN_SIGNAL (R227): INC added by one read-modify-write at the home, a release at SC. -/
def execChainSignal (pid core queue : Nat) (s : State) : Out :=
  s.atEntry pid core queue 8 (fun id c h us => s.single id c h (fun c =>
    let t : Word := BitVec.ofNat 64 (hDst h)
    if hDst h % 8 ≠ 0 then (s, .error (.code 5 0))
    else Unit'.on (s.chainReach id c .rmw t 8) (fun s ps =>
      match ps with
      | [p] =>
        let s := if s.inRollback id t.toNat ps then s else s.markExtern id
        Unit'.on (s.chainRmw id c 0 .fetchAdd 15 8 0 (bitsNat (us.headD 0) 0 64) (some (BitVec.ofNat 4 (hSc h))) t p)
          (fun s r => (s, .ok (r.1.did h 1 1)))
      | _ => (s, .error (.code 5 0)))))

/-- CHAIN_GSTORE (R209, R227, R348): one write unit staged at its home. -/
def execChainGstore (pid core queue : Nat) (s : State) : Out :=
  s.atEntry pid core queue 7 (fun id c h us => s.single id c h (fun c =>
    let u := us.headD 0
    let g := hArg h % 65536
    let n := bitsNat u 64 32
    let t : Word := BitVec.ofNat 64 (hDst h)
    if !s.ownsGroupBy id c g then (s, .error (.code 1 4))
    else if t.toNat / 65536 ≠ (t.toNat + n - 1) / 65536 then (s, .error (.code 1 8))
    else Unit'.on (s.chainRead id c (BitVec.ofNat 64 (bitsNat u 0 64)) n) (fun s bs =>
      Unit'.on (s.chainReach id c .group t n) (fun s ps =>
        if ps.any (fun p => match p.dest with
            | .phys _ pa => regionOf pa ≠ some .vault && regionOf pa ≠ some .hbm
            | .exposure .. => false) then (s, .error (.code 2 9))
        else
          let src := s.chainSrc id c 0
          let (s, _) := ps.foldl (fun (a : State × Nat) p =>
            (a.1.send { src := src, chan := c.queue, dst := p.dest.home,
                        body := .group p.dest (pieceBytes bs a.2 p.len) g (hArg h / 65536) (homeShare ps p.dest) none,
                        via := src.via (t + BitVec.ofNat 64 a.2) p.dest },
              a.2 + p.len)) (s, 0)
          (s, .ok { c with acks := c.acks + ps.length, unit := 1 })))))

/-- CHAIN_LOOP (R227): one counter for each LOOP entry, at most 4 active. -/
def execChainLoop (pid core queue : Nat) (s : State) : Out :=
  s.atEntry pid core queue 9 (fun id c h _ =>
    let n : Option Nat := (c.loops.find? (fun l => l.1 = c.off)).map (·.2)
    let others := c.loops.filter (fun l => l.1 ≠ c.off)
    if n.isNone && 4 ≤ c.loops.length then s.endChain id c 1 4
    else match n.getD (hArg h) with
      | 0 => s.putChain id { c.goto (c.nextOff h) with loops := others }
      | k + 1 =>
        if 0x100000 ≤ loopBody c.off h then s.endChain id c 1 8
        else s.putChain id { c.goto (loopBody c.off h) with loops := others ++ [(c.off, k)] })

/-- The condition of COND and WAITFLAG on a word (R220). -/
def condHolds (h u x : Nat) : Bool :=
  let v := bitsNat u 0 64
  match hOpt h % 4 with
  | 0 => x = v
  | 1 => x ≠ v
  | 2 => v ≤ x
  | _ => x < v

/-- CHAIN_COND (R227). -/
def execChainCond (pid core queue : Nat) (s : State) : Out :=
  s.atEntry pid core queue 10 (fun id c h us => s.unitOf id c (
    if hDst h % 8 ≠ 0 then (s, .error (.code 5 0))
    else Unit'.on (s.chainRead id c (BitVec.ofNat 64 (hDst h)) 8) (fun s bs =>
      let c' := c.goto (c.nextOff h)
      (s, .ok (if condHolds h (us.headD 0) (leNat bs) then c' else { c' with skip := hArg h })))))

/-- The acquire of a WAITFLAG by the quill (R167). -/
def State.quillAcquire (s : State) (id : CtxId) (c : Chain) (sc : Nat) (va : Word) : State :=
  match s.chainPlace id c .read va with
  | some (pid, pa) => s.acquireRead (Chain.agent id) sc (memKey pid pa) 8
  | none => s

/-- CHAIN_WAITFLAG (R227): the word is read again until its condition holds; the first failing read starts the timer. -/
def execChainWaitflag (pid core queue : Nat) (s : State) : Out :=
  s.atEntry pid core queue 11 (fun id c h us => s.unitOf id c (
    let t : Word := BitVec.ofNat 64 (hDst h)
    if hDst h % 8 ≠ 0 then (s, .error (.code 5 0))
    else Unit'.on (s.chainRead id { c with race := 0 } t 8) (fun s bs =>
      if condHolds h (us.headD 0) (leNat bs) then
        let s := s.quillAcquire id c (hSc h) t
        (match s.chainPlace id c .read t with
         | some (p, pa) => match s.chainRace id c false p pa 8 with
           | some q => (s, .error q)
           | none => (s, .ok (c.goto (c.nextOff h)))
         | none => (s, .ok (c.goto (c.nextOff h))))
      else (s, .ok { c with timer := if hArg h = 0 then none else c.timer.or (some (hArg h * Config.cyclesPerMicrosecond)) }))))

/-- WAITFLAG_TIMEOUT (R227): TIMEOUT µs without success stop the chain. -/
def execWaitflagTimeout (pid core queue : Nat) (s : State) : Out :=
  match s.headChain pid core queue with
  | some c =>
    if c.timer = some 0 && !c.stopped && (s.core pid core).swap = .running then .next (s.endChain (c.id pid core) c 6 0)
    else .next s
  | none => .next s

/-- CHAIN_END (R177, R216, R227): every earlier entry has been performed. -/
def execChainEnd (pid core queue : Nat) (s : State) : Out :=
  s.atEntry pid core queue 12 (fun id c _ _ => s.endChain id c 0 0)

/-! ### `snap` as a chain (R364) -/

/-- One page of a `snap`: a take checks every page, then sets them; a release or restore changes each (R362). -/
def State.snapUnit (s : State) (id : CtxId) (c : Chain) (base len slot op : Nat) : State :=
  match c.part.bind (fun p => (s.part id.pid p).map (fun x => (p, x))) with
  | none => s.endChain id c 1 16
  | some (part, x) =>
    let r := x.slot slot
    let agent := s.agentOf id
    let bad (d : Nat) : State := s.endChain id c 1 d
    let start : Bool := !c.begun
    let c := { c with begun := true }
    if op = 0 then
      if start && r.state ≠ .free then bad 16
      else
        let s := if start then s.setSlot id.pid part slot (some { state := .taking, base := base, len := len * 65536 }) else s
        if c.elem < len then
          (match s.snapCheck id.pid part (pageVa base c.elem) with
           | .ok => s.putChain id { c with elem := c.elem + 1 }
           | .waits => s.putChain id c
           | .undecided .. => s.stopChain id c 10 false (BitVec.ofNat 64 (pageVa base c.elem))
           | .large _ => (s.setSlot id.pid part slot none).endChain id c 1 0
           | .phys => s.stopChain id c 8 true (BitVec.ofNat 64 (pageVa base c.elem)))
        else if c.elem < 2 * len then
          (match s.snapPage id.pid part slot (pageVa base (c.elem - len)) with
           | (t, .phys) => t.stopChain id c 8 true (BitVec.ofNat 64 (pageVa base (c.elem - len)))
           | (_, .undecided ..) => s.stopChain id c 10 true (BitVec.ofNat 64 (pageVa base (c.elem - len)))
           | (_, .waits) => s.putChain id c
           | (t, _) => t.putChain id { c with elem := c.elem + 1 })
        else (s.setSlot id.pid part slot (some { state := .held, base := base, len := len * 65536 })).endChain id c 0 0
    else
      if start && r.state ≠ .held then bad 16
      else if start && (r.base ≠ base || r.len ≠ len * 65536) then bad 8
      else
        let s := if start then s.setSlot id.pid part slot (some { r with state := .ending }) else s
        if c.elem < len then
          let va := pageVa base c.elem
          (match (if op = 1 then s.releasePage id.pid part slot agent va else s.restorePage id.pid part slot agent va) with
           | (t, .phys) => t.stopChain id c 8 true (BitVec.ofNat 64 va)
           | (_, .undecided ..) => s.stopChain id c 10 true (BitVec.ofNat 64 va)
           | (_, .waits) => s.putChain id c
           | (t, _) => t.putChain id { c with elem := c.elem + 1 })
        else ((s.releaseLog id.pid part slot agent).setSlot id.pid part slot none).endChain id c 0 0

/-! ### Queues (R216) -/

/-- The event that performs the unit of an entry's kind. -/
def entryEvent (pid core queue kind : Nat) : Instr :=
  match kind with
  | 1 => .chainCopy pid core queue
  | 2 => .chainAccum pid core queue
  | 3 => .chainReduce pid core queue
  | 4 => .chainMcast pid core queue
  | 5 => .chainArrive pid core queue
  | 6 => .chainFlag pid core queue
  | 7 => .chainGstore pid core queue
  | 8 => .chainSignal pid core queue
  | 9 => .chainLoop pid core queue
  | 10 => .chainCond pid core queue
  | 11 => .chainWaitflag pid core queue
  | _ => .chainEnd pid core queue

/-- The target address of a chain's current element. -/
def State.elemAddr (s : State) (id : CtxId) (c : Chain) : Word :=
  let h := s.chainUnit id.pid id.core c.off
  let us := (List.range (hPlen h)).map (fun i => s.chainUnit id.pid id.core (c.off + 16 + 16 * i))
  match hKind h with
  | 1 =>
    (s.copyAt id c h us c.elem).ta
  | 2 => BitVec.ofNat 64 (hDst h + c.elem * accSize (hOpt h / 16))
  | _ => BitVec.ofNat 64 (hDst h)

/-- The quill at a chain's progress point (R216, R219, R220, R227): what an answer ends, a faulty entry, an entry passed over;
otherwise the unit of its entry comes next. -/
def State.serve (s : State) (id : CtxId) (c : Chain) : State :=
  match c.bad with
  | some (k, d) =>
    if k = 256 + 10 then
      s.stopChain id { c with bad := none }.redo 10 true (s.elemAddr id c)
    else s.endChain id { c with bad := none, unit := 0 } k d
  | none =>
    match c.kind with
    | .snap base len slot op => s.snapUnit id c base len slot op
    | .chain =>
      if s.entryLost id c then s.endChain id c 2 0
      else match s.entryBad id c with
      | (some d, h, us) =>
        if c.land && c.off = c.head && c.elem = 0 && !(s.landForm id c h us) then s.endChain id c 0xD 0
        else if 0 < c.skip && hKind h ≠ 12 && c.nextOff h ≤ 0x100000 && c.off + 16 ≤ 0x100000 then
          s.putChain id { c.goto (c.nextOff h) with skip := c.skip - 1 }
        else s.endChain id c 1 d
      | (none, h, us) =>
        if c.land && c.off = c.head && c.elem = 0 && c.unit = 0 && !s.landForm id c h us then s.endChain id c 0xD 0
        else if 0 < c.skip && hKind h ≠ 12 then s.putChain id { c.goto (c.nextOff h) with skip := c.skip - 1 }
        else
          let s := if 0 < c.skip then s.putChain id { c with skip := 0 } else s
          { s with agenda := entryEvent id.pid id.core c.queue (hKind h) :: s.agenda }

/-- Whether a chain can be served now: earlier stores of its context have been performed, earlier loads have read (R170, R177). -/
def State.servable (s : State) (pid core : Nat) (c : Chain) : Bool :=
  !c.stopped && c.acks = 0 && c.timer ≠ some 0 && !(s.ctx (c.id pid core)).storesOut c.issue && !s.loadsOut c.ident c.issue

/-- A chain's answered elements leave the suppression caches: its progress has passed them, so no replay resends them, and a
LOOP performs their entry again under the same tag (R227, R228, R394; log entry 22). -/
def State.retirePassed (s : State) (id : CtxId) (c : Chain) : State :=
  if c.unit = 0 then s
  else
    let t := (s.entry id c.entry).tag
    s.purge (fun x => x.src = t && x.chan = c.queue && x.seq = c.seq)

/-- A stopped chain whose context has ended, outside a node: it cannot be resumed, and completes with MEMFAULT (R382). -/
def State.leftStopped (s : State) (pid core : Nat) : Option Chain :=
  (s.core pid core).live.chains.find? (fun c => c.stopped && (s.ctx (c.id pid core)).halted && (s.ctx (c.id pid core)).inst.isNone)

/-- QUILL_PROGRESS (R216): the queues are served round robin, one progress unit at a time. -/
def execQuillProgress (pid core : Nat) (s : State) : Out :=
  let k := s.core pid core
  if k.swap ≠ .running || s.coreDead pid core then .next s
  else match s.leftStopped pid core with
  | some c => .next (s.endChain (c.id pid core) { c with stopped := false } 2 c.reason)
  | none => match (List.range 8).findSome? (fun i =>
      ((s.headChain pid core ((k.quillTurn + i) % 8)).filter (s.servable pid core)).map (fun c => ((k.quillTurn + i) % 8, c))) with
    | none => .next s
    | some (q, c) =>
      .next (((s.updCore pid core (fun k => { k with quillTurn := (q + 1) % 8 })).retirePassed (c.id pid core) c).serve (c.id pid core) c)

/-! ### `cpy` and `cpyq` (R215, R217, R218) -/

/-- Chains of a queue that have been issued and not completed (R216). -/
def State.queueLength (s : State) (q : Nat) : Nat := (s.myCore.live.chains.filter (fun c => c.queue = q)).length

/-- The edges of the issue of a command to the quill (R167, R189): a release by the context and the quill's acquire; ACQ acquires what the
context's reads have heard. A command to another engine has none: those engines' accesses are tracked for no agent (R187, R189). -/
def State.engineEdge (s : State) (acq : Bool) (sc : BitVec 4) : State :=
  let q : Agent := ⟨s.cur.id, true⟩
  let s := s.raceEdge s.meAgent q
  if acq then s.acquireFrom q sc.toNat s.me.heard else s

/-- A command of one in-flight entry: what its issue does (R196). -/
def State.command (s : State) (kind chan : Nat) (target : Word) (k : State → Nat → State) : State :=
  match s.me.freeEntry with
  | none => s.hold
  | some i => k (s.alloc i kind chan 3 target) i

/-- The ticket of entry `i` of the context in hand. -/
def State.ticketOf (s : State) (kind i : Nat) : Word := ticket (s.entry s.cur.id i).seq kind i

/-- A chain as its command's issue latches it (R215). -/
def State.newChain (s : State) (i q head : Nat) (rel : Option (BitVec 4)) : Chain :=
  { ctx := s.cur.id.ctx % 4, entry := i, seq := (s.entry s.cur.id i).seq, queue := q, head := head, off := head,
    bf := s.myCore.live.bf, race := s.me.racedet, sat8 := s.me.sat8,
    sr := Vector.ofFn (fun l => seedState (s.me.seed.setWidth 32) l.val), level := s.me.level,
    part := s.partOfCore s.cur.id.pid s.cur.id.core, ident := s.identOf s.cur.id, issue := s.cur.issue, rel := rel }

/-- The time of a landing copy on an unloaded quill (R217): its source's Lmin, then 256 bytes a cycle (log entry 11). -/
def State.landTime (s : State) (id : CtxId) (c : Chain) : Nat :=
  let h := s.chainUnit id.pid id.core c.off
  let u := s.chainUnit id.pid id.core (c.off + 16)
  let base := match s.resolve (s.chainWho id c) .read (BitVec.ofNat 64 (cSrc u)) 1 with
    | .ok (p :: _) => s.lmin id p.dest
    | _ => 140
  4 + base + (cCount u * hPlen h + 255) / 256

/-- R215, R217. -/
def execCpy (land rel acq : Bool) (sc : BitVec 4) (q : BitVec 3) (gd : GNum) (ea : ANum) (s : State) : Out :=
  let head := spadOff (s.ra ea)
  if head % 16 ≠ 0 then .next (s.memfault 2 false (BitVec.ofNat 64 head))
  else if 16 ≤ s.queueLength q.toNat then .next s.hold
  else match s.me.freeEntry with
    | none => .next s.hold
    | some i =>
      let id := s.cur.id
      let t := (s.alloc i 1 q.toNat 0 (ownVa head)).engineEdge acq sc
      let c := t.newChain i q.toNat head (if rel then some sc else none)
      let c := if land then { c with land := true, undo := some c.before } else c
      let e := s.landTime id c + Config.congestion s.fresh
      let p := promise (s.pkg id.pid).cycle.toNat (s.rg gd).toNat e
      let t := t.updLive id.pid id.core (fun d => { d with chains := d.chains ++ [c] })
      let t := if land then (t.bump.updEntry id i (fun x => { x with
          bnd := BitVec.ofNat 10 s.me.bnd, promised := BitVec.ofNat 64 p, landing := some { vd := none } })) else t
      let t := t.putChain id c
      .next (t.writeG 1 gd (if land then BitVec.ofNat 64 p else ticket c.seq 1 i))

/-- The status word of a ticket (R218, R219). One whose ENTRY and SEQ are an operation's and whose KIND is not is STALE (DESIGN CHOICE, log
entry 111: R218 names no code for it). -/
def Ctx.ticketStatus (c : Ctx) (w : Word) : Word :=
  let e := c.entry (ticketEntry w)
  if ticketBad w then statusWord 0 0 0 9
  else if e.seq ≠ ticketSeq w || e.state = .free || e.kind.toNat ≠ ticketKind w then statusWord 0 0 0 0xA
  else if e.state = .retired then (if ticketKind w = 0 then okStatus else e.status)
  else 0

/-- R218. -/
def execCpyq (gd : GNum) (s : State) : Out :=
  if gd = 0 then .next s.illegalField
  else
    let w := s.rg gd
    let st := s.me.ticketStatus w
    let s := if st.getLsbD 32 && !ticketBad w then s.observe w else s
    .next (s.writeG 2 gd st)

end Sys2Proof.Machine
end

