-- ==== Sys2Proof/Machine/Combiner.lean ====
section
/-! DEFINITION. Switch-die combiners: `cmb.open`, `cmb.close`, contributions, their arithmetic, delivery records; multicast
replication (R150 to R156, R225, R230 to R234, R280, R349, R398). -/

namespace Sys2Proof.Machine

/-! ### Legal control words (R150, R151) -/

/-- Types a float add takes and gives: F32, BF16, and WINDOW in mode EXACT. -/
def sumType (mode t : Nat) : Bool := t < 2 || (mode = 2 && t = 4)
/-- I32 and I64. -/
def intType (t : Nat) : Bool := t = 2 || t = 3

/-- R151: the combinations of MODE, OP, ITYPE and OTYPE. -/
def ctlLegal (c : BitVec 32) : Bool :=
  let (m, op, it, ot) := (ctlMode c, ctlOp c, ctlItype c, ctlOtype c)
  m ≠ 3 && !(m = 1 && 63 < ctlNcon c) &&
  (match op with
   | 0 => (sumType m it && sumType m ot) || (intType it && it = ot)
   | 1 | 2 => it = ot && it < 4
   | 3 | 4 | 5 => intType it && it = ot
   | _ => false)

/-! ### Combining (R117, R152 to R154) -/

/-- Bits of an element as it is combined: BF16 is widened to F32. -/
def widen (it x : Nat) : Nat := if it = 1 then x * 65536 else x
/-- Bits of an integer type. -/
def intBits (it : Nat) : Nat := if it = 2 then 32 else 64
/-- The signed format code of an integer type (R45). -/
def intCode (it : Nat) : Nat := if it = 2 then 10 else 11

/-- Comb(x, y) of R152 and its flags. -/
def comb2 (op it x y : Nat) : Nat × Fl :=
  if it < 2 then
    (if op = 0 then
      let (v, f) := faddX 0 (fdecode (fspec 0) x) (fdecode (fspec 0) y)
      let (r, g) := roundF (fspec 0) false false 0 0 v
      (r, f ||| g)
    else fminmaxBits (fspec 0) (op = 2) false x y)
  else
    let less : Bool := laneInt (intCode it) x (intBits it) < laneInt (intCode it) y (intBits it)
    match op with
    | 0 => ((x + y) % 2 ^ intBits it, 0)
    | 1 => (if less then x else y, 0)
    | 2 => (if less then y else x, 0)
    | 3 => (x &&& y, 0)
    | 4 => (x ||| y, 0)
    | _ => (x ^^^ y, 0)

/-- Comb with ABSENT as `none`. -/
def combine (op it : Nat) (x y : Option Nat) : Option Nat × Fl :=
  match x, y with
  | none, y => (y, 0)
  | x, none => (x, 0)
  | some a, some b => let (r, f) := comb2 op it a b; (some r, f)

/-- The identity of R117, what an ABSENT result delivers. -/
def combIdent (op it : Nat) : Nat :=
  let b := intBits it
  if it < 2 then (match op with
    | 0 => 0x80000000
    | 1 => 0x7F800000
    | _ => 0xFF800000)
  else match op with
    | 1 => 2 ^ (b - 1) - 1
    | 2 => 2 ^ (b - 1)
    | 3 => 2 ^ b - 1
    | _ => 0

/-- ARRIVAL (R153). -/
def foldArrival (op it : Nat) (xs : List Nat) : Option Nat × Fl :=
  xs.foldl (fun (a : Option Nat × Fl) x => let (r, f) := combine op it a.1 (some x); (r, a.2 ||| f)) (none, 0)

/-- One level of the tree of R153. -/
def treeLevel (op it : Nat) : List (Option Nat) → List (Option Nat) × Fl
  | x :: y :: xs =>
    let (r, f) := combine op it x y
    let (rs, g) := treeLevel op it xs
    (r :: rs, f ||| g)
  | xs => (xs, 0)

/-- TREE (R153): `fuel` levels. -/
def foldTree (op it : Nat) : Nat → List (Option Nat) → Option Nat × Fl
  | 0, xs => (xs.headD none, 0)
  | k + 1, xs =>
    let (ys, f) := treeLevel op it xs
    let (r, g) := foldTree op it k ys
    (r, f ||| g)

/-- A window of an EXACT entry (R154). -/
structure Window where
  w : Int := 0
  allnz : Bool := true
  snan : Bool := false
  nan : Bool := false
  ninf : Bool := false
  pinf : Bool := false
deriving DecidableEq, Repr

/-- A window from the 48 bytes of a WINDOW contribution. -/
def windowOf (x : Nat) : Window :=
  { w := (BitVec.ofNat 320 x).toInt, allnz := x.testBit 324, snan := x.testBit 323, nan := x.testBit 322,
    ninf := x.testBit 321, pinf := x.testBit 320 }
/-- A window as 48 bytes. -/
def Window.bits (x : Window) : Nat :=
  (BitVec.ofInt 320 x.w).toNat + (if x.pinf then 2 ^ 320 else 0) + (if x.ninf then 2 ^ 321 else 0)
    + (if x.nan then 2 ^ 322 else 0) + (if x.snan then 2 ^ 323 else 0) + (if x.allnz then 2 ^ 324 else 0)

/-- A contribution applied to a window (R154). -/
def Window.add (a : Window) (it x : Nat) : Window :=
  if it = 4 then
    let b := windowOf x
    { w := (BitVec.ofInt 320 (a.w + b.w)).toInt, allnz := a.allnz && b.allnz, snan := a.snan || b.snan, nan := a.nan || b.nan,
      ninf := a.ninf || b.ninf, pinf := a.pinf || b.pinf }
  else
    let v := fdecode (fspec it) x
    let a := { a with allnz := a.allnz && v.isZero && v.neg }
    match v with
    | .nan s => { a with nan := true, snan := a.snan || s }
    | .inf n => if n then { a with ninf := true } else { a with pinf := true }
    | .fin n m e => { a with w := (BitVec.ofInt 320 (a.w + finInt n m e (-149))).toInt }

/-- What a window delivers in F32 or BF16 (R154). -/
def Window.result (a : Window) (ot : Nat) : Nat × Fl :=
  let sp := fspec ot
  if a.nan then (sp.nanBits, Fl.on a.snan Fl.nv)
  else if a.pinf && a.ninf then (sp.nanBits, Fl.nv)
  else if a.pinf || a.ninf then (sp.signBit a.ninf + sp.infBits, 0)
  else if a.w = 0 then (sp.signBit a.allnz, 0)
  else roundF sp false false 0 0 (ofInt false a.w (-149))

/-- Levels enough for 1,024 ranks. -/
def treeDepth : Nat := 10

/-- One element's result from the contributions applied, in order of application: rank and bits (R152 to R154); the final rounding of a
signalling NaN raises NV (R66, R155). -/
def combElement (c : BitVec 32) (ncon : Nat) (xs : List (Nat × Nat)) : Nat × Fl :=
  let (op, it, ot) := (ctlOp c, ctlItype c, ctlOtype c)
  if ctlMode c = 2 && op = 0 && !intType it then
    let a := xs.foldl (fun (a : Window) x => a.add it x.2) {}
    if ot = 4 then (a.bits, 0) else a.result ot
  else
    let (r, f) := if ctlMode c = 1 then
        foldTree op it treeDepth ((List.range (ncon + 1)).map (fun r => (xs.find? (fun x => x.1 = r)).map (fun x => widen it x.2)))
      else foldArrival op it (xs.map (fun x => widen it x.2))
    let r := r.getD (combIdent op it)
    if intType it then (r, f)
    else
      let v := fdecode (fspec 0) r
      let (b, g) := roundF (fspec ot) false false 0 0 v
      (b, f ||| g ||| Fl.on v.isSnan Fl.nv)

/-- The results of `n` elements, packed, and their flags. -/
def combResult (c : BitVec 32) (ncon n : Nat) (xs : List (Nat × List Byte)) : List Byte × Fl :=
  let z := typeBytes (ctlItype c)
  (List.range n).foldl (fun (a : List Byte × Fl) i =>
    let (r, f) := combElement c ncon (xs.map (fun x => (x.1, bytesAt x.2 (z * i) z)))
    (a.1 ++ leBytes (typeBytes (ctlOtype c)) r, a.2 ||| f)) ([], 0)

/-! ### Delivery (R155, R232, R233, R280) -/

/-- The status word of an entry (R155). -/
def combStatus (e : Comb) (fl : Fl) : Nat :=
  (if e.fmtErr then 1024 else 0) + (if e.rankErr then 512 else 0)
    + (if e.applied.length = ctlNcon e.ctrl + 1 then 0 else 256) + fl.toNat

/-- The delivery record (R232). -/
def combRecord (e : Comb) : List Byte :=
  let (bs, fl) := combResult e.ctrl (ctlNcon e.ctrl) (ctlNelem e.ctrl) (e.applied.map (fun x => (x.rank, x.bytes)))
  leBytes 4 (combStatus e fl) ++ leBytes 4 e.applied.length
    ++ leBytes 128 (e.applied.foldl (fun a x => a + 2 ^ x.rank) 0) ++ leBytes 120 0 ++ bs

/-- In the place of a partition's number: an address given at device level, which is a physical one (R21). -/
def physPart : Nat := 64

/-- Where the records of an entry are written: package, partition and address of its RESULT, and of the RET of each contributor
applied (R233). -/
def Comb.records (e : Comb) : List (Nat × Nat × Nat) :=
  let own : List (Nat × Nat × Nat) := match (if e.device then some physPart else e.part) with
    | some p => if e.result = 0 then [] else [(e.pid, p, e.result.toNat)]
    | none => []
  own ++ e.applied.filterMap (fun x => match x.part with
    | some p => if x.ret = 0 then none else some (x.pid, p, x.ret.toNat)
    | none => none)

/-- A record of entry `n` on its way. -/
def State.sendRecord (s : State) (pid n : Nat) (b : Body) (r : Nat × Nat × Nat) : State :=
  { s.bump with net := s.net ++ [{ src := { dieSrc pid s.fresh with entry := n }, chan := 0, dst := .die r.1, body := b }] }

/-- COMBINER_DELIVERY: the entry delivers once, and is FREE with its last record; its KEY is retired at once (R231, R232, R280, R398).
An entry with no rank applied delivers nothing. -/
def State.deliverComb (s : State) (pid n : Nat) : State :=
  match (s.pkg pid).combs.get n with
  | none => s
  | some e =>
    if e.owed.isSome then s
    else
      let rs := if e.applied = [] then [] else e.records
      let s := rs.foldl (fun s r => s.sendRecord pid n (.deliver r.1 r.2.1 r.2.2 (combRecord e) e.dsc) r) s
      let left : Option Comb := if rs = [] then none else some { e with owed := some rs.length, left := none }
      s.updPkg pid (fun p => { p with combs := p.combs.put n left })

/-- A record of an entry has been written or discarded (R280). -/
def State.recordOver (s : State) (m : Msg) : State :=
  match (s.pkg m.src.id.pid).combs.get m.src.entry with
  | some e => (match e.owed with
    | some k =>
      let left : Option Comb := if k ≤ 1 then none else some { e with owed := some (k - 1) }
      s.updPkg m.src.id.pid (fun p => { p with combs := p.combs.put m.src.entry left })
    | none => s)
  | none => s

/-! ### `cmb.open` and `cmb.close` (R230, R231, R234) -/

/-- A breach of the descriptor's table or of R151. -/
def openBad (d : List Byte) : Bool :=
  bytesAt d 16 16 ≠ 0 || bytesAt d 6 1 ≠ 0 || 8 < bytesAt d 7 1 || (bytesAt d 0 4).testBit 11 || !ctlLegal (BitVec.ofNat 32 (bytesAt d 0 4))

/-- Whether RESULT translates to bytes that the opener may write; at device level it is a physical address (R21, R233). -/
def State.resultOk (s : State) (w : Who) (va n : Nat) : Bool :=
  va + n ≤ 2 ^ 57 &&
  (match s.resolve w .write (BitVec.ofNat 64 va) n with
   | .fault .. => false
   | _ => true)

/-- The lowest free combiner entry. -/
def Pkg.freeComb (p : Pkg) : Option Nat := (List.range 4096).find? (fun n => (p.combs.get n).isNone)
/-- Combiner entries that chunks of collectives hold (R236). -/
def Pkg.collCombs (p : Pkg) (own : Coll → Bool) : Nat := ((p.colls.filter own).map (·.combs)).sum
/-- Combiner entries a partition holds, those of its collectives' chunks among them (R236, R333). -/
def Pkg.combsOf (p : Pkg) (part : Option Nat) : Nat :=
  (p.combs.filter (fun (e : Nat × Comb) => e.2.part = part)).length + p.collCombs (fun c => c.src.part = part)
/-- Combiner entries in use. -/
def Pkg.combsUsed (p : Pkg) : Nat := p.combs.length + p.collCombs (fun _ => true)

/-- Opens an entry, or answers with an OPEN code (R231); `mayWrite`: RESULT as `cmb.open` found it at issue (R233). -/
def State.openComb (s : State) (m : Msg) (d : List Byte) (mayWrite : Bool) : State × Word :=
  let pid := m.src.id.pid
  let p := s.pkg pid
  let ctrl : BitVec 32 := BitVec.ofNat 32 (bytesAt d 0 4)
  let result := bytesAt d 8 8
  if openBad d then (s, 2)
  else if !mayWrite then (s, 3)
  else match m.src.part.bind p.parts.get, p.freeComb with
    | some x, some n =>
      if x.cmbq ≤ p.combsOf m.src.part ∨ 4096 ≤ p.combsUsed then (s, 1)
      else
        let key := Config.combinerKey p.keyDraws
        let tmo := bytesAt d 4 2
        let e : Comb := { key := key, ctrl := ctrl, part := m.src.part, pid := pid, result := BitVec.ofNat 64 result,
                          dsc := BitVec.ofNat 4 (bytesAt d 7 1),
                          left := if tmo = 0 then none else some (tmo * Config.cyclesPerMicrosecond), applied := [],
                          device := m.src.level = .device }
        (s.setPkg pid { p with combs := p.combs.put n (some e), keyDraws := p.keyDraws + 1 },
         BitVec.ofNat 64 (key.toNat * 2 ^ 48 + pid * 2 ^ 38 + n * 2 ^ 26))
    | _, _ => (s, 1)

/-- COMBINER_OPEN (R231): once. -/
def execCombinerOpen (n : Nat) (s : State) : Out :=
  match s.net[n]? with
  | some m =>
    (match m.body with
     | .cmbOpen d ok =>
       if !deliverable s.net n then .next s
       else .next (s.once n (.die m.src.id.pid) m (fun s => let (s, h) := s.openComb m d ok; (s, .ok, some h.toNat)))
     | _ => .next s)
  | none => .next s

/-- R230, R231, R233: RESULT is checked at issue, and the command goes to the package's switch die; its handle is a pending write. -/
def execCmbOpen (_rel _acq : Bool) (_sc : BitVec 4) (gd : GNum) (ea : ANum) (s : State) : Out :=
  s.descr (s.ra ea) 32 (fun s d =>
    .next (s.command 11 0 (ownVa (spadOff (s.ra ea))) (fun t i =>
      let id := s.cur.id
      let result := bytesAt d 8 8
      let ok := result = 0 || s.resultOk (s.whoOf id) result (recordBytes (BitVec.ofNat 32 (bytesAt d 0 4)))
      let t := t.updEntry id i (fun e => { e with gdest := some gd, bytes := d, mayWrite := ok })
      t.send { src := t.srcOf id i, chan := 0, dst := .die id.pid, body := .cmbOpen d ok })))

/-- R234: an entry of the own partition with this KEY delivers at once; any other is left alone. -/
def State.closeComb (s : State) (part : Option Nat) (pid : Nat) (hd : Word) : State :=
  match s.combOf hd with
  | some e => if e.part = part && part.isSome && hdPid hd = pid then s.deliverComb pid (hdEntry hd) else s
  | none => s

/-- R199, R234: the command goes to the package's switch die on channel 0. -/
def execCmbClose (_rel _acq : Bool) (_sc : BitVec 4) (gd : GNum) (s : State) : Out :=
  let hd := s.rg gd
  .next (s.command 5 0 0 (fun t i =>
    let id := s.cur.id
    let t := t.updEntry id i (fun e => { e with bytes := leBytes 8 hd.toNat })
    (t.send { src := t.srcOf id i, chan := 0, dst := .die id.pid, body := .cmbClose hd }).writeG 1 gd (t.ticketOf 5 i)))

/-! ### Contributions (R152, R224, R231) -/

/-- A checked bit of `n` windows is set (R154). -/
def windowsBad (it n : Nat) (bs : List Byte) : Bool :=
  it = 4 && (List.range n).any (fun i => bytesAt bs (48 * i + 40) 8 / 32 ≠ 0)

/-- A contribution's elements do not match the control word (R154, R155). -/
def contribBad (c : BitVec 32) (bs : List Byte) : Bool :=
  bs.length ≠ ctlNelem c * typeBytes (ctlItype c) || windowsBad (ctlItype c) (ctlNelem c) bs

/-- Places a contribution in the order of application: those of one cycle in ascending rank (R153). -/
def insertContrib (x : Contrib) : List Contrib → List Contrib
  | [] => [x]
  | y :: ys => if y.cycle = x.cycle && x.rank < y.rank then x :: y :: ys else y :: insertContrib x ys

/-- A contribution applied to its entry, or discarded with the status bits that apply (R152, R155). -/
def Comb.contribute (e : Comb) (x : Contrib) : Comb :=
  let bad := contribBad e.ctrl x.bytes
  let again := ctlNcon e.ctrl < x.rank || e.applied.any (fun y => y.rank = x.rank)
  if bad || again then { e with fmtErr := e.fmtErr || bad, rankErr := e.rankErr || again }
  else { e with applied := insertContrib x e.applied }

/-- A contribution at its switch die: an entry with every rank applied delivers (R280); one that names no open entry, or another
KEY, is discarded and counted (R224, R231). -/
def State.contribute (s : State) (hd : Word) (x : Contrib) : State × Result × Option Nat :=
  match s.combOf hd with
  | none => (s.count (hdPid hd) keyCounter, .code 0xC 0, none)
  | some e =>
    let e := e.contribute x
    let s := s.updPkg (hdPid hd) (fun p => { p with combs := p.combs.put (hdEntry hd) (some e) })
    (if e.applied.length = ctlNcon e.ctrl + 1 then s.deliverComb (hdPid hd) (hdEntry hd) else s, .ok, none)

/-- COMBINER_CONTRIBUTION (R152, R234): a contribution, or a `cmb.close`, reaches its switch die: once. Two contributions of one core-clock cycle
count as of one cycle of the switch die, whose own clock R16 relates to nothing (R153; DESIGN CHOICE, log entry 97). -/
def execCombinerContribution (n : Nat) (s : State) : Out :=
  match s.net[n]? with
  | some m =>
    (match m.body with
     | .contrib hd rank ret bs =>
       if !deliverable s.net n then .next s
       else .next (s.once n (.die (hdPid hd)) m (fun s =>
         s.contribute hd { rank := rank, cycle := s.now (hdPid hd), ret := ret, pid := m.src.id.pid,
                           part := if m.src.level = .device then some physPart else m.src.part, bytes := bs }))
     | .cmbClose hd =>
       if !deliverable s.net n then .next s
       else .next (s.once n (.die m.dst.pid) m (fun s => (s.closeComb m.src.part m.dst.pid hd, .ok, none)))
     | _ => .next s)
  | none => .next s

/-- COMBINER_TIMER_EXPIRY (R280): the entry delivers what it has. -/
def execCombinerTimerExpiry (pid entry : Nat) (s : State) : Out :=
  match (s.pkg pid).combs.get entry with
  | some e => .next (if e.left = some 0 then s.deliverComb pid entry else s)
  | none => .next s

/-! ### Records at their package (R233) -/

/-- A unit's access made as a write of a partition, through its own translation alone (R233); of a device-level context, at its physical
address (R21, log entry 106). -/
def State.partWrite (s : State) (pid part va n : Nat) : State × Resolved :=
  let core := ((s.part pid part).map (fun x => x.lowestField * 128)).getD 0
  if 2 ^ 57 < va + n then (s, .fault 4 (BitVec.ofNat 64 va))
  else if part = physPart then s.unitAccess { pid := pid, core := core, part := none, level := .device } .write (BitVec.ofNat 64 va) n
  else s.unitAccess { pid := pid, core := core, part := some part, level := .program } .write (BitVec.ofNat 64 va) n

/-- Writes bytes over pieces, as no tracked agent. -/
def State.writeOver (s : State) (ps : List Piece) (bs : List Byte) : State :=
  (ps.foldl (fun (a : State × Nat) p => match p.dest with
    | .phys pid pa => (a.1.physWrite none pid pa (pieceBytes bs a.2 p.len) none, a.2 + p.len)
    | .exposure .. => (a.1, a.2 + p.len)) (s, 0)).1

/-- What an access of some pieces meets: a sealed line, a scratchpad that is being moved, or nothing (R24, R183). -/
def State.lineOver (s : State) (ps : List Piece) : Line :=
  (ps.findSome? (fun p => match p.dest with
    | .phys pid pa =>
      if s.lineAt pid pa p.len ≠ .clear then some (s.lineAt pid pa p.len) else if s.spadBusy pid pa then some .waits else none
    | .exposure .. => none)).getD .clear

/-- A release by a combiner of a package (R162): no agent of a bay. -/
def dieAgent (pid : Nat) : Agent := ⟨⟨pid, 1024, 0⟩, true⟩
/-- The bytes `lo` to `lo + n − 1` of a write over pieces carry a release (R167). -/
def State.markOver (s : State) (a : Agent) (ps : List Piece) (lo n : Nat) (sc : BitVec 4) : State :=
  (ps.foldl (fun (acc : State × Nat) p => match p.dest with
    | .phys pid pa =>
      let b := Nat.max lo acc.2
      let e := Nat.min (lo + n) (acc.2 + p.len)
      (if b < e then acc.1.markRel a (memKey pid (pa + (b - acc.2))) (e - b) (some sc) else acc.1, acc.2 + p.len)
    | .exposure .. => (acc.1, acc.2 + p.len)) (s, 0)).1

/-- A record that cannot be written is discarded with a DELIVERY record (R233, R336). -/
def State.deliverFail (s : State) (n pid part va reason : Nat) : State :=
  let t : State := match s.net[n]? with
    | some m => s.recordOver m
    | none => s
  (t.dropMsg n).post pid part 7 va reason (agentOfField (((s.part pid part).map (·.lowestField)).getD 0))

/-- A record written: bytes 4 to 7 last, as a release at DSC (R232). -/
def State.putRecord (s : State) (pid : Nat) (ps : List Piece) (bs : List Byte) (dsc : BitVec 4) : State :=
  ((s.writeOver ps (bs.take 4 ++ [0, 0, 0, 0] ++ bs.drop 8)).writeOver ps bs).markOver (dieAgent pid) ps 4 4 dsc

/-- DELIVERY_RECORD_ARRIVAL (R232, R233): translated again as a write of its partition; on BLK it waits BLKTMO µs at most (R344), on a
sealed line for the decision, and one that ends undecided is discarded with REASON 10 (R399; log entry 96). -/
def execDeliveryRecordArrival (n : Nat) (s : State) : Out :=
  match s.net[n]? with
  | some m =>
    (match m.body with
     | .deliver pid part va bs dsc =>
       let late (s : State) : Out := .next (s.deliverFail n pid part va 10)
       (match s.partWrite pid part va bs.length with
        | (t, .ok ps) =>
          (match t.lineOver ps with
           | .clear => .next ((((t.recordOver m).dropMsg n).putRecord pid ps bs dsc).unblockAt m pid)
           | .undecided .. => late s
           | .waits => .next s)
        | (t, .fault r _) => .next ((t.deliverFail n pid part va r).unblockAt m pid)
        | (_, .lined (.undecided ..)) => late s
        | (_, .lined _) => .next s
        | (t, .blocked q v) =>
          (match (t.pkg pid).blocked.find? (fun b => b.of m && b.va = v) with
           | some b => .next (if b.expired then (t.deliverFail n pid part va 6).unblockAt m pid else t)
           | none =>
             let left := ((t.part pid q).map (fun x => x.blktmo * Config.cyclesPerMicrosecond)).getD 0
             .next ((t.unblockAt m pid).updPkg pid (fun p => { p with
               blocked := p.blocked ++ [{ id := some m.src.id, chan := m.chan, part := q, va := v, left := left, expired := false }] }))))
     | _ => .next s)
  | none => .next s

/-! ### Multicast (R225, R349) -/

/-- The write of one member: its exposure in the partition of the issuing partition's number (log entry 12), its base and the
packet's offset; a packet that does not lie in the member's region is refused. -/
def mcastMember (m : Msg) (part off : Nat) (bs : List Byte) (x : McMember) : Msg :=
  if off + bs.length ≤ x.len then
    { m with dst := .die x.pid, body := .store (.exposure x.pid part x.exposure (x.base + off)) bs none }
  else { m with body := .resp (.code 8 0) none }

/-- MCAST_REPLICATE (R349): the packet goes to every member of its group, and the chain's acknowledgement becomes theirs. -/
def execMcastReplicate (n : Nat) (s : State) : Out :=
  match s.net[n]? with
  | some m =>
    (match m.body with
     | .mcast g off bs =>
       if !deliverable s.net n then .next s
       else
         let ms := ((s.pkg m.dst.pid).mcast.get g).getD []
         if ms = [] then .next ((s.dropMsg n).reply m (.resp .ok none))
         else .next ((s.morePieces m (ms.length - 1)).replaceMsg n (ms.map (mcastMember m (m.src.part.getD 0) off bs)))
     | _ => .next s)
  | none => .next s

end Sys2Proof.Machine
end

