-- ==== Sys2Proof/Machine/Commit.lean ====
section
/-! DEFINITION. Group commit: `gcommit`, `gabort`, seals, decisions, publication and discard (R182 to R184, R192, R210, R237 to R240,
R278, R279, R348, R399, R415). -/

namespace Sys2Proof.Machine

/-! ### Descriptors (R198, R237) -/

/-- Where a group store's target lies: package and physical address, nothing changed (R209, R338, R346). -/
def State.groupTarget (s : State) (w : Who) (va : Word) : Option (Nat × Nat) :=
  let look (r g : Resolved) : Option Dest :=
    match g, r with
    | .ok (p :: _), _ => some p.dest
    | .blocked .., .ok (p :: _) => some p.dest
    | _, _ => none
  match look (s.resolve w .read va 1) (s.resolve w .group va 1) with
  | some (.phys pid pa) => some (pid, pa)
  | some (.exposure tp tt te off) =>
    (match s.part tp tt with
     | some x =>
       if s.exposureOk tp tt te off 1 (fun p => permAllows p .group) w.pid w.part then
         let va := winBase (x.win (256 + te)) + off
         match look (s.viaTables tp tt .read va 1) (s.viaTables tp tt .group va 1) with
         | some (.phys pid pa) => some (pid, pa)
         | _ => none
       else none
     | none => none)
  | none => none

/-- The line at which an HADDR's translation waits, if a table entry of it stands in a sealed line (R183). -/
def State.haddrLine (s : State) (w : Who) (va : Word) : Line :=
  match s.resolve w .group va 1 with
  | .lined l => l
  | .ok [{ dest := .exposure tp tt te off, .. }] =>
    (match (s.part tp tt).map (fun x => s.viaTables tp tt .group (winBase (x.win (256 + te)) + off) 1) with
     | some (.lined l) => l
     | _ => .clear)
  | _ => .clear

/-- The home an HADDR names, if it is a vault's field or a package's HBM (R237). -/
def State.groupHome (s : State) (w : Who) (va : Word) : Option Home :=
  match s.groupTarget w va with
  | some (pid, pa) => if regionOf pa = some .vault ∨ regionOf pa = some .hbm then some (homeOf pid pa) else none
  | none => none

/-- Fields of the descriptor (R237). -/
def gdNhome (d : List Byte) : Nat := bytesAt d 10 2
def gdGroup (d : List Byte) : Nat := bytesAt d 8 2
def gdEpoch (d : List Byte) : Nat := bytesAt d 12 2
def gdTmo (d : List Byte) : Nat := bytesAt d 14 2
def gdHaddr (d : List Byte) (h : Nat) : Word := BitVec.ofNat 64 (bytesAt d (16 * h + 16) 8)
def gdCount (d : List Byte) (h : Nat) : Nat := bytesAt d (16 * h + 24) 4

/-- Whether the issuing context may name a group (R348). -/
def State.ownsGroupNo (s : State) (id : CtxId) (g : Nat) : Bool :=
  (s.ctx id).level = .device || (match (s.partOfCore id.pid id.core).bind (s.part id.pid) with
    | some x => x.gbase ≤ g && g < x.gbase + x.gcount
    | none => false)

/-- The home of each HADDR. -/
def State.gdHomes (s : State) (w : Who) (d : List Byte) : List (Option Home) :=
  (List.range (gdNhome d)).map (fun h => s.groupHome w (gdHaddr d h))

/-- The first line at which a HADDR's translation waits. -/
def State.gdLine (s : State) (w : Who) (d : List Byte) : Line :=
  (((List.range (gdNhome d)).map (fun h => s.haddrLine w (gdHaddr d h))).find? (· ≠ .clear)).getD .clear

/-- The byte number of the first offending field of a commit's descriptor; `decw` is DECW's physical address where it resolves to the
HBM of the package (R219, R237, R348). -/
def State.gdBad (s : State) (id : CtxId) (d : List Byte) (decw : Option Nat) : Option Nat :=
  let nh := gdNhome d
  let hs := s.gdHomes (s.whoOf id) d
  let sized : Bool := 1 ≤ nh && nh ≤ 64
  let perHome : List (Bool × Nat) := if sized then
      hs.zipIdx.flatMap (fun x =>
        [(x.1.isNone || (hs.take x.2).contains x.1, 16 * x.2 + 16), (bytesAt d (16 * x.2 + 28) 4 ≠ 0, 16 * x.2 + 28)])
    else []
  let head : List (Bool × Nat) := [(decw.isNone, 0), (!s.ownsGroupNo id (gdGroup d), 8), (!sized, 10), (gdTmo d = 0, 14)]
  leastByte (head ++ perHome)

/-! ### The coordinator (R238, R239, R278) -/

def State.commit (s : State) (pid c : Nat) : Option Commit := (s.pkg pid).commits.find? (fun x => x.id = c)
def State.setCommit (s : State) (pid : Nat) (c : Commit) : State :=
  s.updPkg pid (fun p => { p with commits := p.commits.map (fun x => if x.id = c.id then c else x) })
def State.dropCommit (s : State) (pid c : Nat) : State :=
  s.updPkg pid (fun p => { p with commits := p.commits.filter (fun x => x.id ≠ c) })

/-- The answer of a command of the device to its context, kept for a replay of the command (R394, R396). -/
def State.commandEnds (s : State) (src : Src) (r : Result) : State :=
  let m : Msg := { src := src, chan := 0, dst := .die src.id.pid, body := .resp r none }
  let s := s.setCache (.die src.id.pid) (s.cache (.die src.id.pid) ++ [(m.tag, r, none)])
  { s with net := s.net ++ [m] }

/-- A commit or abort is DONE (R278). -/
def State.commitDone (s : State) (pid : Nat) (c : Commit) (code detail : Nat) : State :=
  (s.dropCommit pid c.id).commandEnds c.src (.code code detail)

/-- The decision that a word holds for a GROUP and EPOCH (R238): some true commit, some false abort. A word of that GROUP and EPOCH
whose DEC is 0 or 3, which only software can have written, counts as undecided (DESIGN CHOICE, log entry 107). -/
def decisionOf (w group epoch : Nat) : Option Bool :=
  if w % 2 ^ 32 ≠ group + epoch * 65536 then none
  else match w / 2 ^ 32 % 4 with
    | 1 => some true
    | 2 => some false
    | _ => none

/-- The word of a decision (R238). -/
def decisionWord (group epoch : Nat) (commitIt : Bool) : Nat := (if commitIt then 1 else 2) * 2 ^ 32 + epoch * 65536 + group

/-- The compare-and-swap on DECW: the decision that stands (R238). -/
def State.decideWord (s : State) (pid decw group epoch : Nat) (want : Bool) : State × Bool × Bool :=
  match decisionOf (s.readNat (memKey pid decw) 8) group epoch with
  | some d => (s, d, false)
  | none =>
    ((s.storeBy none (memKey pid decw) (leBytes 8 (decisionWord group epoch want)) none).updPkg pid (fun p =>
      { p with aborts := p.aborts.filter (fun x => x.1 ≠ decw) }), want, true)

/-- Notes that a `gabort` found or wrote abort in a decision word: a `gcommit` of that GROUP and EPOCH ends with ABORT_REQ (R240). -/
def State.noteAbort (s : State) (pid decw group epoch : Nat) : State :=
  s.updPkg pid (fun p => { p with aborts := (decw, group, epoch) :: p.aborts.filter (fun x => x.1 ≠ decw) })

/-- A decision sent to every home of a commit (R239), on channel 0 of its context, whose probes go there from then on (R213). -/
def State.spread (s : State) (pid : Nat) (c : Commit) (d : Bool) : State :=
  let s := { s with net := s.net ++ c.homes.zipIdx.map (fun h =>
      { src := c.src, chan := 0, dst := h.1.1, idx := h.2, body := .decision c.id pid c.group c.epoch d }) }
  match s.locate c.src with
  | none => s
  | some id => s.updCtx id (fun x => c.homes.foldl (fun (x : Ctx) (h : Home × Nat × CHome) => x.addRoute (0, h.1.code)) x)

/-- CODE and DETAIL of a commit (R239): OK; its own failure, where its abort or an earlier commit's stands; ABORT_REQ where a `gabort`
took part in the decision, or where another's abort stands though every home sealed (DEDUCED, log entry 105). -/
def State.commitCode (s : State) (pid : Nat) (c : Commit) (d want mine : Bool) (code detail : Nat) : Nat × Nat :=
  if d then (0, 0)
  else if mine || (!want && !(s.pkg pid).aborts.contains (c.decw, c.group, c.epoch)) then (code, detail)
  else (0x23, 0)

/-- The coordinator decides: the word that stands sets the next state and the CODE (R239, R278). The compare-and-swap waits, and the
coordinator stays DECIDING, while DECW stands in a sealed line (R183), and a commit's while an `ldt` that its context issued before it
has still to read (R170; DESIGN CHOICE, log entry 117). -/
def State.decide (s : State) (pid : Nat) (c : Commit) (want : Bool) (code detail : Nat) : State :=
  if s.lineAt pid c.decw 8 ≠ .clear || (want && s.loadsOut c.src.ident c.src.issue) then
    s.setCommit pid { c with state := .deciding want, code := code, detail := detail }
  else
  let (s, d, mine) := s.decideWord pid c.decw c.group c.epoch want
  let (code, detail) := s.commitCode pid c d want mine code detail
  let c := { c with state := if d then .publishing else .discarding, code := code, detail := detail,
                    left := c.sealtmo * Config.cyclesPerMicrosecond }
  (s.setCommit pid c).spread pid c d

/-- The partition of the package and the virtual address through which DECW is translated (R360). -/
def State.decwVia (s : State) (id : CtxId) (va : Word) : Option (Nat × Nat) :=
  match s.resolve (s.whoOf id) .rmw va 8 with
  | .ok [{ dest := .exposure _ tt te off, .. }] => (s.part id.pid tt).map (fun x => (tt, winBase (x.win (256 + te)) + off))
  | _ => (s.srcOf id 0).via va (.phys 0 0)

/-- Starts a commit: its seals go to every home (R239). -/
def State.startCommit (s : State) (i : Nat) (d : List Byte) (decw : Nat) (homes : List Home) : State :=
  let id := s.cur.id
  let src := s.srcOf id i
  let tmo := gdTmo d * Config.cyclesPerMicrosecond
  let c : Commit :=
    { id := s.fresh, abort := false, src := src, decw := decw, group := gdGroup d, epoch := gdEpoch d, sealtmo := gdTmo d,
      homes := homes.zipIdx.map (fun h => (h.1, gdCount d h.2, .waiting)), state := .sealing, code := 0, detail := 0, left := tmo,
      via := s.decwVia id (BitVec.ofNat 64 (bytesAt d 0 8)) }
  let s := s.bump.updPkg id.pid (fun p => { p with commits := p.commits ++ [c] })
  homes.zipIdx.foldl (fun s h => s.send
    { src := src, chan := 0, dst := h.1, idx := h.2, via := c.via,
      body := .sealMsg c.id id.pid c.group c.epoch (gdCount d h.2) decw tmo }) s

/-- An abort (R240): its decision at once, and a discard to every home, on the context's own routes (R213). -/
def State.startAbort (s : State) (i : Nat) (d : List Byte) (decw : Nat) (homes : List Home) : State :=
  let id := s.cur.id
  let src := s.srcOf id i
  let (s, dec, _) := s.decideWord id.pid decw (gdGroup d) (gdEpoch d) false
  if dec then s.commandEnds src (.code 0x24 0)
  else
    let s := s.noteAbort id.pid decw (gdGroup d) (gdEpoch d)
    let c : Commit :=
      { id := s.fresh, abort := true, src := src, decw := decw, group := gdGroup d, epoch := gdEpoch d, sealtmo := gdTmo d,
        homes := homes.map (fun h => (h, 0, .sealed)), state := .discarding, code := 0x23, detail := 0,
        left := gdTmo d * Config.cyclesPerMicrosecond }
    let s := s.bump.updPkg id.pid (fun p => { p with commits := p.commits ++ [c] })
    homes.zipIdx.foldl (fun s h => s.send
      { src := src, chan := 0, dst := h.1, idx := h.2, body := .decision c.id id.pid c.group c.epoch false }) s

/-- How the coordinator finds DECW (R237). -/
inductive DecwAt where
  | found (s : State) (pa : Nat)
  /-- it is not a word of the issuing package's HBM that the context may read and write -/
  | bad (s : State)
  /-- its page's BLK is set, or a table entry or the word itself stands in a sealed line -/
  | waits (s : State)
  /-- the line is that of an undecided group (R192) -/
  | undecided (group epoch : Nat)

/-- The channel number under which a command's write waits on BLK. -/
def cmdChan : Nat := 17

/-- A command of the context in hand waits on BLK no longer. -/
def State.unblockCmd (s : State) : State := s.updPkg s.cur.id.pid (fun p => { p with
  blocked := p.blocked.filter (fun b => !(b.id = some s.cur.id && b.chan = cmdChan)) })

/-- DECW as the coordinator reaches it: 8 bytes of the issuing package's HBM, through a window too (R237, R346); a page whose BLK is set
holds the command BLKTMO µs at most (R344). -/
def State.decwAt (s : State) (va : Word) : DecwAt :=
  let id := s.cur.id
  if va.toNat % 8 ≠ 0 then .bad s
  else match s.unitAccess (s.whoOf id) .rmw va 8 with
    | (t, .ok [{ dest := .phys pid pa, .. }]) =>
      if pid ≠ id.pid ∨ regionOf pa ≠ some .hbm then .bad t.unblockCmd
      else (match s.lineAt pid pa 8 with
        | .clear => .found t.unblockCmd pa
        | .waits => .waits s.freeze
        | .undecided g e => .undecided g e)
    | (_, .lined .waits) => .waits s.freeze
    | (_, .lined (.undecided g e)) => .undecided g e
    | (_, .blocked part v) =>
      (match (s.pkg id.pid).blocked.find? (fun b => b.id = some id && b.chan = cmdChan && b.part = part && b.va = v) with
       | some b => if b.expired then .bad s.unblockCmd else .waits s.freeze
       | none =>
         let left := ((s.part id.pid part).map (fun x => x.blktmo * Config.cyclesPerMicrosecond)).getD 0
         .waits ((s.unblockCmd.updPkg id.pid (fun p => { p with
           blocked := p.blocked ++ [{ id := some id, chan := cmdChan, part := part, va := v, left := left, expired := false }] })).freeze.holdKeep))
    | (t, _) => .bad t.unblockCmd

/-- A command that the issuing context's translation ends in `UNDECIDED` (R192, R399). -/
def State.commandUndecided (s : State) (group epoch : Nat) : State :=
  s.unblockCmd.raise causeUndecided (undecidedTval group epoch 0)

/-- The common issue of `gcommit` and `gabort` (R198, R237). Where a field of the descriptor offends, nothing that finding DECW did to its
page takes effect (R3). -/
def State.groupCommand (s : State) (abort : Bool) (gd : GNum) (ea : ANum) : Out :=
  let a := s.ra ea
  s.descr a 16 (fun _ h =>
    let n := if 1 ≤ gdNhome h ∧ gdNhome h ≤ 64 then gdNhome h else 0
    s.descr a (16 + 16 * n) (fun s d =>
      let kind := if abort then 7 else 6
      let run (s : State) (go : State → Nat → State) : Out :=
        .next (s.command kind 0 (ownVa (spadOff a)) (fun t i =>
          let tk := t.ticketOf kind i
          (go t i).writeG 1 gd tk))
      let refuse (s : State) (n : Nat) : Out := run s (fun t i => t.commandEnds (t.srcOf t.cur.id i) (.code 1 n))
      if s.me.freeEntry = none then .next s.hold
      else match s.decwAt (BitVec.ofNat 64 (bytesAt d 0 8)) with
        | .waits t => .next t
        | .undecided g e => .next (s.commandUndecided g e)
        | .bad t => refuse t ((t.gdBad t.cur.id d none).getD 0)
        | .found t w =>
          (match t.gdLine (t.whoOf t.cur.id) d with
           | .waits => .next s.freeze
           | .undecided g e => .next (s.commandUndecided g e)
           | .clear =>
             match t.gdBad t.cur.id d (some w) with
             | some b => refuse s.unblockCmd b
             | none => run t (fun t i =>
                 let homes := (t.gdHomes (t.whoOf t.cur.id) d).filterMap (fun x => x)
                 if abort then t.startAbort i d w homes else t.startCommit i d w homes))))

/-- R237 to R239. -/
def execGcommit (_rel _acq : Bool) (_sc : BitVec 4) (gd : GNum) (ea : ANum) (s : State) : Out :=
  s.groupCommand false gd ea
/-- R240. -/
def execGabort (_rel _acq : Bool) (_sc : BitVec 4) (gd : GNum) (ea : ANum) (s : State) : Out :=
  s.groupCommand true gd ea

/-! ### Seals (R239, R279) -/

/-- The record a seal meets: open at its EPOCH, or made open where none or one closed at another EPOCH stands. -/
def sealMeets (r : Option GroupRec) (part epoch : Nat) : Option GroupRec :=
  let fresh : GroupRec := { state := .opened, epoch := epoch, part := part, units := [] }
  match r with
  | none => some fresh
  | some g =>
    match g.state with
    | .opened => if g.epoch = epoch && g.sealReq.isNone then some g else none
    | .sealed => none
    | .published | .discarded => if g.epoch = epoch then none else some fresh

/-- HOME_SEAL (R239): the home seals, fails its seal, or waits for more units. -/
def execHomeSeal (n : Nat) (s : State) : Out :=
  match s.net[n]? with
  | some m =>
    (match m.body with
     | .sealMsg commit cpid group epoch count decw tmo =>
       if !deliverable s.net n || s.homeLost m.dst then .next s
       else
         let pid := m.dst.pid
         let k := groupKey (m.dst.code % 16) group
         let t := s.dropMsg n
         (match (if (s.pkg pid).features.getLsbD 0 then sealMeets ((s.pkg pid).groups.get k) (m.src.part.getD 64) epoch else none) with
          | none => .next (t.sendDie pid (.die cpid) (.sealed commit m.idx (some 0x20)))
          | some g =>
            .next ((t.setGroup pid k { g with
              sealReq := some { cpid := cpid, commit := commit, idx := m.idx, count := count, decw := decw,
                                left := tmo, tmo := tmo, via := m.via } }).sealCheck pid k))
     | _ => .next s)
  | none => .next s

/-- HOME_SEAL_TIMEOUT (R239): the units have not reached COUNT when SEALTMO passes. -/
def execHomeSealTimeout (pid group : Nat) (s : State) : Out :=
  match (s.pkg pid).groups.get group with
  | some g =>
    (match g.state, g.sealReq with
     | .opened, some q =>
      .next (if q.left = 0 && !s.homeLost (homeOfCode (pid * 16 + group / 65536)) then s.sealEnds pid group g q (some 0x20) else s)
     | _, _ => .next s)
  | none => .next s

/-! ### The decision (R239, R278) -/

/-- Answers of a commit's homes that have come back over a route, oldest first (R350, R351). -/
def State.sealedOf (s : State) (pid c : Nat) : List (Nat × Option Nat) :=
  s.net.filterMap (fun m => match m.body with
    | .sealed x h bad => if x = c && m.dst = .die pid && s.route m.src.id.pid pid then some (h, bad) else none
    | _ => none)

/-- A home of a commit that cannot seal any more: no route leads there, or its field is lost (R239, R399, R401). -/
def State.sealCut (s : State) (pid : Nat) (c : Commit) : Option (Nat × Option Nat) :=
  ((c.homes.zipIdx.find? (fun h => h.1.2.2 = .waiting && (s.homeLost h.1.1 || !s.route pid h.1.1.pid))).map
    (fun h => (h.2, some 0x22)))

/-- Takes a commit's answers out of the fabric. -/
def State.dropSealed (s : State) (pid c : Nat) : State :=
  { s with net := s.net.filter (fun m => match m.body with
      | .sealed x _ _ => !(x = c && m.dst = .die pid)
      | _ => true) }

/-- A home's standing after its answer. -/
def Commit.heard (c : Commit) (a : Nat × Option Nat) : Commit :=
  { c with homes := c.homes.zipIdx.map (fun h =>
      if h.2 = a.1 then (h.1.1, h.1.2.1, match a.2 with
        | none => .sealed
        | some k => .failed k)
      else h.1) }

/-- COMMIT_DECIDE (R278): every home has sealed, or one has failed or can no longer seal: the first failure heard sets the CODE. A
coordinator that is DECIDING tries its compare-and-swap again. -/
def execCommitDecide (pid commit : Nat) (s : State) : Out :=
  let as := s.sealedOf pid commit
  let t := s.dropSealed pid commit
  match s.commit pid commit with
  | none => .next t
  | some c =>
    match c.state with
    | .publishing | .discarding => .next t
    | .deciding want => .next (t.decide pid c want c.code c.detail)
    | .sealing =>
      let c := as.foldl Commit.heard c
      match (as.find? (fun a => a.2.isSome)).orElse (fun _ => s.sealCut pid c) with
      | some (h, bad) => .next ((t.setCommit pid c).decide pid c false (bad.getD 0x20) h)
      | none =>
        if c.homes.all (fun h => h.2.2 = .sealed) then .next ((t.setCommit pid c).decide pid c true 0 0)
        else .next (t.setCommit pid c)

/-- COMMIT_SEAL_TIMEOUT (R278): SEALTMO passes while the coordinator is SEALING. -/
def execCommitSealTimeout (pid commit : Nat) (s : State) : Out :=
  match s.commit pid commit with
  | some c =>
    if c.state = .sealing && c.left = 0 then
      .next (s.decide pid c false 0x20 ((c.homes.zipIdx.find? (fun h => h.1.2.2 ≠ .sealed)).map (·.2) |>.getD 0))
    else .next s
  | none => .next s

/-! ### Decisions at the homes (R183, R279, R399) -/

/-- Staged bytes as runs of adjacent memory. -/
def byteRuns : List (Nat × Byte) → List (Nat × List Byte)
  | [] => []
  | (k, b) :: cs => match byteRuns cs with
    | [] => [(k, [b])]
    | (j, bs) :: rs => if j = k + 1 then (k, b :: bs) :: rs else (k, [b]) :: (j, bs) :: rs

/-- A published run, with the release its unit carries (R167). -/
def State.publishRun (s : State) (rel : Option (CtxId × Nat)) (r : Nat × List Byte) : State :=
  let s := s.storeBy none r.1 r.2 none
  match rel with
  | some (a, sc) => { s with rels := s.rels ++ [{ key := r.1, len := r.2.length, agent := a, quill := false, scope := sc }] }
  | none => s

/-- An uncorrectable unit of memory. -/
def State.markBad (s : State) (k n : Nat) : State := if s.bad.contains (k, n) then s else { s with bad := s.bad ++ [(k, n)] }
/-- The unit of protection that a byte lies in becomes uncorrectable: 32 bytes in HBM, else 8 (R377). -/
def State.markUnit (s : State) (k : Nat) : State :=
  if regionOf (keyPa k) = some .hbm then s.markBad (k / 32 * 32) 32 else s.markBad (k / 8 * 8) 8

/-- A unit's bytes are published; staged units that were uncorrectable stay so where they come to stand (R377). -/
def State.publishUnit (s : State) (u : WriteUnit) : State :=
  u.bad.foldl (fun s k => s.markUnit k) ((byteRuns u.cells).foldl (fun s r => s.publishRun u.rel r) s)

/-- Publication: every staged byte of a group at one home in one step, in the order of arrival, as an untracked agent; bytes that the
group does not write stay (R182, R183, R189). -/
def State.publish (s : State) (us : List WriteUnit) : State := us.foldl (fun s u => s.publishUnit u) s

/-- A home applies a decision for a GROUP and EPOCH of a partition (R240, R279): a home that holds the group open or sealed at another
EPOCH leaves it alone; where it holds no record of a discarded EPOCH, a closed one stands from then on (R210). -/
def State.applyDecision (s : State) (pid k part epoch : Nat) (d : Bool) : State :=
  let closed : GroupRec := { state := .discarded, epoch := epoch, part := part, units := [] }
  match (s.pkg pid).groups.get k with
  | some g =>
    if g.epoch ≠ epoch then
      (if d || g.state = .opened || g.state = .sealed then s else s.setGroup pid k closed)
    else match g.state with
      | .opened => s.setGroup pid k (g.close .discarded)
      | .sealed => if d then (s.publish g.units).setGroup pid k (g.close .published) else s.setGroup pid k (g.close .discarded)
      | _ => s
  | none => if d then s else s.setGroup pid k closed

/-- HOME_DECISION (R279): publishes or discards, and acknowledges. -/
def execHomeDecision (n : Nat) (s : State) : Out :=
  match s.net[n]? with
  | some m =>
    (match m.body with
     | .decision commit cpid group epoch d =>
       if !deliverable s.net n || s.homeLost m.dst then .next s
       else
         .next (((s.dropMsg n).applyDecision m.dst.pid (groupKey (m.dst.code % 16) group) (m.src.part.getD 64) epoch d).sendDie m.dst.pid (.die cpid)
           (.decided commit m.idx))
     | _ => .next s)
  | none => .next s

/-- HOME_DECISION_TIMEOUT (R279, R399): a sealed home reads DECW, and repeats; two unreachable attempts in a row make its lines
`UNDECIDED`. -/
def execHomeDecisionTimeout (pid group : Nat) (s : State) : Out :=
  match (s.pkg pid).groups.get group with
  | some g =>
    (match g.state, g.sealReq with
     | .sealed, some q =>
       if g.left ≠ 0 then .next s
       else if s.route pid q.cpid && s.lineAt q.cpid q.decw 8 = .clear then
         (match decisionOf (s.readNat (memKey q.cpid q.decw) 8) (group % 65536) g.epoch with
          | some d => .next (s.applyDecision pid group g.part g.epoch d)
          | none => .next (s.setGroup pid group { g with left := q.tmo, attempts := 0 }))
       else .next (s.setGroup pid group { g with left := q.tmo, attempts := g.attempts + 1, undecided := g.undecided || 2 ≤ g.attempts })
     | _, _ => .next s)
  | none => .next s

/-! ### Acknowledgements (R239, R240, R278) -/

/-- Homes of a commit whose acknowledgement has come back. -/
def State.decidedOf (s : State) (pid c : Nat) : List Nat :=
  s.net.filterMap (fun m => match m.body with
    | .decided x h => if x = c && m.dst = .die pid && s.route m.src.id.pid pid then some h else none
    | _ => none)
def State.dropDecided (s : State) (pid c : Nat) : State :=
  { s with net := s.net.filter (fun m => match m.body with
      | .decided x _ => !(x = c && m.dst = .die pid)
      | _ => true) }

/-- COMMIT_ACKNOWLEDGED (R278): every home has acknowledged: OK, or the abort CODE. -/
def execCommitAcknowledged (pid commit : Nat) (s : State) : Out :=
  let hs := s.decidedOf pid commit
  let t := s.dropDecided pid commit
  match s.commit pid commit with
  | none => .next t
  | some c =>
    let c := { c with homes := c.homes.zipIdx.map (fun h => if hs.contains h.2 then (h.1.1, h.1.2.1, .acked) else h.1) }
    if (c.state = .publishing || c.state = .discarding) && c.homes.all (fun h => h.2.2 = .acked) then .next (t.commitDone pid c c.code c.detail)
    else .next (t.setCommit pid c)

/-- COMMIT_ACK_TIMEOUT (R278): COMMIT_LATE with the first home that has not acknowledged, or the abort CODE. -/
def execCommitAckTimeout (pid commit : Nat) (s : State) : Out :=
  match s.commit pid commit with
  | some c =>
    if c.left ≠ 0 then .next s
    else match c.state with
      | .sealing | .deciding _ => .next s
      | .publishing =>
        .next (s.commitDone pid c 0x25 ((c.homes.zipIdx.find? (fun h => h.1.2.2 ≠ .acked)).map (·.2) |>.getD 0))
      | .discarding => .next (s.commitDone pid c c.code c.detail)
  | none => .next s

end Sys2Proof.Machine
end

