-- ==== Sys2Proof/Machine/Coll.lean ====
section
/-! DEFINITION. The collective engine, the histogram unit and `snap` (R235, R236, R282, R312 to R314, R364). -/

namespace Sys2Proof.Machine

/-! ### Descriptors of `coll` (R235, R236) -/

def cdTmo (d : List Byte) : Nat := bytesAt d 38 2
def cdNr (d : List Byte) : Nat := bytesAt d 36 2
def cdRlist (d : List Byte) : Nat := bytesAt d 32 4
def cdRoot (d : List Byte) : Nat := bytesAt d 30 2
def cdRank (d : List Byte) : Nat := bytesAt d 28 2
def cdOpk (d : List Byte) : Nat := bytesAt d 26 1
def cdChunk (d : List Byte) : Nat := bytesAt d 24 2
def cdCount (d : List Byte) : Nat := bytesAt d 20 4
def cdCtrl (d : List Byte) : BitVec 32 := BitVec.ofNat 32 (bytesAt d 16 4)
def cdDbuf (d : List Byte) : Nat := bytesAt d 8 8
def cdSbuf (d : List Byte) : Nat := bytesAt d 0 8

/-- All-reduce, reduce-scatter and reduce: the operations that combine. -/
def reducing (opk : Nat) : Bool := opk = 0 || opk = 1 || opk = 5

/-- CTRL's check (R150, R151, R235): a TREE of more than 64 ranks is formed in two levels. -/
def collCtrlOk (d : List Byte) : Bool :=
  let c := cdCtrl d
  if reducing (cdOpk d) then
    ctlNcon c + 1 = cdNr d && ctlNelem c = cdChunk d && !c.getLsbD 11 &&
    ctlLegal (if ctlMode c = 1 then c &&& ~~~0x003FF000 else c)
  else ctlItype c < 5 && c &&& ~~~0x000000E0 = 0

/-- The byte number of the first offending field (R219, R235, R236), the rank words given; a rank word's reserved bit counts with the
field RLIST that names it, byte 32 (DESIGN CHOICE, log entry 94). -/
def collBad (d : List Byte) (ranks : List Nat) : Option Nat :=
  let nr := cdNr d
  leastByte
    ([(!collCtrlOk d, 16), (cdCount d = 0 || ((cdOpk d = 1 || cdOpk d = 4) && cdCount d % nr ≠ 0), 20),
      (cdChunk d = 0 || 1024 < cdChunk d, 24), (5 < cdOpk d, 26), (bytesAt d 27 1 ≠ 0, 27), (nr ≤ cdRank d, 28),
      (nr ≤ cdRoot d, 30), (0x100000 < cdRlist d + 4 * nr || ranks.any (fun r => r / 2 ^ 13 ≠ 0), 32),
      (nr < 2 || 1024 < nr, 36), (bytesAt d 40 24 ≠ 0, 40)] : List (Bool × Nat))

/-- Package and field of a rank word (R235). -/
def rankPlace (r : Nat) : Nat × Nat := (r % 1024, r / 1024 % 8)

/-- R235: the descriptor is read at issue, and its rank words with it (DESIGN CHOICE, log entry 94); a breach, or a reducing
collective in a partition whose quota is below 2, is over at once (R236). -/
def execColl (_rel _acq : Bool) (_sc : BitVec 4) (q : BitVec 3) (gd : GNum) (ea : ANum) (s : State) : Out :=
  s.descr (s.ra ea) 64 (fun s d =>
    .next (s.command 4 (8 + q.toNat) (ownVa (spadOff (s.ra ea))) (fun t i =>
      let id := t.cur.id
      let n := if cdNr d ≤ 1024 ∧ cdRlist d + 4 * cdNr d ≤ 0x100000 then cdNr d else 0
      let ranks := (List.range n).map (fun r => t.readNat (spadKey id.pid id.core (cdRlist d + 4 * r)) 4)
      let quota := ((t.partOfCore id.pid id.core).bind (t.part id.pid)).map (fun x => x.cmbq)
      let endsAs : Option (Nat × Nat) := match collBad d ranks with
        | some b => some (1, b)
        | none => if reducing (cdOpk d) && quota.getD 0 < 2 then some (1, 0xFFFE) else none
      let c : Coll := { id := t.fresh, src := t.srcOf id i, queue := q.toNat, field := fieldOf id.core, desc := d, ranks := ranks,
                        done := endsAs }
      (t.bump.updPkg id.pid (fun p => { p with colls := p.colls ++ [c] })).writeG 1 gd (t.ticketOf 4 i))))

/-! ### The engines (R236, R282) -/

def State.coll (s : State) (pid n : Nat) : Option Coll := (s.pkg pid).colls.find? (fun c => c.id = n)
def State.setColl (s : State) (pid : Nat) (c : Coll) : State :=
  s.updPkg pid (fun p => { p with colls := p.colls.map (fun x => if x.id = c.id then c else x) })

/-- The collective that waits for comparison at a rank: the oldest of its field, queue, partition and rank (log entry 13). -/
def State.collAt (s : State) (c : Coll) (r word : Nat) : Option (Nat × Coll) :=
  let (pid, f) := rankPlace word
  ((s.pkg pid).colls.find? (fun x => x.field = f && x.queue = c.queue && x.src.part = c.src.part && x.group.isNone && x.done.isNone &&
    cdRank x.desc = r)).map (fun x => (pid, x))

/-- Two descriptors that every rank must give alike (R236). -/
def collSame (a b : Coll) : Bool :=
  cdOpk a.desc = cdOpk b.desc && cdCtrl a.desc = cdCtrl b.desc && cdCount a.desc = cdCount b.desc &&
  cdChunk a.desc = cdChunk b.desc && cdNr a.desc = cdNr b.desc && cdRoot a.desc = cdRoot b.desc && a.ranks = b.ranks

/-- COLL_DESCRIPTOR_COMPARE (R236): once every rank has submitted, the descriptors are compared. -/
def execCollDescriptorCompare (pid coll : Nat) (s : State) : Out :=
  match s.coll pid coll with
  | none => .next s
  | some c =>
    if c.group.isSome || c.done.isSome then .next s
    else
      let xs := c.ranks.zipIdx.map (fun r => s.collAt c r.2 r.1)
      if xs.any (·.isNone) then .next s
      else
        let xs := xs.filterMap (fun x => x)
        let same := xs.all (fun x => collSame c x.2)
        .next (xs.foldl (fun s x => s.setColl x.1
          (if same then { x.2 with group := some s.fresh } else { x.2 with done := some (1, 0xFFFF) })) s).bump
  
/-- The ranks of a collective that are still under way, with their packages, in ascending rank (R153: contributions of one cycle are
applied so). -/
def State.collMembers (s : State) (g : Nat) : List (Nat × Coll) :=
  let ms := s.pkgs.flatMap (fun (p : Nat × Pkg) =>
    (p.2.colls.filter (fun c => c.group = some g && c.done.isNone)).map (fun c => (p.1, c)))
  (List.range 1024).filterMap (fun r => ms.find? (fun m => cdRank m.2.desc = r))

/-- The accessor of a rank: its context, as the quill would be (R215). -/
def Coll.asChain (c : Coll) (id : CtxId) (core : CoreData) : Chain :=
  { ctx := id.ctx, entry := c.src.entry, seq := c.src.seq, queue := 0, head := 0, off := 0, bf := core.bf, race := 0, sat8 := false,
    sr := Vector.replicate 256 0, level := c.src.level, part := c.src.part, ident := c.src.ident, issue := c.src.issue, rel := none }

/-- Where a rank stands for an access of a chunk. -/
inductive CollAt where
  | lost
  | waits
  | here (id : CtxId)
deriving DecidableEq, Repr

/-- The rank's context, or for a parked one its place: a chunk that reads or writes its scratchpad waits for its restore (R273); a
lost field (R401), or one that no route joins to the leading rank's package (R351), takes no part. -/
def State.collHere (s : State) (lead pid : Nat) (c : Coll) (va : Nat) : CollAt :=
  if ((s.pkg pid).field c.field).lost || !s.route lead pid then .lost
  else match s.locate c.src with
    | some id => if (s.ctx id).storesOut c.src.issue || s.loadsOut c.src.ident c.src.issue then .waits else .here id
    | none => if va / 2 ^ 28 = 0xFFFFFFFFF then .waits else .here c.src.id

/-- What a chunk's read gives at a rank. -/
inductive Part' where
  | bytes (bs : List Byte)
  | absent
  | waits
  | fails (code detail : Nat)
deriving DecidableEq, Repr

/-- The elements of a chunk: first index and number (R235). -/
def chunkSpan (d : List Byte) (k : Nat) : Nat × Nat :=
  let i := k * cdChunk d
  (i, Nat.min (cdChunk d) (cdCount d - i))

/-- A rank's source elements of a chunk. Windows with a checked bit set are discarded (R3, R154, R155). An access that ends in UNDECIDED
ends the collective there, as a record's does (R192, R399; log entry 96). -/
def State.collRead (s : State) (lead pid : Nat) (c : Coll) (k : Nat) : State × Part' :=
  match s.collHere lead pid c (cdSbuf c.desc) with
  | .lost => (s, .absent)
  | .waits => (s, .waits)
  | .here id =>
    let z := typeBytes (ctlItype (cdCtrl c.desc))
    let (i, n) := chunkSpan c.desc k
    match s.chainRead id (c.asChain id (s.core id.pid id.core).live) (BitVec.ofNat 64 (cdSbuf c.desc + i * z)) (n * z) with
    | (s, .ok bs) => (s, if reducing (cdOpk c.desc) && windowsBad (ctlItype (cdCtrl c.desc)) n bs then .absent else .bytes bs)
    | (s, .error .waits) | (s, .error (.blocked ..)) => (s, .waits)
    | (s, .error (.fault r _ _)) => (s, .fails 2 r)
    | (s, .error (.code a d)) => (s, .fails a d)

/-- Which ranks a chunk reads (R236). -/
def collReads (d : List Byte) (r : Nat) : Bool := cdOpk d ≠ 3 || r = cdRoot d

/-- What a chunk writes at rank m, as element index and bytes: `red` the combined elements, `xs` the source elements by rank
(R236). -/
def collWrites (d : List Byte) (k m : Nat) (red : List Byte) (xs : List (Nat × List Byte)) : List (Nat × List Byte) :=
  let (i, n) := chunkSpan d k
  let zi := typeBytes (ctlItype (cdCtrl d))
  let zo := typeBytes (ctlOtype (cdCtrl d))
  let part := cdCount d / cdNr d
  let lo := Nat.max i (m * part)
  let hi := Nat.min (i + n) ((m + 1) * part)
  let own (z : Nat) (bs : List Byte) : List Byte := pieceBytes bs ((lo - i) * z) ((hi - lo) * z)
  match cdOpk d with
  | 0 => [(i, red)]
  | 1 => if lo < hi then [(lo - m * part, own zo red)] else []
  | 2 => xs.map (fun x => (x.1 * cdCount d + i, x.2))
  | 3 => xs.map (fun x => (i, x.2))
  | 4 => if lo < hi then xs.map (fun x => (x.1 * part + (lo - m * part), own zi x.2)) else []
  | _ => if m = cdRoot d then [(i, red)] else []

/-- A rank's writes as an accessor. -/
def Coll.who (c : Coll) (s : State) (id : CtxId) : Who :=
  { pid := id.pid, core := id.core, part := c.src.part, level := c.src.level, agent := some id, slot := s.replaySlot id }

/-- The channel number under which a rank's write that meets BLK is kept. -/
def Coll.blockChan (c : Coll) : Nat := 1024 + c.id

/-- The package whose page an access that meets BLK waits for: that of the first window it crosses, else the rank's own. -/
def State.blockedPkg (s : State) (w : Who) (va : Word) (n : Nat) : Nat :=
  match (s.access w .write va n).2 with
  | .ok ps => (ps.findSome? (fun p => match p.dest with
    | .exposure tpid .. => some tpid
    | .phys .. => none)).getD w.pid
  | _ => w.pid

/-- What a rank's write of a chunk comes to. -/
inductive CollWritten where
  | wrote
  /-- CODE and DETAIL that end the collective there -/
  | ends (code detail : Nat)
  | waits
deriving DecidableEq, Repr

/-- A rank's write that meets BLK waits, BLKTMO µs at most, and then stops with PERM (R344). -/
def State.collBlocked (s : State) (id : CtxId) (c : Coll) (tpid part va : Nat) : State × CollWritten :=
  match (s.pkg tpid).blocked.find? (fun b => b.id = some id && b.chan = c.blockChan && b.part = part && b.va = va) with
  | some b => if b.expired then (s, .ends 2 6) else (s, .waits)
  | none =>
    let left := ((s.part tpid part).map (fun x => x.blktmo * Config.cyclesPerMicrosecond)).getD 0
    (s.updPkg tpid (fun p => { p with
      blocked := p.blocked ++ [{ id := some id, chan := c.blockChan, part := part, va := va, left := left, expired := false }] }), .waits)

/-- A collective's write no longer waits for a page. -/
def State.unblockColl (s : State) (id : CtxId) (c : Coll) : State :=
  { s with pkgs := s.pkgs.map (fun (x : Nat × Pkg) => (x.1, { x.2 with
    blocked := x.2.blocked.filter (fun b => b.id ≠ some id || b.chan ≠ c.blockChan) })) }

/-- Writes a rank's elements at DBUF, as it finds the pages and the lines (R183, R192, R344). -/
def State.collWrite (s : State) (id : CtxId) (c : Coll) (ws : List (Nat × List Byte)) : State × CollWritten :=
  let z := typeBytes (if reducing (cdOpk c.desc) then ctlOtype (cdCtrl c.desc) else ctlItype (cdCtrl c.desc))
  ws.foldl (fun (r : State × CollWritten) w =>
    if r.2 ≠ .wrote ∨ w.2 = [] then r
    else
      let va := BitVec.ofNat 64 (cdDbuf c.desc + w.1 * z)
      match r.1.unitAccess (c.who r.1 id) .write va w.2.length with
      | (t, .ok ps) =>
        if ps.any (fun p => t.homeLost p.dest.home) then (t, .ends 8 0)
        else (match t.lineOver ps with
          | .clear => (t.writeOver ps w.2, .wrote)
          | .undecided .. => (t, .ends 2 10)
          | .waits => (t, .waits))
      | (t, .fault e _) => (t, if e = 7 then .ends 8 0 else .ends 2 e)
      | (t, .lined (.undecided ..)) => (t, .ends 2 10)
      | (t, .lined _) => (t, .waits)
      | (t, .blocked q v) => t.collBlocked id c (r.1.blockedPkg (c.who r.1 id) va w.2.length) q v) (s, .wrote)

/-- Combiner entries a chunk needs (R236): none where nothing is combined, two for a tree of more than 64 ranks. -/
def collEntries (d : List Byte) : Nat :=
  if !reducing (cdOpk d) then 0 else if ctlMode (cdCtrl d) = 1 && 64 < cdNr d then 2 else 1

/-- Whether free combiner entries stand within the partition's quota (R236). -/
def State.collRoom (s : State) (pid : Nat) (c : Coll) : Bool :=
  let p := s.pkg pid
  let need := collEntries c.desc
  need = 0 || (match c.src.part.bind p.parts.get with
    | some x => p.combsOf c.src.part + need ≤ x.cmbq && p.combsUsed + need ≤ 4096
    | none => false)

/-- The ranks' reads of a chunk, in ascending rank: bytes by rank. One that waits gives nothing yet; one whose read fails is over. -/
def State.collGather (s : State) (lead k : Nat) (ms : List (Nat × Coll)) : State × List (Nat × List Byte) :=
  ms.foldl (fun (a : State × List (Nat × List Byte)) m =>
    if !collReads m.2.desc (cdRank m.2.desc) then a
    else match a.1.collRead lead m.1 m.2 k with
      | (s, .bytes bs) => (s, a.2 ++ [(cdRank m.2.desc, bs)])
      | (s, .absent) | (s, .waits) => (s, a.2)
      | (s, .fails c d) => (s.setColl m.1 { m.2 with done := some (c, d) }, a.2)) (s, [])

/-- A rank after a chunk: its next one or its end (R236); the engine of its field has served its queue. -/
def State.collNext (s : State) (pid : Nat) (c : Coll) (k : Nat) (part : Bool) (bad : Option (Nat × Nat)) : State :=
  let p := c.partialAt.or (if part then some k else none)
  (s.setColl pid { c with
    chunk := k + 1, left := none, combs := 0, cut := none, served := s.fresh, partialAt := p,
    done := bad.or (if cdCount c.desc ≤ (k + 1) * cdChunk c.desc then some (match p with
      | some j => (0xB, j)
      | none => (0, 0)) else none) }).updField pid c.field (fun f => { f with collTurn := c.queue })

/-- A rank's end of a chunk: its elements written. False: it waits. -/
def State.collRankEnd (s : State) (lead k : Nat) (xs : List (Nat × List Byte)) (part : Bool) (m : Nat × Coll) : State × Bool :=
  let d := m.2.desc
  let red := if reducing (cdOpk d) then (combResult (cdCtrl d) (cdNr d - 1) (chunkSpan d k).2 xs).1 else []
  match s.collHere lead m.1 m.2 (cdDbuf d) with
  | .lost => (s, true)
  | .waits => (s, false)
  | .here id =>
    match s.collWrite id m.2 (collWrites d k (cdRank d) red xs) with
    | (t, .wrote) => ((t.unblockColl id m.2).collNext m.1 m.2 k part none, true)
    | (t, .ends a b) => ((t.unblockColl id m.2).collNext m.1 m.2 k part (some (a, b)), true)
    | (t, .waits) => (t, false)

/-- The end of a chunk at one rank. Where it waits, nothing is written there yet; the wait is kept. -/
def State.collTry (s : State) (lead k : Nat) (xs : List (Nat × List Byte)) (part : Bool) (m : Nat × Coll) : State × Bool :=
  match s.collRankEnd lead k xs part m with
  | (t, true) => (t, true)
  | (t, false) => ({ s with pkgs := s.pkgs.map (fun (x : Nat × Pkg) => (x.1, { x.2 with blocked := (t.pkg x.1).blocked })) }, false)

/-- The end of a chunk, its elements gathered: each rank's are written as soon as they can be, the leading rank's last, with which the
chunk's entries are free (R236, R280). Whether a rank has moved. -/
def State.collEndChunk (s : State) (lead g k : Nat) (xs : List (Nat × List Byte)) (part : Bool) : State × Bool :=
  let ms := (s.collMembers g).filter (fun m => m.2.chunk = k)
  let (t, moved, all) := (ms.drop 1).foldl (fun (a : State × Bool × Bool) m =>
    let (t, ok) := a.1.collTry lead k xs part m
    (t, a.2.1 || ok, a.2.2 && ok)) (s, false, true)
  match ms.head?, all with
  | some m, true =>
    let (t, ok) := t.collTry lead k xs part m
    (if ok then t.bump else t, moved || ok)
  | _, _ => (t, moved)

/-- A collective whose chunk in hand holds the combiner entries it needs, its timer started; none: it waits for them (R236, R280). -/
def State.collTake (s : State) (pid : Nat) (c : Coll) : Option Coll :=
  if collEntries c.desc ≤ c.combs then some c
  else if s.collRoom pid c then
    some { c with combs := collEntries c.desc,
                  left := if cdTmo c.desc = 0 then none else some (cdTmo c.desc * Config.cyclesPerMicrosecond) }
  else none

/-- One chunk of a collective, and whether it moved (R236, R282). A chunk that combines, and lacks ranks' elements when the timer has run,
is delivered partial (R155, R280): what it lacks then it never takes. Without a timer it waits, and ends with REMOTE once a rank is over
(log entry 13). -/
def State.collMove (s : State) (pid : Nat) (c : Coll) (g : Nat) : State × Bool :=
  let need := if cdOpk c.desc = 3 then 1 else cdNr c.desc
  let lacks (xs : List (Nat × List Byte)) : Bool := xs.length < need
  match s.collTake pid c, c.cut with
  | none, _ => (s, false)
  | some c, some xs => (s.setColl pid c).collEndChunk pid g c.chunk xs (lacks xs)
  | some c, none =>
    let (t, xs) := (s.setColl pid c).collGather pid c.chunk (s.collMembers g)
    let cut (t : State) : State × Bool :=
      let t := t.updPkg pid (fun p => { p with colls := p.colls.map (fun x => if x.id = c.id then { x with cut := some xs } else x) })
      ((t.collEndChunk pid g c.chunk xs (lacks xs)).1, true)
    if xs.length = need then cut t
    else if !reducing (cdOpk c.desc) ∨ cdTmo c.desc = 0 then
      if (t.collMembers g).length < cdNr c.desc then
        ((t.collMembers g).foldl (fun s m => s.setColl m.1 { m.2 with done := some (8, 0), combs := 0 }) t, false)
      else (t, false)
    else if c.left = some 0 && xs ≠ [] then cut t
    else (t, false)

/-- Whether a rank leads its collective: the least rank under way, whose engine moves it (log entry 13). -/
def State.collLeads (s : State) (pid : Nat) (c : Coll) (g : Nat) : Bool :=
  ((s.collMembers g).head?.map (fun m => (m.1, m.2.id))) = some (pid, c.id)

/-- The place of a leading rank's collective in the engines' order: the one served least recently, then the queue that follows the last
one served in the leading field, then the older one (R236, R282, log entry 13). -/
def State.collTurnKey (s : State) (pid : Nat) (c : Coll) (g : Nat) : Nat × Nat × Nat :=
  (c.served, (c.queue + 7 - ((s.pkg pid).field c.field).collTurn % 8) % 8, g)
/-- Whether a place comes before another. -/
def turnBefore (a b : Nat × Nat × Nat) : Bool :=
  a.1 < b.1 || (a.1 = b.1 && (a.2.1 < b.2.1 || (a.2.1 = b.2.1 && a.2.2 < b.2.2)))

/-- Whether two collectives have ranks in one field, whose engine serves one of them at a time. -/
def State.collShares (s : State) (g h : Nat) : Bool :=
  (s.collMembers g).any (fun m => (s.collMembers h).any (fun x => m.1 = x.1 && m.2.field = x.2.field))

/-- Whether an engine that a collective needs serves another first: one that can move now. -/
def State.collHeld (s : State) (pid : Nat) (c : Coll) (g : Nat) : Bool :=
  s.pkgs.any (fun (p : Nat × Pkg) => p.2.colls.any (fun x => x.done.isNone && (match x.group with
    | some h => h ≠ g && s.collLeads p.1 x h && turnBefore (s.collTurnKey p.1 x h) (s.collTurnKey pid c g) && s.collShares g h &&
        (s.collMove p.1 x h).2
    | none => false)))

/-- COLL_CHUNK (R236, R282): the engines of every member's field take their queues in turn, at chunk boundaries; one whose chunk cannot
move holds none up. -/
def execCollChunk (pid coll : Nat) (s : State) : Out :=
  match s.coll pid coll with
  | none => .next s
  | some c =>
    match c.group, c.done with
    | some g, none => .next (if s.collLeads pid c g && !s.collHeld pid c g then (s.collMove pid c g).1 else s)
    | _, _ => .next s

/-- COLL_COMPLETE (R236): the collective's ticket is done at a rank. -/
def execCollComplete (pid coll : Nat) (s : State) : Out :=
  match s.coll pid coll with
  | some c =>
    (match c.done with
     | some (a, d) =>
       .next ((s.updPkg pid (fun p => { p with colls := p.colls.filter (fun x => x.id ≠ coll) })).commandEnds c.src (.code a d))
     | none => .next s)
  | none => .next s

/-! ### The histogram unit (R312 to R314) -/

def hNm (d : List Byte) : Nat := bytesAt d 6 2 + 1
def hRank (d : List Byte) : Bool := (bytesAt d 4 1).testBit 2
def hCnt (d : List Byte) : Bool := (bytesAt d 4 1).testBit 1
def hAdd (d : List Byte) : Bool := (bytesAt d 4 1).testBit 0
def hBins (d : List Byte) : Nat := bitsNat (bytesAt d 0 4) 8 9
def hBase (d : List Byte) : Nat := bytesAt d 0 1
def hSrc (d : List Byte) : Nat := bytesAt d 8 4 % 2 ^ 20
def hOutc (d : List Byte) : Nat := bytesAt d 12 4 % 2 ^ 20
def hOutr (d : List Byte) : Nat := bytesAt d 16 4 % 2 ^ 20

/-- The byte number of the first offending field (R219, R312). -/
def histBad (d : List Byte) : Option Nat :=
  let w := leNat d
  let n := hNm d
  leastByte
    ([(256 < hBase d + hBins d && 1 ≤ hBins d && hBins d ≤ 256, 0), (hBins d = 0 || 256 < hBins d, 1), (bitsNat w 17 15 ≠ 0, 2),
      (bitsNat w 35 13 ≠ 0, 4), (hSrc d % 2 ≠ 0 || 0x100000 < hSrc d + 2 * n, 8), (bitsNat w 84 12 ≠ 0, 10),
      (hCnt d && (hOutc d % 4 ≠ 0 || 0x100000 < hOutc d + 4 * hBins d), 12), (bitsNat w 116 12 ≠ 0, 14),
      (hRank d && (hOutr d % 2 ≠ 0 || 0x100000 < hOutr d + 2 * n), 16), (bitsNat w 148 108 ≠ 0, 18)] : List (Bool × Nat))

/-- R312: the descriptor goes to the bay's unit; MODE 1 sets the EXTERN mark (R391). -/
def execHist (rel _acq : Bool) (sc : BitVec 4) (gd : GNum) (ea : ANum) (s : State) : Out :=
  s.descr (s.ra ea) 32 (fun s d =>
    .next (s.command 8 0 (ownVa (spadOff (s.ra ea))) (fun t i =>
      let id := t.cur.id
      let t := if hAdd d then t.markExtern id else t
      let h : Hist := { id := t.fresh, src := t.srcOf id i, desc := d, rel := if rel then some sc else none }
      (t.bump.updPkg id.pid (fun p => { p with hists := p.hists ++ [h] })).writeG 1 gd (t.ticketOf 8 i))))

/-- One index of R313: the ranks so far, the counts, and the indexes out of range. -/
def histStep (bins : Nat) (base : Nat → Nat) (a : List Nat × NMap Nat × Nat) (x : Nat) : List Nat × NMap Nat × Nat :=
  let (ranks, c, bad) := a
  if x = 0xFFFF then (ranks ++ [0xFFFF], c, bad)
  else if bins ≤ x then (ranks ++ [0xFFFF], c, bad + 1)
  else
    let n := (c.get x).getD 0
    (ranks ++ [Nat.min (base x + n) 0xFFFE], c.put x (some (n + 1)), bad)

/-- Latches of a partition in a field (R263, R313). -/
def Part.latch (x : Part) (field n : Nat) : BitVec 32 := (x.latches.get (field * 256 + n)).getD 0

/-- What the unit does with a well-formed descriptor: ranks, new latches and DETAIL (R313). -/
def histWork (x : Part) (field : Nat) (d : List Byte) (xs : List Nat) : List Nat × List Nat × Nat :=
  let old (k : Nat) : Nat := if hAdd d then (x.latch field (hBase d + k)).toNat else 0
  let (ranks, c, bad) := xs.foldl (histStep (hBins d) old) ([], [], 0)
  (ranks, (List.range (hBins d)).map (fun k => (old k + (c.get k).getD 0) % 2 ^ 32), Nat.min bad 0xFFFF)

/-- HIST_COMPLETE (R313, R314): after the context's earlier stores and loads; the latches change in one step, the arrays are untracked
writes. With REL the values written carry the command's release at its scope (R167, R178). -/
def execHistComplete (pid hist : Nat) (s : State) : Out :=
  match (s.pkg pid).hists.find? (fun h => h.id = hist) with
  | none => .next s
  | some h =>
    match s.locate h.src with
    | none => .next s
    | some id =>
      let d := h.desc
      let t := s.updPkg pid (fun p => { p with hists := p.hists.filter (fun x => x.id ≠ hist) })
      match histBad d with
      | some b => .next (t.commandEnds h.src (.code 1 b))
      | none =>
        if (s.ctx id).storesOut h.src.issue || s.loadsOut h.src.ident h.src.issue then .next s
        else
          let at_ (o : Nat) : Nat := spadKey id.pid id.core o
          let x := (h.src.part.bind (s.part pid)).getD (Part.ofBlock [] [])
          let xs := (List.range (hNm d)).map (fun e => leNat (s.readData (at_ (hSrc d + 2 * e)) 2))
          let f := fieldOf id.core
          let (ranks, ls, bad) := histWork x f d xs
          let t := match s.badAt (at_ (hSrc d)) (2 * hNm d) with
            | some u => t.consumeAt id h.src.entry 1 false (ownVa (hSrc d + (u - at_ (hSrc d))))
            | none => t
          let t := t.updPart pid (h.src.part.getD 64) (fun x => { x with
            latches := ls.zipIdx.foldl (fun (m : NMap (BitVec 32)) l =>
              m.put (f * 256 + hBase d + l.2) (if l.1 = 0 then none else some (BitVec.ofNat 32 l.1))) x.latches })
          let t := if hRank d then t.storeBy none (at_ (hOutr d)) (ranks.flatMap (leBytes 2)) none else t
          let t := if hRank d then t.markRel ⟨id, true⟩ (at_ (hOutr d)) (2 * hNm d) h.rel else t
          let t := if hCnt d then t.storeBy none (at_ (hOutc d)) (ls.flatMap (leBytes 4)) none else t
          let t := if hCnt d then t.markRel ⟨id, true⟩ (at_ (hOutc d)) (4 * hBins d) h.rel else t
          .next (t.commandEnds h.src (.code 0 bad))

/-! ### `snap` (R364) -/

def snBase (d : List Byte) : Nat := bytesAt d 0 8
def snLen (d : List Byte) : Nat := bytesAt d 8 8
def snSlot (d : List Byte) : Nat := bytesAt d 16 1 % 64
def snOp (d : List Byte) : Nat := bytesAt d 16 1 / 64

/-- The byte number of the first offending field (R361, R364). -/
def snapBad (d : List Byte) : Option Nat :=
  leastByte
    ([(snBase d % 65536 ≠ 0 || 2 ^ 57 ≤ snBase d, 0),
      (snLen d = 0 || 2 ^ 41 ≤ snLen d || (snBase d < 2 ^ 57 && 2 ^ 57 < snBase d + snLen d * 65536), 8),
      (47 < snSlot d || snOp d = 3, 16), (bytesAt d 17 15 ≠ 0, 17)] : List (Bool × Nat))

/-- R364: the operation is a chain of queue 0. CLASS of its entry reads 0, as R408 gives it for a `snap`, whose pages are its elements; R364
calls the entry `once` (DEDUCED, log entry 108). -/
def execSnap (rel acq : Bool) (sc : BitVec 4) (gd : GNum) (ea : ANum) (s : State) : Out :=
  s.descr (s.ra ea) 32 (fun s d =>
    if 16 ≤ s.queueLength 0 then .next s.hold
    else .next (s.command 1 0 (ownVa (spadOff (s.ra ea))) (fun t i =>
      let id := t.cur.id
      let t := (t.engineEdge acq sc).updEntry id i (fun e => { e with cls := 0 })
      let c : Chain := { t.newChain i 0 0 (if rel then some sc else none) with kind := .snap (snBase d) (snLen d) (snSlot d) (snOp d) }
      let t := t.writeG 1 gd (t.ticketOf 1 i)
      match snapBad d with
      | some b => t.commandEnds (t.srcOf id i) (.code 1 b)
      | none => t.updLive id.pid id.core (fun k => { k with chains := k.chains ++ [c] }))))

end Sys2Proof.Machine
end

