-- ==== Sys2Proof/Machine/Hoops.lean ====
section
/-! DEFINITION. Hoops at their homes: joins, arrivals, phase ends, refusals, release (R255 to R259, R302 to R306, R401). -/

namespace Sys2Proof.Machine

/-- The resident context that a member's image runs in. -/
def State.memberAt (s : State) (x : HMember) : Option CtxId := s.locate { dieSrc 0 0 with id := x.id, ident := x.ident }

/-- Changes the hoop at an index of its package's list; none removes it. -/
def State.setHoop (s : State) (pid n : Nat) (h : Option Hoop) : State :=
  s.updPkg pid (fun p => { p with hoops := p.hoops.take n ++ h.toList ++ p.hoops.drop (n + 1) })

/-- Changes the context of a member, where it runs or in the image that holds it (R259). -/
def State.updMember (s : State) (x : HMember) (f : Ctx → Ctx) : State :=
  match s.memberAt x with
  | some id => s.updCtx id f
  | none => { s with pkgs := s.pkgs.map (fun (p : Nat × Pkg) => (p.1, { p.2 with images := p.2.images.map (fun (i : Nat × Image) =>
      (i.1, { i.2 with data := { i.2.data with ctxs := i.2.data.ctxs.map (fun c =>
        if c.ident = some x.ident then f c else c) } })) })) }

/-- Writes a membership register of a member. -/
def State.writeMember (s : State) (x : HMember) (w : Word) : State := s.updMember x (fun c => c.setHoopReg x.reg w)

/-- A hoop arrival is performed: the release of the arriving context (R167, R186), whose count and horizons its image shares while it is
parked (R191). -/
def State.hoopRelease (s : State) (src : Src) : State :=
  let a : Agent := ⟨src.id, false⟩
  if s.identOf src.id ≠ src.ident && (s.core src.id.pid src.id.core).swap ≠ .parked then s
  else
    let s := s.raceRelease a 1
    let x := (s.race src.id.pid a.bay).agentData a.num
    s.updPkg src.id.pid (fun p => { p with images := p.images.map (fun (i : Nat × Image) =>
      if i.2.core = src.id.core && i.2.data.ctxs.any (fun c => c.ident = some src.ident) then
        (i.1, { i.2 with race := i.2.race.map (fun y => if y.1 = a.num then x else y) })
      else i) })

/-! ### Arrivals and phase ends (R257, R258) -/

/-- A member arrives, once; an arrival may be marked leaving. -/
def Hoop.arrive (h : Hoop) (ident reg : Nat) (leave : Bool) : Hoop :=
  { h with members := h.members.map (fun x => if x.is ident reg then { x with arrived := true, leave := x.leave || leave } else x) }

/-- HOOP_ARRIVAL (R257, R306): the last arrival makes the hoop FLUSHING. -/
def execHoopArrival (n : Nat) (s : State) : Out :=
  match s.net[n]? with
  | some m =>
    (match m.body with
     | .hoopArrive reg leave =>
       if !deliverable s.net n || s.homeLost m.dst then .next s
       else
         let t := s.dropMsg n
         let pid := m.dst.pid
         (match (s.pkg pid).hoops.findIdx? (fun h => !h.forming && h.name = m.idx && hoopHome pid h.level h.unit = m.dst &&
             h.members.any (fun x => x.is m.src.ident reg)) with
          | none => .next t
          | some i =>
            match (s.pkg pid).hoops[i]? with
            | some h =>
              let h := h.arrive m.src.ident reg leave
              .next ((t.hoopRelease m.src).setHoop pid i (some { h with flushing := h.members.all (fun x => x.arrived) }))
            | none => .next t)
     | _ => .next s)
  | none => .next s

/-- Whether a flush probe of a hoop's phase is still under way (R257). -/
def State.probesOut (s : State) (h : Hoop) : Bool :=
  s.net.any (fun m => match m.body with
    | .probe => h.members.any (fun x => m.src.ident = x.ident && m.src.entry = 64 + x.reg)
    | _ => false)

/-- A hoop after its phase end: leavers gone, joiners admitted, PH inverted, SEQ + 1 (R257, R258). -/
def Hoop.ended (h : Hoop) : Hoop :=
  { h with members := (h.members.filter (fun x => !x.leave)).map (fun x => { x with arrived := false }) ++ h.pending
           pending := [], ph := !h.ph, seq := (h.seq + 1) % 2 ^ 15, flushing := false }

/-- A member's register after it has left a hoop: the hoop that has admitted it meanwhile, or none (R258, R303). -/
def State.leftWord (s : State) (x : HMember) : Word :=
  match s.hoopOf x.ident x.reg with
  | some (_, h) => h.word
  | none => 0

/-- HOOP_PHASE_END (R257): each member is to depart with an acquire from every other one counted, the members' registers are written,
and a hoop without members is released. -/
def execHoopPhaseEnd (pid hoop : Nat) (s : State) : Out :=
  match (s.pkg pid).hoops[hoop]? with
  | some h =>
    if h.forming || !h.flushing || s.probesOut h then .next s
    else
      let g := h.ended
      let t := h.members.foldl (fun s x => s.updMember x (fun c => { c with
        phase := c.phase ++ ((h.members.filter (fun y => y.ident ≠ x.ident)).map (·.id)) })) s
      let t := (h.members.filter (fun x => x.leave)).foldl (fun t x => t.writeMember x (s.leftWord x)) t
      let t := g.members.foldl (fun s x => s.writeMember x g.word) t
      .next (t.setHoop pid hoop (if g.members = [] then none else some g))
  | none => .next s

/-! ### Joins (R302 to R304, R306) -/

/-- Hoop entries of a home, and those charged to a partition (R304). -/
def Pkg.hoopsAt (p : Pkg) (level unit : Nat) : List Hoop :=
  p.hoops.filter (fun h => if 3 ≤ level then 3 ≤ h.level else h.level = level && h.unit = unit)

/-- Whether a home has room for a hoop within the charged partition's quota (R304, R333). -/
def Pkg.hoopRoom (p : Pkg) (q : JoinReq) : Bool :=
  let hs := p.hoopsAt q.level q.unit
  let mine := (hs.filter (fun h => h.part = q.part)).length
  let quota (f : Part → Nat) : Bool := match p.parts.get q.part with
    | some x => mine < f x
    | none => false
  match q.level with
  | 0 => hs.length < 4
  | 1 => hs.length < 32
  | 2 => hs.length < 256 && quota Part.fhoopq
  | _ => hs.length < 1024 && quota Part.shoopq

/-- What a home does with a join: the hoop it leaves, or the reason of a refusal (R303, R304). -/
def Hoop.join (h : Hoop) (q : JoinReq) (x : HMember) : Except Nat Hoop :=
  if h.members.any (fun y => y.is x.ident x.reg && !y.leave) || h.pending.any (fun y => y.is x.ident x.reg) then .ok h
  else if h.forming then
    (if h.nmem ≠ q.nmem then .error 2
     else
       let ms := h.members ++ [x]
       .ok { h with members := ms, forming := ms.length < h.nmem + 1 })
  else if 1024 < (h.members.filter (fun y => !y.leave)).length + h.pending.length + 1 then .error 3
  else .ok { h with pending := h.pending ++ [x] }

/-- Whether a communicator join is admitted by the exposure its HID names (R304). -/
def State.joinOk (s : State) (m : Msg) (pid : Nat) (q : JoinReq) : Bool :=
  q.level ≠ 4 || s.exposureOk pid q.part (bitsNat q.hid 8 8) 0 0 (fun p => p.testBit 4) m.src.id.pid m.src.part

/-- HOOP_JOIN_ARRIVAL (R303, R304). -/
def execHoopJoinArrival (n : Nat) (s : State) : Out :=
  match s.net[n]? with
  | some m =>
    (match m.body with
     | .hoopJoin level unit part hid nmem reg =>
       if !deliverable s.net n || s.homeLost m.dst then .next s
       else
         let pid := m.dst.pid
         let q : JoinReq := { pid := pid, level := level, unit := unit, part := part, hid := hid, nmem := nmem }
         let x : HMember := { ident := m.src.ident, id := m.src.id, reg := reg }
         let t := s.dropMsg n
         let refuse (r : Nat) : State := t.reply m (.hoopRefuse reg r)
         if !s.joinOk m pid q then .next (refuse 4)
         else match (s.pkg pid).hoops.findIdx? (fun h => h.named q) with
           | some i =>
             (match ((s.pkg pid).hoops[i]?).map (fun (h : Hoop) => h.join q x) with
              | some (.ok h) => .next (t.setHoop pid i (some h))
              | some (.error r) => .next (refuse r)
              | none => .next t)
           | none =>
             if !(s.pkg pid).hoopRoom q then .next (refuse 1)
             else
               let h : Hoop := { level := level, unit := unit, part := part, hid := hid, forming := 0 < nmem, nmem := nmem,
                                 members := [x], pending := [], ph := false, seq := 0, flushing := false }
               .next (t.updPkg pid (fun p => { p with hoops := p.hoops ++ [h] }))
     | _ => .next s)
  | none => .next s

/-- `TVAL` of `HOOP` (R304). -/
def hoopTval (reg reason : Nat) : Word := BitVec.ofNat 64 (reg % 4 * 16 + reason % 16)

/-- HOOP_REFUSAL (R304): the waiting context takes `HOOP` as its next bundle. -/
def execHoopRefusal (n : Nat) (s : State) : Out :=
  match s.net[n]? with
  | some m =>
    (match m.body with
     | .hoopRefuse reg r =>
       if !s.answerRoute m then .next s else
       (match s.locate m.src with
        | none => .next ((s.dropMsg n).count m.src.id.pid (discardCounter m.src.tagField))
        | some id =>
          let t := s.dropMsg n
          match (s.ctx id).hoopWait with
          | some w =>
            if w.join && w.reg = reg then
              .next ((t.updCtx id (fun c => { c with hoopWait := none })).addTrap id
                { cause := causeHoop, tval := hoopTval reg r, level := m.src.level, entry := 0 })
            else .next t
          | none => .next t)
     | _ => .next s)
  | none => .next s

/-! ### Hoops that a lost field holds (R401) -/

/-- Whether a member lies in a lost field. -/
def State.memberLost (s : State) (x : HMember) : Bool := ((s.pkg x.id.pid).field (fieldOf x.id.core)).lost

/-- HOOP_DEVICE_RELEASE (R401): the hoop is released at its home: its members' registers name no hoop, and a pending join is sent
again (log entry 14). -/
def execHoopDeviceRelease (pid hoop : Nat) (s : State) : Out :=
  match (s.pkg pid).hoops[hoop]? with
  | some h =>
    if !h.forming && h.members.any s.memberLost then
      let t := h.members.foldl (fun s x => s.writeMember x 0) (s.setHoop pid hoop none)
      .next (h.pending.foldl (fun s x => match s.memberAt x with
        | some id => s.updCtx id (fun c => { c with hoopWait := c.hoopWait.map (fun w => { w with seq := 0 }) })
        | none => s) t)
    else .next s
  | none => .next s

end Sys2Proof.Machine
end

