-- ==== Sys2Proof/Machine/Regs.lean ====
section
/-! DEFINITION. Which registers an operation reads and writes, and the latency of each write (R34, R39, R40, R41): what the
`CONFLICT` check and the checking scoreboard look at. -/

namespace Sys2Proof.Machine

/-- A register: class (0 `g`, 1 `a`, 2 `p`, 3 `v`, 4 `k`, as in R36) and number. -/
structure RegRef where
  cls : Nat
  num : Nat
deriving DecidableEq, Repr

def rG (r : GNum) : RegRef := ⟨0, r.toNat⟩
def rA (r : ANum) : RegRef := ⟨1, r.toNat⟩
def rP (r : PNum) : RegRef := ⟨2, r.toNat⟩
def rV (r : VNum) : RegRef := ⟨3, r.toNat⟩
def rK (r : KNum) : RegRef := ⟨4, r.toNat⟩

/-- `g0`, `p7` and `k0` hold constants (R41). -/
def RegRef.fixed (r : RegRef) : Bool :=
  (r.cls = 0 && r.num = 0) || (r.cls = 2 && r.num = 7) || (r.cls = 4 && r.num = 0)

/-- The registers an operation reads. -/
def Instr.regReads : Instr → List RegRef
  | .add _ a b | .sub _ a b | .mul _ a b | .mulh _ _ a b | .div _ _ a b | .rem _ _ a b | .min _ _ a b | .max _ _ a b
  | .slt _ _ a b | .and _ a b | .or _ a b | .xor _ a b | .andn _ a b | .shl _ a b | .shr _ _ a b | .rot _ a b
  | .psetEq _ a b | .psetNe _ a b | .psetLt _ _ a b | .psetGe _ _ a b => [rG a, rG b]
  | .clz _ a | .ctz _ a | .popc _ a | .mova _ a | .addi _ a _ | .andi _ a _ | .ori _ a _ | .xori _ a _ | .shli _ a _
  | .shriI64 _ a _ | .shriW64 _ a _ | .roti _ a _ | .sltiI64 _ a _ | .sltiW64 _ a _ => [rG a]
  | .selLo n _ a b => [rG a, rG b, rP (n.setWidth 3)]
  | .selHi n _ a b => [rG a, rG b, rP (n.setWidth 3 + 4)]
  | .pand _ a b | .por _ a b | .pxor _ a b => [rP a, rP b]
  | .amad d a b => [rG a, rG b, rA d]
  | .movg _ a => [rA a]
  | .liHi d _ => [rG d]
  | .vadd _ _ _ a b k | .vsub _ _ _ a b k | .vmul _ _ _ a b k | .vinsx _ _ _ a b k | .viadd _ _ _ a b k
  | .visub _ _ _ a b k | .vcmp _ _ _ a b k => [rV a, rV b, rK k]
  | .vfma _ _ _ a b c => [rV a, rV b, rV c]
  | .vmin _ _ a b k | .vmax _ _ a b k | .vimul _ _ a b k | .vimulh _ _ a b k | .vimin _ _ a b k | .vimax _ _ a b k
  | .vand _ _ a b k | .vor _ _ a b k | .vxor _ _ a b k | .vandn _ _ a b k | .vshl _ _ a b k | .vshr _ _ a b k
  | .vsel _ _ a b k | .vperm _ _ a b k | .vthr _ _ a b k => [rV a, rV b, rK k]
  | .vtopkFix _ d a b k => [rV a, rV b, rV d, rK k]
  | .vabs _ _ a k | .vneg _ _ a k | .vgetx _ _ a k | .viabs _ _ a k | .vpopc _ _ a k | .vclz _ _ a k | .vmov _ _ a k
  | .vpart _ _ a k => [rV a, rK k]
  | .vrcp _ _ _ a k | .vrsqrt _ _ _ a k | .vfexp _ _ _ a k | .vrndi _ _ _ a k | .vcvt _ _ _ _ a k | .vred _ _ _ a k
  | .vscan _ _ _ a k => [rV a, rK k]
  | .vbcast _ _ a _ => [rV a]
  | .vins _ _ g _ => [rG g]
  | .vext _ _ v _ => [rV v]
  | .kmovKg _ g => [rG g]
  | .kmovGk _ k => [rK k]
  | .kand _ a b | .kor _ a b | .kxor _ a b => [rK a, rK b]
  | .mma _ _ a b _ _ _ => [rA a, rA b]
  | .mmaG _ _ a b i _ _ _ => [rA a, rA b, rA i]
  | .minit _ _ a | .mout _ _ a _ _ | .mcfg _ a => [rA a]
  | .ldI8 _ _ _ a _ | .ldW8 _ _ _ a _ | .ldI16 _ _ _ a _ | .ldW16 _ _ _ a _ | .ldI32 _ _ _ a _ | .ldW32 _ _ _ a _
  | .ldI64 _ _ _ a _ | .vld _ _ _ a _ => [rA a]
  | .stI8 _ _ _ a g | .stI16 _ _ _ a g | .stI32 _ _ _ a g | .stI64 _ _ _ a g | .stpD _ _ _ a g => [rA a, rG g]
  | .vst _ _ _ a v | .stpV _ _ _ a v => [rA a, rV v]
  | .vgather _ _ i a _ => [rV i, rA a]
  | .vscatter _ _ i a v => [rV i, rA a, rV v]
  | .ldt _ _ g a _ => [rG g, rA a]
  | .stgD _ _ g a r => [rG g, rA a, rG r]
  | .stgV _ _ g a v => [rG g, rA a, rV v]
  | .flsig _ a g => [rA a, rG g]
  | .cpy land _ _ _ _ g a => if land then [rG g, rA a] else [rA a]
  | .cpyq g => [rG g]
  | .coll _ _ _ _ _ a | .cmbOpen _ _ _ _ a | .gcommit _ _ _ _ a | .gabort _ _ _ _ a | .hist _ _ _ _ a
  | .snap _ _ _ _ a => [rA a]
  | .cmbClose _ _ _ g => [rG g]
  | .callr g | .jr g | .jmpBkt g _ | .loopCfg g _ | .barInit _ g | .hoopJoin _ g | .waitAt g | .waitEv g | .csrw g _
  | .csrs g _ | .csrc g _ | .gnodeDone g | .winClr g | .pgInval g _ | .pgBlkSet g | .pgBlkClear g | .ctxPark g
  | .ctxUnpark g | .ifrRd _ g => [rG g]
  | .ret => [rG 63]
  | .winSet a b | .pgSnap a b | .pgCowRelease a b | .pgCowRestore a b | .pgMig a b | .partInt a b | .ifrWr a b =>
    [rG a, rG b]
  | _ => []

/-- The registers an operation writes, each with its latency (R39); 0: the latency is variable. -/
def Instr.regWrites : Instr → List (RegRef × Nat)
  | .add d _ _ | .sub d _ _ | .min _ d _ _ | .max _ d _ _ | .slt _ d _ _ | .and d _ _ | .or d _ _ | .xor d _ _
  | .andn d _ _ | .shl d _ _ | .shr _ d _ _ | .rot d _ _ | .clz d _ | .ctz d _ | .popc d _ | .selLo _ d _ _
  | .selHi _ d _ _ | .movg d _ | .addi d _ _ | .andi d _ _ | .ori d _ _ | .xori d _ _ | .shli d _ _ | .shriI64 d _ _
  | .shriW64 d _ _ | .roti d _ _ | .sltiI64 d _ _ | .sltiW64 d _ _ | .liLo d _ | .liHi d _ => [(rG d, 1)]
  | .mul d _ _ | .mulh _ d _ _ => [(rG d, 3)]
  | .div _ d _ _ | .rem _ d _ _ => [(rG d, 20)]
  | .psetEq d _ _ | .psetNe d _ _ | .psetLt _ d _ _ | .psetGe _ d _ _ | .pand d _ _ | .por d _ _ | .pxor d _ _ =>
    [(rP d, 1)]
  | .amad d _ _ => [(rA d, 3)]
  | .mova d _ => [(rA d, 1)]
  | .vadd _ _ d _ _ _ | .vsub _ _ d _ _ _ | .vmul _ _ d _ _ _ | .vfma _ _ d _ _ _ | .vcvt _ _ _ d _ _ => [(rV d, 4)]
  | .vmin _ d _ _ _ | .vmax _ d _ _ _ | .vabs _ d _ _ | .vneg _ d _ _ => [(rV d, 4)]
  | .vrcp _ _ d _ _ | .vrsqrt _ _ d _ _ | .vfexp _ _ d _ _ | .vrndi _ _ d _ _ | .vinsx _ _ d _ _ _ => [(rV d, 6)]
  | .vgetx _ d _ _ | .vperm _ d _ _ _ | .vbcast _ d _ _ => [(rV d, 6)]
  | .vred _ _ d _ _ | .vscan _ _ d _ _ => [(rV d, 6)]
  | .viadd _ _ d _ _ _ | .visub _ _ d _ _ _ => [(rV d, 2)]
  | .vimul _ d _ _ _ | .vimulh _ d _ _ _ | .vimin _ d _ _ _ | .vimax _ d _ _ _ | .vand _ d _ _ _ | .vor _ d _ _ _
  | .vxor _ d _ _ _ | .vandn _ d _ _ _ | .vshl _ d _ _ _ | .vshr _ d _ _ _ | .vsel _ d _ _ _ => [(rV d, 2)]
  | .viabs _ d _ _ | .vpopc _ d _ _ | .vclz _ d _ _ | .vmov _ d _ _ | .vins _ d _ _ => [(rV d, 2)]
  | .vpart _ d _ _ | .vthr _ d _ _ _ | .vtopkFix _ d _ _ _ => [(rV d, 8)]
  | .vcmp _ _ d _ _ _ => [(rK d, 4)]
  | .vext _ d _ _ | .kmovGk d _ => [(rG d, 3)]
  | .kmovKg d _ | .kand d _ _ | .kor d _ _ | .kxor d _ _ => [(rK d, 2)]
  | .mpoll _ d | .barTest _ d => [(rP d, 2)]
  | .ldI8 _ _ _ _ d | .ldW8 _ _ _ _ d | .ldI16 _ _ _ _ d | .ldW16 _ _ _ _ d | .ldI32 _ _ _ _ d | .ldW32 _ _ _ _ d
  | .ldI64 _ _ _ _ d => [(rG d, 4)]
  | .vld _ _ _ _ d => [(rV d, 4)]
  | .vgather _ _ _ _ d => [(rV d, 8)]
  | .ldt _ _ g _ d => [(rG g, 1), (rV d, 0)]
  | .flsig _ _ d | .probe _ d | .cpy _ _ _ _ _ d _ | .coll _ _ _ _ d _ | .cmbClose _ _ _ d | .gcommit _ _ _ d _
  | .gabort _ _ _ d _ | .hist _ _ _ d _ | .snap _ _ _ d _ => [(rG d, 1)]
  | .cpyq d | .csrr d _ | .ifrRd d _ => [(rG d, 2)]
  | .cmbOpen _ _ _ d _ => [(rG d, 0)]
  | .call _ | .callr _ => [(rG 63, 1)]
  | _ => []

/-- When a write completes: on a pipeline cycle, on a device cycle (a landing), or on a cycle that is not known. -/
inductive Done where
  | pipe (n : Nat)
  | cycle (n : Nat)
  | unknown
deriving DecidableEq, Repr

/-- The pending writes of a context: register, and when each completes (R40, R204, R206, R231). -/
def Ctx.pendingRegs (c : Ctx) : List (RegRef × Done) :=
  c.pend.filterMap (fun x => match x.tgt with
    | .g r _ => some (rG r, .pipe x.due)
    | .a r _ => some (rA r, .pipe x.due)
    | .p r _ => some (rP r, .pipe x.due)
    | .v r _ _ => some (rV r, .pipe x.due)
    | .k r _ _ => some (rK r, .pipe x.due)
    | .flags .. => none) ++
  c.ifr.toList.filterMap (fun e => match e.landing with
    | some { vd := some v, late := l, base := b, .. } =>
      some (rV v, if l then .unknown else .cycle (b.getD e.promised.toNat))
    | _ => e.gdest.map (fun g => (rG g, .unknown)))

end Sys2Proof.Machine
end

