-- ==== Sys2Proof/Machine/Issue.lean ====
section
/-! DEFINITION. The issue stage: context choice and merging, the checks before a bundle takes effect, pending traps, splice
switches (R35, R40, R57, R248 to R252, R277, R294, R295, R297, R405, R418). -/

namespace Sys2Proof.Machine

/-! ### One pipeline cycle -/

/-- A context's pipeline cycle: completed writes land, the stall count runs, the waiting of the last cycle is over
(R38, R39, R16). -/
def Ctx.tick (c : Ctx) (now : Nat) : Ctx :=
  let c := { c with flagged := [] }.landDue now
  let n := c.stall - 1
  { c with stall := n, own := if n = 0 || c.parkMark then c.own else c.own + 1, waiting := false }

/-- The next pipeline cycle of a core. -/
def State.advance (s : State) (pid core : Nat) : State :=
  s.updCore pid core (fun k =>
    { k with pcyc := k.pcyc + 1, live := { k.live with ctxs := k.live.ctxs.map (fun c => c.tick (k.pcyc + 1)) } })

/-! ### Rank and READY (R248 to R251) -/

/-- Rank of a role for issue (R249). -/
def roleRank (r : BitVec 2) : Nat :=
  match r.toNat with
  | 0 => 0 | 2 => 1 | 1 => 2 | _ => 3

/-- The contexts of a core in READY, highest rank first (R249). -/
def State.readyList (s : State) (pid core : Nat) : List Nat :=
  let r := (List.range 4).filter (fun x => s.stateCode ⟨pid, core, x⟩ = 0)
  (List.range 4).flatMap (fun k => r.filter (fun x => roleRank (s.ctx ⟨pid, core, x⟩).role = k))

/-- The context promoted for its age (R251). -/
def State.aged (s : State) (pid core : Nat) (rdy : List Nat) : Option Nat :=
  let age (x : Nat) : Nat := (s.ctx ⟨pid, core, x⟩).age
  let old := (List.range 4).filter (fun x => rdy.contains x && fieldW (s.ctx ⟨pid, core, x⟩).agebnd 0 16 ≤ age x)
  old.foldl (fun best x => match best with
    | none => some x
    | some y => if age y < age x then some x else best) none

/-- The designated primary of this cycle (R251, R309). -/
def State.designate (s : State) (pid core : Nat) (rdy : List Nat) : Option Nat :=
  let k := s.core pid core
  match k.primary with
  | none => rdy.head?
  | some d =>
    if 4 ≤ s.stateCode ⟨pid, core, d⟩ then rdy.head?
    else if k.yielded = some d then (match (rdy.filter (· ≠ d)).head? with
      | some x => some x
      | none => some d)
    else some d

/-! ### The checks of R35 -/

/-- The level an operation demands (R19, R42, R57). -/
def opLevel : Instr → Nat
  | .csrr _ n | .csrw _ n | .csrs _ n | .csrc _ n => csrLevel n
  | .winSet .. | .winClr .. | .pgInval .. | .pgSnap .. | .pgCowRelease .. | .pgCowRestore .. | .pgBlkSet ..
  | .pgBlkClear .. | .pgMig .. | .partInt .. | .ctxPark .. | .ctxUnpark .. | .ifrRd .. | .ifrWr .. | .tret | .snap .. => 1
  | _ => 0

/-- C-slot instructions that may not stand in a buffered bundle (R295). -/
def unbuffered (i : Instr) : Bool :=
  i.isTransfer || (match i with
    | .loopCfg .. | .loopRun .. | .hoopJoin .. | .halt | .gnodeDone .. | .stkEnd .. => true
    | i => opLevel i = 1 && !(match i with
      | .csrr .. | .csrw .. | .csrs .. | .csrc .. => true
      | _ => false))

/-- The waiting instructions of R418; those of the system chapter hold their context (R356). -/
def waitingOp : Instr → Bool
  | .waitAt _ | .waitEv _ | .barWait _ | .hoopEnd _ | .hoopJoin .. | .mwait _ | .tfence | .efence | .fenceFar _ | .fenceScAcq _
  | .fenceScAr _ | .winSet .. | .winClr .. | .pgInval .. | .pgSnap .. | .pgCowRelease .. | .pgCowRestore .. | .pgBlkSet ..
  | .pgBlkClear .. | .pgMig .. | .partInt .. | .ctxPark .. | .ctxUnpark .. => true
  | _ => false

/-- The cause a single slot gives: SUB of R36. -/
def slotCause (features : Word) (firstPass : Bool) (x : RawSlot) : Option Nat :=
  match x.dec with
  | .error .opcode => some 1
  | d =>
    if (match slotFeature x.slot.cls x.word with
        | some f => !features.getLsbD f
        | none => false) then some 3
    else match d with
      | .error _ => some 2
      | .ok y => if firstPass && x.slot = .c && unbuffered y.op then some 2 else none

/-- `stk.end` and `stk.cnt` stand as R57 pairs them. -/
def pairOk (xs : List (Slot × Slotted)) : Bool :=
  let ends := xs.any (fun x => match x.2.op with
    | .stkEnd _ => true
    | _ => false)
  let cnts := (xs.filter (fun x => match x.2.op with
    | .stkCnt _ => true
    | _ => false)).length
  if ends then cnts = 1 else cnts = 0

/-- No two slots of a bundle write one register (R34). -/
def conflictFree (xs : List (Slot × Slotted)) : Bool :=
  let ws := xs.flatMap (fun x => (Instr.regWrites x.2.op).map (fun w => w.1))
  let ws := ws.filter (fun r => !(r.cls = 0 && r.num = 0))
  (ws.zipIdx).all (fun w => !(ws.drop (w.2 + 1)).contains w.1)

/-- The level that advances after a pass (R293): the lowest not at its last index. -/
def Ctx.advancing (c : Ctx) (r : Replay) : Option Nat :=
  (List.range 6).find? (fun l => r.at l + 1 < (c.loopLevel l).count)

/-- A performed slot ends the replay (R296). -/
def Ctx.breaks (c : Ctx) (xs : List (Slot × Slotted)) : Bool :=
  xs.any (fun x => x.2.op = .loopBrk && c.performs true x)

/-- The `a` register on which the stride addition of a pass's last bundle stalls (R294); a bundle whose `loop.brk` is performed adds
no strides (R296). -/
def Ctx.strideStall (c : Ctx) (now : Nat) (xs : List (Slot × Slotted)) : Option Nat :=
  match c.running with
  | none => none
  | some r =>
    if r.pos + 1 ≠ r.n || c.breaks xs then none
    else match c.advancing r with
      | none => none
      | some l => (List.range 16).find? (fun j =>
          (c.loopLevel l).strides[j % 16]'(Nat.mod_lt _ (by decide)) ≠ 0 &&
          (xs.any (fun x => (Instr.regWrites x.2.op).any (fun w => w.1 = ⟨1, j⟩ && 1 < w.2)) ||
           c.pendingRegs.any (fun p => p.1 = ⟨1, j⟩ && (match p.2 with
             | .pipe d => now + 1 < d
             | _ => true))))

/-! ### The checking scoreboard (R40) -/

/-- The cycle a context's `ldt` would be promised (R205). -/
def State.ldtAt (s : State) (id : CtxId) (gt : GNum) (ab : ANum) : Option Nat :=
  let c := s.ctx id
  match (s.access (s.whoOf id) .read (c.ra ab) 256).2 with
  | .ok ps => some (s.promised id ps (c.rg gt))
  | _ => none

/-- When a write of an operation would complete, issued now: its latency (R39), or its promise. -/
def State.doneAt (s : State) (id : CtxId) (i : Instr) (lat : Nat) : Done :=
  if lat ≠ 0 then .pipe ((s.core id.pid id.core).pcyc + lat)
  else match i with
    | .ldt _ _ gt ab _ => ((s.ldtAt id gt ab).map Done.cycle).getD .unknown
    | _ => .unknown

/-- Whether a pending write would complete after a later write to its register, as far as is known at issue. The cycle of a handle's
answer (R231) and of a late landing (R206) is not known: beside a write that completes on a known cycle the pending one counts as the
later (DESIGN CHOICE, log entry 102); two handles come in the order of their requests. -/
def State.doneAfter (s : State) (id : CtxId) (p own : Done) : Bool :=
  let now := (s.core id.pid id.core).pcyc
  let cyc (d : Nat) : Nat :=
    ((s.pkg id.pid).island (bayOf id.core)).cycleAfter (8 * (d - now) + 8) (s.pkg id.pid).cycle.toNat (d - now)
  match p, own with
  | .pipe d, .pipe e => e < d
  | .cycle d, .cycle e => e < d
  | .cycle d, .pipe e => cyc e < d
  | .pipe d, .cycle e => e < cyc d
  | .unknown, .unknown => false
  | .unknown, _ | _, .unknown => true

/-- The first register of an operation that the scoreboard stops on (R40): one it reads with a pending write, or one it
writes whose pending write would complete after its own. -/
def State.stallOn (s : State) (id : CtxId) (extra : List RegRef) (i : Instr) : Option RegRef :=
  let ps := (s.ctx id).pendingRegs
  match (extra ++ Instr.regReads i).find? (fun r => !r.fixed && ps.any (fun p => p.1 = r)) with
  | some r => some r
  | none => ((Instr.regWrites i).find? (fun w => !w.1.fixed && ps.any (fun p => p.1 = w.1 &&
      s.doneAfter id p.2 (s.doneAt id i w.2)))).map (·.1)

/-- `TVAL` of `STALL` (R36). -/
def stallTval (whole : Bool) (slot : Nat) (r : RegRef) : Word :=
  BitVec.ofNat 64 (r.num * 2 ^ 16 + r.cls * 2 ^ 12 + (if whole then 2048 else slot * 256))

/-- `STALL` (R40, R294). -/
def State.stallCheck (s : State) (id : CtxId) (inReplay : Bool) (xs : List (Slot × Slotted)) : Option Word :=
  if !(s.ctx id).sbchk.getLsbD 0 then none
  else match xs.findSome? (fun x =>
      (s.stallOn id (if x.1 = .c then [rP x.2.pr] else []) x.2.op).map (fun r => stallTval false x.1.bit r)) with
    | some t => some t
    | none =>
      if inReplay then ((s.ctx id).strideStall (s.core id.pid id.core).pcyc xs).map (fun j => stallTval true 0 ⟨1, j⟩) else none

/-- A bundle's slots, once all decode. -/
def slotsOf (xs : List RawSlot) : List (Slot × Slotted) :=
  xs.filterMap (fun x => match x.dec with
    | .ok y => some (x.slot, y)
    | .error _ => none)

/-- The `TVAL` of `MEMERR` where a performed `jmp.bkt` reads an uncorrectable unit of its table (R378). -/
def State.bucketError (s : State) (id : CtxId) (addr : Word) (inReplay : Bool) (xs : List (Slot × Slotted)) : Option Word :=
  xs.findSome? (fun x => match x.2.op with
    | .jmpBkt gc off =>
      if (s.ctx id).performs inReplay x then
        (match s.bucketOf id addr gc off with
         | .trap c t => if c = causeMemerr then some t else none
         | _ => none)
      else none
    | _ => none)

/-- The checks of R35 after the fetch, in their order: a trap's cause and `TVAL`, or the slots. `MEMERR` on the table of a `jmp.bkt`
comes with the fetch, at step 1 (R378). PRIVILEGE and STALL are raised for a suppressed slot too (DESIGN CHOICE, log entry 39). Where
several slots or registers qualify, PRIVILEGE names the lowest slot, and STALL the lowest slot, of it the C slot's predicate, then the
first register the operation reads, then the first it writes (DESIGN CHOICE, log entry 102: R35 fixes the lowest slot for ILLEGAL
alone). -/
def State.checks (s : State) (id : CtxId) (addr : Word) (bytes : List Byte) (inReplay firstPass : Bool) :
    Except (Nat × Word) (List (Slot × Slotted)) :=
  let c := s.ctx id
  let raw := decodeBundle bytes
  match s.bucketError id addr inReplay (slotsOf raw) with
  | some t => .error (causeMemerr, t)
  | none =>
  if 64 < addr.toNat % 64 + bytes.length then .error (causeIllegal, illegalTval true 0 4)
  else match raw.findSome? (fun x => (slotCause (s.pkg id.pid).features firstPass x).map (fun e => (x.slot, e))) with
    | some (sl, e) => .error (causeIllegal, illegalTval false sl.bit e)
    | none =>
      let xs := slotsOf raw
      if !pairOk xs then .error (causeIllegal, illegalTval true 0 6)
      else if !conflictFree xs then .error (causeIllegal, illegalTval true 0 5)
      else match xs.find? (fun x => c.level.toNat < opLevel x.2.op) with
        | some x => .error (causePrivilege, illegalTval false x.1.bit 0)
        | none => match s.stallCheck id inReplay xs with
          | some t => .error (causeStall, t)
          | none => .ok xs

/-! ### Pending traps (R405) -/

/-- Rank of a pending trap's cause (R405, item 2). -/
def pendRank (cause : Nat) : Nat :=
  if cause = causeLate then 0 else if cause = causeUndecided then 1 else if cause = causeQfault then 2
  else if cause = causeHoop then 3 else 4

/-- The first of the `LATE`, `UNDECIDED`, `QFAULT` and `HOOP` traps of the context's level (R405, item 2). -/
def Ctx.dueTrap (c : Ctx) : Option (Nat × Word × Ctx) :=
  let ts := c.traps.filter (fun t => t.level = c.level && pendRank t.cause < 4)
  let best := ts.foldl (fun (b : Option PTrap) t => match b with
    | none => some t
    | some y => if pendRank t.cause < pendRank y.cause ∨ (pendRank t.cause = pendRank y.cause ∧ t.entry < y.entry) then some t
                else b) none
  best.map (fun t => (t.cause, t.tval, { c with traps := c.traps.erase t }))

/-- The pending trap a context takes at its next bundle, and the rest (R405, items 1 and 2). An error that has arrived while an `efence`
of the bundle waits is raised at it, with IMPR 0 (R380). -/
def Ctx.duePending (c : Ctx) (addr : Word) : Option (Nat × Word × Ctx) :=
  match c.err with
  | some e =>
    if e.level = c.level then
      some (causeMemerr, memerrTval e.origin e.more (c.efence ≠ some addr) e.w e.addr, { c with err := none })
    else c.dueTrap
  | none => c.dueTrap

/-! ### Kernel replacement (R276, R277) -/

/-- Strictly ascending numbers. -/
def ascending : List Nat → Bool
  | a :: b :: xs => a < b && ascending (b :: xs)
  | _ => true

/-- The entries of a PC map: NUM and ADDR. One that R276 does not allow holds no splice point (log entry 94). -/
def State.pcMap (s : State) (pid part va : Nat) : List (Nat × Word) :=
  match (s.virt pid part va 8).map leNat with
  | none => []
  | some n =>
    if 65535 < n then []
    else match s.virt pid part (va + 8) (16 * n) with
    | none => []
    | some bs =>
      let es := (List.range n).map (fun i => (bytesAt bs (16 * i) 4, BitVec.ofNat 64 (bytesAt bs (16 * i + 8) 8)))
      if (List.range n).all (fun i => bytesAt bs (16 * i + 4) 4 = 0) && ascending (es.map (·.1)) then es else []

/-- The 64 bytes of a node's descriptor (R260, R262). -/
def State.nodeDesc (s : State) (pid part node : Nat) : Option (List Byte) :=
  match (s.part pid part).bind (·.header) with
  | none => none
  | some h => (s.virt pid part h.toNat 64).bind (fun hd => s.virt pid part (bytesAt hd 8 8 + 64 * node) 64)

/-- The map of the image that a context's descriptor names now. -/
def State.currentMap (s : State) (id : CtxId) : List (Nat × Word) :=
  match (s.ctx id).inst.bind (fun n => (s.pkg id.pid).insts.find? (fun i => i.id = n)) with
  | none => []
  | some i => match s.nodeDesc id.pid i.part i.node with
    | none => []
    | some d => if bytesAt d 32 8 = 0 then [] else s.pcMap id.pid i.part (bytesAt d 32 8)

/-- The address at which a context goes on in the new image, if `a` is a splice point of both maps, under any of the NUMs that it bears in
the old one (R277). -/
def State.splice (s : State) (id : CtxId) (a : Word) : Option Word :=
  ((s.ctx id).oldMap.filter (fun e => e.2 = a)).findSome? (fun e => ((s.currentMap id).find? (fun n => n.1 = e.1)).map (·.2))

/-- A context goes on in the new image from address `a`, if that is a splice point; none while a replay is active (R277). The new
image's map is from then on the context's own. -/
def State.splicedAt (s : State) (id : CtxId) (a : Word) : State :=
  if (s.ctx id).seqr.replay.isSome then s
  else match s.splice id a with
    | some t =>
      let m := s.currentMap id
      s.updCtx id (fun c => { c with pc := t, npc := t, oldMap := m })
    | none => s

/-- A switch to the new image just before a fetched bundle issues (R277); a bundle that waits has been fetched. -/
def State.spliced (s : State) (id : CtxId) : State :=
  let c := s.ctx id
  if c.next.isSome || c.oldMap = [] then s
  else match s.fetchBundle id padFuel c.pc with
    | .ok a _ => s.splicedAt id a
    | _ => s

/-! ### Preparing a context's bundle -/

/-- What a context would do on this cycle. -/
inductive Prep where
  | bundle (b : Chosen)
  /-- a trap, taken; the header's slots, if they were read -/
  | trapped (mask : Byte)
  | waits
deriving DecidableEq, Repr

/-- The next bundle of a context: the one that waits, from the replay's buffer, or fetched; whether it stands in the replay, and in
its first pass (R292, R297, R418). -/
def State.nextBundle (s : State) (id : CtxId) : Bundled × Bool × Bool :=
  let c := s.ctx id
  let f : Bundled := match c.next with
    | some b => .ok b.addr b.bytes
    | none => s.fetchBundle id padFuel c.pc
  match c.running with
  | none => (f, false, false)
  | some r =>
    if !r.first then
      (match r.buf[r.pos]? with
       | some b => if c.pc = b.addr then (.ok b.addr b.bytes, true, false) else (f, false, false)
       | none => (f, false, false))
    else if c.pc = r.want then (f, true, true)
    else match f, s.fetchBundle id padFuel r.want with
      | .ok a _, .ok b _ => if a = b then (f, true, true) else (f, false, false)
      | _, _ => (f, false, false)

/-- The address of the bundle a context would issue. -/
def Bundled.addr (b : Bundled) (pc : Word) : Word :=
  match b with
  | .ok a _ => a
  | .trap a _ _ => a
  | .waits => pc

/-- The checks of R35 on a bundle; one that waits has passed them (R418). -/
def State.checked (s : State) (id : CtxId) (addr : Word) (bytes : List Byte) (inReplay firstPass : Bool) :
    Except (Nat × Word) (List (Slot × Slotted)) :=
  if (s.ctx id).next.isSome then .ok (slotsOf (decodeBundle bytes)) else s.checks id addr bytes inReplay firstPass

/-- Prepares a context's bundle: pending traps, fetch, splice switch, checks (R35, R405). -/
def State.prepare (s : State) (id : CtxId) : State × Prep :=
  let s := s.spliced id
  let c := s.ctx id
  let (f, inR, firstPass) := s.nextBundle id
  let addr := f.addr c.pc
  let mask : Byte := match f with
    | .ok _ bs => bs.headD 0
    | _ => 0
  match c.duePending addr with
  | some (cause, tval, c) => ((s.setCtx id c).takeTrap id cause tval addr, .trapped mask)
  | none =>
    match f with
    | .waits => (s, .waits)
    | .trap a cause tval => (s.takeTrap id cause tval a, .trapped 0)
    | .ok a bs =>
      match s.checked id a bs inR firstPass with
      | .error (cause, tval) => (s.takeTrap id cause tval a, .trapped mask)
      | .ok xs =>
        let s := if inR && !firstPass then s else s.fetchTouch id a bs.length
        let s := s.updCtx id (fun c => { c with pc := a, npc := a + BitVec.ofNat 64 bs.length })
        (s, .bundle { id := id, addr := a, bytes := bs, len := bs.length, slots := xs, replay := inR })

/-- A context waits on this cycle (R248); while it waits on a translation its cycles are frozen ones, and its writes complete that much
later (R39, R195). -/
def Ctx.wait (c : Ctx) (frozen : Bool) : Ctx :=
  { c with waiting := true, pend := if frozen then c.pend.map (fun p => { p with due := p.due + 1 }) else c.pend }
def State.setWaiting (s : State) (id : CtxId) (frozen : Bool) : State := s.updCtx id (fun c => c.wait frozen)

/-! ### The choice (R251, R252) -/

/-- The merged second context: the first in rank order whose slots are disjoint from the first's and which does not
wait. -/
def State.second (s : State) (pid core : Nat) (mask : Byte) : List Nat → State × List Chosen × List Nat
  | [] => (s, [], [])
  | x :: xs =>
    match s.prepare ⟨pid, core, x⟩ with
    | (s', .bundle b) => if b.bytes.headD 0 &&& mask = 0 then (s', [b], [x]) else s.second pid core mask xs
    | (s', .trapped m) => if m &&& mask = 0 then (s', [], [x]) else s.second pid core mask xs
    | (_, .waits) => s.second pid core mask xs

/-- Ages at the end of a choice: contexts in READY that did not issue grow older, every other age is 0 (R250). -/
def State.ages (s : State) (pid core : Nat) (rdy used : List Nat) : State :=
  s.updCore pid core (fun k => { k with live := { k.live with ctxs := k.live.ctxs.mapIdx (fun x c =>
    { c with age := if rdy.contains x && !used.contains x && !c.waiting then c.age + 1 else 0 }) } })

/-- The issue stage's choice among the contexts that do not wait: the chosen bundles stand in the latch; traps before a
bundle's slots have been taken. -/
def State.choose (s : State) (pid core : Nat) : Nat → State
  | 0 => s
  | fuel + 1 =>
    let rdy := s.readyList pid core
    let d := s.designate pid core rdy
    let keep : Option Nat := d.filter (fun x =>
      let st := s.stateCode ⟨pid, core, x⟩
      st = 0 || st = 1 || st = 3)
    let first := match s.aged pid core rdy with
      | some x => some x
      | none => match d.filter (fun x => rdy.contains x) with
        | some x => some x
        | none => rdy.head?
    match first with
    | none => (s.ages pid core rdy []).updCore pid core (fun k => { k with primary := keep, yielded := none })
    | some x =>
      let id : CtxId := ⟨pid, core, x⟩
      match s.prepare id with
      | (_, .waits) => (s.setWaiting id true).choose pid core fuel
      | (s', .trapped m) =>
        let (s', bs, ys) := s'.second pid core m (rdy.filter (· ≠ x))
        let s' := (s'.ages pid core rdy (x :: ys)).updCore pid core (fun k => { k with primary := keep, yielded := none })
        { s' with latch := { chosen := bs } }
      | (s', .bundle b) =>
        let (s', bs, ys) := s'.second pid core (b.bytes.headD 0) (rdy.filter (· ≠ x))
        let s' := (s'.ages pid core rdy (x :: ys)).updCore pid core (fun k => { k with primary := keep, yielded := none })
        { s' with latch := { chosen := b :: bs } }

/-- Choices tried on one cycle: each that fails makes one more of four contexts wait. -/
def chooseFuel : Nat := 6

/-- ISSUE_CHOICE (R251): the issue stage chooses among the contexts in READY; the pipeline cycle has begun, the contexts whose
bundles wait have been told from the others, and the slots of the chosen bundles are performed in the same step
(Machine/Bundle.lean). -/
def execIssueChoice (pid core : Nat) (s : State) : Out :=
  if s.advances pid core then .next ({ s with latch := {} }.choose pid core chooseFuel) else .next { s with latch := {} }

end Sys2Proof.Machine
end

