-- ==== Sys2Proof/Machine/Matrix.lean ====
section
/-! DEFINITION. The matrix engines: checks at issue, the queue, configurations, progress units, the epilogue, priorities
(R127 to R149). -/

namespace Sys2Proof.Machine

/-! ### Checks at issue (R134) -/

/-- The object of a group with the lowest first byte among those that fail. -/
def lowestBad (bad : MObj → Bool) (os : List MObj) : Option MObj :=
  (os.filter bad).foldl (fun b o => match b with
    | none => some o
    | some x => if o.off < x.off then some o else b) none

/-- The first failing object: groups in R134's order, then the lowest offset. -/
def firstBad (bad : MObj → Bool) (gs : List (List MObj)) : Option MObj := gs.findSome? (lowestBad bad)

/-- `TVAL` of `MOPERAND` (R134). -/
def moperandTval (reason opnd off : Nat) : Word :=
  BitVec.ofNat 64 (reason * 2 ^ 24 + opnd * 2 ^ 20 + off % 0x100000)

/-- The object's bytes cross a bank boundary. -/
def MObj.crosses (o : MObj) : Bool := o.off / 65536 ≠ (o.off + o.len - 1) / 65536

/-- The BLOCK check of an `e2` or `cb2` segment. -/
def MObj.blockBad (o : MObj) : Bool :=
  match o.fmt with
  | some 5 => o.off % 65536 % 24 ≠ 0 || 65519 < o.off % 65536 + o.len - 1
  | some 6 => o.off % 65536 % 12 ≠ 0 || 65531 < o.off % 65536 + o.len - 1
  | _ => false

/-- The first byte of a descriptor's field that is reserved and not zero. -/
def resvByte (n lo w : Nat) : Option Nat :=
  ((List.range w).find? (fun i => n.testBit (lo + i))).map (fun i => (lo + i) / 8)

/-- The first byte of an epilogue descriptor that breaks R141, for output elements of `eb` bytes. -/
def descBad (d : List Byte) (eb : Nat) : Option Nat :=
  let n := leNat d
  let on (c : Bool) (k : Nat) : Option Nat := if c then some k else none
  let finite := bitsNat n 119 8 ≠ 255
  let bad := [resvByte n 21 11, resvByte n 53 11, on (descOstr d % 4 ≠ 0 || descOstr d < 128 * eb) 8, on (3 < descAct d) 10,
    resvByte n 87 9, on ((descAct d = 2 || descAct d = 3) && !finite) 12, resvByte n 128 128]
  (bad.filterMap (fun x => x)).foldl (fun b k => match b with
    | none => some k
    | some j => if k < j then some k else b) none

/-- The objects of a queued instruction in R134's order: index vector, A, B, image, descriptor, scale, bias, rows. -/
def MEntry.objects (e : MEntry) (offI offD : Nat) : List (List MObj) :=
  let segs (f : MPair → Nat → List MObj) : List MObj := match cfgPair e.cfg with
    | some p => (List.range e.units).flatMap (f p)
    | none => []
  match e.op with
  | .mma _ => [segs e.aSegs, segs e.bSegs]
  | .mmaG _ => [[{ opnd := 2, off := offI, len := 128, bank := true }], segs e.aSegs, segs e.bSegs]
  | .mzero => []
  | .minit => [[{ opnd := 3, off := e.offA, len := 32768 }]]
  | .mout => [[{ opnd := 4, off := offD, len := 32 }], e.vectors.filter (·.opnd = 5), e.vectors.filter (·.opnd = 6), e.outRows]

/-- What the ALIGN check looks at: object, offset and the multiple it must be. -/
def MEntry.aligned (e : MEntry) (offI : Nat) : List (Nat × Nat × Nat) :=
  match e.op with
  | .mma _ => [(0, e.offA, 4), (1, e.offB, 4)]
  | .mmaG _ => [(2, offI, 2), (0, e.offA, 4), (1, e.offB, 4)]
  | .mzero => []
  | .minit => [(3, e.offA, 4)]
  | .mout => e.vectors.map (fun o => (o.opnd, o.off, 4)) ++ [(7, e.offA, 4)]

/-- The FORMAT check: segments by their operand's format, output rows all alike and accepted (R140). -/
def MEntry.formatBad (e : MEntry) (o : MObj) : Bool :=
  let f := bfFmt (bankOf e.bf o.off)
  match o.fmt with
  | some x => f ≠ x
  | none => o.opnd = 7 && (f ≠ bfFmt (bankOf e.bf e.offA) || !moutDst f)

/-- The checks of R134 in their order: the `TVAL` of the first that fails. CONFIG names no object: its OPND is 0 (DESIGN CHOICE, log entry 94). -/
def MEntry.check (e : MEntry) (offI offD : Nat) : Option Word :=
  let os := e.objects offI offD
  let config : Bool := match e.op with
    | .mma _ | .mmaG _ | .mout => (cfgPair e.cfg).isNone
    | _ => false
  if config then some (moperandTval 7 0 0)
  else match (e.aligned offI).find? (fun x => x.2.1 % x.2.2 ≠ 0) with
  | some x => some (moperandTval 5 x.1 x.2.1)
  | none =>
  match firstBad (fun o => 0x100000 < o.off + o.len) os with
  | some o => some (moperandTval 1 o.opnd o.off)
  | none =>
  match firstBad (fun o => o.bank && o.crosses) os with
  | some o => some (moperandTval 2 o.opnd ((o.off / 65536 + 1) * 65536))
  | none =>
  match firstBad e.formatBad os with
  | some o => some (moperandTval 3 o.opnd o.off)
  | none =>
  match firstBad MObj.blockBad os with
  | some o => some (moperandTval 4 o.opnd o.off)
  | none =>
  match e.op with
  | .mout => (descBad e.desc e.outBytes).map (fun b => moperandTval 6 4 (offD + b))
  | _ => none

/-! ### Taking an entry (R128, R143) -/

/-- The output rows of a `mout` that round stochastically. -/
def MEntry.srRows (e : MEntry) : List Nat :=
  (List.range 64).filter (fun i => bfRm (bankOf e.bf (e.offA + i * descOstr e.desc)) = 5)

/-- A state's copy advanced by the draws of the rows that use it (R143): even rows draw from states 0 to 127, odd ones from
128 to 255. -/
def advanceSr (rows : List Nat) (sr : Vector (BitVec 32) 256) : Vector (BitVec 32) 256 :=
  let even := (rows.filter (· % 2 = 0)).length
  let odd := (rows.filter (· % 2 = 1)).length
  Vector.ofFn (fun l => drawN (if l.val < 128 then even else odd) sr[l])

/-- The bytes of an object read at issue. -/
def State.issueRead (s : State) (off n : Nat) : List Byte := s.readData (spadKey s.cur.id.pid s.cur.id.core off) n

/-- What a queued instruction of the slot in hand latches (R132, R133). -/
def State.newEntry (s : State) (eng : Nat) (op : MOp) (td : TNum) (offA offB units : Nat) : MEntry :=
  let x := s.myCore.live.engine eng
  { op := op, ctx := s.cur.id.ctx % 4, td := td.toNat, cfg := x.active, offA := offA, offB := offB, idx := [], units := units,
    done := 0, startAt := s.myCore.pcyc + 8, order := x.next, bf := s.myCore.live.bf, desc := [], sr := [], sat8 := s.me.sat8,
    addr := s.cur.addr, level := s.me.level, issue := s.cur.issue, doneAt := none }

/-- R128: the checks at issue, the reads at issue, and the entry; `reads` are the objects read now (R147). The context's own stores to
its field have been performed by then. -/
def State.enqueue (s : State) (eng : Nat) (e : MEntry) (offI offD : Nat) (reads : List (Nat × Nat)) (pri : Option (BitVec 2)) :
    Out :=
  if 8 ≤ ((s.myCore.live.engine eng).open s.myCore.pcyc).length || s.nearOut s.cur.id then .next s.hold
  else match e.check offI offD with
  | some tv => .next (s.raise causeMoperand tv)
  | none =>
  match reads.findSome? (fun r => s.raceCheck s.meAgent s.me.racedet false (spadKey s.cur.id.pid s.cur.id.core r.1) r.2) with
  | some tv => .next (s.raise causeRace tv)
  | none =>
    let s := reads.foldl (fun s r =>
      let k := spadKey s.cur.id.pid s.cur.id.core r.1
      (s.readBy s.cur.id none (s.heardAt k r.2)).consumeBad false (ownVa r.1) k r.2) s
    .next (s.updMyCore (fun k =>
      let x := k.live.engine eng
      { k with live := k.live.setEngine eng { x with
          queue := x.queue ++ [e], next := x.next + 1
          pri := (match pri with
            | some p => x.pri.set (s.cur.id.ctx % 4) p (Nat.mod_lt _ (by decide))
            | none => x.pri) } }))

/-- R135. -/
def execMma (eng : BitVec 1) (td : TNum) (aA aB : ANum) (ks : BitVec 6) (pri : BitVec 2) (acc : Bool) (s : State) : Out :=
  s.enqueue eng.toNat (s.newEntry eng.toNat (.mma acc) td (spadOff (s.ra aA)) (spadOff (s.ra aB)) (ks.toNat + 1)) 0 0 [] (some pri)

/-- R135: the index vector is read at issue (R134). -/
def execMmaG (eng : BitVec 1) (td : TNum) (aA aB aI : ANum) (ks : BitVec 6) (pri : BitVec 2) (acc : Bool) (s : State) : Out :=
  let offI := spadOff (s.ra aI)
  let bs := s.issueRead offI 128
  let e := s.newEntry eng.toNat (.mmaG acc) td (spadOff (s.ra aA)) (spadOff (s.ra aB)) (ks.toNat + 1)
  s.enqueue eng.toNat { e with idx := (List.range 64).map (fun i => bytesAt bs (2 * i) 2) } offI 0 [(offI, 128)] (some pri)

/-- R139. -/
def execMzero (eng : BitVec 1) (td : TNum) (s : State) : Out :=
  s.enqueue eng.toNat (s.newEntry eng.toNat .mzero td 0 0 8) 0 0 [] none
/-- R139. -/
def execMinit (eng : BitVec 1) (td : TNum) (aA : ANum) (s : State) : Out :=
  s.enqueue eng.toNat (s.newEntry eng.toNat .minit td (spadOff (s.ra aA)) 0 8) 0 0 [] none

/-- The context's stochastic states once a `mout` has issued (R143). -/
def State.drawRows (s : State) (rows : List Nat) : State :=
  if rows = [] then s else s.updMe (fun c => { c with sr := advanceSr rows c.sr })

/-- R140: the descriptor is read, and the stochastic states copied and advanced, at issue (R141, R143). -/
def execMout (eng : BitVec 1) (td : TNum) (aA : ANum) (d : BitVec 3) (pri : BitVec 2) (s : State) : Out :=
  let e := s.newEntry eng.toNat .mout td (spadOff (s.ra aA)) 0 8
  let offD := cfgEDB e.cfg + 32 * d.toNat
  let e := { e with desc := s.issueRead offD 32 }
  let e := { e with sr := if e.srRows = [] then [] else s.me.sr.toList }
  match s.enqueue eng.toNat e 0 offD [(offD, 32)] (some pri) with
  | .next t => .next (if t.latch.trap.isSome || t.latch.hold then t else t.drawRows e.srRows)
  | o => o

/-! ### Configurations, priorities, completion (R131, R132, R145, R146) -/

/-- Changes an engine of the own core. -/
def State.updEngine (s : State) (eng : Nat) (f : Engine → Engine) : State :=
  s.updMyCore (fun k => { k with live := k.live.setEngine eng (f (k.live.engine eng)) })

/-- The values `mcfg` admits (R131). -/
def cfgOk (v : Word) : Bool := fieldW v 60 4 = 0 && (cfgPair v).isSome && fieldW v 44 16 ≤ 0xFFF0

/-- R131. -/
def execMcfg (eng : BitVec 1) (aA : ANum) (s : State) : Out :=
  .next (if cfgOk (s.ra aA) then s.updEngine eng.toNat (fun x => { x with shadow := s.ra aA }) else s.illegalField)
/-- R132: a `csrr` of the same cycle still reads the configuration as it stood at issue (R317). -/
def execMdrain (eng : BitVec 1) (s : State) : Out :=
  .next (s.updEngine eng.toNat (fun x => { x with active := x.shadow, was := some (s.myCore.pcyc, x.cfgAt s.myCore.pcyc) }))
/-- R145. -/
def execMprio (eng : BitVec 1) (pri : BitVec 2) (s : State) : Out :=
  .next (s.updEngine eng.toNat (fun x => { x with pri := x.pri.set (s.cur.id.ctx % 4) pri (Nat.mod_lt _ (by decide)) }))

/-- Whether an earlier queued instruction of the context has not completed on an engine (R146). -/
def State.matrixBusy (s : State) (eng : Nat) : Bool :=
  ((s.myCore.live.engine eng).open s.myCore.pcyc).any (fun e => e.ctx = s.cur.id.ctx % 4)

/-- A `RACE` that an engine's running access met, raised at `mpoll` or `mwait` (R190); else the instruction goes on. -/
def State.afterRace (s : State) (eng : Nat) (k : Out) : Out :=
  match s.me.traps.find? (fun t => t.cause = causeRace && t.entry = eng) with
  | some t => .next (((s.updMe (fun c => { c with traps := c.traps.erase t })).raise causeRace t.tval).kept)
  | none => k

/-- R146. -/
def execMpoll (eng : BitVec 1) (pd : PNum) (s : State) : Out :=
  s.afterRace eng.toNat (.next (s.writeP 2 pd (!s.matrixBusy eng.toNat)))
/-- R146. -/
def execMwait (eng : BitVec 1) (s : State) : Out :=
  s.afterRace eng.toNat (.next (if s.matrixBusy eng.toNat then s.hold else s.blocking))

/-! ### Choosing a progress unit (R144, R145) -/

/-- Cycles of a progress unit (R144). -/
def MEntry.cycles (e : MEntry) : Nat :=
  match e.op with
  | .mma _ | .mmaG _ => ((cfgPair e.cfg).map (·.cyc)).getD 48
  | .mzero => 1
  | _ => 8

/-- The gather unit serves it. -/
def MEntry.gathers (e : MEntry) : Bool :=
  match e.op with
  | .mmaG _ => true
  | _ => false

/-- Each context's offer: its oldest outstanding instruction, if it has started or may start (R144, R145). -/
def Engine.offers (x : Engine) (now : Nat) : List MEntry :=
  (List.range 4).filterMap (fun c =>
    (x.queue.find? (fun e => e.ctx = c && e.done < e.units)).filter (fun e => 0 < e.done || e.startAt ≤ now))

/-- A context's priority for its next unit: passed over 64 times, above 3 (R145). -/
def Engine.prio (x : Engine) (c : Nat) : Nat :=
  if 64 ≤ x.passed[c % 4]'(Nat.mod_lt _ (by decide)) then 4 else (x.pri[c % 4]'(Nat.mod_lt _ (by decide))).toNat

/-- The offer taken: highest priority, then the earliest issue (R145). -/
def Engine.choice (x : Engine) (now : Nat) : Option MEntry :=
  (x.offers now).foldl (fun b e => match b with
    | none => some e
    | some y => if x.prio y.ctx < x.prio e.ctx ∨ (x.prio y.ctx = x.prio e.ctx ∧ e.order < y.order) then some e else b) none

/-- Whether an engine uses the gather unit now. -/
def Engine.gathering (x : Engine) : Bool :=
  match x.running with
  | some (o, _) => x.queue.any (fun e => e.order = o && e.gathers)
  | none => false

/-- Whether `mma.g` on engine `eng` has to leave the gather unit to the other engine: it is in use, or the other waits for
it and `eng` had it last (R144). -/
def CoreData.gatherTaken (d : CoreData) (eng now : Nat) : Bool :=
  let other := d.engine (eng + 1)
  other.gathering || (d.gatherLast = eng % 2 + 1 && other.running.isNone && ((other.choice now).map MEntry.gathers).getD false)

/-- MATRIX_UNIT_START: an idle engine of a running core takes its next progress unit (R144, R145). -/
def execMatrixUnitStart (pid core eng : Nat) (s : State) : Out :=
  let k := s.core pid core
  let x := k.live.engine eng
  match x.running, x.choice k.pcyc with
  | none, some e =>
    if k.swap ≠ .running || (e.gathers && k.live.gatherTaken eng k.pcyc) then .next s
    else
      let os := x.offers k.pcyc
      let passed : Vector Nat 4 := Vector.ofFn (fun c =>
        if c.val = e.ctx then 0 else if os.any (fun o => o.ctx = c.val) then x.passed[c] + 1 else x.passed[c])
      .next (s.updLive pid core (fun d =>
        { d.setEngine eng { x with running := some (e.order, k.pcyc + e.cycles), passed := passed } with
          gatherLast := if e.gathers then eng % 2 + 1 else d.gatherLast }))
  | _, _ => .next s

/-! ### A running instruction's accesses (R147, R190, R378) -/

/-- A conflict met while an instruction runs is pending until `mpoll` or `mwait`, one an engine (R190). -/
def State.matrixRace (s : State) (id : CtxId) (eng : Nat) (e : MEntry) (tv : Word) : State :=
  if (s.ctx id).traps.any (fun t => t.cause = causeRace && t.entry = eng % 2) then s
  else s.addTrap id { cause := causeRace, tval := tv, level := e.level, entry := eng % 2 }

/-- A consumed error of a queued instruction. -/
def State.matrixError (s : State) (id : CtxId) (e : MEntry) (addr : Word) : State :=
  s.updCtx id (fun c => c.consume { origin := 1, more := false, w := false, addr := addr, level := e.level, issue := e.issue })

/-- A read by the running instruction, as one of its context. -/
def State.matrixRead (s : State) (id : CtxId) (eng : Nat) (e : MEntry) (off n : Nat) : State :=
  let k := spadKey id.pid id.core off
  let s := match s.raceCheck ⟨id, false⟩ (s.ctx id).racedet false k n with
    | some tv => s.matrixRace id eng e tv
    | none => s
  let s := s.readBy id none (s.heardAt k n)
  match s.badAt k n with
  | some u => s.matrixError id e (ownVa (off + (u - k)))
  | none => s

/-- A row of results written by `mout`: a row in conflict is not written. -/
def State.matrixWrite (s : State) (id : CtxId) (eng : Nat) (e : MEntry) (off : Nat) (bs : List Byte) : State :=
  let k := spadKey id.pid id.core off
  match s.raceCheck ⟨id, false⟩ (s.ctx id).racedet true k bs.length with
  | some tv => s.matrixRace id eng e tv
  | none => s.storeBy (some ⟨id, false⟩) k bs none

/-- The elements of a row of a tile. -/
def CoreData.rowOf (d : CoreData) (eng td i : Nat) : List (BitVec 32) :=
  let k := tileKey eng td i 0
  let m := d.tiles.filter (fun x => k ≤ x.1 && x.1 < k + 128)
  (List.range 128).map (fun j => (NMap.get m (k + j)).getD 0)
/-- Whether an element lies in an uncorrectable unit (R377, R378). -/
def CoreData.badElem (d : CoreData) (eng td i j : Nat) : Bool := d.badTiles.contains (tileKey eng td i j / 2)
/-- Whether some element of rows `lo` to `hi − 1` does. -/
def CoreData.badRows (d : CoreData) (eng td lo hi : Nat) : Bool :=
  d.badTiles.any (fun u => tileKey eng td lo 0 ≤ 2 * u && 2 * u < tileKey eng td lo 0 + 128 * (hi - lo))

/-! ### Multiply-accumulate (R136 to R138) -/

/-- One new element of a float tile: the exact k-step added to prev and rounded once. -/
def mmaFloat (a : Option (List FVal)) (b : List FVal) (prev : FVal) : BitVec 32 × Fl :=
  let (st, f) := match a with
    | some a => kstep a b
    | none => (.fin false 0 0, 0)
  let (v, g) := faddX 0 prev st
  let (r, h) := roundF (fspec 0) false false 0 0 v
  (BitVec.ofNat 32 r, f ||| g ||| h)

/-- One new element of an `I32` tile. -/
def mmaInt (a : Option (List Int)) (b : List Int) (prev : BitVec 32) : BitVec 32 :=
  match a with
  | some a => prev + BitVec.ofInt 32 ((a.zip b).foldl (fun t p => t + p.1 * p.2) 0)
  | none => prev

/-- Rows 0 to 63 of a tile as a k-step leaves them, with the flags. -/
def State.kstepRows (s : State) (id : CtxId) (eng : Nat) (e : MEntry) (p : MPair) (n : Nat) (first : Bool) :
    List (List (BitVec 32 × Fl)) :=
  let d := (s.core id.pid id.core).live
  let rd := s.unitBytes id e
  let row (i : Nat) : Option Nat := match e.op with
    | .mmaG _ => let x := (e.idx[i]?).getD 0
                 if x = 0xFFFF then none else some (e.offA + n * cfgASTR e.cfg + x * p.sa)
    | _ => some (e.offA + n * cfgASTR e.cfg + i * p.sa)
  let cols := e.bSegs p n
  if p.int then
    let bs := cols.map (fun o => segInts rd o.off p.k)
    (List.range 64).map (fun i =>
      let a := (row i).map (fun off => segInts rd off p.k)
      (bs.zip (d.rowOf eng e.td i)).zipIdx.map (fun x =>
        (mmaInt a x.1.1 (if first || d.badElem eng e.td i x.2 then 0 else x.1.2), 0)))
  else
    let bs := cols.map (fun o => segFloats rd e.bf (cfgFB e.cfg) o.off p.k)
    (List.range 64).map (fun i =>
      let a := (row i).map (fun off => segFloats rd e.bf (cfgFA e.cfg) off p.k)
      (bs.zip (d.rowOf eng e.td i)).zipIdx.map (fun x =>
        mmaFloat a x.1.1 (if first then .fin false 0 0 else if d.badElem eng e.td i x.2 then .nan false
          else fdecode (fspec 0) x.1.2.toNat)))

/-- Rows of a tile set, from row `i` on. -/
def CoreData.putRows (d : CoreData) (eng td : Nat) : Nat → List (List (BitVec 32)) → CoreData
  | _, [] => d
  | i, r :: rs => (d.setRows eng td i r).putRows eng td (i + 1) rs

/-- One k-step (R136): read, checked, and written to the tile whole. -/
def State.kstepUnit (s : State) (id : CtxId) (eng : Nat) (e : MEntry) (acc : Bool) : State :=
  match cfgPair e.cfg with
  | none => s
  | some p =>
    let first := e.done = 0 && !acc
    let rows := s.kstepRows id eng e p e.done first
    let reads := e.kstepReads (s.unitBytes id e) p e.done
    let t := (reads.foldl (fun t r => t.matrixRead id eng e r.1 r.2) s).meterMatrix id (reads.map (·.2)).sum
    let t := if !first && (s.core id.pid id.core).live.badRows eng e.td 0 64 then t.matrixError id e 0 else t
    let fl := rows.foldl (fun (f : Fl) r => r.foldl (fun f x => f ||| x.2) f) 0
    let t := t.updLive id.pid id.core (fun d => d.putRows eng e.td 0 (rows.map (fun r => r.map (·.1))))
    if fl = 0 then t else t.updCtx id (fun c => c.record .m fl e.addr e.issue)

/-! ### The epilogue (R140 to R143) -/

/-- The F32 value at position j of a vector's bytes. -/
def vecAt (bs : List Byte) (j : Nat) : FVal := fdecode (fspec 0) (bytesAt bs (4 * j) 4)

/-- The activation of R142: the value and its flags. -/
def activate (act param : Nat) (x : FVal) : FVal × Fl :=
  if x.isNan then (x, 0)
  else
    let c := match fdecode (fspec 0) param with
      | .fin _ m e => FVal.fin false m e
      | v => v
    match act with
    | 1 => (if x.neg then .fin false 0 0 else x, 0)
    | 2 => (if fcmp x c = .gt then c else if fcmp x c.negate = .lt then c.negate else x, 0)
    | 3 => if x.neg && !x.isZero then fmulX x (fdecode (fspec 0) param) else (x, 0)
    | _ => (x, 0)

/-- One output element (R142): scale, bias, activation, one rounding. -/
def moutElem (d : List Byte) (scales biases : List Byte) (j dst rm : Nat) (sat8 : Bool) (draw : BitVec 32) (x : FVal) : Nat × Fl :=
  let (x, f1) := if descScen d then fmulX x (vecAt scales j) else (x, 0)
  let (x, f2) := if descBien d then faddX rm x (vecAt biases j) else (x, 0)
  let (x, f3) := activate (descAct d) (descParam d) x
  let (r, f4) := roundTo dst sat8 false rm draw x
  (r, f1 ||| f2 ||| f3 ||| f4)

/-- The draw of element (i, j) of a `mout`: state (128 i + j) mod 256, once for each stochastic row before it that uses the
same states, and once more (R143). -/
def MEntry.drawAt (e : MEntry) (i j : Nat) : BitVec 32 :=
  drawN ((e.srRows.filter (fun r => r < i && r % 2 = i % 2)).length + 1) ((e.sr[(128 * i + j) % 256]?).getD 0)

/-- The bytes and flags of output row `i`. -/
def CoreData.moutRow (d : CoreData) (eng : Nat) (e : MEntry) (scales biases : List Byte) (i : Nat) : List Byte × Fl :=
  let bank := bankOf e.bf (e.offA + i * descOstr e.desc)
  let int := ((cfgPair e.cfg).map (·.int)).getD false
  let rm := bfRm bank
  let xs := (d.rowOf eng e.td i).zipIdx.map (fun x =>
    let v : FVal :=
      if d.badElem eng e.td i x.2 then (if int then .fin false 0 0 else .nan false)
      else if int then ofInt false x.1.toInt 0 else fdecode (fspec 0) x.1.toNat
    moutElem e.desc scales biases x.2 (bfFmt bank) rm e.sat8 (if rm = 5 then e.drawAt i x.2 else 0) v)
  (xs.flatMap (fun x => leBytes e.outBytes x.1), xs.foldl (fun (f : Fl) x => f ||| x.2) 0)

/-- Rows 8u to 8u + 7 of a `mout`. -/
def State.moutUnit (s : State) (id : CtxId) (eng : Nat) (e : MEntry) : State :=
  let rd := s.unitBytes id e
  let d := (s.core id.pid id.core).live
  let scales := if descScen e.desc then rd (descScoff e.desc) 512 else []
  let biases := if descBien e.desc then rd (descBioff e.desc) 512 else []
  let t := e.vectors.foldl (fun t o => t.matrixRead id eng e o.off o.len) s
  let t := if d.badRows eng e.td (8 * e.done) (8 * e.done + 8) then t.matrixError id e 0 else t
  (List.range 8).foldl (fun t r =>
    let i := 8 * e.done + r
    let (bs, fl) := d.moutRow eng e scales biases i
    let t := t.matrixWrite id eng e (e.offA + i * descOstr e.desc) bs
    if fl = 0 then t else t.updCtx id (fun c => c.record .m fl e.addr e.issue)) t

/-! ### Progress units (R139, R144, R149) -/

/-- Rows 8u to 8u + 7 of a `minit`. -/
def State.minitUnit (s : State) (id : CtxId) (eng : Nat) (e : MEntry) : State :=
  let off := e.offA + 4096 * e.done
  let bs := s.unitBytes id e off 4096
  let rows := (List.range 8).map (fun r => (List.range 128).map (fun j => BitVec.ofNat 32 (bytesAt bs (512 * r + 4 * j) 4)))
  (s.matrixRead id eng e off 4096).updLive id.pid id.core (fun d => d.putRows eng e.td (8 * e.done) rows)

/-- Performs an instruction's next progress unit. -/
def State.matrixUnit (s : State) (id : CtxId) (eng : Nat) (e : MEntry) : State :=
  match e.op with
  | .mma acc | .mmaG acc => s.kstepUnit id eng e acc
  | .mzero => s.updLive id.pid id.core (fun d =>
      d.putRows eng e.td (8 * e.done) (List.replicate 8 (List.replicate 128 0)))
  | .minit => s.minitUnit id eng e
  | .mout => s.moutUnit id eng e

/-- An instruction with one more unit done, the last of which completes it 8 cycles later (R144). -/
def MEntry.advance (e : MEntry) (now : Nat) : MEntry :=
  { e with done := e.done + 1, doneAt := if e.done + 1 = e.units then some (now + 8) else none }

/-- The running unit of an engine ends: its effect is made whole (R136, R144, R149). -/
def State.unitOver (s : State) (pid core eng : Nat) : State :=
  let k := s.core pid core
  match (k.live.engine eng).running with
  | none => s
  | some (order, _) =>
    match (k.live.engine eng).queue.find? (fun e => e.order = order) with
    | none => s
    | some e =>
      (s.matrixUnit ⟨pid, core, e.ctx⟩ eng e).updLive pid core (fun d =>
        let x := d.engine eng
        d.setEngine eng { x with running := none, queue := x.queue.map (fun y => if y.order = order then y.advance k.pcyc else y) })

/-- MATRIX_UNIT_END: the running unit's cycles are over; its effect is made whole (R136, R144, R149). -/
def execMatrixUnitEnd (pid core eng : Nat) (s : State) : Out :=
  let k := s.core pid core
  match (k.live.engine eng).running with
  | none => .next s
  | some (_, due) => .next (if k.pcyc < due ∨ k.swap ≠ .running then s else s.unitOver pid core eng)

/-- MATRIX_COMPLETE: instructions whose 8 cycles after the last unit are over leave the queue (R128, R144). -/
def execMatrixComplete (pid core eng : Nat) (s : State) : Out :=
  let k := s.core pid core
  .next (s.updLive pid core (fun d =>
    let x := d.engine eng
    d.setEngine eng { x with queue := x.open k.pcyc }))

end Sys2Proof.Machine
end

