-- ==== Sys2Proof/Machine/Preempt.lean ====
section
/-! DEFINITION. Pre-emption: stopping, saving, eviction and restoring of whole cores, and the replay of what was outstanding
(R15, R181, R191, R207, R259, R269 to R275, R277, R396, R402). -/

namespace Sys2Proof.Machine

/-! ### Requests and stopping (R269, R270) -/

/-- The instance that a core has been given to. -/
def State.instOn (s : State) (pid core : Nat) : Option Inst :=
  (s.pkg pid).insts.find? (fun i => (i.state = .running || i.state = .placing) && i.cores.contains core)

/-- The instance whose state stands in a core. -/
def State.instIn (s : State) (pid core : Nat) : Option Inst :=
  ((s.core pid core).live.ctx 0).inst.bind (fun n => (s.pkg pid).insts.find? (fun i => i.id = n))

/-- Changes an instance. -/
def State.updInst (s : State) (pid n : Nat) (f : Inst → Inst) : State :=
  s.updPkg pid (fun p => { p with insts := p.insts.map (fun i => if i.id = n then f i else i) })

/-- Every freeze of a core ends; its landings stay outstanding (R207, R270). -/
def Core.thawed (k : Core) : Core := { k with freeze := [] }

/-- A request meets a core: a running one stops, a restore is abandoned, any other swap goes on as it is (R270). A core whose
instance is being killed drops the request (R402). -/
def State.requestStop (s : State) (pid core : Nat) : State :=
  if (match s.instIn pid core with
      | some i => i.dying.isSome
      | none => false) then s
  else match (s.core pid core).swap with
    | .running => s.updCore pid core (fun k => { k.thawed with swap := .stopping })
    | .restoring _ =>
      let t := s.updCore pid core (fun k => { k with swap := .parked })
      (match s.instOn pid core with
       | some i => t.updInst pid i.id (fun i =>
           let cs := i.cores.filter (· ≠ core)
           { i with cores := cs, state := if cs = [] then .parked else i.state, since := if cs = [] then s.now pid else i.since })
       | none => t)
    | _ => s

/-- Whether all cores belong to bays of one partition (R269). -/
def State.onePartition (s : State) (pid : Nat) (cores : List Nat) : Bool :=
  match cores with
  | [] => false
  | c :: cs => (s.partOfCore pid c).isSome && cs.all (fun d => s.partOfCore pid d = s.partOfCore pid c)

/-- PREEMPT_REQUEST (R269, R270). -/
def execPreemptRequest (pid : Nat) (cores : List Nat) (s : State) : Out :=
  .next (if s.onePartition pid cores then cores.foldl (fun s c => s.requestStop pid c) s else s)

/-- The key of shadow slot `n` of a core (R15); keys from 2^20 on are save areas. -/
def slotKey (core n : Nat) : Nat := core * 4 + n
def saveAreaBase : Nat := 2 ^ 20

/-- Where a core's state can be saved: a free shadow slot, or without any slots the save area (R15, R270). -/
def State.saveSlot (s : State) (pid core : Nat) : Option Nat :=
  let p := s.pkg pid
  if p.slotsPerCore = 0 then some (saveAreaBase + s.fresh)
  else ((List.range p.slotsPerCore).map (slotKey core)).find? (fun k => (p.images.get k).isNone)

/-- The cycles of an engine's instructions counted from a stop or a resumption: `f` takes one count to the other (R149). -/
def Engine.rebase (e : Engine) (f : Nat → Nat) : Engine :=
  { e with was := none, running := none, queue := e.queue.map (fun x => { x with startAt := f x.startAt, doneAt := x.doneAt.map f }) }

/-- A stopped core: fixed-latency operations complete, a bundle that waits is executed again on resumption (R125, R270, R273), and
the engines' cycles count from the stop. -/
def CoreData.stopped (d : CoreData) (now : Nat) : CoreData :=
  { d with ctxs := d.ctxs.map (fun c => { c.drain with next := none, age := 0 }), eng := d.eng.map (fun e => e.rebase (· - now)) }

/-- STOPPING_COMPLETE: each engine has reached the next progress point of the instruction it runs (R149); SAVING starts, once a slot
is free (R270). -/
def execStoppingComplete (pid core : Nat) (s : State) : Out :=
  match (s.core pid core).swap, s.saveSlot pid core with
  | .stopping, some n =>
    .next ((((s.unitOver pid core 0).unitOver pid core 1).bump).updCore pid core (fun k =>
      { k with swap := .saving n, live := k.live.stopped k.pcyc }))
  | _, _ => .next s

/-! ### Saving (R15, R191, R270, R274) -/

/-- The release counts and horizons of a core's contexts (R191). -/
def State.raceImage (s : State) (pid core : Nat) : List (Nat × Nat × List Nat × List Nat) :=
  (coreAgents core).map (s.race pid (bayOf core)).agentData

/-- Puts counts and horizons into a bay's store; zeros are not listed. -/
def Race.putAgent (r : Race) (x : Nat × Nat × List Nat × List Nat) : Race :=
  let nz (n : Nat) : Option Nat := if n = 0 then none else some n
  { r with
    rc := r.rc.put x.1 (nz x.2.1)
    h := (x.2.2.1.zipIdx).foldl (fun (m : NMap Nat) y => m.put (x.1 * 64 + y.2) (nz y.1)) r.h
    pv := (x.2.2.2.zipIdx).foldl (fun (m : NMap Nat) y => m.put (x.1 * 64 + y.2) (nz y.1)) r.pv }

/-- The contexts of a core as agents with empty counts and horizons. -/
def State.raceClear (s : State) (pid core : Nat) : State :=
  s.updRace pid (bayOf core) (fun r => (coreAgents core).foldl (fun r a => r.putAgent (a, 0, List.replicate 40 0, List.replicate 40 0)) r)

/-- Whether a key lies in a core's scratchpad. -/
def inSpad (pid core k : Nat) : Bool := spadKey pid core 0 ≤ k && k < spadKey pid core 0 + 0x100000

/-- Messages in flight that write a core's scratchpad under an owner epoch (R274). -/
def Msg.boundFor (m : Msg) (pid core epoch : Nat) : Bool :=
  m.epoch = epoch && !m.body.isReply && (match m.body.dest with
    | some (.phys p a) => p = pid && spadCore a = some core
    | _ => false)

/-- The contexts of a core. -/
def ctxsOf (pid core : Nat) : List CtxId := (List.range 4).map (fun x => ⟨pid, core, x⟩)

/-- The image of a core as the context-save engine copies it (R15, R274). -/
def State.imageOf (s : State) (pid core n : Nat) : Image :=
  let k := s.core pid core
  let base := spadKey pid core 0
  { place := if n < saveAreaBase then .shadow else .saveArea
    core := core
    epoch := k.epoch
    data := { k.live with ctxs := k.live.ctxs.mapIdx (fun x c =>
      { c with waiting := false, ident := some (s.identOf ⟨pid, core, x⟩) }) }
    spad := (s.mem.filter (fun c => inSpad pid core c.1)).map (fun c => (c.1 - base, c.2))
    drain := (s.net.filter (fun m => m.boundFor pid core k.epoch && m.body.access.1 ≠ .read)).length
    bad := (s.bad.filter (fun u => inSpad pid core u.1)).map (fun u => (u.1 - base, u.2))
    rels := (s.rels.filter (fun r => inSpad pid core r.key)).map (fun r => { r with key := r.key - base })
    race := s.raceImage pid core }

/-- The first identity given to images other than a place's own number (R306), and to placed instances. -/
def freshIdent : Nat := 2 ^ 42

/-- A core that holds nothing: its contexts keep their channels' SEQ and ACKT, and have new identities (R393; log entry 17). -/
def Core.emptied (k : Core) (fresh : Nat) : Core :=
  { k with
    live := { ctxs := k.live.ctxs.mapIdx (fun x c =>
                { chanSeq := c.chanSeq, ackt := c.ackt, ident := some (freshIdent + 4 * fresh + x) }) }
    primary := none, yielded := none, freeze := [], epoch := fresh + 1, quillTurn := 0 }

/-- An instance all of whose cores have been saved is PARKED (R264): it waits from now on (R265). -/
def State.parkInst (s : State) (pid : Nat) (i : Option Inst) : State :=
  match i with
  | none => s
  | some i =>
    if i.cores.all (fun c => (s.core pid c).swap = .parked) then
      s.updInst pid i.id (fun i => { i with state := .parked, cores := [], since := s.now pid })
    else s

/-- A landing's read of one of some identities. -/
def Msg.loadOf (m : Msg) (ids : List Nat) : Bool :=
  ids.contains m.src.ident && !m.src.chain && (match m.body with
    | .load .. => true
    | _ => false)

/-- A write that waits on BLK at a place of a core: of a context, of its commands, of its chains. -/
def Blocked.onCore (b : Blocked) (pid core : Nat) : Bool :=
  16 ≤ b.chan && b.chan < 1024 && b.id.any (fun id => id.pid = pid && id.core = core)
/-- The writes of a core's contexts and chains wait no longer: their bundles and units are begun again, or are no more (R344). -/
def State.unblockCore (s : State) (pid core : Nat) : State :=
  s.updPkg pid (fun p => { p with blocked := p.blocked.filter (fun b => !b.onCore pid core) })

/-- SAVE_COMPLETE: the slot is complete and the state PARKED (R270). The landings' reads that are still to be made are over: what they
would bring is discarded, and made again at resumption (R207). -/
def execSaveComplete (pid core : Nat) (s : State) : Out :=
  match (s.core pid core).swap with
  | .saving n =>
    let i := s.imageOf pid core n
    let ids := (ctxsOf pid core).map s.identOf
    let t := { s with net := s.net.filter (fun m => !m.loadOf ids) }
    let t := (t.unblockCore pid core).bump.updPkg pid (fun p => { p with images := p.images.put n (some i) })
    .next ((t.updCore pid core (fun k => { k.emptied s.fresh with swap := .parked })).parkInst pid (s.instIn pid core))
  | _ => .next s

/-! ### Eviction (R270, R274) -/

/-- Whether an image is being read into some core. -/
def State.beingRestored (s : State) (pid slot : Nat) : Bool :=
  s.cores.any (fun (c : Nat × Core) => c.1 / 1024 = pid && c.2.swap = .restoring slot)

/-- EVICT: a parked slot that a third state needs is copied to the save area, once its drain counter is 0. -/
def execEvict (pid core slot : Nat) (s : State) : Out :=
  match (s.pkg pid).images.get (slotKey core slot) with
  | some i =>
    .next (if i.place = .shadow && i.drain = 0 && !s.beingRestored pid (slotKey core slot) then
      s.updPkg pid (fun p => { p with images := p.images.put (slotKey core slot) (some { i with place := .evicting }) })
    else s)
  | none => .next s

/-- EVICT_COMPLETE: the state is SAVED, and its slot free. -/
def execEvictComplete (pid core slot : Nat) (s : State) : Out :=
  match (s.pkg pid).images.get (slotKey core slot) with
  | some i =>
    .next (if i.place = .evicting then
      s.bump.updPkg pid (fun p => { p with
        images := (p.images.put (slotKey core slot) none).put (saveAreaBase + s.fresh) (some { i with place := .saveArea }) })
    else s)
  | none => .next s

/-! ### Restoring (R181, R207, R270 to R277, R396) -/

/-- Whether a core holds nothing that would be lost: parked, or with every context ended and nothing of theirs under way. -/
def State.idle (s : State) (pid core : Nat) : Bool :=
  let k := s.core pid core
  !s.coreDead pid core &&
  (k.swap = .parked || (k.swap = .running && k.live.chains = [] && k.live.eng.all (fun e => e.queue = []) &&
    k.live.ctxs.all (fun c => c.halted && !c.parkMark && c.ifr.all (fun e => e.state = .free || e.state = .retired))))

/-- Whether a core can take an image: idle, and given to no instance but the image's own. -/
def State.vacant (s : State) (pid core : Nat) (inst : Option Nat) : Bool :=
  s.idle pid core && (match s.instOn pid core with
    | none => true
    | some i => some i.id = inst)

/-- Whether an island is at or above its warning temperature (R267). -/
def State.islandWarm (s : State) (pid bay : Nat) : Bool := Config.warnTemp ≤ Config.islandTemp pid bay (s.pkg pid).cycle.toNat

/-- The step an island runs a new placing at, where heat does not force one (R267): the lowest that its power cap allows, and one step
higher than its present one on a warm island. -/
def State.placeStep (s : State) (pid bay : Nat) : Nat :=
  if s.islandWarm pid bay then Nat.min 4 (((s.pkg pid).island bay).step + 1)
  else Config.capStep pid bay (s.pkg pid).cycle.toNat % 5
/-- A placing sets the step of an island. -/
def State.setStep (s : State) (pid bay : Nat) : State :=
  let step := s.placeStep pid bay
  s.updPkg pid (fun p => { p with islands := p.islands.put bay (some { (p.island bay) with step := step }) })

/-- Whether an instance is being placed on an island already. -/
def State.placingOn (s : State) (pid n bay : Nat) : Bool :=
  (s.pkg pid).insts.any (fun i => i.id = n && i.cores.any (fun c => bayOf c = bay))

/-- Begins the restore of an image into a core; its instance is PLACING, and its first core on an island sets that island's step
(R264, R267). -/
def State.startRestore (s : State) (pid core slot : Nat) (i : Image) : State :=
  let t := s.updCore pid core (fun k => { k with swap := .restoring slot })
  match (i.data.ctx 0).inst with
  | none => t
  | some n => (if s.placingOn pid n (bayOf core) then t else t.setStep pid (bayOf core)).updInst pid n (fun j =>
      if j.state = .parked || j.state = .placing then
        { j with state := .placing, cores := if j.cores.contains core then j.cores else j.cores ++ [core] }
      else j)

/-- RESTORE_START: a parked or saved state is chosen again; `slot` is the key of its image. -/
def execRestoreStart (pid core slot : Nat) (s : State) : Out :=
  match (s.pkg pid).images.get slot with
  | some i =>
    .next (if s.vacant pid core (i.data.ctx 0).inst && (i.place = .shadow || i.place = .saveArea) && !s.beingRestored pid slot &&
        s.partOfCore pid core = s.partOfCore pid i.core then s.startRestore pid core slot i
    else s)
  | none => .next s

/-- A context as it resumes: answers of earlier operations are stale (R272), landings are asked for again, from now where their P
has passed (R207), a join is sent again (R306), and probes cover the traffic from now on (R213). -/
def Ctx.resumed (c : Ctx) (now : Nat) : Ctx :=
  { c with
    gen := c.gen + 1
    waiting := false
    next := none
    routes := []
    ifr := c.ifr.map (fun e => { e with landing := e.landing.map (fun l =>
      { l with data := 0, arrived := false, frozen := 0, heard := [],
               base := if e.promised.toNat < now then some now else l.base }) })
    hoopWait := c.hoopWait.map (fun w => if w.join then { w with seq := 0 } else w) }

/-- A `cpy.land` whose bytes have not landed begins again, as it stood at its beginning (R83, R207); the registers it has latched stay
(R77). -/
def Chain.again (c : Chain) : Chain :=
  let u := c.undo.getD c.before
  { c with off := c.head, elem := 0, unit := 0, acks := 0, wait := false, got := none, held := [], loops := [], final := none,
           timer := none, bad := none, fl := u.fl, sr := u.sr, draws := u.draws, ahead := [] }

/-- A chain at its progress point: a unit whose messages were not all answered is done again as it was begun, its once operations with
their tags (R207, R228, R273). -/
def Chain.resumed (c : Chain) : Chain :=
  if c.land && !c.landed then c.again else { c.redo with acks := 0, bad := none }

/-- The data of an image as it is read into a core, at a cycle of the package and one of the core. -/
def CoreData.resumed (d : CoreData) (now pcyc : Nat) : CoreData :=
  { d with ctxs := d.ctxs.map (fun c => c.resumed now), chains := d.chains.map Chain.resumed, eng := d.eng.map (fun e => e.rebase (· + pcyc)) }

/-- The later of two SEQ counts, a resumed context's and its place's: no tag is used twice (R393; log entry 17). -/
def laterSeq (a b : BitVec 16) : BitVec 16 := if (b - a).toNat < 2 ^ 15 then b else a

/-- The granules of a core's scratchpad are set to "none": the context-save engine's write is tracked for no agent (R187). -/
def State.untagSpad (s : State) (pid core : Nat) : State :=
  s.updRace pid (bayOf core) (fun r => { r with tags := r.tags.filter (fun (t : Nat × Nat × Nat) => t.1 / 4096 ≠ core % 8) })

/-- Bytes of an image's scratchpad in a core's, the granules as they are. -/
def State.spadFrom (s : State) (pid core : Nat) (i : Image) : State :=
  let base := spadKey pid core 0
  let low := s.mem.filter (fun c => c.1 < base)
  let high := s.mem.filter (fun c => base + 0x100000 ≤ c.1)
  let mid := i.spad.foldr (fun (c : Nat × Byte) m => putByte m (base + c.1 % 0x100000) c.2) []
  { s with
    mem := low ++ mid ++ high
    bad := s.bad.filter (fun u => !inSpad pid core u.1) ++ i.bad.map (fun (u : Nat × Nat) => (base + u.1, u.2))
    rels := s.rels.filter (fun r => !inSpad pid core r.key) ++
      i.rels.map (fun (r : RelMark) => { r with key := base + r.key }) }

/-- The context-save engine writes an image's scratchpad into a core's (R187). -/
def State.putSpadOf (s : State) (pid core : Nat) (i : Image) : State := (s.spadFrom pid core i).untagSpad pid core

/-- Counts and horizons of the resumed contexts: those of the image on the same core, empty ones on another, where the granules
tagged with the old identities are set to "none" (R191). -/
def State.raceRestore (s : State) (pid core : Nat) (i : Image) : State :=
  if core = i.core then s.updRace pid (bayOf core) (fun r => i.race.foldl Race.putAgent r)
  else
    let s := s.updRace pid (bayOf i.core) (fun r => { r with
      tags := r.tags.filter (fun (t : Nat × Nat × Nat) => !(coreAgents i.core).contains t.2.1) })
    s.raceClear pid core

/-- A membership register as its hoop stands at resumption (R259, R306). -/
def State.hoopRefresh (s : State) (id : CtxId) : State :=
  (List.range 4).foldl (fun s m => match s.hoopOf (s.identOf id) m with
    | some (_, h) => s.updCtx id (fun c => if hoopmV (c.hoopReg m) then c.setHoopReg m h.word else c)
    | none => s) s

/-! The replay of an in-flight record. -/

/-- Who an entry's replayed access is made for. -/
def State.replayWho (s : State) (id : CtxId) (i : Nat) : Who :=
  { pid := id.pid, core := id.core, part := s.partOfCore id.pid id.core, level := (s.entry id i).level, agent := some id,
    slot := s.replaySlot id }

/-- The access of an entry that is replayed: its kind and length; none: it reaches no memory of a context's own (R181). -/
def IfrEntry.access (e : IfrEntry) : Option (AccKind × Nat) :=
  match e.kind.toNat with
  | 0 => some (.read, 256)
  | 2 | 9 => some (.write, e.bytes.length)
  | 10 => some (.group, e.bytes.length)
  | _ => none

/-- Whether an entry's replay has to wait: for a sealed line that its translation meets, or for BLK, BLKTMO µs at most (R183, R344);
what it waits for is kept. -/
def State.replayHeld (s : State) (id : CtxId) (i : Nat) : State × Bool :=
  match (s.entry id i).access with
  | none => (s, false)
  | some (kind, n) =>
    match (s.access (s.replayWho id i) kind (s.entry id i).target n).2 with
    | .lined .waits => (s, true)
    | .blocked part va =>
      (match (s.pkg id.pid).blocked.find? (fun b => b.id = some id && b.chan = 16 && b.part = part && b.va = va) with
       | some b => (s, !b.expired)
       | none =>
         let left := ((s.part id.pid part).map (fun x => x.blktmo * Config.cyclesPerMicrosecond)).getD 0
         (s.updPkg id.pid (fun p => { p with
           blocked := p.blocked ++ [{ id := some id, part := part, va := va, left := left, expired := false }] }), true))
    | _ => (s, false)

/-- An entry's access that ends without being sent: with a cause of R379, or in `UNDECIDED` (R399). -/
def State.replayFails (s : State) (id : CtxId) (i : Nat) (w : Bool) (origin : Nat) : State :=
  let e := s.entry id i
  let s := s.consumeAt id i origin w e.target
  if w then s.retire id i okStatus else s.updEntry id i (fun e => { e with landing := e.landing.map (fun l => { l with left := 0 }) })

/-- Sends an entry's access again; one that no longer resolves ends as a refused one (log entry 18), one that meets an undecided line as
R399 says. -/
def State.replayAccess (s : State) (id : CtxId) (i : Nat) (kind : AccKind) (n : Nat) (mk : List Piece → Dest → Nat → Nat → Body) :
    State :=
  let e := s.entry id i
  match s.access (s.replayWho id i) kind e.target n with
  | (s, .ok ps) =>
    let s := s.updEntry id i (fun e => { e with probes := ps.length, landing := e.landing.map (fun l => { l with left := ps.length }) })
    s.sendPieces (s.srcOf id i) e.chan.toNat e.target ps (mk ps)
  | (s, .lined (.undecided g ep)) =>
    if kind = .read then s.landingUndecided id i g ep
    else s.replayFails id i true 6
  | (s, _) => s.replayFails id i (kind ≠ .read) 2

/-- A command to an engine: what it has become goes on and answers the resumed context, or its kept answer is given again
(R273). -/
def State.replayCommand (s : State) (id : CtxId) (i : Nat) : State :=
  let src := s.srcOf id i
  let tag := ({ src := src, chan := (s.entry id i).chan.toNat, dst := .die id.pid, body := .probe } : Msg).tag
  let mine (x : Src) : Bool := x.ident = src.ident && x.entry = src.entry && x.seq = src.seq && !x.chain
  let again (x : Src) : Src := if mine x then { x with gen := src.gen } else x
  match (s.cache (.die id.pid)).find? (fun e => e.1.src = tag.src && e.1.seq = tag.seq && e.1.off = 0 && e.1.elem = 0 && e.1.chan = tag.chan) with
  | some e => { s with net := s.net ++ [{ src := src, chan := 0, dst := .die id.pid, body := .resp e.2.1 e.2.2 }] }
  | none =>
    let s := s.updPkg id.pid (fun p => { p with
      commits := p.commits.map (fun (c : Commit) => { c with src := again c.src })
      colls := p.colls.map (fun (c : Coll) => { c with src := again c.src })
      hists := p.hists.map (fun (c : Hist) => { c with src := again c.src }) })
    let e := s.entry id i
    if e.kind = 5 then s.send { src := src, chan := 0, dst := .die id.pid, body := .cmbClose (BitVec.ofNat 64 (leNat e.bytes)) }
    else s

/-- One outstanding entry, replayed by its class (R181, R273, R396). -/
def State.replayEntry (s : State) (id : CtxId) (i : Nat) : State :=
  let e := s.entry id i
  match e.kind.toNat with
  | 0 => s.replayAccess id i .read 256 (fun _ d o n => .load d o n)
  | 2 => s.replayAccess id i .write e.bytes.length (fun _ d o n => .flsig d (pieceBytes e.bytes o n) (e.scope.getD 0))
  | 3 =>
    let src := s.srcOf id i
    let s := s.updEntry id i (fun e => { e with probes := e.routes.length })
    e.routes.foldl (fun s r => s.send { src := src, chan := e.chan.toNat, dst := homeOfCode r, body := .probe }) s
  | 9 => s.replayAccess id i .write e.bytes.length (fun _ d o n => .store d (pieceBytes e.bytes o n) e.scope)
  | 10 => s.replayAccess id i .group e.bytes.length (fun ps d o n =>
      .group d (pieceBytes e.bytes o n) e.group e.epoch (homeShare ps d) e.scope)
  | 11 => s.send { src := s.srcOf id i, chan := 0, dst := .die id.pid, body := .cmbOpen e.bytes e.mayWrite }
  | 1 => s
  | _ => s.replayCommand id i

/-- How far back an entry's SEQ lies on its channel: 1 for the last one issued. -/
def Ctx.seqAge (c : Ctx) (i : Nat) : Nat :=
  let e := c.entry i
  (c.chanSeq[e.chan.toNat % 16]'(Nat.mod_lt _ (by decide)) - e.seq).toNat

/-- Inserts an entry in a list that goes from the oldest SEQ to the newest. -/
def Ctx.insertOldest (c : Ctx) (i : Nat) : List Nat → List Nat
  | [] => [i]
  | j :: js => if c.seqAge j < c.seqAge i then i :: j :: js else j :: c.insertOldest i js

/-- The outstanding entries of a context. -/
def Ctx.outstanding (c : Ctx) : List Nat := (List.range 64).filter (fun i => (c.entry i).state = .outstanding)

/-- Replays a context's outstanding entries, in ascending SEQ on each channel (R396). -/
def State.replayAll (s : State) (id : CtxId) : State :=
  let c := s.ctx id
  let out := c.outstanding
  (out.foldl (fun l i => c.insertOldest i l) []).foldl (fun s i => s.replayEntry id i) s

/-- An instance all of whose cores run again is RUNNING (R264). -/
def State.resumeInst (s : State) (pid : Nat) (i : Image) : State :=
  match (i.data.ctx 0).inst with
  | none => s
  | some n =>
    let more := (s.pkg pid).images.any (fun (x : Nat × Image) => (x.2.data.ctx 0).inst = some n)
    s.updInst pid n (fun j =>
      if j.state = .placing && !more && j.cores.all (fun c => (s.core pid c).swap = .running) then { j with state := .running } else j)

/-- An image's place once its state is in a core under a new owner epoch: free, or, while writes to the state are in flight, draining
(R274). Places that drain already pass their writes on. -/
def Pkg.leaveSlot (p : Pkg) (n : Nat) (i : Image) (heir : Option Nat) : Pkg :=
  let on (x : Image) : Image := if x.place = .draining && x.heir = some i.epoch then { x with heir := heir } else x
  let rest : NMap Image := (p.images.put n none).map (fun (x : Nat × Image) => (x.1, on x.2))
  { p with images := if i.drain = 0 then rest
      else NMap.put rest n (some { i with place := .draining, data := {}, bad := [], rels := [], race := [], heir := heir }) }

/-- The state of an image read into a core, before the replay. The scratchpad has a new owner epoch; what was on its way to the core
waits for the restore and then finds this state (R24). -/
def State.readImage (s : State) (pid core n : Nat) (i : Image) : State :=
  let k := s.core pid core
  let epoch := s.fresh + 1
  let d := i.data.resumed (s.now pid) k.pcyc
  let d := { d with ctxs := d.ctxs.mapIdx (fun x c =>
      { c with chanSeq := Vector.ofFn (fun q => laterSeq (c.chanSeq[q.val]'q.isLt) ((k.live.ctx x).chanSeq[q.val]'q.isLt)) }) }
  let ids := i.data.ctxs.toList.filterMap (·.ident)
  let net := (s.net.filter (fun (m : Msg) => !m.loadOf ids)).map (fun (m : Msg) =>
    if m.boundFor pid core k.epoch then { m with epoch := epoch } else m)
  let s := { (s.putSpadOf pid core i).bump with net := net }
  let s := s.updCore pid core (fun k => { k with
    live := d, epoch := epoch, swap := .running, primary := none, yielded := none, freeze := [], quillTurn := 0 })
  (s.raceRestore pid core i).updPkg pid (fun p => p.leaveSlot n i (some epoch))

/-- RESTORE_COMPLETE: the state is in the core; its contexts replay what was outstanding, and the core is RUNNING (R270, R272,
R273, R277). While a replayed access waits at its translation, the restore goes on. -/
def execRestoreComplete (pid core : Nat) (s : State) : Out :=
  match (s.core pid core).swap with
  | .restoring n =>
    (match (s.pkg pid).images.get n with
     | none => .next (s.updCore pid core (fun k => { k with swap := .parked }))
     | some i =>
       let t := s.readImage pid core n i
       let (u, held) := (ctxsOf pid core).foldl (fun (a : State × Bool) id =>
         (t.ctx id).outstanding.foldl (fun (a : State × Bool) e =>
           let (u, h) := a.1.replayHeld id e
           (u, a.2 || h)) a) (t, false)
       if held then .next (s.updPkg pid (fun p => { p with blocked := (u.pkg pid).blocked }))
       else
         let t := (ctxsOf pid core).foldl (fun (s : State) id => ((s.hoopRefresh id).replayAll id).splicedAt id (s.ctx id).pc) t
         let t := t.updPkg pid (fun p => { p with
           blocked := p.blocked.filter (fun b => !(b.chan = 16 && (ctxsOf pid core).any (fun id => b.id = some id))) })
         .next (t.resumeInst pid i))
  | _ => .next s

end Sys2Proof.Machine
end

