-- ==== Sys2Proof/Machine/Graph.lean ====
section
/-! DEFINITION. The graph dispatchers: launch words, replays, node descriptors, placing, ageing, completion, kills and failures
(R260 to R268, R340, R382, R383, R388 to R392). -/

namespace Sys2Proof.Machine

/-! ### Records and memory of a partition -/

/-- The agent that records of a partition's own units name: its lowest field. -/
def State.unitAgent (s : State) (pid part : Nat) : Nat := agentOfField (((s.part pid part).map (·.lowestField)).getD 0)

/-- Whether a read through a partition's page tables waits for a sealed line (R183). -/
def State.virtWaits (s : State) (pid part va n : Nat) : Bool :=
  match s.ownRange pid part .read (n / 65536 + 2) va n with
  | .lined _ => true
  | .ok ps => s.lineOver ps ≠ .clear
  | _ => false

/-- A dispatcher's read of some bytes, counted as any translated access (R343). -/
def State.countRead (s : State) (pid part va n : Nat) : State :=
  (s.touchAll pid part .read (s.unitAgent pid part) false (n / 65536 + 2) va n).1

/-- What a write through a partition's page tables comes to. -/
inductive Wrote where
  | wrote
  | lined (l : Line)
  | blocked (va : Nat)
  | fails
deriving DecidableEq, Repr

/-- A write through a partition's page tables by a unit of the device or the host, copy on write included (R338, R341, R353). -/
def State.virtWrite (s : State) (pid part va : Nat) (bs : List Byte) : State × Wrote :=
  let fuel := bs.length / 65536 + 2
  match s.ownRange pid part .write fuel va bs.length with
  | .blocked _ v => (s, .blocked v)
  | .lined l => (s, .lined l)
  | .fault .. => (s, .fails)
  | .ok ps =>
    if s.lineOver ps ≠ .clear then (s, .lined (s.lineOver ps))
    else match s.touchAll pid part .write (s.unitAgent pid part) false fuel va bs.length with
      | (_, .error (.lined l)) => (s, .lined l)
      | (t, .error _) => (t, .fails)
      | (t, .ok m) => (t.writeOver (movePieces m va ps) bs, .wrote)

/-- A write of no context that waits for a page: the host's (16), or a dispatcher's (18), by its channel number. -/
def Blocked.unit (b : Blocked) (chan part : Nat) : Bool := b.id = none && b.chan = chan && b.part = part
/-- Such a write no longer waits. -/
def State.unblockUnit (s : State) (pid chan part : Nat) : State :=
  s.updPkg pid (fun p => { p with blocked := p.blocked.filter (fun b => !b.unit chan part) })
/-- Such a write meets BLK: it waits, BLKTMO µs at most (R344): whether that time is over. -/
def State.unitBlocked (s : State) (pid chan part va : Nat) : State × Bool :=
  match (s.pkg pid).blocked.find? (fun b => b.unit chan part && b.va = va) with
  | some b => if b.expired then (s.unblockUnit pid chan part, true) else (s, false)
  | none =>
    let left := ((s.part pid part).map (fun x => x.blktmo * Config.cyclesPerMicrosecond)).getD 0
    ((s.unblockUnit pid chan part).updPkg pid (fun p => { p with
      blocked := p.blocked ++ [{ id := none, chan := chan, part := part, va := va, left := left, expired := false }] }), false)

/-- A dispatcher's write, and whether it is over: performed, or ended where its page does not admit it; it waits for a sealed line, and
for BLK as R344 says. -/
def State.dispatchWrite (s : State) (pid part va : Nat) (bs : List Byte) : State × Bool :=
  match s.virtWrite pid part va bs with
  | (t, .wrote) | (t, .fails) => (t.unblockUnit pid 18 part, true)
  | (_, .lined _) => (s, false)
  | (_, .blocked v) => s.unitBlocked pid 18 part v

/-- A host access is refused: counted per aperture; a read completes with Completer Abort, a write is dropped. -/
def State.hostRefuse (s : State) (pid part : Nat) : State :=
  ((s.count pid (hostCounter + part)).updPkg pid (fun p => { p with hostData := none })).unblockUnit pid 16 part

/-- A host's write, and whether it was performed: it is dropped, with no record, where its page does not admit it or its line ends
undecided, and otherwise waits, for BLK BLKTMO µs at most (R183, R344, R353, R399). -/
def State.hostWrite (s : State) (pid part va : Nat) (bs : List Byte) : State × Bool :=
  match s.virtWrite pid part va bs with
  | (t, .wrote) => (t.unblockUnit pid 16 part, true)
  | (_, .fails) => (s.hostRefuse pid part, false)
  | (_, .lined (.undecided ..)) => (s.hostRefuse pid part, false)
  | (_, .lined _) => (s, false)
  | (_, .blocked v) =>
    (match s.unitBlocked pid 16 part v with
     | (t, true) => (t.hostRefuse pid part, false)
     | (t, false) => (t, false))

/-- The record of a broken graph header (R260, R336). -/
def State.headerFault (s : State) (pid part header byte : Nat) : State :=
  s.post pid part 1 header byte (s.unitAgent pid part)

/-! ### The graph image header (R260) -/

def ghLaunch (h : List Byte) : Nat := bytesAt h 0 8
def ghNodes (h : List Byte) : Nat := bytesAt h 8 8
def ghNnode (h : List Byte) : Nat := bytesAt h 16 2
def ghDage (h : List Byte) : Nat := bytesAt h 18 2
def ghPbase (h : List Byte) : Nat := bytesAt h 24 8
def ghPsize (h : List Byte) : Nat := bytesAt h 32 8
def ghTvecp (h : List Byte) : Nat := bytesAt h 40 8

/-- The first offending field of a header. -/
def headerWrong (h : List Byte) : Option Nat :=
  let thr := bytesAt h 20 4
  leastByte [(ghLaunch h % 8 ≠ 0, 0), (ghNodes h % 64 ≠ 0, 8), (ghNnode h = 0, 16), (ghDage h = 0, 18),
    (thr / 2 ^ 23 % 256 = 255 || (thr / 2 ^ 31 = 1 && thr % 2 ^ 31 ≠ 0), 20), (ghPbase h % 65536 ≠ 0, 24),
    (ghPsize h % 65536 ≠ 0, 32), (2 ^ 57 ≤ ghTvecp h, 40), (bytesAt h 48 16 ≠ 0, 48)]

/-- The header of a partition's graph image as it stands in memory. -/
def State.graphHeader (s : State) (pid part : Nat) : Option (List Byte) :=
  ((s.part pid part).bind (·.header)).bind (fun h => s.virt pid part h.toNat 64)

/-- REQ of a partition's launch word, as it stands. -/
def State.launchReq (s : State) (pid part : Nat) : Option Nat :=
  (s.graphHeader pid part).bind (fun h => (s.virt pid part (ghLaunch h) 4).map leNat)

/-- The dispatcher observes a change of REQ: an increase by d below 2^31 requests d replays (R261); with a broken header it posts the
record and starts nothing (R260). -/
def State.observeReq (s : State) (pid part : Nat) (old : Option Nat) : State :=
  match old, s.launchReq pid part, s.graphHeader pid part with
  | some a, some b, some h =>
    let d := (b + 2 ^ 32 - a) % 2 ^ 32
    if d = 0 ∨ 2 ^ 31 ≤ d then s
    else match headerWrong h with
      | some byte => s.headerFault pid part (((s.part pid part).bind (·.header)).getD 0).toNat byte
      | none => s.updPart pid part (fun x => { x with requested := x.requested + d })
  | _, _, _ => s

/-- LAUNCH_WORD_WRITE (R193, R260, R261): the host stores REQ in the launch word of the image whose header stands at `header`. A store
that waits is presented again. -/
def execLaunchWordWrite (pid part : Nat) (header : Word) (req : BitVec 32) (s : State) : Out :=
  match s.part pid part with
  | none => .next s
  | some _ =>
    let t := s.updPart pid part (fun x => { x with header := some header })
    if t.virtWaits pid part header.toNat 64 then .next s
    else match t.graphHeader pid part with
      | none => .next (t.headerFault pid part header.toNat 0)
      | some h =>
        if ghLaunch h % 8 ≠ 0 then .next (t.headerFault pid part header.toNat 0)
        else if t.virtWaits pid part (ghLaunch h) 4 then .next s
        else
          let old := t.launchReq pid part
          .next (match t.hostWrite pid part (ghLaunch h) (leBytes 4 req.toNat) with
            | (u, true) => u.observeReq pid part old
            | (u, false) => u)

/-! ### Node descriptors (R262, R263, R389) -/

def ndCode (d : List Byte) : Nat := bytesAt d 0 8
def ndParam (d : List Byte) : Nat := bytesAt d 8 8
def ndSucc (d : List Byte) : Nat := bytesAt d 16 8
def ndNsucc (d : List Byte) : Nat := bytesAt d 24 2
def ndNpred (d : List Byte) : Nat := bytesAt d 26 2
def ndPri (d : List Byte) : Nat := bytesAt d 28 1 % 8
def ndNcore (d : List Byte) : Nat := bytesAt d 29 1
def ndRole (d : List Byte) (x : Nat) : Nat := bitsNat (bytesAt d 30 1) (2 * x) 2
def ndMask (d : List Byte) : Nat := bytesAt d 31 1 % 16
def ndField (d : List Byte) : Nat := bitsNat (bytesAt d 31 1) 4 3
def ndSplice (d : List Byte) : Nat := bytesAt d 32 8
def ndOutl (d : List Byte) : Nat := bytesAt d 40 8
def ndLatch (d : List Byte) (i : Nat) : Nat := bytesAt d (48 + 2 * i) 2
/-- Fields of a latch binding (R263). -/
def lbMode (b : Nat) : Nat := b / 2 ^ 14
def lbWord (b : Nat) : Nat := bitsNat b 8 6
def lbNum (b : Nat) : Nat := b % 256

/-- Cores of a partition in a field. -/
def Part.coresIn (x : Part) (f : Nat) : Nat := 8 * ((List.range 16).filter (fun b => x.hasBay (16 * f + b))).length

/-- The first offending field of a descriptor (R262 to R264). -/
def nodeWrong (x : Part) (d : List Byte) : Option Nat :=
  let own : List (Bool × Nat) := [(ndParam d % 8 ≠ 0, 8), (ndSucc d % 2 ≠ 0, 16), (8 ≤ bytesAt d 28 1, 28),
    (ndNcore d = 0 || 128 < ndNcore d || x.coresIn (ndField d) < ndNcore d, 29), (128 ≤ bytesAt d 31 1, 31),
    (bytesAt d 56 8 ≠ 0, 56)]
  leastByte (own ++
    (List.range 4).map (fun i => (lbMode (ndLatch d i) = 3 || (lbMode (ndLatch d i) ≠ 0 && lbWord (ndLatch d i) = 0), 48 + 2 * i)))

/-- The output page list of a node: BASE and LEN, or a breach (R389). -/
def State.outPages (s : State) (pid part : Nat) (d : List Byte) : Option (Nat × Nat) :=
  (s.virt pid part (ndOutl d) 16).bind (fun b =>
    let base := bytesAt b 0 8
    let len := bytesAt b 8 8
    if base % 65536 ≠ 0 ∨ 2 ^ 57 ≤ base ∨ len = 0 ∨ 2 ^ 41 ≤ len then none else some (base, len))

/-- The address of a node's descriptor. -/
def State.nodeAddr (s : State) (pid part node : Nat) : Nat :=
  ((s.graphHeader pid part).map (fun h => ghNodes h + 64 * node)).getD 0

/-! ### Instances -/

def State.inst (s : State) (pid n : Nat) : Option Inst := (s.pkg pid).insts.find? (fun i => i.id = n)

/-- An instance in FAILED, with a record: its KIND and DETAIL. -/
def State.failInst (s : State) (pid : Nat) (i : Inst) (kind detail : Nat) : State :=
  (s.updInst pid i.id (fun j => { j with state := .failed, cores := [], dying := none })).post pid i.part kind
    (s.nodeAddr pid i.part i.node) detail (agentOfField i.field)

/-- The NODEDESC record (R336). -/
def State.descFault (s : State) (pid : Nat) (i : Inst) (byte : Nat) : State :=
  s.failInst pid i 2 (i.node % 65536 + byte * 65536)

/-- BLOCKED instances whose predecessors have completed become READY at their PRI, once the same node's instance of the previous
replay has been placed (R261, R264). -/
def State.readyUp (s : State) (pid part : Nat) : State :=
  let now := s.now pid
  (s.pkg pid).insts.foldl (fun s i =>
    if i.part = part && i.state = .blocked && i.preds = 0 &&
       (s.pkg pid).insts.all (fun j => !(j.part = part && j.node = i.node && j.replay < i.replay && !j.placed)) then
      s.bump.updInst pid i.id (fun i => { i with state := .ready, level := i.pri, order := s.fresh, since := now })
    else s) s

/-- A replay is over: all instances DONE, or one FAILED and none PLACING, RUNNING or PARKED (R261, R392). -/
def State.replayOver (s : State) (pid part no : Nat) : Bool :=
  let is := (s.pkg pid).insts.filter (fun i => i.part = part && i.replay = no)
  is.all (fun i => i.state = .done) ||
  (is.any (fun i => i.state = .failed) && is.all (fun i => i.state ≠ .placing && i.state ≠ .running && i.state ≠ .parked))

/-- DONE of the launch word, one higher: the state, and whether the write is over (R261). -/
def State.countDone (s : State) (pid part : Nat) : State × Bool :=
  match s.graphHeader pid part with
  | none => (s, !(((s.part pid part).bind (·.header)).any (fun h => s.virtWaits pid part h.toNat 64)))
  | some h =>
    if s.virtWaits pid part (ghLaunch h + 4) 4 then (s, false)
    else
      let done := ((s.virt pid part (ghLaunch h + 4) 4).map leNat).getD 0
      s.dispatchWrite pid part (ghLaunch h + 4) (leBytes 4 (done + 1))

/-- A replay that is over: its snapshot is released, its instances are dropped and DONE counts it, once no line or page that this needs
is held (R261, R392). -/
def State.endReplay (s : State) (pid part no : Nat) : State :=
  if (s.pkg pid).replays.any (fun r => r.part = part && r.no = no) && s.replayOver pid part no &&
     !s.slotWaits pid part (56 + no % 8) then
    match s.countDone pid part with
    | (t, false) => t
    | (t, true) =>
      ((t.releaseSlot pid part (56 + no % 8) (t.unitAgent pid part)).updPkg pid (fun p => { p with
        insts := p.insts.filter (fun i => !(i.part = part && i.replay = no))
        replays := p.replays.filter (fun r => !(r.part = part && r.no = no)) })).readyUp pid part
  else s

/-! ### Replays (R261) -/

/-- The instance of node `n` at its replay's start. -/
def State.newInst (s : State) (pid part no n : Nat) : State :=
  let base : Inst :=
    { id := s.fresh, part := part, replay := no, node := n, field := 0, state := .blocked, preds := 0, level := 0, order := s.fresh,
      since := s.now pid, cores := [], ctxMask := 0, slot := none, kills := 0, externMark := false, placed := false }
  let add (s : State) (i : Inst) : State := s.bump.updPkg pid (fun p => { p with insts := p.insts ++ [i] })
  match s.nodeDesc pid part n, s.part pid part with
  | some d, some x =>
    let i := { base with field := ndField d, preds := ndNpred d, pri := ndPri d, ctxMask := ndMask d }
    (match nodeWrong x d with
     | some b => (add s i).descFault pid i b
     | none => add s i)
  | _, _ => (add s base).descFault pid base 0

/-- Every replay of a partition that is over. -/
def State.endReplays (s : State) (pid part : Nat) : State :=
  ((s.pkg pid).replays.filter (fun r => r.part = part)).foldl (fun s r => s.endReplay pid part r.no) s

/-- What a replay's start reads and changes is free of sealed lines: header, node table, parameter region (R183). -/
def State.startWaits (s : State) (pid part header : Nat) : Bool :=
  s.virtWaits pid part header 64 || (match s.graphHeader pid part with
    | none => false
    | some h => (headerWrong h).isNone &&
        (s.virtWaits pid part (ghNodes h) (64 * ghNnode h) || s.rangeWaits pid part (ghPbase h) (ghPsize h / 65536)))

/-- REPLAY_START: replays that are over end; then the next requested one starts, with fewer than 8 under way and its slot's last replay
over (R260, R261). -/
def execReplayStart (pid part : Nat) (s : State) : Out :=
  let s := s.endReplays pid part
  match s.part pid part, (s.part pid part).bind (·.header) with
  | some x, some hv =>
    let rs := (s.pkg pid).replays.filter (fun r => r.part = part)
    if x.requested ≤ x.started ∨ 8 ≤ rs.length ∨ rs.any (fun r => r.no % 8 = x.started % 8) ∨ s.startWaits pid part hv.toNat then .next s
    else
      let none' (b : Nat) : Out := .next ((s.updPart pid part (fun x => { x with requested := x.started })).headerFault pid part hv.toNat b)
      match s.graphHeader pid part with
      | none => none' 0
      | some h =>
        match headerWrong h with
        | some b => none' b
        | none =>
          let no := x.started
          match s.takeRange pid part (56 + no % 8) (ghPbase h) (ghPsize h / 65536) with
          | none => none' 24
          | some t =>
            let t := (t.countRead pid part hv.toNat 64).countRead pid part (ghNodes h) (64 * ghNnode h)
            let t := t.updPart pid part (fun x => { x with started := x.started + 1 })
            let t := t.updPkg pid (fun p => { p with replays := p.replays ++ [{ part := part, no := no }] })
            let t := (List.range (ghNnode h)).foldl (fun t n => t.newInst pid part no n) t
            .next ((t.readyUp pid part).endReplay pid part no)
  | _, _ => .next s

/-! ### Placing (R264, R265, R267, R340, R389) -/

/-- The instance the dispatcher of a field takes next: the highest level, then the first that entered it (R265). -/
def State.chosenInst (s : State) (pid part field : Nat) : Option Inst :=
  ((s.pkg pid).insts.filter (fun i => i.part = part && i.field = field && (i.state = .ready || i.state = .parked))).foldl
    (fun (b : Option Inst) i => match b with
      | none => some i
      | some j => if j.level < i.level ∨ (i.level = j.level ∧ i.order < j.order) then some i else b) none

/-- Whether cores are NCORE whole cores of the partition in the instance's field that run no other instance (R265). -/
def State.coresFit (s : State) (pid : Nat) (i : Inst) (n : Nat) (cores : List Nat) : Bool :=
  cores.length = n && cores.Nodup && cores.all (fun c => c < 1024 && fieldOf c = i.field && s.partOfCore pid c = some i.part &&
    !s.coreDead pid c && (match s.instOn pid c with
      | none => true
      | some j => j.id = i.id))

/-- A free rollback slot (R340). -/
def Part.rollbackSlot (x : Part) : Option Nat := ((List.range 8).map (48 + ·)).find? (fun n => (x.slot n).state = .free)

/-- Word 1 to 63 of a parameter block, with the latch bindings applied in order (R263). -/
def Part.bind (x : Part) (field : Nat) (d : List Byte) (ws : List Nat) : List Nat :=
  (List.range 4).foldl (fun ws i =>
    let b := ndLatch d i
    let n := lbNum b
    match lbMode b with
    | 1 => ws.set (lbWord b) (x.latch field n).toNat
    | 2 => ws.set (lbWord b) (((ws[lbWord b]?).getD 0 +
        ((List.range n).map (fun m => (x.latch field m).toNat)).sum) % 2 ^ 64)
    | _ => ws) ws

/-- The dispatcher as it reads for an instance: through the snapshot of its replay (R261). -/
def Inst.reader (i : Inst) (pid : Nat) : Who :=
  { pid := pid, core := 128 * i.field, part := some i.part, level := .partition, slot := some (56 + i.replay % 8) }
def State.paramWords (s : State) (pid : Nat) (i : Inst) (d : List Byte) : Option (List Nat) :=
  match s.resolve (i.reader pid) .read (BitVec.ofNat 64 (ndParam d)) 512 with
  | .ok ps => if ps.all (fun p => match p.dest with
        | .phys .. => true
        | .exposure .. => false) then
      let bs := ps.flatMap (fun p => match p.dest with
        | .phys q a => s.physBytes q a p.len
        | .exposure .. => [])
      some ((List.range 64).map (fun n => bytesAt bs (8 * n) 8))
    else none
  | _ => none
/-- Whether the read of a parameter block waits for a sealed line (R183). -/
def State.paramWaits (s : State) (pid : Nat) (i : Inst) (d : List Byte) : Bool :=
  match s.resolve (i.reader pid) .read (BitVec.ofNat 64 (ndParam d)) 512 with
  | .lined _ => true
  | .ok ps => s.lineOver ps ≠ .clear
  | _ => false

/-- A used or unused context of a placed core (R264). -/
def placedCtx (old : Ctx) (d : List Byte) (tvec : Nat) (ws : List Nat) (map : List (Nat × Word)) (inst ident x : Nat) : Ctx :=
  let c : Ctx := { chanSeq := old.chanSeq, ackt := old.ackt, ident := some ident, inst := some inst, oldMap := map }
  if (ndMask d).testBit x then
    { c with
      halted := false
      level := .program
      pc := BitVec.ofNat 64 (ndCode d)
      npc := BitVec.ofNat 64 (ndCode d)
      role := BitVec.ofNat 2 (ndRole d x)
      tvec := BitVec.ofNat 64 tvec
      g := Vector.ofFn (fun n => if n.val = 0 then 0 else BitVec.ofNat 64 ((ws[n.val]?).getD 0)) }
  else c

/-- A placed core: scratchpad, tiles and barriers 0, other core-wide state at reset, its contexts set up (R264). -/
def State.placeCore (s : State) (pid : Nat) (i : Inst) (d : List Byte) (tvec : Nat) (ws : List Nat) (map : List (Nat × Word)) (core : Nat) :
    State :=
  let s := s.putSpadOf pid core { place := .shadow, core := core, epoch := 0, data := {}, spad := [], drain := 0, race := [] }
  let s := (s.raceClear pid core).bump
  s.updCore pid core (fun k => { (k.emptied s.fresh) with
    swap := .running
    pcyc := k.pcyc
    live := { ctxs := k.live.ctxs.mapIdx (fun x c => placedCtx c d tvec ws map i.id (freshIdent + 4 * s.fresh + x) x) } })

/-- What the rollback snapshot of a placing comes to (R340, R389). -/
inductive Rollback where
  /-- the node names no output page list -/
  | unneeded
  | taken (s : State) (slot : Nat)
  /-- no slot is free -/
  | busy
  /-- a breach of OUTL, or a range that cannot be snapshotted -/
  | wrong
  | waits
deriving DecidableEq, Repr

/-- The rollback snapshot of a placing, in a free slot. -/
def State.takeRollback (s : State) (pid : Nat) (i : Inst) (x : Part) (d : List Byte) : Rollback :=
  if ndOutl d = 0 then .unneeded
  else if s.virtWaits pid i.part (ndOutl d) 16 then .waits
  else match s.outPages pid i.part d, x.rollbackSlot with
    | none, _ => .wrong
    | some _, none => .busy
    | some (base, len), some n =>
      if s.rangeWaits pid i.part base len then .waits
      else match s.takeRange pid i.part n base len with
        | none => .wrong
        | some t => .taken (t.countRead pid i.part (ndOutl d) 16) n

/-- A fresh placing on idle cores: parameters, then the cores, and one step for each island (R263, R264, R267). Where the parameter block
cannot be read the instance fails, and its rollback slot, nothing having run, is free again (R340). -/
def State.placeFresh (s : State) (pid : Nat) (i : Inst) (x : Part) (d : List Byte) (cores : List Nat) : State :=
  if s.paramWaits pid i d || (ndSplice d ≠ 0 && s.virtWaits pid i.part (ndSplice d) 8) then s
  else match s.paramWords pid i d with
    | none =>
      if i.slot.any (fun n => s.slotWaits pid i.part n) then s
      else
        let s := match i.slot with
          | some n => s.releaseSlot pid i.part n (agentOfField i.field)
          | none => s
        (s.descFault pid i 8).updInst pid i.id (fun j => { j with slot := none })
    | some ws =>
      let s := (s.countRead pid i.part (s.nodeAddr pid i.part i.node) 64).countRead pid i.part (ndParam d) 512
      let tvec := ((s.graphHeader pid i.part).map ghTvecp).getD 0
      let map := if ndSplice d = 0 then [] else s.pcMap pid i.part (ndSplice d)
      let t := (cores.map bayOf).eraseDups.foldl (fun t b => t.setStep pid b)
        (cores.foldl (fun t c => t.placeCore pid i d tvec (x.bind i.field d ws) map c) s)
      let ids := cores.flatMap (fun c => (List.range 4).map (fun n => t.identOf ⟨pid, c, n⟩))
      (t.bump.updInst pid i.id (fun j => { j with
        state := .running, cores := cores, placed := true, placedAt := t.fresh, pri := ndPri d, ctxMask := ndMask d,
        idents := ids, mat := 0, hbm := 0 })).readyUp pid i.part

/-- The images of a parked instance, in the order of the cores they came from. -/
def State.imagesOf (s : State) (pid n : Nat) : List (Nat × Image) :=
  (s.pkg pid).images.filter (fun (x : Nat × Image) => (x.2.data.ctx 0).inst = some n)

/-- Placing goes on: cores that hold another state are saved first; then a parked instance is restored, and any other is set up
(R264, R270). -/
def State.placeInst (s : State) (pid : Nat) (i : Inst) (x : Part) (d : List Byte) (cores : List Nat) : State :=
  let imgs := s.imagesOf pid i.id
  if !cores.all (fun c => s.idle pid c) then
    (cores.foldl (fun s c => if (s.core pid c).swap = .running && !s.idle pid c then s.requestStop pid c else s) s).updInst pid i.id
      (fun j => { j with state := .placing, cores := cores })
  else if imgs ≠ [] then
    if imgs.all (fun m => m.2.place ≠ .evicting && !s.beingRestored pid m.1) then
      (imgs.zip cores).foldl (fun s m => s.startRestore pid m.2 m.1.1 m.1.2) (s.updInst pid i.id (fun j => { j with cores := [] }))
    else s
  else (s.updInst pid i.id (fun j => { j with state := .placing, cores := cores })).placeFresh pid i x d cores

/-- A placing from its beginning: an accumulating instance takes its rollback snapshot first, and is placed only when a slot is free;
otherwise it stays READY (R340, R389). -/
def State.placeOn (s : State) (pid : Nat) (i : Inst) (x : Part) (d : List Byte) (cores : List Nat) : State :=
  if i.slot.isSome || s.imagesOf pid i.id ≠ [] then s.placeInst pid i x d cores
  else match s.takeRollback pid i x d with
    | .unneeded => s.placeInst pid i x d cores
    | .taken t n => (t.updInst pid i.id (fun j => { j with slot := some n })).placeInst pid { i with slot := some n } x d cores
    | .busy => s.updInst pid i.id (fun j => { j with state := .ready, cores := [] })
    | .wrong => s.descFault pid i 40
    | .waits => s

/-- Cores that placing needs: NCORE of the descriptor, or the images of a parked instance. -/
def State.placeCount (s : State) (pid : Nat) (i : Inst) (d : List Byte) : Nat :=
  match s.imagesOf pid i.id with
  | [] => ndNcore d
  | ms => ms.length

/-- Whether the dispatcher's reads for an instance wait for a sealed line: header and descriptor (R183). -/
def State.nodeWaits (s : State) (pid : Nat) (i : Inst) : Bool :=
  ((s.part pid i.part).bind (·.header)).any (fun h => s.virtWaits pid i.part h.toNat 64) ||
  s.virtWaits pid i.part (s.nodeAddr pid i.part i.node) 64

/-! ### Kills and failures (R382, R383, R391, R392, R402) -/

/-- Chains that end with their context: owed arrivals poison their barriers (R383). -/
def State.poisonChains (s : State) (pid core : Nat) (d : CoreData) : State :=
  d.chains.foldl (fun s c => s.poisonOwed (c.id pid core) c) s

/-- A stopped core of an instance: no chain, no queued instruction, every context ended and its record dropped. -/
def CoreData.killed (d : CoreData) : CoreData :=
  { d with
    ctxs := d.ctxs.map (fun c => { c with
      halted := true, waiting := false, stall := 0, pend := [], traps := [], err := none, efence := none, hoopWait := none, next := none,
      parkMark := false, ifr := c.ifr.map (fun e => { e with state := .free, landing := none, gdest := none }),
      fence := none, inval := none, age := 0 })
    eng := d.eng.map (fun e => { e with queue := [], running := none })
    chains := [] }

/-- The contexts of an instance's cores belong to it no more. -/
def State.leaveInst (s : State) (pid : Nat) (i : Inst) : State :=
  i.cores.foldl (fun s c => s.updLive pid c (fun d => { d with ctxs := d.ctxs.map (fun c =>
    { c with inst := none, doneStatus := none, oldMap := [] }) })) s

/-- The used contexts of a running instance. -/
def Inst.used (i : Inst) (pid : Nat) : List CtxId :=
  i.cores.flatMap (fun c => ((List.range 4).filter (fun x => i.ctxMask.testBit x)).map (fun x => ⟨pid, c, x⟩))

/-- The histograms and collectives of some sources end where they stand: what they have not done is discarded (R391). -/
def Pkg.withoutWork (p : Pkg) (ids : List Nat) : Pkg :=
  { p with
    hists := p.hists.filter (fun (h : Hist) => !ids.contains h.src.ident)
    colls := p.colls.filter (fun (c : Coll) => !ids.contains c.src.ident) }

/-- Stop: the cores of an instance stop and what they had not sent is dropped, the units' work for it with it; a parked state is discarded,
and its slot is free once the writes in flight to it have been applied (R274, R391, R402). -/
def State.stopInst (s : State) (pid : Nat) (i : Inst) : State :=
  let s := i.cores.foldl (fun s c =>
    if ((s.core pid c).live.ctx 0).inst = some i.id then
      let k := s.core pid c
      ((s.poisonChains pid c k.live).unblockCore pid c).updCore pid c (fun k =>
        { k with live := k.live.killed, freeze := [], swap := .running })
    else s) s
  let s := (s.imagesOf pid i.id).foldl (fun s m =>
    let t := (s.spadFrom pid m.2.core m.2).poisonChains pid m.2.core m.2.data
    let t := { t with mem := s.mem, bad := s.bad, rels := s.rels }
    let t := t.purge (fun x => (List.range 4).any (fun n => placeBits (t.sourceTag ⟨pid, m.2.core, n⟩) = placeBits x.src))
    t.updPkg pid (fun p => p.leaveSlot m.1 m.2 none)) s
  let s := { s with cores := s.cores.map (fun (c : Nat × Core) => (c.1, match c.2.swap with
    | .restoring n => if c.1 / 1024 = pid && ((s.pkg pid).images.get n).all (fun (m : Image) => m.place = Place.draining)
        then { c.2 with swap := .parked } else c.2
    | _ => c.2)) }
  let s := { s with pkgs := s.pkgs.map (fun (p : Nat × Pkg) => (p.1, p.2.withoutWork i.idents)) }
  { s with net := s.net.filter (fun (m : Msg) => !(i.idents.contains m.src.ident && (m.retry || m.body.isReply || m.loadOf i.idents ||
      (match m.body with
       | .probe => true
       | _ => false)))) }

/-- Whether every operation that an instance has sent is performed, refused or discarded (R391, step 2), and its pages can be restored
(R183). -/
def State.settledInst (s : State) (pid : Nat) (i : Inst) : Bool :=
  !s.net.any (fun m => i.idents.contains m.src.ident) && !(i.slot.any (fun n => s.slotWaits pid i.part n))

/-- The units of some sources leave a group that is not yet sealed (R391, step 3). -/
def GroupRec.without (g : GroupRec) (ids : List Nat) : GroupRec :=
  if g.state = .opened then { g with units := g.units.filter (fun u => !ids.contains u.ident) } else g

/-- Steps 2 to 4 of a kill: suppression entries, staged units, pages (R391). -/
def State.undoInst (s : State) (pid : Nat) (i : Inst) : State :=
  let tags := (i.used pid).map (fun id => placeBits (s.sourceTag id))
  let s := s.purge (fun t => tags.contains (placeBits t.src))
  let s := { s with pkgs := s.pkgs.map (fun (p : Nat × Pkg) => (p.1, { p.2 with
    groups := p.2.groups.map (fun (g : Nat × GroupRec) => (g.1, g.2.without i.idents)) })) }
  let s := match i.slot with
    | some n => s.restoreSlot pid i.part n (agentOfField i.field)
    | none => s
  s.leaveInst pid i

/-- A descriptor that breaks R262 to R264 puts its instance in FAILED with a record; a parked one is first stopped, settled and undone as
in a kill (R264, R391, R392). -/
def State.nodeBreach (s : State) (pid : Nat) (i : Inst) (byte : Nat) : State :=
  let t := if s.imagesOf pid i.id = [] then s else s.stopInst pid i
  if !t.settledInst pid i then t
  else (((t.undoInst pid i).descFault pid i byte).updInst pid i.id (fun j => { j with slot := none })).endReplay pid i.part i.replay

/-- NODE_PLACE (R264, R265, R267): the dispatcher takes the instance, if it is the one to take, on cores that allow it; with its
partition's energy exhausted it is HELD. -/
def execNodePlace (pid inst : Nat) (cores : List Nat) (s : State) : Out :=
  match s.inst pid inst with
  | none => .next s
  | some i =>
    if i.state ≠ .ready && i.state ≠ .placing && i.state ≠ .parked || s.nodeWaits pid i then .next s
    else match s.part pid i.part, s.nodeDesc pid i.part i.node with
      | some x, some d =>
        (match nodeWrong x d with
         | some b => .next (s.nodeBreach pid i b)
         | none =>
           if !s.coresFit pid i (s.placeCount pid i d) cores ∨
              (i.state ≠ .placing ∧ ((s.chosenInst pid i.part i.field).map (·.id)) ≠ some inst) then .next s
           else if i.state = .placing then .next ((s.placeOn pid i x d cores).endReplay pid i.part i.replay)
           else if Config.energyLeft s.fresh then .next ((s.bump.placeOn pid i x d cores).endReplay pid i.part i.replay)
           else .next (s.bump.updInst pid inst (fun j => { j with state := .held })))
      | _, _ => .next (s.nodeBreach pid i 0)

/-! The classifier and the dispatcher's preference (R266, R267). -/

/-- Whether the mean of some ratios is at least an F32 value: `n / d` is their sum, `k` their number. -/
def meanReaches (n d k thr : Nat) : Bool :=
  let e := thr / 2 ^ 23 % 256
  let m := thr % 2 ^ 23 + (if e = 0 then 0 else 2 ^ 23)
  m * 2 ^ (if e = 0 then 0 else e - 1) * (d * k) ≤ n * 2 ^ 149

/-- Whether a node is compute-bound: the mean, over its last 8 completed instances, of operand bytes by HBM bytes is at least CTHR. An
instance with operand bytes and no HBM bytes reaches every threshold; with neither its ratio is 0 (log entry 21). -/
def State.computeBound (s : State) (pid part node : Nat) : Bool :=
  let ms := ((s.part pid part).bind (fun x => x.meters.get node)).getD []
  let thr := ((s.graphHeader pid part).map (fun h => bytesAt h 20 4)).getD 0
  ms ≠ [] && (ms.any (fun m => m.2 = 0 && m.1 ≠ 0) ||
    (let q := ms.foldl (fun (q : Nat × Nat) m => if m.2 = 0 then q else (q.1 * m.2 + m.1 * q.2, q.2 * m.2)) (0, 1)
     meanReaches q.1 q.2 ms.length thr))

/-- Whether a bay runs an instance of the other class. -/
def State.otherClass (s : State) (pid : Nat) (i : Inst) (bay : Nat) : Bool :=
  let mine := s.computeBound pid i.part i.node
  (s.pkg pid).insts.any (fun j => j.state = .running && j.cores.any (fun c => bayOf c = bay) && s.computeBound pid j.part j.node ≠ mine)

/-- Whether a bay is preferred to another: one whose island is not warm, then one that runs an instance of the other class, then the
coolest, then the lowest (R266, R267). -/
def State.prefers (s : State) (pid : Nat) (i : Inst) (a b : Nat) : Bool :=
  let temp (x : Nat) : Nat := Config.islandTemp pid x (s.pkg pid).cycle.toNat
  if s.islandWarm pid a ≠ s.islandWarm pid b then s.islandWarm pid b
  else if s.otherClass pid i a ≠ s.otherClass pid i b then s.otherClass pid i a
  else if temp a ≠ temp b then temp a < temp b
  else a < b

/-- Inserts a bay in a list that goes from the preferred to the others. -/
def State.insertBay (s : State) (pid : Nat) (i : Inst) (b : Nat) : List Nat → List Nat
  | [] => [b]
  | d :: ds => if s.prefers pid i b d then b :: d :: ds else d :: s.insertBay pid i b ds

/-- The cores the dispatcher takes for an instance: of those that fit, the preferred ones (R265, R266). -/
def State.coresFor (s : State) (pid : Nat) (i : Inst) : List Nat :=
  match s.nodeDesc pid i.part i.node with
  | none => []
  | some d =>
    let fit := ((List.range 128).map (128 * i.field + ·)).filter (fun c => s.coresFit pid i 1 [c])
    let bays := (fit.map bayOf).eraseDups.foldl (fun l b => s.insertBay pid i b l) []
    (bays.flatMap (fun b => fit.filter (fun c => bayOf c = b))).take (s.placeCount pid i d)

/-- Budgets are refilled: HELD instances go on to PLACING. -/
def Pkg.refill (p : Pkg) : Pkg :=
  { p with insts := p.insts.map (fun i => if i.state = .held then { i with state := .placing } else i) }

/-- ENERGY_REFILL (R264, R267). -/
def execEnergyRefill (pid : Nat) (s : State) : Out := .next (s.updPkg pid Pkg.refill)

/-- The cores the dispatcher frees for the head of level 7: those of running instances of lower PRI, lowest first, the latest placed
among equals, until `n` are free (R265). -/
def victims (n : Nat) : Nat → List Inst → List Nat
  | 0, _ => []
  | fuel + 1, is =>
    match is.foldl (fun (b : Option Inst) i => match b with
        | none => some i
        | some j => if i.pri < j.pri ∨ (i.pri = j.pri ∧ j.placedAt < i.placedAt) then some i else b) none with
    | none => []
    | some v =>
      if n = 0 then []
      else v.cores ++ victims (n - v.cores.length) fuel (is.filter (fun i => i.id ≠ v.id))

/-- NODE_AGEING (R264, R265): after DAGE µs at its level a READY instance moves up; for the head of level 7, READY or PARKED, its
dispatcher pre-empts. -/
def execNodeAgeing (pid inst : Nat) (s : State) : Out :=
  match s.inst pid inst with
  | none => .next s
  | some i =>
    let dage := ((s.graphHeader pid i.part).map (fun h => ghDage h * Config.cyclesPerMicrosecond)).getD 0
    if (i.state ≠ .ready ∧ i.state ≠ .parked) ∨ s.now pid < i.since + dage then .next s
    else if i.state = .ready ∧ i.level < 7 then
      .next (s.bump.updInst pid inst (fun j => { j with level := j.level + 1, order := s.fresh, since := s.now pid }))
    else if i.level < 7 ∨ ((s.chosenInst pid i.part i.field).map (·.id)) ≠ some inst then .next s
    else match s.part pid i.part, s.nodeDesc pid i.part i.node with
      | some x, some d =>
        let free := ((List.range 128).map (128 * i.field + ·)).filter (fun c =>
          x.hasBay (bayOf c) && (s.instOn pid c).isNone && !s.coreDead pid c)
        let is := (s.pkg pid).insts.filter (fun j => j.part = i.part && j.field = i.field && j.state = .running && j.pri < i.pri)
        .next ((victims (s.placeCount pid i d - free.length) is.length is).foldl (fun s c => s.requestStop pid c) s)
      | _, _ => .next s

/-! ### Completion (R268) -/

/-- Whether a context has ended with a status, and nothing of its record is outstanding. -/
def Ctx.ended (c : Ctx) (p : Word → Bool) : Bool :=
  c.halted && (match c.doneStatus with
    | some w => p w
    | none => false) && c.ifr.all (fun e => e.state = .free || e.state = .retired)

/-- One predecessor less for the instances of some nodes of a replay; in another field by message (R268). -/
def State.tellSuccessors (s : State) (pid : Nat) (i : Inst) (ns : List Nat) : State :=
  ns.foldl (fun s n =>
    match (s.pkg pid).insts.find? (fun j => j.part = i.part && j.replay = i.replay && j.node = n) with
    | none => s
    | some j =>
      if j.field = i.field then s.updInst pid j.id (fun j => { j with preds := j.preds - 1 })
      else s.sendDie pid (.field pid j.field) (.successor j.id)) s

/-- The classifier's counts of a completed instance, with those of the 7 completed before it (R266). -/
def Part.metered (x : Part) (i : Inst) : Part :=
  { x with meters := x.meters.put i.node (some (((i.mat, i.hbm) :: (x.meters.get i.node).getD []).take 8)) }

/-- NODE_COMPLETE (R268): every used context has ended with status 0 and nothing is outstanding. -/
def execNodeComplete (pid inst : Nat) (s : State) : Out :=
  match s.inst pid inst with
  | none => .next s
  | some i =>
    let d := s.nodeDesc pid i.part i.node
    if i.state ≠ .running ∨ i.dying.isSome ∨ !(i.used pid).all (fun id => (s.ctx id).ended (· = 0)) then .next s
    else if s.nodeWaits pid i ∨ d.any (fun d => s.virtWaits pid i.part (ndSucc d) (2 * ndNsucc d)) ∨
        i.slot.any (fun n => s.slotWaits pid i.part n) then .next s
    else
      let ns := match d with
        | none => []
        | some d => match s.virt pid i.part (ndSucc d) (2 * ndNsucc d) with
          | none => []
          | some bs => (List.range (ndNsucc d)).map (fun n => bytesAt bs (2 * n) 2)
      let s := match d with
        | none => s
        | some d => s.countRead pid i.part (ndSucc d) (2 * ndNsucc d)
      let s := match i.slot with
        | some n => s.releaseSlot pid i.part n (agentOfField i.field)
        | none => s
      let s := (s.leaveInst pid i).updInst pid inst (fun j => { j with state := .done, cores := [], slot := none })
      let s := s.updPart pid i.part (fun x => x.metered i)
      .next (((s.tellSuccessors pid i ns).readyUp pid i.part).endReplay pid i.part i.replay)

/-- SUCCESSOR_MESSAGE (R268). -/
def execSuccessorMessage (n : Nat) (s : State) : Out :=
  match s.net[n]? with
  | some m =>
    (match m.body with
     | .successor j =>
       let pid := m.dst.pid
       let t := (s.dropMsg n).updInst pid j (fun j => { j with preds := j.preds - 1 })
       .next (match t.inst pid j with
         | some i => t.readyUp pid i.part
         | none => t)
     | _ => .next s)
  | none => .next s

/-! ### Kills and failures (R391, R392) -/

/-- The status a killed instance is reported with, and whether it is placed again (R391). -/
def Inst.verdict (i : Inst) (status : Nat) : Nat × Bool :=
  if status = 0xF000000000000004 then (status, false)
  else if i.externMark then (0xF000000000000006, false)
  else if 4 ≤ i.kills + 1 then (0xF000000000000005, false)
  else (status, true)

/-- NODE_KILL (R391): an instance that is to be killed stops at once; when all it has sent has been dealt with, its pages are restored,
its status is reported, and it is READY again or FAILED. -/
def execNodeKill (pid inst : Nat) (s : State) : Out :=
  match s.inst pid inst with
  | none => .next s
  | some i =>
    match i.dying with
    | none => .next s
    | some st =>
      let t := s.stopInst pid i
      if !t.settledInst pid i then .next t
      else
        let (status, again) := i.verdict st
        let t := t.undoInst pid i
        if again then
          let t := t.post pid i.part 3 (t.nodeAddr pid i.part i.node) status (agentOfField i.field)
          .next (t.bump.updInst pid inst (fun j => { j with
            state := .ready, level := j.pri, order := t.fresh, since := t.now pid, cores := [], slot := none, kills := j.kills + 1,
            externMark := false, dying := none, idents := [] }))
        else .next (((t.failInst pid i 3 status).updInst pid inst (fun j => { j with slot := none, kills := j.kills + 1 })).endReplay
          pid i.part i.replay)

/-- NODE_FAIL_STATUS (R392): a nonzero `gnode.done` status. -/
def execNodeFailStatus (pid inst : Nat) (s : State) : Out :=
  match s.inst pid inst with
  | none => .next s
  | some i =>
    if i.state ≠ .running then .next s
    else match (i.used pid).findSome? (fun id => (s.ctx id).doneStatus.filter (· ≠ 0)) with
      | none => .next s
      | some st =>
        let t := s.stopInst pid i
        if !t.settledInst pid i then .next t
        else .next ((((t.undoInst pid i).failInst pid i 3 st.toNat).updInst pid inst (fun j => { j with slot := none })).endReplay
          pid i.part i.replay)

end Sys2Proof.Machine
end

