-- ==== Sys2Proof/Machine/Partition.lean ====
section
/-! DEFINITION. Partition-level instructions: windows, translation caches, snapshots, write blocking, migration, interrupts, parking,
the in-flight record, `tret`; page walks, copies and write-blocking expiries as events (R338, R339, R341, R344, R356 to R368,
R374, R375, R407 to R409). -/

namespace Sys2Proof.Machine

/-! ### Shared rules (R356, R357) -/

/-- REASONs of `SYSOP` (R357). -/
def soValue : Nat := 1
def soDesc : Nat := 2
def soOverlap : Nat := 3
def soLarge : Nat := 4
def soState : Nat := 5
def soRange : Nat := 6
def soFrame : Nat := 7
def soNotblk : Nat := 8
def soHeld : Nat := 9
def soContext : Nat := 10
def soNoleaf : Nat := 11

/-- The issuing context's partition. -/
def State.myPart (s : State) : Option (Nat × Part) :=
  (s.partOfCore s.cur.id.pid s.cur.id.core).bind (fun p => (s.part s.cur.id.pid p).map (fun x => (p, x)))

/-- An instruction over the issuing context's partition; a device-level context in a bay of no partition is refused with CONTEXT
(log entry 15), in the instruction's own way of refusing. -/
def State.inPartOr (s : State) (refuse : State → Nat → Nat → State) (k : Nat → Part → Out) : Out :=
  match s.myPart with
  | none => .next (refuse s soContext 0)
  | some (p, x) => k p x
def State.inPart (s : State) (k : Nat → Part → Out) : Out := s.inPartOr State.sysop k

/-- An instruction goes on, waits for a sealed line's decision, or ends in `UNDECIDED` (R183, R192). -/
def State.onLine (s : State) (l : Line) (k : Out) : Out :=
  match l with
  | .clear => k
  | .waits => if s.latch.passed then k else .next s.hold
  | .undecided g e => if s.latch.passed then k else .next (s.raise causeUndecided (undecidedTval g e 0))

/-- Bits 47:16 of an address. -/
def vaInfo (va : Nat) : Nat := va / 65536 % 2 ^ 32

/-! ### Windows (R345, R359) -/

/-- A valid outbound window whose range meets that of a valid descriptor (R345, R359). -/
def Part.winClash (x : Part) (n : Nat) (d : List Byte) : Option Nat :=
  if n < 256 && (winPerm d).testBit 7 then
    (x.wins.find? (fun (w : Nat × List Byte) => w.1 < 256 && w.1 ≠ n && (winPerm w.2).testBit 7 &&
      meets (winBase w.2) (winLen w.2) (winBase d) (winLen d))).map (·.1)
  else none

/-- A window descriptor as the translation hardware and the table at WTAB take it (R359). -/
def State.setWin (s : State) (pid part n : Nat) (d : List Byte) : State :=
  match s.part pid part with
  | none => s
  | some x =>
    (s.storeBy none (memKey pid (x.wtab + 32 * n)) d none).updPart pid part (fun x => { x with
      wins := x.wins.put n (if d.all (· = 0) then none else some d) })

/-- The line of an entry of the window table: its write waits while it is sealed (R183). -/
def State.winLine (s : State) (x : Part) (n : Nat) : Line := s.lineAt s.cur.id.pid (x.wtab + 32 * n) 32

/-- R359. -/
def execWinSet (gd gn : GNum) (s : State) : Out :=
  s.inPart (fun p x =>
    let n := (s.rg gn).toNat
    if 511 < n then .next (s.sysop soValue 2)
    else s.descr (s.rg gd) 32 (fun s d =>
      match winBad n d, x.winClash n d with
      | some b, _ => .next (s.sysop soDesc b)
      | none, some m => .next (s.sysop soOverlap m)
      | none, none => s.onLine (s.winLine x n) (.next (s.setWin s.cur.id.pid p n d).blocking)))

/-- R359. -/
def execWinClr (gn : GNum) (s : State) : Out :=
  s.inPart (fun p x =>
    let n := (s.rg gn).toNat
    if 511 < n then .next (s.sysop soValue 2)
    else s.onLine (s.winLine x n) (.next (s.setWin s.cur.id.pid p n (List.replicate 32 0)).blocking))

/-! ### Translation caches (R339, R360) -/

/-- A commit whose decision has still to be written. -/
def Commit.undecided (c : Commit) : Bool :=
  match c.state with
  | .sealing | .deciding _ => true
  | _ => false

/-- The physical addresses that commits not yet decided, and seals whose home still reads its word, are to access: their DECW (R237,
R239, R399). -/
def State.decwsOut (s : State) (pid : Nat) : List Nat :=
  ((s.pkg pid).commits.filter (fun c => c.undecided)).map (·.decw) ++
  s.pkgs.flatMap (fun (p : Nat × Pkg) => p.2.groups.filterMap (fun (g : Nat × GroupRec) =>
    (g.2.sealReq.filter (fun q => q.cpid = pid)).map (·.decw)))

/-- Staged bytes of groups that are not yet published or discarded: their keys (R182). -/
def State.stagedKeys (s : State) (pid : Nat) : List Nat :=
  (s.pkg pid).groups.flatMap (fun (g : Nat × GroupRec) => if g.2.state = .opened || g.2.state = .sealed then
    g.2.units.flatMap (fun u => u.cells.map (·.1)) else [])

/-- Whether an access was translated through a partition's virtual address in one of some ranges of pages. -/
def viaIn (part : Nat) (rs : List (Nat × Nat)) (v : Option (Nat × Nat)) : Bool :=
  match v with
  | some (p, va) => p = part && rs.any (fun r => r.1 ≤ va && va < r.1 + r.2)
  | none => false

/-- A message whose access was translated by a package's tables and is not yet performed; for a seal, its commit's DECW is. -/
def Msg.translatedBy (m : Msg) (pid : Nat) : Bool :=
  match m.body, m.body.dest with
  | .sealMsg .., _ => false
  | _, some (.phys q _) => q = pid
  | _, _ => false

/-- The tag of a chain's operation as a whole. -/
def State.chainTag (s : State) (id : CtxId) (c : Chain) : Tag :=
  ({ src := s.srcOf id c.entry, chan := (s.entry id c.entry).chan.toNat, dst := .die id.pid, body := .probe } : Msg).tag

/-- Accesses that have been translated through a partition's entries for some ranges and are not yet performed: messages, staged write
units and bytes held for a landing by their tags, commits with their DECW by number (R360, log entry 16). -/
def State.translatedOut (s : State) (pid part : Nat) (rs : List (Nat × Nat)) : List Tag × List Nat :=
  ((s.net.filter (fun m => m.translatedBy pid && viaIn part rs m.via)).map Msg.tag ++
   (s.pkg pid).groups.flatMap (fun (g : Nat × GroupRec) => if g.2.state = .opened || g.2.state = .sealed then
     (g.2.units.filter (fun u => u.vias.any (fun v => viaIn part rs (some v)))).map (·.op) else []) ++
   s.cores.flatMap (fun (k : Nat × Core) => if k.1 / 1024 = pid && s.partOfCore pid (k.1 % 1024) = some part then
     (k.2.live.chains.filter (fun c => c.held ≠ [])).map (fun c => s.chainTag ⟨pid, k.1 % 1024, c.ctx⟩ c) else []),
   ((s.pkg pid).commits.filter (fun c => c.undecided && viaIn part rs c.via)).map (·.id) ++
   s.pkgs.flatMap (fun (p : Nat × Pkg) => p.2.groups.filterMap (fun (g : Nat × GroupRec) =>
     (g.2.sealReq.filter (fun q => q.cpid = pid && viaIn part rs q.via)).map (·.commit))))

/-- The ranges of the cached entries of a partition that meet a range, and the range itself. -/
def State.invalRanges (s : State) (pid part base size : Nat) : List (Nat × Nat) :=
  (base, size) :: ((s.pkg pid).tlb.filter (fun t => t.part = part && meets t.base t.size base size)).map (fun t => (t.base, t.size))

/-- Removes cached translations that meet a range. -/
def State.inval (s : State) (pid part base size : Nat) : State :=
  s.updPkg pid (fun p => { p with tlb := p.tlb.filter (fun t => !(t.part = part && meets t.base t.size base size)) })

/-- What the `pg.inval` in hand waits for: of the accesses that were under way when it began, those that still are. -/
def State.invalOut (s : State) (pid part base size : Nat) : List Tag × List Nat :=
  match s.me.inval with
  | some (a, ts, cs) =>
    if a = s.cur.addr then
      let now := s.translatedOut pid part [(0, 2 ^ 57)]
      (ts.filter now.1.contains, cs.filter now.2.contains)
    else s.translatedOut pid part (s.invalRanges pid part base size)
  | none => s.translatedOut pid part (s.invalRanges pid part base size)

/-- R360: no access is translated through the entries from its first execution on; it is complete when those translated before have been
performed (log entry 16). -/
def execPgInval (ga : GNum) (sz : BitVec 2) (s : State) : Out :=
  s.inPart (fun p _ =>
    let pid := s.cur.id.pid
    let size := match sz.toNat with
      | 0 => 2 ^ 16 | 1 => 2 ^ 21 | 2 => 2 ^ 30 | _ => 2 ^ 57
    let base := if sz = 3 then 0 else (s.rg ga).toNat / size * size
    let out := s.invalOut pid p base size
    let t := s.inval pid p base size
    if s.over (out = ([], [])) then .next (t.updMe (fun c => { c with inval := none })).blocking
    else .next (t.updMe (fun c => { c with inval := some (s.cur.addr, out) })).holdKeep)

/-- PAGE_WALK_COMPLETE (R338, R339): a walk's leaf is kept by the page-walk units. -/
def execPageWalkComplete (pid part : Nat) (va : Word) (s : State) : Out :=
  match s.part pid part with
  | none => .next s
  | some x =>
    if 2 ^ 57 ≤ va.toNat || (s.pkg pid).tlb.any (fun t => t.part = part && t.base ≤ va.toNat && va.toNat < t.base + t.size) then .next s
    else match walkFrom s pid x va.toNat 4 x.root with
      | .ok l => .next (s.updPkg pid (fun p => { p with
          tlb := p.tlb ++ [{ part := part, base := l.base, size := l.size, key := l.key, word := l.word }] }))
      | .error _ => .next s

/-- COW_COPY (R341): the page-walk unit copies the page of a write that has come, and switches its entry. -/
def execCowCopy (pid part : Nat) (va : Word) (s : State) : Out :=
  match s.part pid part, s.walk pid part va.toNat with
  | some x, .ok l =>
    if 2 ^ 57 ≤ va.toNat || !pteCow l.word || l.size ≠ 65536 || !l.frameOk x || !pteW l.word || pteBlk l.word ||
        s.lineAt pid (pteAddr l.word) 65536 ≠ .clear then .next s
    else .next (s.cowBreak pid part l (agentOfField x.lowestField)).1
  | _, _ => .next s

/-- BLKTMO_EXPIRY (R344): the write ends with PERM, and a BLKTMO record is posted. `n` is package × 65,536 + the place in its list. -/
def execBlktmoExpiry (n : Nat) (s : State) : Out :=
  let pid := n / 65536
  match (s.pkg pid).blocked[n % 65536]? with
  | some b =>
    if b.left = 0 && !b.expired then
      let agent := match b.id with
        | some id => if id.core < 1024 then s.agentOf { id with ctx := id.ctx % 4 } else 0
        | none => if b.chan = 18 then agentOfField (((s.part pid b.part).map (·.lowestField)).getD 0) else 0
      .next ((s.updPkg pid (fun p => { p with blocked := p.blocked.set (n % 65536) { b with expired := true } })).post pid b.part 6 b.va 1 agent)
    else .next s
  | none => .next s

/-! ### Long instructions (R374, R375) -/

/-- Fields of `PROG` (R374). -/
def progMatches (w : Word) (opc : Nat) : Bool := w.getLsbD 63 && fieldW w 48 8 = opc
def progPass (w : Word) : Nat := fieldW w 46 2
def progDone (w : Word) : Nat := fieldW w 0 46
/-- `PROG` at a stop. -/
def progWord (opc pass done : Nat) : Word := BitVec.ofNat 64 (2 ^ 63 + opc % 256 * 2 ^ 48 + pass % 4 * 2 ^ 46 + done % 2 ^ 46)

/-- Writes `PROG`. -/
def State.setProg (s : State) (w : Word) : State := s.updMe (fun c => { c with prog := w })
/-- A refusal of a long instruction: `PROG` becomes 0 (R375). -/
def State.longRefuse (s : State) (reason info : Nat) : State := ((s.setProg 0).sysop reason info).kept
/-- A long instruction stops between units (R375). -/
def State.longStop (s : State) (opc pass done : Nat) : State := (s.setProg (progWord opc pass done)).holdKeep
/-- A long instruction's own step ends in `UNDECIDED` (R192, R375). -/
def State.longUndecided (s : State) (opc pass done group epoch : Nat) : State :=
  ((s.setProg (progWord opc pass done)).raise causeUndecided (undecidedTval group epoch 0)).kept
/-- A long instruction's own step faults with PHYS (R338, R375). -/
def State.longFault (s : State) (opc pass done va : Nat) : State :=
  ((s.setProg (progWord opc pass done)).memfault 8 true (BitVec.ofNat 64 va)).kept
/-- A long instruction is complete. -/
def State.longDone (s : State) : State := (s.setProg 0).blocking

/-- Units a long instruction may perform before a stop of its own (log entry 1). -/
def State.budget (s : State) (n : Nat) : Nat := match s.longLimit with
  | some k => Nat.min k n
  | none => n

/-- One pass over pages: where it came to, how it ended, and the units still allowed. -/
def State.pass (s : State) (f : Nat → State → State × PageEnd) (total done budget : Nat) : State × Nat × PageEnd × Nat :=
  let n := Nat.min (total - done) budget
  let (s, i, e) := pageRun f n done s
  (s, i, e, budget - n)

/-! ### Operator snapshots (R361 to R363) -/

/-- Fields of L (R361). -/
def opLen (l : Word) : Nat := fieldW l 16 48
def opSlot (l : Word) : Nat := fieldW l 0 6
def opRestore (l : Word) : Bool := l.getLsbD 6

/-- The operands' ranges (R361): the INFO of VALUE. -/
def opBad (base l : Word) (isSnap : Bool) : Option Nat :=
  if base.toNat % 65536 ≠ 0 ∨ 2 ^ 57 ≤ base.toNat then some 1
  else if opLen l = 0 ∨ 2 ^ 41 ≤ opLen l ∨ fieldW l 7 9 ≠ 0 ∨ 47 < opSlot l ∨ (isSnap ∧ opRestore l) ∨
      2 ^ 57 < base.toNat + opLen l * 65536 then some 2
  else none

/-- Where a long instruction begins: pass and units done (R375). -/
def State.resume (s : State) (opc : Nat) : Nat × Nat :=
  if progMatches s.me.prog opc then (progPass s.me.prog, progDone s.me.prog) else (0, 0)

/-- The change pass of `pg.snap` from a page on. -/
def State.snapChange (s : State) (p base len slot done budget : Nat) : State :=
  let pid := s.cur.id.pid
  match s.pass (fun i s => s.snapPage pid p slot (pageVa base i)) len done budget with
  | (s, i, .ok, _) =>
    if i < len then s.longStop 0x63 1 i
    else (s.setSlot pid p slot (some { state := .held, base := base, len := len * 65536 })).longDone
  | (s, i, .waits, _) => s.longStop 0x63 1 i
  | (s, i, .undecided g e, _) => s.longUndecided 0x63 1 i g e
  | (s, i, _, _) => s.longFault 0x63 1 i (pageVa base i)

/-- R362. -/
def execPgSnap (ga gl : GNum) (s : State) : Out :=
  s.inPartOr State.longRefuse (fun p x =>
    let base := (s.rg ga).toNat
    let l := s.rg gl
    let len := opLen l
    let slot := opSlot l
    let pid := s.cur.id.pid
    match opBad (s.rg ga) l true with
    | some i => .next (s.longRefuse soValue i)
    | none =>
      if (x.slot slot).state ≠ .free && (x.slot slot).state ≠ .taking then .next (s.longRefuse soState slot)
      else
        let (pass, done) := s.resume 0x63
        let s := s.setSlot pid p slot (some { state := .taking, base := base, len := len * 65536 })
        if pass = 0 then
          match s.pass (fun i s => (s, s.snapCheck pid p (pageVa base i))) len done (s.budget (2 * len)) with
          | (s, i, .ok, b) => .next (if i < len then s.longStop 0x63 0 i else s.snapChange p base len slot 0 b)
          | (s, _, .large va, _) => .next ((s.setSlot pid p slot none).longRefuse soLarge (vaInfo va))
          | (s, i, .waits, _) => .next (s.longStop 0x63 0 i)
          | (s, i, .undecided g e, _) => .next (s.longUndecided 0x63 0 i g e)
          | (s, i, .phys, _) => .next (s.longFault 0x63 0 i (pageVa base i))
        else .next (s.snapChange p base len slot done (s.budget len)))

/-- `pg.cow` (R362): release, or restore and release; OP stands in L. Base and LEN are compared where it starts, on a HELD or an ENDING
slot; one that goes on from `PROG` is not checked again (R375). -/
def State.cowOp (s : State) (base : Word) (l : Word) : Out :=
  s.inPartOr State.longRefuse (fun p x =>
    let len := opLen l
    let slot := opSlot l
    let pid := s.cur.id.pid
    let r := x.slot slot
    match opBad base l false with
    | some i => .next (s.longRefuse soValue i)
    | none =>
      if r.state ≠ .held && r.state ≠ .ending then .next (s.longRefuse soState slot)
      else if !progMatches s.me.prog 0x64 && (r.base ≠ base.toNat || r.len ≠ len * 65536) then .next (s.longRefuse soRange slot)
      else
        let (pass, done) := s.resume 0x64
        let done := if pass = 1 then done else 0
        let agent := s.agentOf s.cur.id
        let s := s.setSlot pid p slot (some { r with state := .ending })
        let f (i : Nat) (s : State) : State × PageEnd :=
          if opRestore l then s.restorePage pid p slot agent (pageVa base.toNat i) else s.releasePage pid p slot agent (pageVa base.toNat i)
        match s.pass f len done (s.budget len) with
        | (s, i, .ok, _) =>
          .next (if i < len then s.longStop 0x64 1 i
            else ((s.releaseLog pid p slot agent).setSlot pid p slot none).longDone)
        | (s, i, .waits, _) => .next (s.longStop 0x64 1 i)
        | (s, i, .undecided g e, _) => .next (s.longUndecided 0x64 1 i g e)
        | (s, i, _, _) => .next (s.longFault 0x64 1 i (pageVa base.toNat i)))

/-- R362, OP 0. -/
def execPgCowRelease (ga gl : GNum) (s : State) : Out := s.cowOp (s.rg ga) (s.rg gl &&& ~~~0x40)
/-- R362, OP 1. -/
def execPgCowRestore (ga gl : GNum) (s : State) : Out := s.cowOp (s.rg ga) (s.rg gl ||| 0x40)

/-! ### Write blocking and migration (R344, R365, R366) -/

/-- The valid leaf of an address: NOLEAF, or PHYS where the walk leaves owned memory (R338, R365); a table entry in a sealed line is
waited for, within the bound of R192. -/
def State.leafFor (s : State) (p : Nat) (va : Nat) (refuse : State → Nat → Nat → State) (k : Leaf → Out) : Out :=
  if 2 ^ 57 ≤ va then .next (refuse s soNoleaf 0)
  else match s.walk s.cur.id.pid p va with
    | .ok l => s.onLine (s.lineAt s.cur.id.pid (keyPa l.key) 16) (k l)
    | .error (.reason e) => .next (if e = 8 then s.memfault 8 true (BitVec.ofNat 64 va) else refuse s soNoleaf 0)
    | .error (.line (.undecided g e)) => .next (s.raise causeUndecided (undecidedTval g e 0))
    | .error (.line _) => .next s.hold

/-- Messages translated to a frame and not yet performed there; writes alone, or reads too. -/
def State.accessesOut (s : State) (pid pa size : Nat) (reads : Bool) : Bool :=
  s.net.any (fun m => (reads || m.body.access.1 ≠ .read) && (match m.body.dest with
    | some (.phys q a) => q = pid && meets a m.body.access.2 pa size
    | _ => false))
/-- Writes translated to a frame and not yet performed there: messages, bytes held for a landing, a commit's word, staged bytes. -/
def State.writesOut (s : State) (pid pa size : Nat) : Bool :=
  s.accessesOut pid pa size false ||
  s.cores.any (fun (c : Nat × Core) => c.2.live.chains.any (fun x => x.held.any (fun h => meets h.1 1 (memKey pid pa) size))) ||
  (s.decwsOut pid).any (fun a => meets a 8 pa size) || (s.stagedKeys pid).any (fun k => meets k 1 (memKey pid pa) size)

/-- BLK of a leaf. -/
def pteBlkSet (w : BitVec 128) (b : Bool) : BitVec 128 :=
  if b then w ||| ((1 : BitVec 128) <<< 60) else w &&& ~~~((1 : BitVec 128) <<< 60)

/-- R365, b = 1: BLK is set at once, so that no write is translated through the leaf any longer; complete when every write translated
before have been performed (DEDUCED, log entry 103). -/
def execPgBlkSet (ga : GNum) (s : State) : Out :=
  s.inPart (fun p _ => s.leafFor p (s.rg ga).toNat State.sysop (fun l =>
    let t := if pteBlk l.word then s else s.editLeaf s.cur.id.pid l.key (pteBlkSet · true)
    if s.over (!s.writesOut s.cur.id.pid (pteAddr l.word) l.size) then .next t.blocking else .next t.holdKeep))

/-- R365, b = 0. -/
def execPgBlkClear (ga : GNum) (s : State) : Out :=
  s.inPart (fun p _ => s.leafFor p (s.rg ga).toNat State.sysop (fun l =>
    .next (if pteBlk l.word then s.editLeaf s.cur.id.pid l.key (pteBlkSet · false) else s).blocking))

/-- Copies 4 KiB blocks from one frame to another. -/
def State.copyBlocks (s : State) (pid src dst : Nat) : Nat → Nat → State
  | 0, _ => s
  | n + 1, i => (s.copyPage pid (src + 4096 * i) (dst + 4096 * i) 4096).copyBlocks pid src dst n (i + 1)

/-- LOC of a frame by its region (R366). -/
def locOf (pa : Nat) : Option Nat :=
  match regionOf pa with
  | some .hbm => some 0
  | some .vault => some 1
  | some .host0 | some .host1 => some 2
  | _ => none

/-- The entry after a migration (R366). -/
def pteMigrated (w : BitVec 128) (addr loc : Nat) : BitVec 128 :=
  let w := if (loc = 2) != (pteLoc w = 2) then w &&& 0xD7FFFFFFFFFFFFFF else w
  let low : BitVec 128 := (w &&& ~~~((3 : BitVec 128) <<< 62)) ||| (BitVec.ofNat 128 (loc % 4) <<< 62)
  (low &&& ~~~(0x000FFFFFFFFFFE00 : BitVec 128)) ||| (BitVec.ofNat 128 addr &&& 0x000FFFFFFFFFFE00)

/-- R366. Accesses translated to the old frame are performed before the switch: none reaches it afterwards. -/
def execPgMig (ga gf : GNum) (s : State) : Out :=
  s.inPartOr State.longRefuse (fun p x =>
    let va := (s.rg ga).toNat
    let f := (s.rg gf).toNat
    let pid := s.cur.id.pid
    if va % 65536 ≠ 0 ∨ 2 ^ 57 ≤ va then .next (s.longRefuse soValue 1)
    else s.leafFor p va State.longRefuse (fun l =>
      if l.size ≠ 65536 then .next (s.longRefuse soLarge (vaInfo l.base))
      else if !pteBlk l.word then .next (s.longRefuse soNotblk 0)
      else match (if f % 65536 = 0 && x.owns f 65536 then locOf f else none) with
        | none => .next (s.longRefuse soFrame 0)
        | some n =>
          let old := pteAddr l.word
          let (_, done) := s.resume 0x66
          if f = old then .next s.longDone
          else if !l.frameOk x then .next (s.longFault 0x66 0 done va)
          else if !s.over (!s.writesOut pid old 65536) then .next s.hold
          else
            let blocks := Nat.min (16 - done) (s.budget 16)
            let s := s.copyBlocks pid old f blocks done
            if done + blocks < 16 then .next (s.longStop 0x66 0 (done + blocks))
            else if n = 2 ∧ pteLoc l.word ≠ 2 ∧ pteHeld l.word ≠ 0 then
              .next (s.longRefuse soHeld ((pteHeld l.word).toNat % 2 ^ 32))
            else if !s.over (!s.accessesOut pid old 65536 true) then .next (s.longStop 0x66 0 16)
            else .next (s.editLeaf pid l.key (pteMigrated · f n)).longDone))

/-! ### Interrupts and parking (R367, R368) -/

/-- R367: a release at `.sys` of the earlier accesses, which have been performed: stores and signals, landings, near posted stores. -/
def execPartInt (gv gp : GNum) (s : State) : Out :=
  s.inPart (fun p x =>
    let v := (s.rg gv).toNat
    let pid := s.cur.id.pid
    if x.nvec ≤ v then .next (s.sysop soValue 1)
    else if !s.over (!s.me.storesOut s.cur.issue && s.me.loadsDone && !s.nearOut s.cur.id) then .next s.hold
    else .next (((s.raceRelease s.meAgent 8).writePlain pid (0x20000 + p * 0x100 + 8 * v) (s.rg gp)).msix pid (x.vecbase + v)).blocking)

/-- The context that bits 11:0 of an operand name, in a bay of the issuing partition. -/
def State.named (s : State) (p : Nat) (n : Nat) : Option CtxId :=
  let id : CtxId := ⟨s.cur.id.pid, n / 4 % 1024, n % 4⟩
  if s.partOfCore id.pid id.core = some p then some id else none

/-- Ends a core's freeze by the landings of one context (R368). -/
def State.thawAll (s : State) (id : CtxId) : State :=
  s.updCore id.pid id.core (fun k => { k with freeze := k.freeze.filter (fun f => f.1 ≠ id.ctx % 4) })

/-- R368. -/
def execCtxPark (gc : GNum) (s : State) : Out :=
  s.inPart (fun p _ =>
    let w := s.rg gc
    match (if w.toNat < 4096 then s.named p w.toNat else none) with
    | none => .next (s.sysop soContext (w.toNat % 4096))
    | some id =>
      if id = { s.cur.id with ctx := s.cur.id.ctx % 4 } then .next (s.sysop soContext (w.toNat % 4096))
      else if 4 ≤ s.stateCode id then .next s.blocking
      else .next ((s.updCtx id (fun c => { c with parkMark := true })).thawAll id).blocking)

/-- R368: the mark goes while the state is in the core, one that is STOPPING or SAVING too. -/
def execCtxUnpark (gc : GNum) (s : State) : Out :=
  s.inPart (fun p _ =>
    let w := s.rg gc
    match (if w.toNat < 4096 then s.named p w.toNat else none) with
    | none => .next (s.sysop soContext (w.toNat % 4096))
    | some id =>
      .next (if s.resident id then s.updCtx id (fun c => { c with parkMark := false }) else s).blocking)

/-! ### The in-flight record (R408, R409) -/

/-- A word of an entry (R408). -/
def IfrEntry.word (e : IfrEntry) (n : Nat) : Word :=
  let code : Nat := match e.state with
    | .free => 0 | .outstanding => 1 | .stopped => 2 | .retired => 3
  let loop (i : Nat) : Nat := ((e.loops[i]?).map (·.2)).getD 0 % 2 ^ 32
  match n with
  | 0 => BitVec.ofNat 64 (e.seq.toNat * 2 ^ 48 + e.chan.toNat * 2 ^ 44 + e.cls.toNat * 2 ^ 42 + code * 2 ^ 40
      + (if e.abandon then 2 ^ 39 else 0) + e.level.toNat * 2 ^ 36 + e.kind.toNat * 2 ^ 32 + e.bnd.toNat)
  | 1 => e.tag
  | 2 => e.target
  | 3 => e.promised
  | 4 => BitVec.ofNat 64 (e.off.toNat + e.elem.toNat * 2 ^ 20)
  | 5 => if e.state = .stopped then e.faultAddr else 0
  | 6 => if e.state = .retired then e.status else BitVec.ofNat 64 (loop 0 + loop 1 * 2 ^ 32)
  | _ => if e.state = .retired then 0 else BitVec.ofNat 64 (loop 2 + loop 3 * 2 ^ 32)

/-- The entry and word a selector names (R409). -/
def State.selector (s : State) (w : Word) (k : CtxId → Nat → Nat → Out) : Out :=
  s.inPart (fun p _ =>
    if fieldW w 24 40 ≠ 0 ∨ fieldW w 9 3 ≠ 0 then .next (s.sysop soValue 2)
    else match (s.named p (fieldW w 12 12)).filter s.resident with
      | none => .next (s.sysop soContext (w.toNat % 4096))
      | some id => k id (fieldW w 3 6) (fieldW w 0 3))

/-- The word that the selector in a register names, in the state at hand. -/
def State.ifrWord (s : State) (gs : GNum) : Option Word :=
  let w := s.rg gs
  ((s.myPart.bind (fun p => s.named p.1 (fieldW w 12 12))).filter s.resident).map (fun id => (s.entry id (fieldW w 3 6)).word (fieldW w 0 3))

/-- R409: the word as it stands when the bundle issues. -/
def execIfrRd (gd gs : GNum) (s : State) : Out :=
  s.selector (s.rg gs) (fun id i n => .next (s.writeG 2 gd (s.latch.record.getD ((s.entry id i).word n))))

/-- R409: ABANDON of a STOPPED entry. -/
def execIfrWr (gv gs : GNum) (s : State) : Out :=
  s.selector (s.rg gs) (fun id i n =>
    if n ≠ 0 then .next (s.sysop soValue 2)
    else .next (s.updEntry id i (fun e => if e.state = .stopped then { e with abandon := (s.rg gv).getLsbD 39 } else e)))

/-! ### `tret` (R382, R407) -/

/-- A stopped chain at `tret`: it resumes, or completes with MEMFAULT and its REASON. -/
def State.unstop (s : State) (id : CtxId) (c : Chain) : State :=
  let e := s.entry id c.entry
  if e.abandon then s.endChain id { c with stopped := false } 2 c.reason
  else (s.putChain id { c with stopped := false, reason := 0 }).updEntry id c.entry (fun e => { e with state := .outstanding })

/-- R407. -/
def execTret (s : State) : Out :=
  let id := s.cur.id
  let (t, n) := s.me.tretTarget
  let cs := s.myCore.live.chains.filter (fun c => c.ctx = id.ctx % 4 && c.stopped && c.level = n)
  .next ((cs.foldl (fun s c => s.unstop id c) s).updMe (fun c => { c with level := n, npc := t }))

end Sys2Proof.Machine
end

