-- ==== Sys2Proof/Machine/Scalar.lean ====
section
/-! DEFINITION. The scalar instructions of slots A and B (R92 to R99). -/

namespace Sys2Proof.Machine

/-- Compares as signed (`.i64`) or unsigned (`.w64`). -/
def ltBy (w : Bool) (a b : Word) : Bool := if w then a.toNat < b.toNat else a.toInt < b.toInt

/-- Count of leading zero bits among `n` bits. -/
def clzNat (n x : Nat) : Nat := n - bitLen x
/-- Count of trailing zero bits of a 64-bit word; 64 for 0. -/
def ctz64 (x : Word) : Nat := ((List.range 64).find? (fun i => x.getLsbD i)).getD 64
/-- Count of one bits among `n`. -/
def popNat (n x : Nat) : Nat := ((List.range n).filter (fun i => x.testBit i)).length

/-- Rotation left. -/
def rotl (x : Word) (n : Nat) : Word := x.rotateLeft n

/-- `div` of R94: quotient toward zero; division by zero gives all ones; −2^63 / −1 gives −2^63. -/
def divRes (w : Bool) (a b : Word) : Word :=
  if b = 0 then BitVec.allOnes 64 else if w then BitVec.ofNat 64 (a.toNat / b.toNat) else BitVec.ofInt 64 (a.toInt.tdiv b.toInt)
/-- `rem` of R94: the dividend for a zero divisor; otherwise with the dividend's sign. -/
def remRes (w : Bool) (a b : Word) : Word :=
  if b = 0 then a else if w then BitVec.ofNat 64 (a.toNat % b.toNat) else BitVec.ofInt 64 (a.toInt.tmod b.toInt)
/-- `mulh` of R93: bits 127:64 of the exact product. -/
def mulhRes (w : Bool) (a b : Word) : Word :=
  if w then BitVec.ofNat 64 (a.toNat * b.toNat / 2 ^ 64) else BitVec.ofInt 64 (a.toInt * b.toInt / 2 ^ 64)
/-- `shr` of R93. -/
def shrRes (w : Bool) (a : Word) (n : Nat) : Word := if w then a >>> n else a.sshiftRight n

/-- A shift amount: bits 5:0 (R93). -/
def shamt (b : Word) : Nat := (b.extractLsb' 0 6).toNat

/-- A result for `g[rd]` after one pipeline cycle (R39). -/
def State.setG (s : State) (rd : GNum) (x : Word) : Out := .next (s.writeG 1 rd x)

def execNop (s : State) : Out := .next s
def execAdd (rd ra rb : GNum) (s : State) : Out := s.setG rd (s.rg ra + s.rg rb)
def execSub (rd ra rb : GNum) (s : State) : Out := s.setG rd (s.rg ra - s.rg rb)
def execMul (rd ra rb : GNum) (s : State) : Out := .next (s.writeG 3 rd (s.rg ra * s.rg rb))
def execMulh (w : Bool) (rd ra rb : GNum) (s : State) : Out := .next (s.writeG 3 rd (mulhRes w (s.rg ra) (s.rg rb)))
def execDiv (w : Bool) (rd ra rb : GNum) (s : State) : Out :=
  .next ((s.writeG 20 rd (divRes w (s.rg ra) (s.rg rb))).flag 20 (idzFlag (s.rg rb)))
def execRem (w : Bool) (rd ra rb : GNum) (s : State) : Out :=
  .next ((s.writeG 20 rd (remRes w (s.rg ra) (s.rg rb))).flag 20 (idzFlag (s.rg rb)))
def execMin (w : Bool) (rd ra rb : GNum) (s : State) : Out :=
  s.setG rd (if ltBy w (s.rg rb) (s.rg ra) then s.rg rb else s.rg ra)
def execMax (w : Bool) (rd ra rb : GNum) (s : State) : Out :=
  s.setG rd (if ltBy w (s.rg ra) (s.rg rb) then s.rg rb else s.rg ra)
def execSlt (w : Bool) (rd ra rb : GNum) (s : State) : Out := s.setG rd (if ltBy w (s.rg ra) (s.rg rb) then 1 else 0)
def execAnd (rd ra rb : GNum) (s : State) : Out := s.setG rd (s.rg ra &&& s.rg rb)
def execOr (rd ra rb : GNum) (s : State) : Out := s.setG rd (s.rg ra ||| s.rg rb)
def execXor (rd ra rb : GNum) (s : State) : Out := s.setG rd (s.rg ra ^^^ s.rg rb)
def execAndn (rd ra rb : GNum) (s : State) : Out := s.setG rd (s.rg ra &&& ~~~s.rg rb)
def execShl (rd ra rb : GNum) (s : State) : Out := s.setG rd (s.rg ra <<< shamt (s.rg rb))
def execShr (w : Bool) (rd ra rb : GNum) (s : State) : Out := s.setG rd (shrRes w (s.rg ra) (shamt (s.rg rb)))
def execRot (rd ra rb : GNum) (s : State) : Out := s.setG rd (rotl (s.rg ra) (shamt (s.rg rb)))
def execClz (rd ra : GNum) (s : State) : Out := s.setG rd (BitVec.ofNat 64 (clzNat 64 (s.rg ra).toNat))
def execCtz (rd ra : GNum) (s : State) : Out := s.setG rd (BitVec.ofNat 64 (ctz64 (s.rg ra)))
def execPopc (rd ra : GNum) (s : State) : Out := s.setG rd (BitVec.ofNat 64 (popNat 64 (s.rg ra).toNat))
/-- `sel` with p0 to p3 (R97). -/
def execSelLo (n : BitVec 2) (rd ra rb : GNum) (s : State) : Out :=
  s.setG rd (if s.rp (n.setWidth 3) then s.rg ra else s.rg rb)
/-- `sel` with p4 to p7 (R97): p7 always selects `ra`. -/
def execSelHi (n : BitVec 2) (rd ra rb : GNum) (s : State) : Out :=
  s.setG rd (if s.rp (n.setWidth 3 + 4) then s.rg ra else s.rg rb)
def execPsetEq (pd : PNum) (ra rb : GNum) (s : State) : Out := .next (s.writeP 1 pd (s.rg ra = s.rg rb))
def execPsetNe (pd : PNum) (ra rb : GNum) (s : State) : Out := .next (s.writeP 1 pd (s.rg ra ≠ s.rg rb))
def execPsetLt (w : Bool) (pd : PNum) (ra rb : GNum) (s : State) : Out := .next (s.writeP 1 pd (ltBy w (s.rg ra) (s.rg rb)))
def execPsetGe (w : Bool) (pd : PNum) (ra rb : GNum) (s : State) : Out :=
  .next (s.writeP 1 pd (!ltBy w (s.rg ra) (s.rg rb)))
def execPand (pd pa pb : PNum) (s : State) : Out := .next (s.writeP 1 pd (s.rp pa && s.rp pb))
def execPor (pd pa pb : PNum) (s : State) : Out := .next (s.writeP 1 pd (s.rp pa || s.rp pb))
def execPxor (pd pa pb : PNum) (s : State) : Out := .next (s.writeP 1 pd (s.rp pa ^^ s.rp pb))
def execAmad (ad : ANum) (ra rb : GNum) (s : State) : Out := .next (s.writeA 3 ad (s.ra ad + s.rg ra * s.rg rb))
def execMova (ad : ANum) (ra : GNum) (s : State) : Out := .next (s.writeA 1 ad (s.rg ra))
def execMovg (rd : GNum) (aa : ANum) (s : State) : Out := s.setG rd (s.ra aa)
def execAddi (rd ra : GNum) (imm : BitVec 8) (s : State) : Out := s.setG rd (s.rg ra + sext imm)
def execAndi (rd ra : GNum) (imm : BitVec 8) (s : State) : Out := s.setG rd (s.rg ra &&& sext imm)
def execOri (rd ra : GNum) (imm : BitVec 8) (s : State) : Out := s.setG rd (s.rg ra ||| sext imm)
def execXori (rd ra : GNum) (imm : BitVec 8) (s : State) : Out := s.setG rd (s.rg ra ^^^ sext imm)
def execShli (rd ra : GNum) (imm : BitVec 6) (s : State) : Out := s.setG rd (s.rg ra <<< imm.toNat)
def execShriI64 (rd ra : GNum) (imm : BitVec 6) (s : State) : Out := s.setG rd (shrRes false (s.rg ra) imm.toNat)
def execShriW64 (rd ra : GNum) (imm : BitVec 6) (s : State) : Out := s.setG rd (shrRes true (s.rg ra) imm.toNat)
def execRoti (rd ra : GNum) (imm : BitVec 6) (s : State) : Out := s.setG rd (rotl (s.rg ra) imm.toNat)
def execSltiI64 (rd ra : GNum) (imm : BitVec 8) (s : State) : Out := s.setG rd (if ltBy false (s.rg ra) (sext imm) then 1 else 0)
def execSltiW64 (rd ra : GNum) (imm : BitVec 8) (s : State) : Out := s.setG rd (if ltBy true (s.rg ra) (sext imm) then 1 else 0)
/-- R96. -/
def execLiLo (rd : GNum) (imm : BitVec 14) (s : State) : Out := s.setG rd (sext imm)
/-- R96: reads its destination. -/
def execLiHi (rd : GNum) (imm : BitVec 14) (s : State) : Out := s.setG rd (s.rg rd * 0x4000 + imm.setWidth 64)
/-- R99: changes no register; `stk.end` of the same bundle reads the count. -/
def execStkCnt (_n : BitVec 20) (s : State) : Out := .next s

end Sys2Proof.Machine
end

