-- ==== Sys2Proof/Machine/System.lean ====
section
/-! DEFINITION. Bring-up, the device control space, the host's accesses, heat, links, field resets and losses, the debugger and
soft errors (R3, R22, R28 to R30, R331 to R334, R349 to R355, R367, R377, R394, R397, R400, R401, R415). -/

namespace Sys2Proof.Machine

/-! ### Bring-up and the control space (R3, R28, R29) -/

/-- Routes have returned: the discards held for homes that are in reach again go before any other traffic to their packages (R415). -/
def State.freeDiscards (s : State) : State :=
  let held := s.pkgs.flatMap (fun p => (p.2.heldDiscards.filter (fun m => !s.unreachable m)).map (fun m => { m with first := true }))
  { s with
    net := held ++ s.net
    pkgs := s.pkgs.map (fun (p : Nat × Pkg) => (p.1, { p.2 with heldDiscards := p.2.heldDiscards.filter (fun m => s.unreachable m) })) }

/-- RESET_RELEASE (R28): the configuration image's signature is verified and it is loaded (wiring, shadow slots), links train and are
attested, and features are published. A failed signature stops the bring-up. -/
def execResetRelease (pid : Nat) (sigOk flatMesh : Bool) (slots : Nat) (locked : List Nat) (s : State) : Out :=
  .next (if (s.pkg pid).up ∨ 2 < slots then s
    else if !sigOk then s.event pid .bringUpFailed
    else (s.updPkg pid (fun p => { p with
      up := true, flatMesh := flatMesh, slotsPerCore := slots,
      ports := locked.foldl (fun (m : NMap Port) n =>
        if n < 40 then m.put n (some { (p.port n) with locked := true }) else m) p.ports })).freeDiscards)

/-- What device-level software does is done only in a package that has come up (R28). -/
def State.whenUp (s : State) (pid : Nat) (t : State) : Out := .next (if (s.pkg pid).up then t else s)

/-- ERLIMEL_GO (R354, R355). -/
def execErlimelGo (pid : Nat) (ctl : Word) (s : State) : Out := s.whenUp pid (s.writeCtl pid ctl)
/-- CONTEXT_START (R29). -/
def execContextStart (pid core ctx : Nat) (v : Word) (s : State) : Out := s.whenUp pid (s.startContext ⟨pid, core, ctx⟩ v)
/-- PARTITION_CONTROL_WRITE (R331, R332, R334). -/
def execPartitionControlWrite (pid part : Nat) (bytes : List Byte) (s : State) : Out := s.whenUp pid (s.writeBlock pid part bytes)
/-- RESOURCE_BLOCK_WRITE (R333). -/
def execResourceBlockWrite (pid part : Nat) (bytes : List Byte) (s : State) : Out := s.whenUp pid (s.writeQuota pid part bytes)

/-- MCAST_GROUP_WRITE (R349): replication is one step, so no packet holds an old entry. -/
def execMcastGroupWrite (pid group : Nat) (members : List McMember) (s : State) : Out :=
  s.whenUp pid (if group < 1024 ∧ members.length ≤ 64 then
    s.updPkg pid (fun p => { p with mcast := p.mcast.put group (if members = [] then none else some members) })
  else s)

/-- CONTROL_SPACE_WRITE (R3): an aligned word of the 4 GiB control space. -/
def execControlSpaceWrite (pid off : Nat) (v : Word) (s : State) : Out :=
  s.whenUp pid (if off % 8 = 0 ∧ off < 2 ^ 32 then s.ctlWrite pid off v else s)

/-- MSIX_ENTRY_UNMASK (R367): a pending message is sent. -/
def execMsixEntryUnmask (pid entry : Nat) (s : State) : Out :=
  .next (s.updPkg pid (fun p =>
    let m := (p.msix.get entry).getD {}
    { p with msix := p.msix.put entry (some (if m.pending then { masked := false, pending := false, sent := m.sent + 1 }
                                             else { m with masked := false })) }))

/-! ### Host accesses (R193, R261, R353) -/

/-- A host read of some pieces, once no line of them is sealed: its bytes, counted as any translated access (R343); one whose line ends
undecided is refused (R399). -/
def State.hostRead (s : State) (pid part off len : Nat) (ps : List Piece) : State :=
  match s.lineOver ps with
  | .waits => s
  | .undecided .. => s.hostRefuse pid part
  | .clear =>
    let bs := ps.flatMap (fun p => match p.dest with
      | .phys q a => s.physBytes q a p.len
      | .exposure .. => [])
    (s.countRead pid part off len).updPkg pid (fun p => { p with hostData := some bs })

/-- HOST_APERTURE_ACCESS (R353): an access of partition `part` at virtual address `off`, through its page tables alone. An access that
waits is presented again. A write may change REQ of the launch word (R261). -/
def execHostApertureAccess (pid part : Nat) (off : Word) (len : Nat) (wr : Option (List Byte)) (s : State) : Out :=
  let n := (wr.map List.length).getD len
  if (s.part pid part).isNone ∨ 2 ^ 34 < off.toNat + n then .next (s.hostRefuse pid part)
  else match wr with
    | none =>
      (match s.ownRange pid part .read (n / 65536 + 2) off.toNat n with
       | .ok ps => .next (s.hostRead pid part off.toNat n ps)
       | .lined .waits => .next s
       | _ => .next (s.hostRefuse pid part))
    | some bs =>
      let old := s.launchReq pid part
      .next (match s.hostWrite pid part off.toNat bs with
        | (t, true) => (t.observeReq pid part old).updPkg pid (fun p => { p with hostData := none })
        | (t, false) => t)

/-! ### Heat (R30) -/

/-- THERMAL_TRIP: the island is forced to step 4; at step 4 its cores halt. -/
def execThermalTrip (pid island : Nat) (s : State) : Out :=
  let i := (s.pkg pid).island island
  let put (i : Island) (s : State) : State := s.updPkg pid (fun p => { p with islands := p.islands.put island (some i) })
  .next (if i.forced then (put { i with halted := true } s).event pid (.islandHalted island)
    else put { i with forced := true } s)

/-- THERMAL_CLEAR: the forced step is lifted. -/
def execThermalClear (pid island : Nat) (s : State) : Out :=
  .next (s.updPkg pid (fun p => { p with islands := p.islands.put island (some { (p.island island) with forced := false }) }))

/-! ### Links (R350, R351, R415) -/

def State.updPort (s : State) (pid port : Nat) (f : Port → Port) : State :=
  s.updPkg pid (fun p => { p with ports := p.ports.put port (some (f (p.port port))) })

/-- FLIT_TAG_FAIL: the flit is discarded, counted and resent. -/
def execFlitTagFail (pid port : Nat) (s : State) : Out := .next (s.updPort pid port (fun x => { x with tagFails := x.tagFails + 1 }))

/-- The partition of a package to which a multicast group's or a partition group's number is given (R348, R349). -/
def State.mcastOwner (s : State) (pid g : Nat) : Option Nat :=
  ((s.pkg pid).parts.find? (fun x => x.2.mbase ≤ g && g < x.2.mbase + x.2.mcount)).map (·.1)
def State.groupOwner (s : State) (pid g : Nat) : Option Nat :=
  ((s.pkg pid).parts.find? (fun x => x.2.gbase ≤ g && g < x.2.gbase + x.2.gcount)).map (·.1)

/-- The partition at its destination that a message is for: the owner of the memory it accesses, the exposure's, the one of the core
whose barrier it names, of its hoop or combiner entry, or its group's. A probe and an answer are for none of that package: the one
accesses nothing, the other is the response that R350 asks for (R348, R350; log entry 109). -/
def State.targetPart (s : State) (m : Msg) : Option Nat :=
  match m.body with
  | .probe | .resp .. | .hoopRefuse .. => none
  | .mcast g .. => s.mcastOwner m.dst.pid g
  | .sealMsg _ _ g .. | .decision _ _ g .. => s.groupOwner m.dst.pid g
  | .cmbClose hd => ((s.pkg (hdPid hd)).combs.get (hdEntry hd)).bind (·.part)
  | .arrive pid core _ _ _ => s.partOfCore pid core
  | .hoopArrive reg _ => (s.hoopOf m.src.ident reg).map (fun h => h.2.part)
  | .hoopJoin _ _ part _ _ _ => some part
  | .contrib hd .. => ((s.pkg (hdPid hd)).combs.get (hdEntry hd)).bind (·.part)
  | .deliver _ part .. => some part
  | b => match b.dest with
    | some (.phys q a) => s.ownerOf q a
    | some (.exposure _ tp _ _) => some tp
    | none => m.src.part

/-- The partition of a package that a message over one of its ports belongs to: its source's, or its target's (R350). -/
def State.trafficPart (s : State) (pid port : Nat) (m : Msg) : Option Nat :=
  if m.src.id.pid = pid ∧ m.dst.pid ≠ pid ∧ Config.routePort pid m.dst.pid = port then m.src.part
  else if m.dst.pid = pid ∧ m.src.id.pid ≠ pid ∧ Config.routePort pid m.src.id.pid = port then s.targetPart m
  else none

/-- The port at the other end of a port's link, by the board's wiring: a local link's, or a global one's (R12, R350). -/
def State.farEnd (s : State) (pid port : Nat) : Option (Nat × Nat) :=
  let local' : List Nat := if (s.pkg pid).flatMesh then List.range 41 else (List.range 32).map (32 * (pid / 32) + ·)
  match local'.find? (fun q => q ≠ pid && Config.routePort pid q = port) with
  | some q => some (q, Config.routePort q pid)
  | none => (List.range 32).findSome? (fun pod => if pod = pid / 32 then none else
      ((Config.globalLinks (pid / 32) pod).zip (Config.globalLinks pod (pid / 32))).findSome? (fun l =>
        if 32 * (pid / 32) + l.1.1 = pid && l.1.2 = port then some (32 * pod + l.2.1, l.2.2) else none))

/-- One end of a link is locked: LINKDOWN to every partition of its package with traffic on the port (R350). -/
def State.lockEnd (s : State) (net : List Nat) (pid port : Nat) : State :=
  if ((s.pkg pid).port port).locked then s
  else net.foldl (fun t p => t.post pid p 18 0 port (t.unitAgent pid p)) (s.updPort pid port (fun x => { x with locked := true, traffic := net }))

/-- PORT_LOCK: the port carries nothing in either direction, and both its ends are locked; a device-level event (R350). -/
def execPortLock (pid port : Nat) (s : State) : Out :=
  if ((s.pkg pid).port port).locked then .next s
  else
    let on (q n : Nat) : List Nat := (s.net.filterMap (s.trafficPart q n)).eraseDups
    let t := (s.lockEnd (on pid port) pid port).event pid (.portLocked port)
    .next (match s.farEnd pid port with
      | some (q, n) => t.lockEnd (on q n) q n
      | none => t)

/-- PORT_REATTEST: new keys; held discards whose home is in reach again go first (R415). -/
def execPortReattest (pid port : Nat) (s : State) : Out :=
  if !((s.pkg pid).port port).locked then .next s
  else
    let t := s.updPort pid port (fun x => { x with locked := false, keys := x.keys + 1, traffic := [] })
    .next t.freeDiscards

/-- LINK_KEY_UPDATE: the update changes no traffic. -/
def execLinkKeyUpdate (pid port : Nat) (s : State) : Out := .next (s.updPort pid port (fun x => { x with keys := x.keys + 1 }))

/-! ### Fields: reset, loss, the debugger (R210, R394, R397, R400, R401, R415) -/

/-- A salt that differs from the old one (R397). -/
def newSalt (draw : Nat) (old : BitVec 12) : BitVec 12 := if Config.fieldSalt draw = old then old + 1 else Config.fieldSalt draw

/-- Staging and records that a field's reset clears: its own homes', and the units on its rim's granules (R209, R210). -/
def clearField (field : Nat) (gs : NMap GroupRec) : NMap GroupRec :=
  (gs.filter (fun (g : Nat × GroupRec) => g.1 / 65536 ≠ field)).map (fun (g : Nat × GroupRec) =>
    (g.1, { g.2 with units := g.2.units.filter (fun u => u.field ≠ field) }))

/-- A source tag of one of a field's contexts (R393). -/
def Tag.ofField (t : Tag) (pid field : Nat) : Bool := fieldW t.src 42 10 = pid && fieldW t.src 39 3 = field

/-- FIELD_RESET: a new salt, staging and group records cleared, a retire-all message for the field's sources, its contexts at their
reset values (log entry 20). -/
def execFieldReset (pid field : Nat) (s : State) : Out :=
  let t := s.updField pid field (fun f => { f with salt := newSalt f.draws f.salt, draws := f.draws + 1 })
  let t := t.updPkg pid (fun p => { p with groups := clearField field p.groups })
  let t := t.purge (fun x => x.ofField pid field)
  let t := ((List.range 128).map (128 * field + ·)).foldl (fun t c => t.unblockCore pid c) t
  .next { t.bump with cores := t.cores.map (fun (c : Nat × Core) =>
    if c.1 / 1024 = pid && fieldOf (c.1 % 1024) = field then
      (c.1, { (c.2.emptied t.fresh) with swap := .running, stopped := false })
    else c) }

/-- FIELD_LOSS (R401): the instances with a core in the field, or a parked state in its vaults, are to be killed with status 4. -/
def execFieldLoss (pid field : Nat) (s : State) : Out :=
  let t := (s.updField pid field (fun f => { f with lost := true })).event pid (.fieldLost field)
  let hit (i : Inst) : Bool := i.cores.any (fun c => fieldOf c = field) ||
    (t.pkg pid).images.any (fun (m : Nat × Image) => m.2.place ≠ .saveArea && fieldOf m.2.core = field && (m.2.data.ctx 0).inst = some i.id)
  .next ((t.pkg pid).insts.foldl (fun t i => if hit i then t.doom pid i.id 0xF000000000000004 else t) t)

/-- DEBUG_FIELD_HALT and DEBUG_FIELD_RELEASE (R400): the cores stop as if frozen. -/
def execDebugFieldHalt (pid field : Nat) (s : State) : Out := .next (s.updField pid field (fun f => { f with halted := true }))
def execDebugFieldRelease (pid field : Nat) (s : State) : Out := .next (s.updField pid field (fun f => { f with halted := false }))

/-- DEBUG_PORT_ACCESS (R22, R377): an element of the accumulator store: tile × 8,192 + row × 128 + column. -/
def execDebugPortAccess (pid core eng index : Nat) (wr : Option (BitVec 32)) (s : State) : Out :=
  let key := eng % 2 * 65536 + index % 65536
  match wr with
  | none => .next (s.updPkg pid (fun p => { p with debugData := ((s.core pid core).live.tiles.get key).getD 0 }))
  | some v => .next (s.updLive pid core (fun d => { d with tiles := d.tiles.put key (if v = 0 then none else some v) }))

/-! ### Soft errors (R377) -/

/-- An uncorrectable error in the state of a core, or in a copy of it: a device-level event; the core halts, and the node instance whose
state it is is to be killed with status 3. -/
def State.stateLost (s : State) (pid core : Nat) (inst : Option Nat) : State :=
  let t := (s.updCore pid core (fun k => { k with stopped := true })).event pid (.registerError core)
  match inst.bind (t.inst pid) with
  | some i => t.doom pid i.id 0xF000000000000003
  | none => t

/-- REGISTER_UNCORRECTABLE. -/
def execRegisterUncorrectable (pid core : Nat) (s : State) : Out :=
  .next (s.stateLost pid core ((s.core pid core).live.ctx 0).inst)

/-- The counter of a field's corrected errors. -/
def correctedCounter (field : Nat) : Nat := 300 + field

/-- A staged unit one 8-byte unit of which is uncorrectable. -/
def WriteUnit.spoil (u : WriteUnit) (k : Nat) : WriteUnit :=
  if u.cells.any (fun c => c.1 / 8 * 8 = k) && !u.bad.contains k then { u with bad := u.bad ++ [k] } else u
/-- The staging buffers' copies of an 8-byte unit become uncorrectable. -/
def Pkg.spoil (p : Pkg) (k : Nat) : Pkg :=
  { p with groups := p.groups.map (fun (g : Nat × GroupRec) => (g.1, { g.2 with units := g.2.units.map (·.spoil k) })) }

/-- MEMORY_SOFT_ERROR: below 2^52 the address is a physical one. Above, 2^52 + core × 65,536 + unit names an 8-byte unit of an accumulator
store, 2^53 + core a register, CSR, in-flight record or landing buffer of a core, 2^54 + key the image of that key in a shadow slot or
save area, and 2^55 + a physical address the staged copies of an 8-byte unit (log entry 35). -/
def execMemorySoftError (pid addr : Nat) (correctable : Bool) (s : State) : Out :=
  let corrected (field : Nat) (t : State) : Out := .next (if correctable then s.count pid (correctedCounter field) else t)
  if 2 ^ 55 ≤ addr then
    let a := addr % 2 ^ 52 / 8 * 8
    corrected (servingField a) (s.updPkg pid (fun p => p.spoil (memKey pid a)))
  else if 2 ^ 54 ≤ addr then
    (match (s.pkg pid).images.get (addr - 2 ^ 54) with
     | some i => corrected (fieldOf i.core) (s.stateLost pid i.core (i.data.ctx 0).inst)
     | none => .next s)
  else if 2 ^ 53 ≤ addr then
    let core := (addr - 2 ^ 53) % 1024
    corrected (fieldOf core) (s.stateLost pid core ((s.core pid core).live.ctx 0).inst)
  else if 2 ^ 52 ≤ addr then
    let n := addr - 2 ^ 52
    let core := n / 65536 % 1024
    corrected (fieldOf core) (s.updLive pid core (fun d =>
      if d.badTiles.contains (n % 65536) then d else { d with badTiles := d.badTiles ++ [n % 65536] }))
  else match regionOf addr with
    | some .hbm | some .vault => corrected (servingField addr) (s.markUnit (memKey pid addr))
    | some .spad => corrected (fieldOf ((addr - spadBase) / 0x100000)) (s.markUnit (memKey pid addr))
    | _ => .next s

end Sys2Proof.Machine
end

