-- ==== Sys2Proof/Machine/Vector.lean ====
section
/-! DEFINITION. The vector instructions of slots V0 and V1 (R101 to R124). -/

namespace Sys2Proof.Machine

/-! ### Floating point (R104 to R111) -/

/-- A lane-wise float operation of one operand, in the format's width, under the write mask. -/
def State.vf1 (s : State) (lat : Nat) (rm : BitVec 3) (fmt : BitVec 4) (vd va : VNum) (km : KNum)
    (f : FSpec → Bool → BitVec 32 → FVal → Nat × Fl) : Out :=
  let b := fmtBits fmt
  let sp := fspec fmt.toNat
  let z := s.me.ftz
  .next (s.lanesOp lat b vd (s.active fmt km) [] (rm = 5) (fun l x => f sp z x (fread sp z (lane b l (s.rv va)))))

/-- A lane-wise float operation of two operands. -/
def State.vf2 (s : State) (lat : Nat) (rm : BitVec 3) (fmt : BitVec 4) (vd va vb : VNum) (km : KNum)
    (f : FSpec → Bool → BitVec 32 → FVal → FVal → Nat × Fl) : Out :=
  let b := fmtBits fmt
  let sp := fspec fmt.toNat
  let z := s.me.ftz
  .next (s.lanesOp lat b vd (s.active fmt km) [] (rm = 5)
    (fun l x => f sp z x (fread sp z (lane b l (s.rv va))) (fread sp z (lane b l (s.rv vb)))))

/-- Rounds an exact value with the flags its forming raised (R103). -/
def roundWith (sp : FSpec) (ftz : Bool) (rm : Nat) (x : BitVec 32) (v : FVal × Fl) : Nat × Fl :=
  let (r, f) := roundF sp false ftz rm x v.1
  (r, v.2 ||| f)

/-- R104. -/
def execVadd (rm : BitVec 3) (fmt : BitVec 4) (vd va vb : VNum) (km : KNum) (s : State) : Out :=
  s.vf2 4 rm fmt vd va vb km (fun sp z x a b => roundWith sp z rm.toNat x (faddX rm.toNat a b))
/-- R104. -/
def execVsub (rm : BitVec 3) (fmt : BitVec 4) (vd va vb : VNum) (km : KNum) (s : State) : Out :=
  s.vf2 4 rm fmt vd va vb km (fun sp z x a b => roundWith sp z rm.toNat x (faddX rm.toNat a b.negate))
/-- R104. -/
def execVmul (rm : BitVec 3) (fmt : BitVec 4) (vd va vb : VNum) (km : KNum) (s : State) : Out :=
  s.vf2 4 rm fmt vd va vb km (fun sp z x a b => roundWith sp z rm.toNat x (fmulX a b))
/-- R104: one rounding; no mask. -/
def execVfma (rm : BitVec 3) (fmt : BitVec 4) (vd va vb vc : VNum) (s : State) : Out :=
  let b := fmtBits fmt
  let sp := fspec fmt.toNat
  let z := s.me.ftz
  let rd (v : VNum) (l : Nat) := fread sp z (lane b l (s.rv v))
  .next (s.lanesOp 4 b vd (List.range (fmtLanes fmt)) [] (rm = 5)
    (fun l x => roundWith sp z rm.toNat x (ffmaX rm.toNat (rd va l) (rd vb l) (rd vc l))))
/-- R105. -/
def State.vminmax (s : State) (isMax : Bool) (fmt : BitVec 4) (vd va vb : VNum) (km : KNum) : Out :=
  let b := fmtBits fmt
  let sp := fspec fmt.toNat
  .next (s.lanesOp 4 b vd (s.active fmt km) [] false
    (fun l _ => fminmaxBits sp isMax s.me.ftz (lane b l (s.rv va)) (lane b l (s.rv vb))))
def execVmin (fmt : BitVec 4) (vd va vb : VNum) (km : KNum) (s : State) : Out := s.vminmax false fmt vd va vb km
def execVmax (fmt : BitVec 4) (vd va vb : VNum) (km : KNum) (s : State) : Out := s.vminmax true fmt vd va vb km

/-- A lane-wise operation on raw bits: no flag, no draw. -/
def State.vbits1 (s : State) (lat : Nat) (fmt : BitVec 4) (vd va : VNum) (km : KNum) (f : Nat → Nat → Nat × Fl) : Out :=
  let b := fmtBits fmt
  .next (s.lanesOp lat b vd (s.active fmt km) [] false (fun l _ => f b (lane b l (s.rv va))))
/-- The same of two operands. -/
def State.vbits2 (s : State) (lat : Nat) (fmt : BitVec 4) (vd va vb : VNum) (km : KNum) (f : Nat → Nat → Nat → Nat × Fl) :
    Out :=
  let b := fmtBits fmt
  .next (s.lanesOp lat b vd (s.active fmt km) [] false (fun l _ => f b (lane b l (s.rv va)) (lane b l (s.rv vb))))

/-- R106: clears bit b − 1. -/
def execVabs (fmt : BitVec 4) (vd va : VNum) (km : KNum) (s : State) : Out :=
  s.vbits1 4 fmt vd va km (fun b a => (a % 2 ^ (b - 1), 0))
/-- R106: inverts bit b − 1. -/
def execVneg (fmt : BitVec 4) (vd va : VNum) (km : KNum) (s : State) : Out :=
  s.vbits1 4 fmt vd va km (fun b a => (a ^^^ 2 ^ (b - 1), 0))
/-- R107. -/
def execVrcp (rm : BitVec 3) (fmt : BitVec 4) (vd va : VNum) (km : KNum) (s : State) : Out :=
  s.vf1 6 rm fmt vd va km (fun sp z x a => frcp sp z rm.toNat x a)
/-- R107. -/
def execVrsqrt (rm : BitVec 3) (fmt : BitVec 4) (vd va : VNum) (km : KNum) (s : State) : Out :=
  s.vf1 6 rm fmt vd va km (fun sp z x a => frsqrt sp z rm.toNat x a)
/-- R108. -/
def execVfexp (rm : BitVec 3) (fmt : BitVec 4) (vd va : VNum) (km : KNum) (s : State) : Out :=
  s.vf1 6 rm fmt vd va km (fun sp z x a => fexp2 sp z rm.toNat x a)
/-- R109. -/
def execVrndi (rm : BitVec 3) (fmt : BitVec 4) (vd va : VNum) (km : KNum) (s : State) : Out :=
  s.vf1 6 rm fmt vd va km (fun sp z x a => frndi sp z rm.toNat x a)
/-- R110. -/
def execVgetx (fmt : BitVec 4) (vd va : VNum) (km : KNum) (s : State) : Out :=
  s.vf1 6 0 fmt vd va km (fun sp _ _ a => fgetx sp a)
/-- R111. -/
def execVinsx (rm : BitVec 3) (fmt : BitVec 4) (vd va vb : VNum) (km : KNum) (s : State) : Out :=
  s.vf2 6 rm fmt vd va vb km (fun sp z x a n => finsx sp z rm.toNat x a n)

/-! ### Integers (R112, R113) -/

/-- An integer result, wrapped or saturated with ISAT (R73). -/
def intRes (sat : Bool) (fmt b : Nat) (v : Int) : Nat × Fl :=
  if sat then let (r, f) := satInt fmt b v; (r, Fl.on f Fl.isat) else (wrapInt b v, 0)

def execViadd (sat : Bool) (fmt : BitVec 4) (vd va vb : VNum) (km : KNum) (s : State) : Out :=
  s.vbits2 2 fmt vd va vb km (fun b x y => intRes sat fmt.toNat b (laneInt fmt.toNat x b + laneInt fmt.toNat y b))
def execVisub (sat : Bool) (fmt : BitVec 4) (vd va vb : VNum) (km : KNum) (s : State) : Out :=
  s.vbits2 2 fmt vd va vb km (fun b x y => intRes sat fmt.toNat b (laneInt fmt.toNat x b - laneInt fmt.toNat y b))
def execVimul (fmt : BitVec 4) (vd va vb : VNum) (km : KNum) (s : State) : Out :=
  s.vbits2 2 fmt vd va vb km (fun b x y => (wrapInt b (laneInt fmt.toNat x b * laneInt fmt.toNat y b), 0))
def execVimulh (fmt : BitVec 4) (vd va vb : VNum) (km : KNum) (s : State) : Out :=
  s.vbits2 2 fmt vd va vb km
    (fun b x y => (wrapInt b (laneInt fmt.toNat x b * laneInt fmt.toNat y b / (2 ^ b : Int)), 0))
def execVimin (fmt : BitVec 4) (vd va vb : VNum) (km : KNum) (s : State) : Out :=
  s.vbits2 2 fmt vd va vb km (fun b x y => (if laneInt fmt.toNat y b < laneInt fmt.toNat x b then y else x, 0))
def execVimax (fmt : BitVec 4) (vd va vb : VNum) (km : KNum) (s : State) : Out :=
  s.vbits2 2 fmt vd va vb km (fun b x y => (if laneInt fmt.toNat x b < laneInt fmt.toNat y b then y else x, 0))
def execVand (fmt : BitVec 4) (vd va vb : VNum) (km : KNum) (s : State) : Out :=
  s.vbits2 2 fmt vd va vb km (fun _ x y => (x &&& y, 0))
def execVor (fmt : BitVec 4) (vd va vb : VNum) (km : KNum) (s : State) : Out :=
  s.vbits2 2 fmt vd va vb km (fun _ x y => (x ||| y, 0))
def execVxor (fmt : BitVec 4) (vd va vb : VNum) (km : KNum) (s : State) : Out :=
  s.vbits2 2 fmt vd va vb km (fun _ x y => (x ^^^ y, 0))
def execVandn (fmt : BitVec 4) (vd va vb : VNum) (km : KNum) (s : State) : Out :=
  s.vbits2 2 fmt vd va vb km (fun b x y => (x &&& (2 ^ b - 1 - y), 0))
/-- The amount is the lane of vb modulo the element width. -/
def execVshl (fmt : BitVec 4) (vd va vb : VNum) (km : KNum) (s : State) : Out :=
  s.vbits2 2 fmt vd va vb km (fun b x y => (x <<< (y % b), 0))
/-- Arithmetic for `i` formats, logical for `w`. -/
def execVshr (fmt : BitVec 4) (vd va vb : VNum) (km : KNum) (s : State) : Out :=
  s.vbits2 2 fmt vd va vb km (fun b x y => (wrapInt b (laneInt fmt.toNat x b / (2 ^ (y % b) : Int)), 0))
def execViabs (fmt : BitVec 4) (vd va : VNum) (km : KNum) (s : State) : Out :=
  s.vbits1 2 fmt vd va km (fun b x => intRes true fmt.toNat b (laneInt fmt.toNat x b).natAbs)
def execVpopc (fmt : BitVec 4) (vd va : VNum) (km : KNum) (s : State) : Out :=
  s.vbits1 2 fmt vd va km (fun b x => (popNat b x, 0))
def execVclz (fmt : BitVec 4) (vd va : VNum) (km : KNum) (s : State) : Out :=
  s.vbits1 2 fmt vd va km (fun b x => (clzNat b x, 0))

/-! ### Compare, select, convert (R114 to R116) -/

/-- One lane's comparison and flag. -/
def cmpLane (cond : Nat) (fmt : BitVec 4) (ftz : Bool) (x y : Nat) : Bool × Fl :=
  if fmtFloat fmt then
    let sp := fspec fmt.toNat
    let a := fread sp ftz x
    let c := fread sp ftz y
    (cmpFloat cond a c, cmpFlag cond a c)
  else (cmpInt cond (laneInt fmt.toNat x (fmtBits fmt)) (laneInt fmt.toNat y (fmtBits fmt)), 0)

/-- R114. -/
def execVcmp (cond : BitVec 3) (fmt : BitVec 4) (kd : KNum) (va vb : VNum) (km : KNum) (s : State) : Out :=
  let b := fmtBits fmt
  let g := fmtLanes fmt / 64
  let m := s.rk km
  let bit (i : Nat) : Bool × Fl :=
    (List.range g).foldl (fun (acc : Bool × Fl) j =>
      let (t, f) := cmpLane cond.toNat fmt s.me.ftz (lane b (g * i + j) (s.rv va)) (lane b (g * i + j) (s.rv vb))
      (acc.1 && t, acc.2 ||| f)) (true, 0)
  let rs := ((List.range 64).filter (fun i => m.getLsbD i)).map (fun i => (i, bit i))
  let val : Word := rs.foldl (fun v r => if r.2.1 then v ||| ((1 : Word) <<< r.1) else v) 0
  let fl := rs.foldl (fun (a : Fl) r => a ||| r.2.2) 0
  .next ((s.writeK 4 kd val m).flag 4 fl)

/-- R115: every lane is written. -/
def execVsel (fmt : BitVec 4) (vd va vb : VNum) (km : KNum) (s : State) : Out :=
  let b := fmtBits fmt
  .next (s.lanesOp 2 b vd (List.range (fmtLanes fmt)) [] false
    (fun l _ => (if maskBit (s.rk km) b l then lane b l (s.rv va) else lane b l (s.rv vb), 0)))

/-- R116. -/
def execVcvt (rm : BitVec 3) (dst src : BitVec 4) (vd va : VNum) (km : KNum) (s : State) : Out :=
  let n := Nat.min (fmtLanes src) (fmtLanes dst)
  let bd := fmtBits dst
  let c := s.me
  .next (s.lanesOp 4 bd vd ((List.range n).filter (maskBit (s.rk km) bd))
    ((List.range (fmtLanes dst)).filter (fun l => n ≤ l)) (rm = 5)
    (fun l x => convert dst.toNat src.toNat c.sat8 c.ftz rm.toNat x (lane (fmtBits src) l (s.rv va))))

/-! ### Cross-lane (R117 to R119) -/

/-- Id of R117. -/
def redId (op fmt b : Nat) : Nat :=
  let sp := fspec fmt
  if fmt ≤ 2 then (match op with
    | 0 => sp.signBit true
    | 1 => sp.infBits
    | _ => sp.signBit true + sp.infBits)
  else match op with
    | 1 => wrapInt b (intMax fmt b)
    | 2 => wrapInt b (intMin fmt b)
    | 3 => 2 ^ b - 1
    | _ => 0

/-- Comb of R117. -/
def redComb (op fmt b : Nat) (ftz : Bool) (x y : Nat) : Nat × Fl :=
  let sp := fspec fmt
  if fmt ≤ 2 then (match op with
    | 0 => roundWith sp ftz 0 0 (faddX 0 (fread sp ftz x) (fread sp ftz y))
    | 1 => fminmaxBits sp false ftz x y
    | _ => fminmaxBits sp true ftz x y)
  else match op with
    | 0 => (wrapInt b ((x : Int) + y), 0)
    | 1 => (if laneInt fmt y b < laneInt fmt x b then y else x, 0)
    | 2 => (if laneInt fmt x b < laneInt fmt y b then y else x, 0)
    | 3 => (x &&& y, 0)
    | 4 => (x ||| y, 0)
    | _ => (x ^^^ y, 0)

/-- One level of the pairwise tree, gathering flags. -/
def pairUp (f : Nat → Nat → Nat × Fl) : List Nat → List Nat × Fl
  | x :: y :: rest =>
    let (r, fl) := f x y
    let (rs, fls) := pairUp f rest
    (r :: rs, fl ||| fls)
  | xs => (xs, 0)

/-- The whole tree: `n` levels. -/
def redTree (f : Nat → Nat → Nat × Fl) : Nat → List Nat → Nat × Fl
  | 0, xs => (xs.headD 0, 0)
  | n + 1, xs =>
    let (ys, fl) := pairUp f xs
    let (r, fl') := redTree f n ys
    (r, fl ||| fl')

/-- R117. -/
def execVred (op : BitVec 3) (fmt : BitVec 4) (vd va : VNum) (km : KNum) (s : State) : Out :=
  let b := fmtBits fmt
  let m := s.rk km
  let xs := (List.range (fmtLanes fmt)).map (fun l =>
    if maskBit m b l then lane b l (s.rv va) else redId op.toNat fmt.toNat b)
  let (r, fl) := redTree (redComb op.toNat fmt.toNat b s.me.ftz) 8 xs
  .next ((s.lanesOp 6 b vd (s.active fmt km) [] false (fun _ _ => (r, 0))).flag 6 fl)

/-- R118. -/
def execVscan (op : BitVec 3) (fmt : BitVec 4) (vd va : VNum) (km : KNum) (s : State) : Out :=
  let b := fmtBits fmt
  let (_, rs, fl) := (s.active fmt km).foldl (fun (acc : Nat × List (Nat × Nat) × Fl) l =>
    let (r, f) := redComb op.toNat fmt.toNat b s.me.ftz acc.1 (lane b l (s.rv va))
    (r, acc.2.1 ++ [(l, r)], acc.2.2 ||| f)) (redId op.toNat fmt.toNat b, [], 0)
  .next ((s.writeV 6 vd (packLanes b rs) (lanesMask b (s.active fmt km))).flag 6 fl)

/-- R119. -/
def execVperm (fmt : BitVec 4) (vd va vb : VNum) (km : KNum) (s : State) : Out :=
  let b := fmtBits fmt
  .next (s.lanesOp 6 b vd (s.active fmt km) [] false
    (fun l _ => (lane b (lane b l (s.rv vb) % fmtLanes fmt) (s.rv va), 0)))
def execVbcast (fmt : BitVec 4) (vd va : VNum) (n : BitVec 8) (s : State) : Out :=
  let b := fmtBits fmt
  .next (s.lanesOp 6 b vd (List.range (fmtLanes fmt)) [] false (fun _ _ => (lane b n.toNat (s.rv va), 0)))
def execVmov (fmt : BitVec 4) (vd va : VNum) (km : KNum) (s : State) : Out := s.vbits1 2 fmt vd va km (fun _ x => (x, 0))

/-! ### Moves between register classes (R120) -/

def execVins (fmt : BitVec 4) (vd : VNum) (gs : GNum) (n : BitVec 8) (s : State) : Out :=
  let b := fmtBits fmt
  .next (s.lanesOp 2 b vd [n.toNat] [] false (fun _ _ => ((s.rg gs).toNat % 2 ^ b, 0)))
/-- Sign-extended for `i` formats, zero-extended for every other. -/
def execVext (fmt : BitVec 4) (gd : GNum) (vs : VNum) (n : BitVec 8) (s : State) : Out :=
  let b := fmtBits fmt
  let x := lane b n.toNat (s.rv vs)
  .next (s.writeG 3 gd (if fmtSInt fmt then BitVec.ofInt 64 (laneInt fmt.toNat x b) else BitVec.ofNat 64 x))
def execKmovKg (kd : KNum) (gs : GNum) (s : State) : Out := .next (s.writeK 2 kd (s.rg gs) (BitVec.allOnes 64))
def execKmovGk (gd : GNum) (ks : KNum) (s : State) : Out := .next (s.writeG 3 gd (s.rk ks))
def execKand (kd ka kb : KNum) (s : State) : Out := .next (s.writeK 2 kd (s.rk ka &&& s.rk kb) (BitVec.allOnes 64))
def execKor (kd ka kb : KNum) (s : State) : Out := .next (s.writeK 2 kd (s.rk ka ||| s.rk kb) (BitVec.allOnes 64))
def execKxor (kd ka kb : KNum) (s : State) : Out := .next (s.writeK 2 kd (s.rk ka ^^^ s.rk kb) (BitVec.allOnes 64))

/-! ### Selection (R121 to R124) -/

/-- R122: lanes with mask 1 first, then the others, raw. -/
def execVpart (fmt : BitVec 4) (vd va : VNum) (km : KNum) (s : State) : Out :=
  let m := s.rk km
  let order := (List.range 64).filter (fun l => m.getLsbD l) ++ (List.range 64).filter (fun l => !m.getLsbD l)
  .next (s.lanesOp 8 (fmtBits fmt) vd (List.range 64) [] false (fun l _ => (lane 32 ((order[l]?).getD 0) (s.rv va), 0)))

/-- NV when either register holds a signalling NaN in some lane (R123, R124). -/
def snanFlag (fmt : BitVec 4) (ftz : Bool) (x y : VReg) : Fl :=
  let sp := fspec fmt.toNat
  let b := fmtBits fmt
  Fl.on ((List.range (fmtLanes fmt)).any (fun l =>
    (fread sp ftz (lane b l x)).isSnan || (fread sp ftz (lane b l y)).isSnan)) Fl.nv

/-- R123. -/
def execVthr (fmt : BitVec 4) (vd va vb : VNum) (km : KNum) (s : State) : Out :=
  let b := fmtBits fmt
  let sp := fspec fmt.toNat
  let z := s.me.ftz
  let ge (l : Nat) : Bool := cmpFloat 5 (fread sp z (lane b l (s.rv va))) (fread sp z (lane b l (s.rv vb)))
  let rs := (rowsOf (s.rk km) (fmtLanes fmt)).flatMap (fun r =>
    let ls := (List.range (r.2 + 1 - r.1)).map (· + r.1)
    let c := (ls.filter ge).length
    ls.map (fun l => (l, c)))
  .next ((s.writeV 8 vd (packLanes b rs) (lanesMask b (List.range (fmtLanes fmt)))).flag 8 (snanFlag fmt z (s.rv va) (s.rv vb)))

/-- Inserts a lane into a list ordered by descending score, equal scores by ascending lane. -/
def insertScore (sc : Nat → FVal) (l : Nat) : List Nat → List Nat
  | [] => [l]
  | m :: ms => if fcmp (sc m) (sc l) = .lt then l :: m :: ms else m :: insertScore sc l ms

/-- R124. -/
def execVtopkFix (fmt : BitVec 4) (vd va vb : VNum) (km : KNum) (s : State) : Out :=
  let b := fmtBits fmt
  let sp := fspec fmt.toNat
  let z := s.me.ftz
  let sc (l : Nat) := fread sp z (lane b l (s.rv va))
  let thr (l : Nat) := fread sp z (lane b l (s.rv vb))
  let rs := (rowsOf (s.rk km) (fmtLanes fmt)).flatMap (fun r =>
    let ls := (List.range (r.2 + 1 - r.1)).map (· + r.1)
    let k := Nat.min (lane b r.1 (s.rv vd)) ls.length
    let elig := ls.filter (fun l => !(sc l).isNan)
    let surv := elig.filter (fun l => cmpFloat 5 (sc l) (thr l))
    let rest := elig.filter (fun l => !cmpFloat 5 (sc l) (thr l))
    let sorted (xs : List Nat) := xs.foldl (fun acc l => insertScore sc l acc) []
    let order := sorted surv ++ sorted rest
    (List.range ls.length).map (fun i =>
      (r.1 + i, if i < k && i < order.length then ((order[i]?).getD 0) - r.1 else 0xFFFF)))
  .next ((s.writeV 8 vd (packLanes b rs) (lanesMask b (List.range (fmtLanes fmt)))).flag 8 (snanFlag fmt z (s.rv va) (s.rv vb)))

end Sys2Proof.Machine
end

