-- ==== Sys2Proof/Machine/Dispatch.lean ====
section
/-! DEFINITION. The meaning of every instruction and event: one arm a constructor. -/

namespace Sys2Proof.Machine

/-- The effect of an operation of the slot in hand, or of an event. -/
def exec (i : Instr) (s : State) : Host.Outcome State Fault Refusal :=
  match i with
  | .add rd ra rb => Sys2Proof.Machine.execAdd rd ra rb s
  | .sub rd ra rb => Sys2Proof.Machine.execSub rd ra rb s
  | .mul rd ra rb => Sys2Proof.Machine.execMul rd ra rb s
  | .mulh w rd ra rb => Sys2Proof.Machine.execMulh w rd ra rb s
  | .div w rd ra rb => Sys2Proof.Machine.execDiv w rd ra rb s
  | .rem w rd ra rb => Sys2Proof.Machine.execRem w rd ra rb s
  | .min w rd ra rb => Sys2Proof.Machine.execMin w rd ra rb s
  | .max w rd ra rb => Sys2Proof.Machine.execMax w rd ra rb s
  | .slt w rd ra rb => Sys2Proof.Machine.execSlt w rd ra rb s
  | .and rd ra rb => Sys2Proof.Machine.execAnd rd ra rb s
  | .or rd ra rb => Sys2Proof.Machine.execOr rd ra rb s
  | .xor rd ra rb => Sys2Proof.Machine.execXor rd ra rb s
  | .andn rd ra rb => Sys2Proof.Machine.execAndn rd ra rb s
  | .shl rd ra rb => Sys2Proof.Machine.execShl rd ra rb s
  | .shr w rd ra rb => Sys2Proof.Machine.execShr w rd ra rb s
  | .rot rd ra rb => Sys2Proof.Machine.execRot rd ra rb s
  | .clz rd ra => Sys2Proof.Machine.execClz rd ra s
  | .ctz rd ra => Sys2Proof.Machine.execCtz rd ra s
  | .popc rd ra => Sys2Proof.Machine.execPopc rd ra s
  | .selLo n rd ra rb => Sys2Proof.Machine.execSelLo n rd ra rb s
  | .selHi n rd ra rb => Sys2Proof.Machine.execSelHi n rd ra rb s
  | .psetEq pd ra rb => Sys2Proof.Machine.execPsetEq pd ra rb s
  | .psetNe pd ra rb => Sys2Proof.Machine.execPsetNe pd ra rb s
  | .psetLt w pd ra rb => Sys2Proof.Machine.execPsetLt w pd ra rb s
  | .psetGe w pd ra rb => Sys2Proof.Machine.execPsetGe w pd ra rb s
  | .pand pd pa pb => Sys2Proof.Machine.execPand pd pa pb s
  | .por pd pa pb => Sys2Proof.Machine.execPor pd pa pb s
  | .pxor pd pa pb => Sys2Proof.Machine.execPxor pd pa pb s
  | .amad ad ra rb => Sys2Proof.Machine.execAmad ad ra rb s
  | .mova ad ra => Sys2Proof.Machine.execMova ad ra s
  | .movg rd aa => Sys2Proof.Machine.execMovg rd aa s
  | .addi rd ra imm => Sys2Proof.Machine.execAddi rd ra imm s
  | .andi rd ra imm => Sys2Proof.Machine.execAndi rd ra imm s
  | .ori rd ra imm => Sys2Proof.Machine.execOri rd ra imm s
  | .xori rd ra imm => Sys2Proof.Machine.execXori rd ra imm s
  | .shli rd ra imm => Sys2Proof.Machine.execShli rd ra imm s
  | .shriI64 rd ra imm => Sys2Proof.Machine.execShriI64 rd ra imm s
  | .shriW64 rd ra imm => Sys2Proof.Machine.execShriW64 rd ra imm s
  | .roti rd ra imm => Sys2Proof.Machine.execRoti rd ra imm s
  | .sltiI64 rd ra imm => Sys2Proof.Machine.execSltiI64 rd ra imm s
  | .sltiW64 rd ra imm => Sys2Proof.Machine.execSltiW64 rd ra imm s
  | .liLo rd imm => Sys2Proof.Machine.execLiLo rd imm s
  | .liHi rd imm => Sys2Proof.Machine.execLiHi rd imm s
  | .stkCnt n => Sys2Proof.Machine.execStkCnt n s
  | .vadd rm fmt vd va vb km => Sys2Proof.Machine.execVadd rm fmt vd va vb km s
  | .vsub rm fmt vd va vb km => Sys2Proof.Machine.execVsub rm fmt vd va vb km s
  | .vmul rm fmt vd va vb km => Sys2Proof.Machine.execVmul rm fmt vd va vb km s
  | .vfma rm fmt vd va vb vc => Sys2Proof.Machine.execVfma rm fmt vd va vb vc s
  | .vmin fmt vd va vb km => Sys2Proof.Machine.execVmin fmt vd va vb km s
  | .vmax fmt vd va vb km => Sys2Proof.Machine.execVmax fmt vd va vb km s
  | .vabs fmt vd va km => Sys2Proof.Machine.execVabs fmt vd va km s
  | .vneg fmt vd va km => Sys2Proof.Machine.execVneg fmt vd va km s
  | .vrcp rm fmt vd va km => Sys2Proof.Machine.execVrcp rm fmt vd va km s
  | .vrsqrt rm fmt vd va km => Sys2Proof.Machine.execVrsqrt rm fmt vd va km s
  | .vfexp rm fmt vd va km => Sys2Proof.Machine.execVfexp rm fmt vd va km s
  | .vrndi rm fmt vd va km => Sys2Proof.Machine.execVrndi rm fmt vd va km s
  | .vgetx fmt vd va km => Sys2Proof.Machine.execVgetx fmt vd va km s
  | .vinsx rm fmt vd va vb km => Sys2Proof.Machine.execVinsx rm fmt vd va vb km s
  | .viadd sat fmt vd va vb km => Sys2Proof.Machine.execViadd sat fmt vd va vb km s
  | .visub sat fmt vd va vb km => Sys2Proof.Machine.execVisub sat fmt vd va vb km s
  | .vimul fmt vd va vb km => Sys2Proof.Machine.execVimul fmt vd va vb km s
  | .vimulh fmt vd va vb km => Sys2Proof.Machine.execVimulh fmt vd va vb km s
  | .vimin fmt vd va vb km => Sys2Proof.Machine.execVimin fmt vd va vb km s
  | .vimax fmt vd va vb km => Sys2Proof.Machine.execVimax fmt vd va vb km s
  | .vand fmt vd va vb km => Sys2Proof.Machine.execVand fmt vd va vb km s
  | .vor fmt vd va vb km => Sys2Proof.Machine.execVor fmt vd va vb km s
  | .vxor fmt vd va vb km => Sys2Proof.Machine.execVxor fmt vd va vb km s
  | .vandn fmt vd va vb km => Sys2Proof.Machine.execVandn fmt vd va vb km s
  | .vshl fmt vd va vb km => Sys2Proof.Machine.execVshl fmt vd va vb km s
  | .vshr fmt vd va vb km => Sys2Proof.Machine.execVshr fmt vd va vb km s
  | .viabs fmt vd va km => Sys2Proof.Machine.execViabs fmt vd va km s
  | .vpopc fmt vd va km => Sys2Proof.Machine.execVpopc fmt vd va km s
  | .vclz fmt vd va km => Sys2Proof.Machine.execVclz fmt vd va km s
  | .vcmp cond fmt kd va vb km => Sys2Proof.Machine.execVcmp cond fmt kd va vb km s
  | .vsel fmt vd va vb km => Sys2Proof.Machine.execVsel fmt vd va vb km s
  | .vcvt rm dst src vd va km => Sys2Proof.Machine.execVcvt rm dst src vd va km s
  | .vred op fmt vd va km => Sys2Proof.Machine.execVred op fmt vd va km s
  | .vscan op fmt vd va km => Sys2Proof.Machine.execVscan op fmt vd va km s
  | .vperm fmt vd va vb km => Sys2Proof.Machine.execVperm fmt vd va vb km s
  | .vbcast fmt vd va lane => Sys2Proof.Machine.execVbcast fmt vd va lane s
  | .vmov fmt vd va km => Sys2Proof.Machine.execVmov fmt vd va km s
  | .vpart fmt vd va km => Sys2Proof.Machine.execVpart fmt vd va km s
  | .vthr fmt vd va vb km => Sys2Proof.Machine.execVthr fmt vd va vb km s
  | .vtopkFix fmt vd va vb km => Sys2Proof.Machine.execVtopkFix fmt vd va vb km s
  | .vins fmt vd gs lane => Sys2Proof.Machine.execVins fmt vd gs lane s
  | .vext fmt gd vs lane => Sys2Proof.Machine.execVext fmt gd vs lane s
  | .kmovKg kd gs => Sys2Proof.Machine.execKmovKg kd gs s
  | .kmovGk gd ks => Sys2Proof.Machine.execKmovGk gd ks s
  | .kand kd ka kb => Sys2Proof.Machine.execKand kd ka kb s
  | .kor kd ka kb => Sys2Proof.Machine.execKor kd ka kb s
  | .kxor kd ka kb => Sys2Proof.Machine.execKxor kd ka kb s
  | .mma eng td aA aB ks pri acc => Sys2Proof.Machine.execMma eng td aA aB ks pri acc s
  | .mmaG eng td aA aB aI ks pri acc => Sys2Proof.Machine.execMmaG eng td aA aB aI ks pri acc s
  | .mzero eng td => Sys2Proof.Machine.execMzero eng td s
  | .minit eng td aA => Sys2Proof.Machine.execMinit eng td aA s
  | .mout eng td aA d pri => Sys2Proof.Machine.execMout eng td aA d pri s
  | .mcfg eng aA => Sys2Proof.Machine.execMcfg eng aA s
  | .mdrain eng => Sys2Proof.Machine.execMdrain eng s
  | .mprio eng pri => Sys2Proof.Machine.execMprio eng pri s
  | .mpoll eng pd => Sys2Proof.Machine.execMpoll eng pd s
  | .mwait eng => Sys2Proof.Machine.execMwait eng s
  | .ldI8 acq sc off ab rd => Sys2Proof.Machine.execLdI8 acq sc off ab rd s
  | .ldW8 acq sc off ab rd => Sys2Proof.Machine.execLdW8 acq sc off ab rd s
  | .ldI16 acq sc off ab rd => Sys2Proof.Machine.execLdI16 acq sc off ab rd s
  | .ldW16 acq sc off ab rd => Sys2Proof.Machine.execLdW16 acq sc off ab rd s
  | .ldI32 acq sc off ab rd => Sys2Proof.Machine.execLdI32 acq sc off ab rd s
  | .ldW32 acq sc off ab rd => Sys2Proof.Machine.execLdW32 acq sc off ab rd s
  | .ldI64 acq sc off ab rd => Sys2Proof.Machine.execLdI64 acq sc off ab rd s
  | .stI8 rel sc off ab rs => Sys2Proof.Machine.execStI8 rel sc off ab rs s
  | .stI16 rel sc off ab rs => Sys2Proof.Machine.execStI16 rel sc off ab rs s
  | .stI32 rel sc off ab rs => Sys2Proof.Machine.execStI32 rel sc off ab rs s
  | .stI64 rel sc off ab rs => Sys2Proof.Machine.execStI64 rel sc off ab rs s
  | .vld acq sc off ab vd => Sys2Proof.Machine.execVld acq sc off ab vd s
  | .vst rel sc off ab vs => Sys2Proof.Machine.execVst rel sc off ab vs s
  | .vgather acq sc vi ab vd => Sys2Proof.Machine.execVgather acq sc vi ab vd s
  | .vscatter rel sc vi ab vs => Sys2Proof.Machine.execVscatter rel sc vi ab vs s
  | .ldt acq sc gt ab vd => Sys2Proof.Machine.execLdt acq sc gt ab vd s
  | .stpD rel sc off ab rs => Sys2Proof.Machine.execStpD rel sc off ab rs s
  | .stpV rel sc off ab vs => Sys2Proof.Machine.execStpV rel sc off ab vs s
  | .stgD rel sc gg ab rs => Sys2Proof.Machine.execStgD rel sc gg ab rs s
  | .stgV rel sc gg ab vs => Sys2Proof.Machine.execStgV rel sc gg ab vs s
  | .fenceOwn sc => Sys2Proof.Machine.execFenceOwn sc s
  | .fenceFar sc => Sys2Proof.Machine.execFenceFar sc s
  | .fenceScAcq sc => Sys2Proof.Machine.execFenceScAcq sc s
  | .fenceScRel sc => Sys2Proof.Machine.execFenceScRel sc s
  | .fenceScAr sc => Sys2Proof.Machine.execFenceScAr sc s
  | .flsig sc ab gs => Sys2Proof.Machine.execFlsig sc ab gs s
  | .probe vc gd => Sys2Proof.Machine.execProbe vc gd s
  | .cpy land rel acq sc q gd ea => Sys2Proof.Machine.execCpy land rel acq sc q gd ea s
  | .cpyq gd => Sys2Proof.Machine.execCpyq gd s
  | .coll rel acq sc q gd ea => Sys2Proof.Machine.execColl rel acq sc q gd ea s
  | .cmbOpen rel acq sc gd ea => Sys2Proof.Machine.execCmbOpen rel acq sc gd ea s
  | .cmbClose rel acq sc gd => Sys2Proof.Machine.execCmbClose rel acq sc gd s
  | .gcommit rel acq sc gd ea => Sys2Proof.Machine.execGcommit rel acq sc gd ea s
  | .gabort rel acq sc gd ea => Sys2Proof.Machine.execGabort rel acq sc gd ea s
  | .hist rel acq sc gd ea => Sys2Proof.Machine.execHist rel acq sc gd ea s
  | .snap rel acq sc gd ea => Sys2Proof.Machine.execSnap rel acq sc gd ea s
  | .br disp => Sys2Proof.Machine.execBr disp s
  | .jmp disp => Sys2Proof.Machine.execJmp disp s
  | .call disp => Sys2Proof.Machine.execCall disp s
  | .callr ga => Sys2Proof.Machine.execCallr ga s
  | .jr ga => Sys2Proof.Machine.execJr ga s
  | .jmpBkt gc off => Sys2Proof.Machine.execJmpBkt gc off s
  | .loopCfg gd lev => Sys2Proof.Machine.execLoopCfg gd lev s
  | .loopRun nm1 flev => Sys2Proof.Machine.execLoopRun nm1 flev s
  | .barInit b gn => Sys2Proof.Machine.execBarInit b gn s
  | .barArrive b => Sys2Proof.Machine.execBarArrive b s
  | .barWait b => Sys2Proof.Machine.execBarWait b s
  | .barTest b pd => Sys2Proof.Machine.execBarTest b pd s
  | .hoopEnd m => Sys2Proof.Machine.execHoopEnd m s
  | .hoopJoin m gd => Sys2Proof.Machine.execHoopJoin m gd s
  | .waitAt gt => Sys2Proof.Machine.execWaitAt gt s
  | .waitEv gk => Sys2Proof.Machine.execWaitEv gk s
  | .role r => Sys2Proof.Machine.execRole r s
  | .stkEnd ductus => Sys2Proof.Machine.execStkEnd ductus s
  | .trap code => Sys2Proof.Machine.execTrap code s
  | .brk code => Sys2Proof.Machine.execBrk code s
  | .csrr gd csr => Sys2Proof.Machine.execCsrr gd csr s
  | .csrw gs csr => Sys2Proof.Machine.execCsrw gs csr s
  | .csrs gs csr => Sys2Proof.Machine.execCsrs gs csr s
  | .csrc gs csr => Sys2Proof.Machine.execCsrc gs csr s
  | .gnodeDone gs => Sys2Proof.Machine.execGnodeDone gs s
  | .winSet gd gn => Sys2Proof.Machine.execWinSet gd gn s
  | .winClr gn => Sys2Proof.Machine.execWinClr gn s
  | .pgInval ga sz => Sys2Proof.Machine.execPgInval ga sz s
  | .pgSnap ga gl => Sys2Proof.Machine.execPgSnap ga gl s
  | .pgCowRelease ga gl => Sys2Proof.Machine.execPgCowRelease ga gl s
  | .pgCowRestore ga gl => Sys2Proof.Machine.execPgCowRestore ga gl s
  | .pgBlkSet ga => Sys2Proof.Machine.execPgBlkSet ga s
  | .pgBlkClear ga => Sys2Proof.Machine.execPgBlkClear ga s
  | .pgMig ga gf => Sys2Proof.Machine.execPgMig ga gf s
  | .partInt gv gp => Sys2Proof.Machine.execPartInt gv gp s
  | .ctxPark gc => Sys2Proof.Machine.execCtxPark gc s
  | .ctxUnpark gc => Sys2Proof.Machine.execCtxUnpark gc s
  | .ifrRd gd gs => Sys2Proof.Machine.execIfrRd gd gs s
  | .ifrWr gv gs => Sys2Proof.Machine.execIfrWr gv gs s
  | .issueChoice pid core => Sys2Proof.Machine.execIssueChoice pid core s
  | .landingArrival id entry => Sys2Proof.Machine.execLandingArrival id entry s
  | .landingFreeze id entry => Sys2Proof.Machine.execLandingFreeze id entry s
  | .landingBoundExpiry id entry => Sys2Proof.Machine.execLandingBoundExpiry id entry s
  | .responseArrival n => Sys2Proof.Machine.execResponseArrival n s
  | .matrixUnitEnd pid core eng => Sys2Proof.Machine.execMatrixUnitEnd pid core eng s
  | .matrixComplete pid core eng => Sys2Proof.Machine.execMatrixComplete pid core eng s
  | .quillProgress pid core => Sys2Proof.Machine.execQuillProgress pid core s
  | .chainCopy pid core queue => Sys2Proof.Machine.execChainCopy pid core queue s
  | .chainAccum pid core queue => Sys2Proof.Machine.execChainAccum pid core queue s
  | .chainReduce pid core queue => Sys2Proof.Machine.execChainReduce pid core queue s
  | .chainMcast pid core queue => Sys2Proof.Machine.execChainMcast pid core queue s
  | .chainArrive pid core queue => Sys2Proof.Machine.execChainArrive pid core queue s
  | .chainFlag pid core queue => Sys2Proof.Machine.execChainFlag pid core queue s
  | .chainGstore pid core queue => Sys2Proof.Machine.execChainGstore pid core queue s
  | .chainSignal pid core queue => Sys2Proof.Machine.execChainSignal pid core queue s
  | .chainLoop pid core queue => Sys2Proof.Machine.execChainLoop pid core queue s
  | .chainCond pid core queue => Sys2Proof.Machine.execChainCond pid core queue s
  | .chainWaitflag pid core queue => Sys2Proof.Machine.execChainWaitflag pid core queue s
  | .waitflagTimeout pid core queue => Sys2Proof.Machine.execWaitflagTimeout pid core queue s
  | .chainEnd pid core queue => Sys2Proof.Machine.execChainEnd pid core queue s
  | .postedStoreArrival n => Sys2Proof.Machine.execPostedStoreArrival n s
  | .groupStoreArrival n => Sys2Proof.Machine.execGroupStoreArrival n s
  | .accumArrival n => Sys2Proof.Machine.execAccumArrival n s
  | .remoteAccessArrival n => Sys2Proof.Machine.execRemoteAccessArrival n s
  | .flsigArrival n => Sys2Proof.Machine.execFlsigArrival n s
  | .flsigTokenReturn n => Sys2Proof.Machine.execFlsigTokenReturn n s
  | .probeReturn n => Sys2Proof.Machine.execProbeReturn n s
  | .combinerOpen n => Sys2Proof.Machine.execCombinerOpen n s
  | .combinerContribution n => Sys2Proof.Machine.execCombinerContribution n s
  | .combinerTimerExpiry pid entry => Sys2Proof.Machine.execCombinerTimerExpiry pid entry s
  | .deliveryRecordArrival n => Sys2Proof.Machine.execDeliveryRecordArrival n s
  | .mcastReplicate n => Sys2Proof.Machine.execMcastReplicate n s
  | .barrierArrival n => Sys2Proof.Machine.execBarrierArrival n s
  | .hoopArrival n => Sys2Proof.Machine.execHoopArrival n s
  | .hoopPhaseEnd pid hoop => Sys2Proof.Machine.execHoopPhaseEnd pid hoop s
  | .hoopJoinArrival n => Sys2Proof.Machine.execHoopJoinArrival n s
  | .hoopRefusal n => Sys2Proof.Machine.execHoopRefusal n s
  | .collDescriptorCompare pid coll => Sys2Proof.Machine.execCollDescriptorCompare pid coll s
  | .collChunk pid coll => Sys2Proof.Machine.execCollChunk pid coll s
  | .collComplete pid coll => Sys2Proof.Machine.execCollComplete pid coll s
  | .homeSeal n => Sys2Proof.Machine.execHomeSeal n s
  | .commitDecide pid commit => Sys2Proof.Machine.execCommitDecide pid commit s
  | .commitSealTimeout pid commit => Sys2Proof.Machine.execCommitSealTimeout pid commit s
  | .homeDecision n => Sys2Proof.Machine.execHomeDecision n s
  | .commitAcknowledged pid commit => Sys2Proof.Machine.execCommitAcknowledged pid commit s
  | .commitAckTimeout pid commit => Sys2Proof.Machine.execCommitAckTimeout pid commit s
  | .homeDecisionTimeout pid group => Sys2Proof.Machine.execHomeDecisionTimeout pid group s
  | .histComplete pid hist => Sys2Proof.Machine.execHistComplete pid hist s
  | .replayStart pid part => Sys2Proof.Machine.execReplayStart pid part s
  | .nodeComplete pid inst => Sys2Proof.Machine.execNodeComplete pid inst s
  | .successorMessage n => Sys2Proof.Machine.execSuccessorMessage n s
  | .stoppingComplete pid core => Sys2Proof.Machine.execStoppingComplete pid core s
  | .saveComplete pid core => Sys2Proof.Machine.execSaveComplete pid core s
  | .restoreComplete pid core => Sys2Proof.Machine.execRestoreComplete pid core s
  | .homeSealTimeout pid group => Sys2Proof.Machine.execHomeSealTimeout pid group s
  | .matrixUnitStart pid core eng => Sys2Proof.Machine.execMatrixUnitStart pid core eng s
  | .landingSlot id entry => Sys2Proof.Machine.execLandingSlot id entry s
  | .consumedErrorReport n => Sys2Proof.Machine.execConsumedErrorReport n s
  | .retryResend n => Sys2Proof.Machine.execRetryResend n s
  | .acktIdleMessage id chan => Sys2Proof.Machine.execAcktIdleMessage id chan s
  | .homeUnreachable n => Sys2Proof.Machine.execHomeUnreachable n s
  | .blktmoExpiry n => Sys2Proof.Machine.execBlktmoExpiry n s
  | .nodeAgeing pid inst => Sys2Proof.Machine.execNodeAgeing pid inst s
  | .nodePlace pid inst cores => Sys2Proof.Machine.execNodePlace pid inst cores s
  | .nodeKill pid inst => Sys2Proof.Machine.execNodeKill pid inst s
  | .nodeFailStatus pid inst => Sys2Proof.Machine.execNodeFailStatus pid inst s
  | .swappedWriteArrival n => Sys2Proof.Machine.execSwappedWriteArrival n s
  | .resetRelease pid sigOk flatMesh slots locked => Sys2Proof.Machine.execResetRelease pid sigOk flatMesh slots locked s
  | .erlimelGo pid ctl => Sys2Proof.Machine.execErlimelGo pid ctl s
  | .contextStart pid core ctx v => Sys2Proof.Machine.execContextStart pid core ctx v s
  | .partitionControlWrite pid part bytes => Sys2Proof.Machine.execPartitionControlWrite pid part bytes s
  | .resourceBlockWrite pid part bytes => Sys2Proof.Machine.execResourceBlockWrite pid part bytes s
  | .mcastGroupWrite pid group members => Sys2Proof.Machine.execMcastGroupWrite pid group members s
  | .controlSpaceWrite pid off v => Sys2Proof.Machine.execControlSpaceWrite pid off v s
  | .launchWordWrite pid part header req => Sys2Proof.Machine.execLaunchWordWrite pid part header req s
  | .hostApertureAccess pid part off len wr => Sys2Proof.Machine.execHostApertureAccess pid part off len wr s
  | .thermalTrip pid island => Sys2Proof.Machine.execThermalTrip pid island s
  | .thermalClear pid island => Sys2Proof.Machine.execThermalClear pid island s
  | .energyRefill pid => Sys2Proof.Machine.execEnergyRefill pid s
  | .flitTagFail pid port => Sys2Proof.Machine.execFlitTagFail pid port s
  | .portLock pid port => Sys2Proof.Machine.execPortLock pid port s
  | .portReattest pid port => Sys2Proof.Machine.execPortReattest pid port s
  | .linkKeyUpdate pid port => Sys2Proof.Machine.execLinkKeyUpdate pid port s
  | .fieldReset pid field => Sys2Proof.Machine.execFieldReset pid field s
  | .fieldLoss pid field => Sys2Proof.Machine.execFieldLoss pid field s
  | .debugFieldHalt pid field => Sys2Proof.Machine.execDebugFieldHalt pid field s
  | .debugFieldRelease pid field => Sys2Proof.Machine.execDebugFieldRelease pid field s
  | .registerUncorrectable pid core => Sys2Proof.Machine.execRegisterUncorrectable pid core s
  | .retireAllMessage pid field sources => Sys2Proof.Machine.execRetireAllMessage pid field sources s
  | .pageWalkComplete pid part va => Sys2Proof.Machine.execPageWalkComplete pid part va s
  | .cowCopy pid part va => Sys2Proof.Machine.execCowCopy pid part va s
  | .preemptRequest pid cores => Sys2Proof.Machine.execPreemptRequest pid cores s
  | .evict pid core slot => Sys2Proof.Machine.execEvict pid core slot s
  | .evictComplete pid core slot => Sys2Proof.Machine.execEvictComplete pid core slot s
  | .restoreStart pid core slot => Sys2Proof.Machine.execRestoreStart pid core slot s
  | .seedWrite v => Sys2Proof.Machine.execSeedWrite v s
  | .bankFormatWrite n v => Sys2Proof.Machine.execBankFormatWrite n v s
  | .memorySoftError pid addr correctable => Sys2Proof.Machine.execMemorySoftError pid addr correctable s
  | .hoopDeviceRelease pid hoop => Sys2Proof.Machine.execHoopDeviceRelease pid hoop s
  | .debugPortAccess pid core eng index wr => Sys2Proof.Machine.execDebugPortAccess pid core eng index wr s
  | .msixEntryUnmask pid entry => Sys2Proof.Machine.execMsixEntryUnmask pid entry s
  | .nop => Sys2Proof.Machine.execNop s
  | .efence => Sys2Proof.Machine.execEfence s
  | .ret => Sys2Proof.Machine.execRet s
  | .loopBrk => Sys2Proof.Machine.execLoopBrk s
  | .yield => Sys2Proof.Machine.execYield s
  | .tfence => Sys2Proof.Machine.execTfence s
  | .halt => Sys2Proof.Machine.execHalt s
  | .tret => Sys2Proof.Machine.execTret s

end Sys2Proof.Machine
end

