-- ==== Sys2Proof/Machine/Bundle.lean ====
section
/-! DEFINITION. How the chosen bundles take effect: slot order, suppressed slots, precise traps and waits without effect,
the end of a bundle, the sequencer's passes, the stroke (R34 to R38, R252, R293 to R297, R385, R387, R418). -/

namespace Sys2Proof.Machine

/-- Whether a slot is performed: its iteration class, and in slot C its predicate (R37, R51). -/
def State.performs (s : State) (b : Chosen) (x : Slot × Slotted) : Bool := (s.ctx b.id).performs b.replay x

/-- One slot in hand; `passed`: the wait of its bundle is over (R418). -/
def State.slotState (s : State) (b : Chosen) (x : Slot × Slotted) (passed : Bool := false) : State :=
  { s with
    cur := { id := b.id, addr := b.addr, len := b.len, slot := x.1, issue := (s.ctx b.id).issued }
    latch := { chosen := s.latch.chosen, hidden := s.latch.hidden, record := s.latch.record, passed := passed && waitingOp x.2.op } }

/-- How the slots of the chosen bundles ended. -/
inductive Ran where
  /-- every slot took effect; the flags of each performed slot -/
  | done (s : State) (fs : List (CtxId × Latch))
  /-- a slot trapped, or waits -/
  | trapped (b : Chosen) (x : Slot × Slotted) (l : Latch)
  | held (b : Chosen) (x : Slot × Slotted) (l : Latch)
  | stopped (o : Out)

/-- `pg.cow` as the register L selects it: release, or restore and release (R362, R361: OP in bit 6). -/
def State.turned (s : State) (id : CtxId) (i : Instr) : Instr :=
  match i with
  | .pgCowRelease ga gl => if ((s.ctx id).rg gl).getLsbD 6 then .pgCowRestore ga gl else i
  | i => i

/-- Performs slots in order until one traps or waits. The waiting instructions of the slots `ts` end their wait with a trap, any
other's wait is over. -/
def runSlots (ts : List (CtxId × Slot)) : List (Chosen × Slot × Slotted) → State → List (CtxId × Latch) → Ran
  | [], s, fs => .done s fs
  | (b, x) :: xs, s, fs =>
    if !s.performs b x then runSlots ts xs s fs
    else match exec (s.turned b.id x.2.op) (s.slotState b x (!ts.contains (b.id, x.1))) with
      | .next t =>
        if t.latch.trap.isSome then .trapped b x t.latch
        else if t.latch.hold then .held b x t.latch
        else runSlots ts xs t (fs ++ [(b.id, t.latch)])
      | o => .stopped o

/-- The waiting instructions of bundles, each tried alone before any slot takes effect: the first that waits, or those that end their
wait with a trap, which then stands in its place among the bundle's traps (R405, R418). -/
def waitSlots (s : State) : List (Chosen × Slot × Slotted) → Except Ran (List (CtxId × Slot))
  | [] => .ok []
  | (b, x) :: xs =>
    if !waitingOp x.2.op || !s.performs b x then waitSlots s xs
    else match exec (s.turned b.id x.2.op) (s.slotState b x) with
      | .next t =>
        if t.latch.trap.isSome then (waitSlots s xs).map (fun ts => (b.id, x.1) :: ts)
        else if t.latch.hold then .error (.held b x t.latch)
        else waitSlots s xs
      | o => .error (.stopped o)

/-- `stk.end`, whose check comes before any slot takes effect (R387); `hoop.end` and `hoop.join`, before the accesses of their own
bundle (R418). -/
def leads : Instr → Bool
  | .stkEnd _ | .hoopEnd _ | .hoopJoin .. => true
  | _ => false

/-- The slots of the chosen bundles in the order of R34, a merged pair as one bundle (R252). -/
def slotOrder (bs : List Chosen) : List (Chosen × Slot × Slotted) :=
  let xs := Slot.all.flatMap (fun sl => bs.flatMap (fun b => (b.slots.filter (fun x => x.1 = sl)).map (fun x => (b, x))))
  xs.filter (fun x => leads x.2.2.op) ++ xs.filter (fun x => !leads x.2.2.op)

/-- A bundle that stands in no replay ends the one of its level (R297). -/
def State.leaveReplay (s : State) (b : Chosen) : State :=
  if b.replay then s else s.updCtx b.id (fun c => if c.running.isSome then c.endReplay else c)

/-- The word that an `ifr.rd` among the chosen bundles reads: as it stands when its bundle issues, before any slot takes effect (R409). -/
def State.recordRead (s : State) (bs : List Chosen) : Option Word :=
  (slotOrder bs).findSome? (fun x => match x.2.2.op with
    | .ifrRd _ gs => (s.slotState x.1 x.2).ifrWord gs
    | _ => none)

/-- The chosen bundles: their waits, then their slots. -/
def State.runChosen (s : State) (bs : List Chosen) : Ran :=
  let s := bs.foldl State.leaveReplay s
  let s := { s with latch := { s.latch with record := s.recordRead bs } }
  match waitSlots s (slotOrder bs) with
  | .error r => r
  | .ok ts => runSlots ts (slotOrder bs) s []

/-! ### The end of a bundle -/

/-- The stride addition of a pass's last bundle: to the value a bundle one cycle later reads, with latency 1 (R294). -/
def Ctx.addStrides (c : Ctx) (now l : Nat) : Ctx :=
  let later := c.landDue (now + 1)
  (List.finRange 16).foldl (fun (c : Ctx) (j : Fin 16) =>
    let d := (c.loopLevel l).strides[j.val]
    if d = 0 then c
    else { c with pend := insertPend ⟨now + 1, .a (BitVec.ofFin j) (later.ra (BitVec.ofFin j) + d), c.issued⟩ c.pend }) c

/-- The iteration counts once level `l` advances (R293). -/
def Replay.advance (r : Replay) (l : Nat) : Vector Nat 6 :=
  Vector.ofFn (fun i => if i.val < l then 0 else if i.val = l then r.at l + 1 else r.at i.val)

/-- The address of a buffered bundle. -/
def Replay.addrAt (r : Replay) (n : Nat) (d : Word) : Word := ((r.buf[n]?).map (fun x => x.addr)).getD d

/-- A replay whose bundle is loaded in its first pass (R292). -/
def Replay.loaded (r : Replay) (b : Chosen) : Replay :=
  if r.first then { r with buf := r.buf ++ [⟨b.addr, b.bytes⟩], want := b.addr + BitVec.ofNat 64 b.len } else r

/-- The replay after one of its bundles has issued on pipeline cycle `now` (R292, R293). -/
def Ctx.replayStep (c : Ctx) (b : Chosen) (brk : Bool) (now : Nat) : Ctx :=
  match c.running with
  | none => c
  | some r0 =>
    if brk then c.endReplay
    else
      let r := r0.loaded b
      if r.pos + 1 < r.n then
        { c with seqr := { c.seqr with replay := some { r with pos := r.pos + 1 } }
                 npc := if r.first then c.npc else r.addrAt (r.pos + 1) c.npc }
      else match c.advancing r with
        | none => { c.endReplay with npc := b.addr + BitVec.ofNat 64 b.len }
        | some l =>
          { c.addStrides now l with
              seqr := { c.seqr with replay := some { r with pos := 0, first := false, iter := r.advance l } }
              npc := r.addrAt 0 c.npc }

/-- `stk.end`, whose slot enters no ductus (R385). -/
def isStkEnd : Instr → Bool
  | .stkEnd _ => true
  | _ => false

/-- The 6 bytes of the C slot that enter the ductus (R385). -/
def Chosen.ductBytes (b : Chosen) : List Byte :=
  if b.slots.any (fun x => x.1 = .c && !isStkEnd x.2.op) then b.bytes.drop (b.len - 6) else []

/-- The stroke after a bundle issued at program level (R385, R387). -/
def Ctx.strokeStep (c : Ctx) (b : Chosen) (blocking ended : Bool) : Ctx :=
  let w := stkUpdate c.stkchk blocking (1 + maxSt b.slots) b.ductBytes
  { c with stkchk := if ended then w &&& ~~~0x0100000000000000 else w }

/-- The bytes of the own scratchpad that the L slot of a bundle overwrites, as they stood before: a queued instruction of the bundle reads
those (R147). -/
def State.hiddenBy (pre : State) (b : Chosen) (ls : List Latch) : List (Nat × Byte) :=
  let key (off : Nat) : Nat := spadKey b.id.pid b.id.core off
  (b.slots.filter (fun x => pre.performs b x)).flatMap (fun x => ((pre.slotState b x).storeSpans x.2.op).flatMap (fun r =>
    (List.range r.2).map (fun i => (r.1 + i, pre.readByte (key (r.1 + i)))))) ++
  (ls.flatMap (·.hidden)).filterMap (fun h => if key 0 ≤ h.1 ∧ h.1 < key 0 + 0x100000 then some (h.1 - key 0, h.2) else none)

/-- The queued instructions of a bundle that has taken effect: they do not observe its L slot (R147). -/
def State.hideStores (pre s : State) (b : Chosen) (ls : List Latch) : State :=
  if !b.slots.any (fun x => x.1 = .m) || !b.slots.any (fun x => x.1 = .l) then s
  else
    let mine (e : MEntry) : Bool := e.ctx = b.id.ctx % 4 && e.issue = (pre.ctx b.id).issued
    let hs := pre.hiddenBy b ls
    s.updLive b.id.pid b.id.core (fun d => { d with eng := d.eng.map (fun x => { x with
      queue := x.queue.map (fun e => if mine e then { e with hidden := hs } else e) }) })

/-- The end of a bundle that took effect: replay, stroke, program counter and stall count (R38, R285, R293, R385). -/
def State.finishBundle (pre : State) (fs : List (CtxId × Latch)) (s : State) (b : Chosen) : State :=
  let ls := (fs.filter (fun f => f.1 = b.id)).map (·.2)
  (pre.hideStores s b ls).updCtx b.id (fun c =>
    let c := if b.replay then c.replayStep b (ls.any (·.brk)) (s.core b.id.pid b.id.core).pcyc else c
    let c := if (pre.ctx b.id).level = .program && !c.halted then
        c.strokeStep b (ls.any (·.blocking)) (ls.any (·.stkEnd)) else c
    { c with pc := c.npc, stall := if c.halted then 0 else 1 + maxSt b.slots, own := c.own + 1, issued := c.issued + 1,
             age := 0, next := none })

/-! ### One cycle of a core -/

/-- The state in which one slot alone has acted: what a precise trap or a wait keeps of it (R35, R418). -/
def State.alone (s : State) (b : Chosen) (x : Slot × Slotted) : State :=
  match exec (s.turned b.id x.2.op) (s.slotState b x) with
  | .next t => t
  | _ => s

/-- A bundle that traps leaves every slot without effect, but for what the trapping slot keeps (R35, R375). -/
def State.bundleTrap (s : State) (b : Chosen) (x : Slot × Slotted) (l : Latch) : State :=
  let t := if l.keep then s.alone b x else s
  match l.trap with
  | some (cause, tval) => if l.keep && t.latch.trap.isSome then t else t.takeTrap b.id cause tval b.addr
  | none => t

/-- A bundle waits, held by slot `y`: what its waiting instructions keep stands, or, where none of them waits any more, what that slot
keeps (R418), and nothing else of the choice but the place of the bundle; one with a waiting instruction keeps its bytes, which have
passed the checks. `u` is the state in which the bundle has been prepared. -/
def State.heldBundle (s u : State) (b : Chosen) (y : Slot × Slotted) (frozen : Bool) : State :=
  let t := b.slots.foldl (fun t x => if !u.performs b x || (if waitingOp y.2.op then !waitingOp x.2.op else x.1 ≠ y.1) then t else
    (let v := t.alone b x
     if v.latch.hold && v.latch.keep && v.latch.trap.isNone then v else t)) s
  let d := u.ctx b.id
  ({ t with latch := {} }).updCtx b.id (fun c => { c.wait frozen with
    pc := b.addr, npc := b.addr, oldMap := d.oldMap
    next := if b.slots.any (fun x => waitingOp x.2.op && u.performs b x) then some ⟨b.addr, b.bytes⟩ else none })

/-- A context in READY whose next bundle meets a wait is WAITING on this cycle (R251, R418). -/
def State.judgeOne (s : State) (id : CtxId) : State :=
  match s.prepare id with
  | (_, .waits) => s.setWaiting id true
  | (u, .bundle b) =>
    (match { u with latch := { chosen := [b] } }.runChosen [b] with
     | .held _ y l => s.heldBundle u b y l.frozen
     | _ => s)
  | _ => s

/-- Waits are judged before the choice (R251): with one context in READY, as its bundle is tried. -/
def State.judge (s : State) (pid core : Nat) : State :=
  let rdy := s.readyList pid core
  if rdy.length ≤ 1 then s else rdy.foldl (fun s x => s.judgeOne ⟨pid, core, x⟩) s

/-- Performs the chosen bundles; `s0` is the core's state before the choice. A trap leaves the other bundle to issue alone (R252), and its own
bundle, which has issued, has ended a replay in which it does not stand (R297); a wait lets the issue stage choose among the others (R251, R418).
-/
def State.issueBundles (pid core : Nat) (s0 : State) : Nat → State → Out
  | 0, s => .next { s with latch := {} }
  | fuel + 1, s =>
    match s.runChosen s.latch.chosen with
    | .done t fs => .next { s.latch.chosen.foldl (State.finishBundle s fs) t with latch := {} }
    | .stopped o => o
    | .trapped b x l =>
      let rest := s.latch.chosen.filter (fun y => y.id ≠ b.id)
      State.issueBundles pid core s0 fuel { (s.leaveReplay b).bundleTrap b x l with latch := { chosen := rest } }
    | .held b y l =>
      let t := s0.heldBundle s b y l.frozen
      State.issueBundles pid core t fuel (t.choose pid core chooseFuel)

/-- A core's state before the choice of a cycle: its pipeline cycle has begun and the waits are judged. -/
def State.beforeChoice (s : State) (pid core : Nat) : State := ({ s with latch := {} }.advance pid core).judge pid core

/-- One pipeline cycle of a core: `ISSUE_CHOICE` with its bundles. -/
def State.cycleCore (pid core : Nat) (s : State) : Out :=
  let s0 := if s.advances pid core then s.beforeChoice pid core else s
  match exec (.issueChoice pid core) s0 with
  | .next t => State.issueBundles pid core s0 12 t
  | o => o

/-- What the head of the agenda does: a core's cycle, or another event; a slot operation runs in its bundle alone. -/
def State.act (e : Instr) (s : State) : Out :=
  match e with
  | .issueChoice pid core => s.cycleCore pid core
  | e => if e.cls = .event then exec e s else .fault .slotOutsideBundle

/-! ### One instruction placed for the next step -/

/-- The bundle that holds a table word alone: as slot A or E, as V0, M or L, or as C. A `stk.cnt` stands beside the
`stk.end` that R57 demands; a word no slot admits stands in the first slot of its width. -/
def wordBundle (nbits w : Nat) : List Byte :=
  let word := BitVec.ofNat 48 (leNat (leBytes (nbits / 8) w))
  let bs := leBytes (nbits / 8) w
  let at_ (sl : Slot) : List Byte := BitVec.ofNat 8 (2 ^ sl.bit) :: bs
  let first (sls : List Slot) (d : Slot) : List Byte :=
    at_ ((sls.find? (fun sl => match decodeSlot sl.cls word with
      | .ok _ => true
      | .error _ => false)).getD d)
  match nbits with
  | 32 =>
    (match decodeSlot .scalar word with
     | .ok { op := .stkCnt _, .. } => (0x81 : Byte) :: (bs ++ leBytes 6 0x7600)
     | _ => first [.a, .e] .a)
  | 40 => first [.v0, .m, .l] .v0
  | _ => at_ .c

/-- Context 0 of core 0 of package 0 at device level, its next bundle the word's at device physical address 0, every
feature the word's opcode depends on accepted, and one cycle of that core next. -/
def State.placeWord (s : State) (nbits w : Nat) : State :=
  let id : CtxId := ⟨0, 0, 0⟩
  let s := s.writeBytes (memKey 0 0) (wordBundle nbits w)
  let s := s.updCtx id (fun c => { c with halted := false, waiting := false, parkMark := false, stall := 0, level := .device,
                                          pc := 0, npc := 0, traps := [], err := none, seqr := { c.seqr with replay := none } })
  let s := s.updCore 0 0 (fun k => { k with freeze := [], swap := .running, stopped := false, primary := some 0, yielded := none })
  let s := s.updPkg 0 (fun p => { p with features := p.features ||| 3 })
  { s with agenda := [.issueChoice 0 0] }

end Sys2Proof.Machine
end

