-- ==== Sys2Proof/Machine/Schedule.lean ====
section
/-! DEFINITION. Who moves next: the default schedule of a cycle, and the device clock with the timers that run on it (R16, R206,
R216, R227, R236, R239, R257, R261, R265, R267, R280, R344, R395, R399, R400; log entry 1). -/

namespace Sys2Proof.Machine

/-! ### What moves on a cycle -/

/-- The event by which message `n` arrives; the read of a landing arrives with LANDING_ARRIVAL, the answers of a commit's homes with
COMMIT_DECIDE and COMMIT_ACKNOWLEDGED; arrivals at barriers come at the end of the cycle (R300). -/
def State.arrival (s : State) (n : Nat) (m : Msg) : Option Instr :=
  if m.retry then (if m.left = 0 then some (.retryResend n) else none)
  else if s.unreachable m then some (.homeUnreachable n)
  else match m.body, m.body.dest with
    | _, some (.exposure ..) => some (.remoteAccessArrival n)
    | .load .., _ => none
    | b, some (.phys pid pa) =>
      if m.epoch ≠ s.epochAt pid pa && !s.epochLost m.epoch pid pa then some (.swappedWriteArrival n)
      else match b with
        | .store .. => some (.postedStoreArrival n)
        | .group .. => some (.groupStoreArrival n)
        | .accum .. => some (.accumArrival n)
        | _ => some (.flsigArrival n)
    | .probe, _ => some (.probeReturn n)
    | .resp r _, _ =>
      if m.src.kind ≠ 2 then some (.responseArrival n)
      else if r = .ok then some (.flsigTokenReturn n) else some (.consumedErrorReport n)
    | .cmbOpen .., _ => some (.combinerOpen n)
    | .contrib .., _ | .cmbClose _, _ => some (.combinerContribution n)
    | .deliver .., _ => some (.deliveryRecordArrival n)
    | .mcast .., _ => some (.mcastReplicate n)
    | .arrive .., _ => none
    | .hoopArrive .., _ => some (.hoopArrival n)
    | .hoopJoin .., _ => some (.hoopJoinArrival n)
    | .hoopRefuse .., _ => some (.hoopRefusal n)
    | .sealMsg .., _ => some (.homeSeal n)
    | .decision .., _ => some (.homeDecision n)
    | .successor _, _ => some (.successorMessage n)
    | _, _ => none

/-- Every message arrives, the last one first: an arrival changes the places of none before it. -/
def State.arrivals (s : State) : List Instr := (s.net.zipIdx.reverse).filterMap (fun m => s.arrival m.2 m.1)

/-- The entries of a context with a landing, in issue order. -/
def Ctx.landings (c : Ctx) : List Nat :=
  ((List.range 64).filter (fun i => (c.entry i).landing.isSome)).foldl (fun l i =>
    l.takeWhile (fun j => (c.entry j).issue ≤ (c.entry i).issue) ++ i :: l.dropWhile (fun j => (c.entry j).issue ≤ (c.entry i).issue)) []

/-- The landings of a core on a cycle: what arrives, what freezes it, what enters its registers in issue order, what is late (R204,
R206). -/
def landingEvents (pid core : Nat) (d : CoreData) : List Instr :=
  let ls := (List.range 4).flatMap (fun x => (d.ctx x).landings.map (fun i => ((⟨pid, core, x⟩ : CtxId), i)))
  ls.map (fun l => .landingArrival l.1 l.2) ++ ls.map (fun l => .landingFreeze l.1 l.2) ++ ls.map (fun l => .landingSlot l.1 l.2) ++
    ls.map (fun l => .landingBoundExpiry l.1 l.2)

/-- A core's quill on a cycle: its progress and the timers of its chains. -/
def quillEvents (key : Nat) (k : Core) : List Instr :=
  (if k.live.chains = [] then [] else [.quillProgress (key / 1024) (key % 1024)]) ++
  (k.live.chains.filter (fun c => c.timer = some 0)).map (fun c => .waitflagTimeout (key / 1024) (key % 1024) c.queue)

/-- A core's cycle: landings, engines, the issue stage, its swap. -/
def coreEvents (key : Nat) (k : Core) : List Instr :=
  let pid := key / 1024
  let core := key % 1024
  let d := k.live
  landingEvents pid core d ++
  (List.range 2).flatMap (fun e => if ((d.eng[e % 2]'(Nat.mod_lt _ (by decide))).queue = []) then []
    else [.matrixUnitEnd pid core e, .matrixComplete pid core e, .matrixUnitStart pid core e]) ++
  [.issueChoice pid core] ++
  (match k.swap with
   | .stopping => [.stoppingComplete pid core]
   | .saving _ => [.saveComplete pid core]
   | .restoring _ => [.restoreComplete pid core]
   | _ => [])

/-- A node instance: its kill, its end, or the dispatcher's next move for it. -/
def State.instEvents (s : State) (pid : Nat) (i : Inst) : List Instr :=
  if i.dying.isSome then [.nodeKill pid i.id]
  else match i.state with
    | .running => [.nodeComplete pid i.id, .nodeFailStatus pid i.id]
    | .ready => [.nodeAgeing pid i.id, .nodePlace pid i.id (s.coresFor pid i)]
    | .placing =>
      [.nodePlace pid i.id (if i.cores = [] then s.coresFor pid i else i.cores)]
    | .parked => [.nodeAgeing pid i.id, .nodePlace pid i.id (s.coresFor pid i)]
    | _ => []

/-- The events of a package's own units. -/
def State.pkgEvents (s : State) (pid : Nat) (p : Pkg) : List Instr :=
  p.combs.filterMap (fun (e : Nat × Comb) => if e.2.left = some 0 then some (.combinerTimerExpiry pid e.1) else none) ++
  p.groups.flatMap (fun (g : Nat × GroupRec) => if g.2.sealReq.isNone then []
    else if g.2.state = .opened then [.homeSealTimeout pid g.1]
    else if g.2.state = .sealed then [.homeDecisionTimeout pid g.1] else []) ++
  p.commits.flatMap (fun (c : Commit) =>
    [.commitDecide pid c.id, .commitSealTimeout pid c.id, .commitAcknowledged pid c.id, .commitAckTimeout pid c.id]) ++
  p.colls.flatMap (fun (c : Coll) => [.collDescriptorCompare pid c.id, .collChunk pid c.id, .collComplete pid c.id]) ++
  p.hists.map (fun (h : Hist) => .histComplete pid h.id) ++
  (p.hoops.zipIdx.filter (fun h => h.1.flushing)).map (fun h => .hoopPhaseEnd pid h.2) ++
  (p.blocked.zipIdx.filter (fun b => b.1.left = 0 && !b.1.expired)).map (fun b => .blktmoExpiry (pid * 65536 + b.2)) ++
  (p.parts.filter (fun (x : Nat × Part) => x.2.started < x.2.requested ||
    p.replays.any (fun r => r.part = x.1 && s.replayOver pid x.1 r.no))).map (fun (x : Nat × Part) => .replayStart pid x.1) ++
  p.insts.flatMap (fun i => s.instEvents pid i)

/-- Whether some port keeps an entry that a source's ACKT of a channel retires (R394). -/
def State.retires (s : State) (id : CtxId) (chan : Nat) : Bool :=
  let tag := s.sourceTag id
  let a := s.acktFor id tag chan
  let some' (c : Cache) : Bool := c.any (fun e => e.1.retiredBy tag chan a)
  s.pkgs.any (fun (p : Nat × Pkg) => some' p.2.dieCache || p.2.fields.any (fun (f : Nat × Field) => some' f.2.cache))

/-- A context that holds answers which its home ports have not heard of acknowledges them in an idle message (R394). -/
def State.idleAckts (s : State) : List Instr :=
  s.cores.flatMap (fun (k : Nat × Core) => (List.range 4).flatMap (fun x => (List.range 16).filterMap (fun ch =>
    let id : CtxId := ⟨k.1 / 1024, k.1 % 1024, x⟩
    if (k.2.live.ctx x).chanSeq[ch % 16]'(Nat.mod_lt _ (by decide)) ≠ 0 && s.retires id ch then some (.acktIdleMessage id ch) else none)))

/-- Whether a package's core clock has an edge on a device step: on each, but where its reference drifts (R16; log entry 98). -/
def State.edges (s : State) (pid : Nat) : Bool := Config.clockSlip pid s.ticks ≠ 1

/-- The default schedule of a cycle: what arrives, the quills, then the cores and the units of the packages whose clock has an edge. -/
def State.schedule (s : State) : List Instr :=
  let cs := s.cores.filter (fun (k : Nat × Core) => s.edges (k.1 / 1024))
  let ps := s.pkgs.filter (fun (p : Nat × Pkg) => s.edges p.1)
  s.arrivals ++ cs.flatMap (fun (k : Nat × Core) => quillEvents k.1 k.2) ++
  cs.flatMap (fun (k : Nat × Core) => coreEvents k.1 k.2) ++
  ps.flatMap (fun (p : Nat × Pkg) => s.pkgEvents p.1 p.2) ++
  (if ps.any (fun (p : Nat × Pkg) => p.2.cycle.toNat % (10 * Config.cyclesPerMicrosecond) = 0) then s.idleAckts else [])

/-! ### The clock -/

/-- Whether the debugger has halted a field in which a partition has a bay: its timers pause (R400). -/
def State.paused (s : State) (pid : Nat) (part : Option Nat) : Bool :=
  match part with
  | none => false
  | some p => (match s.part pid p with
    | none => false
    | some x => (s.pkg pid).fields.any (fun (f : Nat × Field) => f.2.halted && x.coresIn f.1 ≠ 0))

/-- The same for a group's partition, in any package (R348: a group number belongs to one partition domain-wide). -/
def State.pausedAny (s : State) (part : Nat) : Bool := s.pkgs.any (fun (p : Nat × Pkg) => s.paused p.1 (some part))

/-- A cycle of a core's timers: the age of its free entries, the freezes of its landings, the waits of its chains; the age counter of a
context that is not in READY is 0 (R196, R206, R227, R250). -/
def State.coreClock (s : State) (key : Nat) (k : Core) : Core :=
  let k := { k with live := { k.live with ctxs := k.live.ctxs.mapIdx (fun x c =>
    { c with freeStamp := c.freeStamp + 1, age := if s.stateCode ⟨key / 1024, key % 1024, x⟩ = 0 then c.age else 0 }) } }
  if s.paused (key / 1024) (s.partOfCore (key / 1024) (key % 1024)) then k
  else
    let d := k.live
    let ctxs := k.freeze.foldl (fun (d : CoreData) f => d.setCtx f.1 ((d.ctx f.1).setEntry f.2
      (let e := (d.ctx f.1).entry f.2
       { e with landing := e.landing.map (fun l => { l with frozen := l.frozen + 1 }) }))) d
    { k with live := { ctxs with chains := ctxs.chains.map (fun c => { c with timer := c.timer.map (· - 1) }) } }

/-- A cycle of a group's timers at its home (R239, R399). -/
def GroupRec.clock (g : GroupRec) : GroupRec :=
  { g with left := g.left - 1, sealReq := g.sealReq.map (fun q => { q with left := q.left - 1 }) }

/-- A cycle of a package's clock and timers (R16, R236, R239, R280, R344). -/
def State.pkgClock (s : State) (pid : Nat) (p : Pkg) : Pkg :=
  { p with
    cycle := p.cycle + 1
    combs := p.combs.map (fun (e : Nat × Comb) => (e.1, if s.paused pid e.2.part then e.2 else { e.2 with left := e.2.left.map (· - 1) }))
    groups := p.groups.map (fun (g : Nat × GroupRec) => (g.1, if s.pausedAny g.2.part then g.2 else g.2.clock))
    commits := p.commits.map (fun (c : Commit) => if s.paused pid c.src.part then c else { c with left := c.left - 1 })
    colls := p.colls.map (fun (c : Coll) => if s.paused pid c.src.part then c else { c with left := c.left.map (· - 1) })
    blocked := p.blocked.map (fun (b : Blocked) => if s.paused pid (some b.part) then b else { b with left := b.left - 1 }) }

/-- A device clock edge: in every package whose clock has one, `CYCLE` advances, timers run, those of refused messages too (R395), and budgets
are refilled every RPER (R267); records that waited are posted; then the default schedule is laid out. -/
def State.edge (s : State) : State :=
  let t := { s with
    cores := s.cores.map (fun (k : Nat × Core) => (k.1, if s.edges (k.1 / 1024) then s.coreClock k.1 k.2 else k.2))
    pkgs := s.pkgs.map (fun (p : Nat × Pkg) => (p.1, if s.edges p.1 then
        (let q := s.pkgClock p.1 p.2
         if q.cycle.toNat % (Config.refillPeriod p.1 * Config.cyclesPerMicrosecond) = 0 then q.refill else q)
      else p.2)) }
  let t := s.pkgs.foldl (fun t (p : Nat × Pkg) => if p.2.posts = [] then t else t.postHeld p.1 [] p.2.posts) t
  let t := { t with net := t.net.map (fun (m : Msg) => if s.edges m.src.id.pid then { m with left := m.left - 1 } else m) }
  { t with agenda := t.schedule, phase := 1, ticks := s.ticks + 1 }

/-- Nothing is left to do on a part of the cycle: the arrivals at barriers follow, own quills' first (R300), then the next clock edge. -/
def State.tick (s : State) : State :=
  if s.phase = 1 ∧ s.barrierMail true ≠ [] then { s with phase := 2, agenda := (s.barrierMail true).map .barrierArrival }
  else if s.phase ≠ 0 ∧ s.barrierMail false ≠ [] then { s with phase := 0, agenda := (s.barrierMail false).map .barrierArrival }
  else s.edge

end Sys2Proof.Machine
end

