-- ==== Sys2Proof/Machine/Step.lean ====
section
/-! DEFINITION. One step of the machine, and the placing of one instruction where the next step fetches. -/

namespace Sys2Proof.Machine

/-- One step: the head of the agenda acts, or the clock ticks (log entry 1). -/
def step (s : State) : Host.Outcome State Fault Refusal :=
  match s.agenda with
  | [] => .next s.tick
  | e :: r => State.act e { s with agenda := r }

/-- One instruction as the only slot of a bundle, and one cycle of the core that fetches it (log entry 5). -/
def State.withFetchWord (s : State) (nbits w : Nat) : State := s.placeWord nbits w

end Sys2Proof.Machine
end

