-- ==== Sys2Proof/Safety.lean ====
section
/-! DEFINITION. What counts as a safe state, and the relations between two states in which the statements say what an
operation does and what it leaves alone. -/

namespace Sys2Proof.Machine

/-- Memory is in canonical form: addresses strictly rising, no byte listed that an unlisted one reads as. -/
abbrev State.memOk (s : State) : Prop := Memory.wf s.mem

/-- Every byte of memory reads as before. -/
def SameMem (s t : State) : Prop := ∀ k, t.readByte k = s.readByte k

/-- Every byte outside the `n` bytes at key `k` reads as before. -/
def SameMemBut (k n : Nat) (s t : State) : Prop := ∀ j, ¬(k ≤ j ∧ j < k + n) → t.readByte j = s.readByte j

/-- The context in hand with the writes that are due by pipeline cycle `n` landed: what a bundle issued then reads (R39). -/
def State.meAt (s : State) (n : Nat) : Ctx := s.me.landDue n

/-- A core without its contexts: its banks, engines, tiles, barriers, chains and its own fields. -/
def Core.bare (k : Core) : Core := { k with live := { k.live with ctxs := Vector.replicate 4 {} } }

/-- Nothing but the context in hand differs: no other context, nothing else of any core, no package, message, mark of
memory, nor what the schedule holds. Memory is spoken of by `SameMem`. -/
structure OnlyMe (s t : State) : Prop where
  others : ∀ id, placeOf id ≠ placeOf s.cur.id → t.ctx id = s.ctx id
  cores : ∀ pid core, (t.core pid core).bare = (s.core pid core).bare
  pkgs : t.pkgs = s.pkgs
  marks : t.bad = s.bad ∧ t.rels = s.rels
  net : t.net = s.net
  hand : t.cur = s.cur ∧ t.latch = s.latch ∧ t.agenda = s.agenda ∧ t.ticks = s.ticks ∧ t.phase = s.phase

/-- A context but for its writes under way. -/
def Ctx.still (c : Ctx) : Ctx := { c with pend := [] }

/-- A fixed-latency operation: it answers a next state in which memory and everything but the context in hand is as before;
bundles issued before `lat` pipeline cycles have passed find the context as it was (but for the write under way); and `P` holds
between the context as those due writes would have left it and as they leave it now (R39). -/
def Lands (s : State) (o : Out) (lat : Nat) (P : Ctx → Ctx → Prop) : Prop :=
  ∃ t, o = .next t ∧ SameMem s t ∧ OnlyMe s t ∧
    (∀ n, n < s.myCore.pcyc + lat → (t.meAt n).still = (s.meAt n).still) ∧
    P (s.meAt (s.myCore.pcyc + lat)) (t.meAt (s.myCore.pcyc + lat))

/-- `g[r]` becomes `x` (`g0` discards it and reads 0); every other register, flag and CSR is unchanged. -/
def SetsG (r : GNum) (x : Word) (c d : Ctx) : Prop :=
  d.rg r = (if r = 0 then 0 else x) ∧ (∀ q, q ≠ r → d.rg q = c.rg q) ∧ { d with g := c.g } = c

/-- `a[r]` becomes `x`, nothing else changes. -/
def SetsA (r : ANum) (x : Word) (c d : Ctx) : Prop :=
  d.ra r = x ∧ (∀ q, q ≠ r → d.ra q = c.ra q) ∧ { d with a := c.a } = c

/-- `p[r]` becomes `x` (`p7` stays 1), nothing else changes. -/
def SetsP (r : PNum) (x : Bool) (c d : Ctx) : Prop :=
  d.rp r = (r = 7 || x) ∧ (∀ q, q ≠ r → d.rp q = c.rp q) ∧ { d with p := c.p } = c

/-- `k[r]` becomes `x` (`k0` stays all ones), nothing else changes. -/
def SetsK (r : KNum) (x : Word) (c d : Ctx) : Prop :=
  d.rk r = (if r = 0 then BitVec.allOnes 64 else x) ∧ (∀ q, q ≠ r → d.rk q = c.rk q) ∧ { d with k := c.k } = c

/-- Flags `f` are OR-ed into sticky record `r` and into `FCSR` bits 6:0; ADDR takes the bundle's address if no flag was set in
the record or the bundle issued before the one whose address stands there; a write of either on the same cycle will not undo it
(R317); nothing else changes (R87, R89, R90). -/
def Records (r : Rec) (f : Fl) (addr : Word) (issue : Nat) (c d : Ctx) : Prop :=
  let old := c.xr[r.idx]
  let take : Bool := old.extractLsb' 57 7 = 0 || issue < c.xrIssue[r.idx]
  d.xr[r.idx].extractLsb' 57 7 = old.extractLsb' 57 7 ||| f ∧
  d.xr[r.idx].extractLsb' 0 57 = (if take then addr.extractLsb' 0 57 else old.extractLsb' 0 57) ∧
  (∀ q : Fin 5, q ≠ r.idx → d.xr[q] = c.xr[q] ∧ d.xrIssue[q] = c.xrIssue[q]) ∧
  d.xrIssue[r.idx] = (if take then issue else c.xrIssue[r.idx]) ∧
  (∀ i, d.fcsr.getLsbD i = (c.fcsr.getLsbD i || f.getLsbD i)) ∧
  d.flagged = c.flagged ++ [(r, f, addr, issue)] ∧
  { d with xr := c.xr, xrIssue := c.xrIssue, fcsr := c.fcsr, flagged := c.flagged } = c

/-- The flags of the slot in hand: none leaves the context as it is, others are recorded with the bundle's address. -/
def State.flagged (s : State) (f : Fl) (c d : Ctx) : Prop :=
  if f = 0 then d = c else Records (slotRec s.cur.slot) f s.cur.addr s.cur.issue c d

/-- Each lane position of `ls` has drawn once from its stochastic state (R82); nothing else differs. -/
def Draws (ls : List Nat) (c d : Ctx) : Prop :=
  (∀ l : Fin 256, d.sr[l] = if l.val ∈ ls then drawState c.sr[l] else c.sr[l]) ∧ { d with sr := c.sr } = c

/-- A fixed-latency operation that draws for the lane positions `ls` at its issue; the rest as `Lands`. -/
def LandsDraw (s : State) (o : Out) (lat : Nat) (ls : List Nat) (P : Ctx → Ctx → Prop) : Prop :=
  ∃ t c, o = .next t ∧ SameMem s t ∧ OnlyMe s t ∧ Draws ls s.me c ∧
    (∀ n, n < s.myCore.pcyc + lat → (t.meAt n).still = (c.landDue n).still) ∧
    P (c.landDue (s.myCore.pcyc + lat)) (t.meAt (s.myCore.pcyc + lat))

/-- Of `v[r]`, in lanes of `b` bits, the lanes `ls` become `val`; every other lane, register, flag and CSR is unchanged. -/
def SetsLanes (b : Nat) (r : VNum) (ls : List Nat) (val : Nat → Nat) (c d : Ctx) : Prop :=
  (∀ l, b * l + b ≤ 2048 → lane b l (d.rv r) = if l ∈ ls then val l % 2 ^ b else lane b l (c.rv r)) ∧
  (∀ q, q ≠ r → d.rv q = c.rv q) ∧ { d with v := c.v } = c

/-- The flags of several lanes together. -/
def orFlags (ls : List Nat) (f : Nat → Fl) : Fl := ls.foldl (fun a l => a ||| f l) 0

/-- The common rules of R103 for an operation that computes lane `l` of `ls` as `f l draw`: stochastic rounding draws once a
lane, the result lanes and the flags appear together after `lat` pipeline cycles. -/
def LaneWise (s : State) (o : Out) (lat b : Nat) (vd : VNum) (ls : List Nat) (sr : Bool) (f : Nat → BitVec 32 → Nat × Fl) :
    Prop :=
  LandsDraw s o lat (if sr then ls else []) (fun c d =>
    ∃ e, SetsLanes b vd ls (fun l => (f l (if sr then s.me.drawOf l else 0)).1) c e ∧
      s.flagged (orFlags ls (fun l => (f l (if sr then s.me.drawOf l else 0)).2)) e d)

/-- The bits of `k[r]` where `m` has ones become those of `x` (`k0` stays all ones); nothing else changes. -/
def SetsMask (r : KNum) (m : Word) (x : Nat → Bool) (c d : Ctx) : Prop :=
  (∀ i, i < 64 → (d.rk r).getLsbD i = (r = 0 || if m.getLsbD i then x i else (c.rk r).getLsbD i)) ∧
  (∀ q, q ≠ r → d.rk q = c.rk q) ∧ { d with k := c.k } = c

/-- The first lane of the row that holds lane `l`, `g` lanes a mask bit (R121). -/
def rowStart (m : Word) (g l : Nat) : Nat :=
  ((List.range (l + 1)).reverse.find? (fun q => q = 0 || (q % g = 0 && m.getLsbD (q / g)))).getD 0

/-- The lanes of the row that holds lane `l`, ascending (R121). -/
def rowLanes (m : Word) (fmt : BitVec 4) (l : Nat) : List Nat :=
  (List.range (fmtLanes fmt)).filter (fun q => rowStart m (fmtLanes fmt / 64) q = rowStart m (fmtLanes fmt / 64) l)

/-! ### Memory operations -/

/-- Nothing but the context in hand and the race-detection store of its bay differs (R187 to R189). -/
structure OnlyMeRace (s t : State) : Prop where
  others : ∀ id, placeOf id ≠ placeOf s.cur.id → t.ctx id = s.ctx id
  cores : ∀ pid core, (t.core pid core).bare = (s.core pid core).bare
  pkgs : ∀ pid, { t.pkg pid with race := (s.pkg pid).race } = s.pkg pid
  net : t.net = s.net
  hand : t.cur = s.cur ∧ t.latch = s.latch ∧ t.agenda = s.agenda ∧ t.ticks = s.ticks ∧ t.phase = s.phase

/-- A fixed-latency read of memory: as `Lands`, but that the race-detection store may note an acquire, and the context the
releases it read (R167) and a consumed error (R378). -/
def LandsRead (s : State) (o : Out) (lat : Nat) (P : Ctx → Ctx → Prop) : Prop :=
  let plain (c d : Ctx) : Ctx := { d with heard := c.heard, err := c.err }
  ∃ t, o = .next t ∧ SameMem s t ∧ t.bad = s.bad ∧ t.rels = s.rels ∧ OnlyMeRace s t ∧
    (∀ n, n < s.myCore.pcyc + lat → plain (s.meAt n) (t.meAt n).still = (s.meAt n).still) ∧
    P (s.meAt (s.myCore.pcyc + lat)) (plain (s.meAt (s.myCore.pcyc + lat)) (t.meAt (s.myCore.pcyc + lat)))

/-- The state in which a read's acquire has been made (R167): what the race check sees. -/
def State.acquired (s : State) (acq : Bool) (sc : BitVec 4) (hs : List Heard) : State :=
  s.readBy s.cur.id (if acq then some sc.toNat else none) hs

/-- A store to `n` bytes at key `k` has been made: `bs` stands there, every other byte, every other context, every core's other
state and every message is as before; of the context in hand only the scope that a `fence.sc` release left for the next store
(R171) may go. -/
def Stored (s : State) (o : Out) (k : Nat) (bs : List Byte) : Prop :=
  ∃ t, o = .next t ∧ OnlyMeRace s t ∧ SameMemBut k bs.length s t ∧
    (∀ i, i < bs.length → t.readByte (k + i) = bs[i]?.getD 0) ∧
    { t.me with relNext := s.me.relNext } = s.me

/-- The part of a context that an operation of the in-flight record leaves alone: all but its writes under way, the record and
its counts, routes, releases read, pending error and trap, and what waits. -/
def Ctx.arch (c : Ctx) : Ctx :=
  { c with pend := [], ifr := Vector.replicate 64 {}, freeStamp := 0, chanSeq := Vector.replicate 16 0,
           ackt := Vector.replicate 16 0xFFFF, routes := [], hoopRoutes := [], heard := [], relNext := none, err := none,
           traps := [], efence := none }

/-- An operation of the slot in hand has taken in-flight entry `i` (R196): outstanding, with the next SEQ of its channel, its
KIND and the context's level; every other entry is as before. -/
def Took (s t : State) (i kind chan : Nat) : Prop :=
  let e := t.me.entry i
  e.state = .outstanding ∧ e.kind.toNat = kind ∧ e.chan.toNat = chan ∧ e.level = s.me.level ∧
  e.seq = s.me.chanSeq[chan % 16]'(Nat.mod_lt _ (by decide)) ∧
  t.me.chanSeq[chan % 16]'(Nat.mod_lt _ (by decide)) = e.seq + 1 ∧
  (∀ j, j % 64 ≠ i % 64 → t.me.entry j = s.me.entry j)

/-- The bodies of the messages an operation sends: one a piece, with the bytes before it. -/
def pieceBodies (mk : Dest → Nat → Nat → Body) : Nat → List Piece → List Body
  | _, [] => []
  | off, p :: ps => mk p.dest off p.len :: pieceBodies mk (off + p.len) ps

/-- The same for the pieces that meet a condition. -/
def pieceBodiesIf (c : Piece → Bool) (mk : Dest → Nat → Nat → Body) : Nat → List Piece → List Body
  | _, [] => []
  | off, p :: ps => (if c p then [mk p.dest off p.len] else []) ++ pieceBodiesIf c mk (off + p.len) ps

/-- One message a piece has been added to the fabric, from entry `i` of the context in hand on channel `chan`, in order. -/
def Sent (s t : State) (i chan : Nat) (bodies : List Body) : Prop :=
  ∃ ms : List Msg, t.net = s.net ++ ms ∧ ms.map (·.body) = bodies ∧
    (∀ m ∈ ms, m.src.id = s.cur.id ∧ m.src.entry = i ∧ m.chan = chan ∧ m.retry = false)

/-- Outside the context in hand nothing but its package's translation, blocking and race-detection state differs from `s`. -/
structure OnlyOp (s t : State) : Prop where
  others : ∀ id, placeOf id ≠ placeOf s.cur.id → t.ctx id = s.ctx id
  cores : ∀ pid core, (t.core pid core).bare = (s.core pid core).bare
  pkgs : ∀ pid, { t.pkg pid with race := (s.pkg pid).race, blocked := (s.pkg pid).blocked } = s.pkg pid
  hand : t.cur = s.cur ∧ t.latch = s.latch ∧ t.agenda = s.agenda ∧ t.ticks = s.ticks ∧ t.phase = s.phase

/-- An operation of the slot in hand that takes an entry and writes `x` to `g[r]` one pipeline cycle later: the ticket or the
promised cycle (R197, R204). Memory and every other register are as before. -/
def Issued (s t : State) (r : GNum) (x : Word) : Prop :=
  SameMem s t ∧ OnlyOp s t ∧
  (t.meAt (s.myCore.pcyc + 1)).rg r = (if r = 0 then 0 else x) ∧
  (∀ q, q ≠ r → (t.meAt (s.myCore.pcyc + 1)).rg q = (s.meAt (s.myCore.pcyc + 1)).rg q) ∧
  { (t.meAt (s.myCore.pcyc + 1)).arch with g := (s.meAt (s.myCore.pcyc + 1)).g } = (s.meAt (s.myCore.pcyc + 1)).arch

/-- The bytes of an `ldt` that are read at its issue, 0 for those still to come (R204; log entry 45). -/
def State.loadedNow (s : State) : List Piece → List Byte
  | [] => []
  | p :: ps => (match p.dest with
    | .phys pid pa => if s.readsNow p then s.physBytes pid pa p.len else List.replicate p.len 0
    | .exposure .. => List.replicate p.len 0) ++ s.loadedNow ps

/-! ### Translation -/

/-- The page-table entry at a physical address (R337). -/
def State.entryAt (s : State) (pid pa : Nat) : BitVec 128 := BitVec.ofNat 128 (s.readNat (memKey pid pa) 16)

/-- A page-table entry can be read: no sealed line, no uncorrectable unit (R183, R378). -/
def State.entryReads (s : State) (pid pa : Nat) : Prop := s.lineAt pid pa 16 = .clear ∧ s.badAt (memKey pid pa) 16 = none

/-- A checked field of an entry is nonzero or LOC is 3; of a table entry every field but V, LEAF and ADDR is checked (R337). -/
def EntryBad (e : BitVec 128) : Prop :=
  e.extractLsb' 52 3 ≠ 0 ∨ e.extractLsb' 1 8 ≠ 0 ∨ e.extractLsb' 62 2 = 3 ∨
  (if e.getLsbD 55 then e.extractLsb' 62 2 = 2 ∧ e.extractLsb' 96 32 ≠ 0 else e.extractLsb' 56 72 ≠ 0)

/-- The walk of R338 to `va` comes to a table of level `lvl` at an address: from ROOT, through valid table entries in owned memory
whose ADDR is aligned to the next table. -/
inductive State.WalkReaches (s : State) (pid : Nat) (x : Part) (va : Nat) : Nat → Nat → Prop where
  | root : State.WalkReaches s pid x va 4 x.root
  | down (lvl table pa : Nat) : State.WalkReaches s pid x va (lvl + 1) table →
      pa = table + 16 * (va / 2 ^ (12 + 9 * (lvl + 1)) % 512) → s.entryReads pid pa →
      (s.entryAt pid pa).getLsbD 0 = true → ¬EntryBad (s.entryAt pid pa) → (s.entryAt pid pa).getLsbD 55 = false →
      x.owns pa 16 = true → pteAddr (s.entryAt pid pa) % (if lvl = 0 then 512 else 8192) = 0 →
      State.WalkReaches s pid x va lvl (pteAddr (s.entryAt pid pa))

/-- Some bytes lie in a frame of memory that a partition owns (R334). -/
def Part.frameHolds (x : Part) (pa len : Nat) : Prop := ∃ f n, x.owns f n = true ∧ f ≤ pa ∧ pa + len ≤ f + n

/-- Every cached translation is of a page: sizes are multiples of 64 KiB, bases multiples of their size (R337, R339). -/
def State.tlbOk (s : State) (pid : Nat) : Prop := ∀ e ∈ (s.pkg pid).tlb, 65536 ∣ e.size ∧ e.size ∣ e.base

/-! ### The C slot -/

/-- Nothing but the context in hand, its latch and the race-detection store differs. -/
structure Quiet (s t : State) : Prop where
  mem : SameMem s t
  marks : t.bad = s.bad ∧ t.rels = s.rels
  others : ∀ id, placeOf id ≠ placeOf s.cur.id → t.ctx id = s.ctx id
  cores : ∀ pid core, (t.core pid core).bare = (s.core pid core).bare
  pkgs : ∀ pid, { t.pkg pid with race := (s.pkg pid).race } = s.pkg pid
  net : t.net = s.net
  hand : t.cur = s.cur ∧ t.agenda = s.agenda ∧ t.ticks = s.ticks ∧ t.phase = s.phase

/-- No other context, no core but for its contexts and no message differs, and of packages only the race-detection store and the
management events. -/
structure OnlyMeNet (s t : State) : Prop where
  others : ∀ id, placeOf id ≠ placeOf s.cur.id → t.ctx id = s.ctx id
  cores : ∀ pid core, (t.core pid core).bare = (s.core pid core).bare
  pkgs : ∀ pid, { t.pkg pid with race := (s.pkg pid).race, events := (s.pkg pid).events } = s.pkg pid
  net : t.net = s.net
  hand : t.cur = s.cur ∧ t.agenda = s.agenda ∧ t.ticks = s.ticks ∧ t.phase = s.phase

/-- The slot neither waits nor traps: its latch differs from the one it was given in `blocking` alone. -/
def GoesOn (s t : State) (blocking : Bool) : Prop :=
  t.latch = { s.latch with blocking := s.latch.blocking || blocking }

/-- The slot raises a precise trap at its bundle and has no other effect: the context enters the handler as `Ctx.enter` says
(R405; `TrapEntry`), the latch holds cause and `TVAL`, memory, messages and every other context are as before. -/
def Traps (s : State) (o : Out) (cause : Nat) (tval : Word) : Prop :=
  ∃ t, o = .next t ∧ SameMem s t ∧ t.net = s.net ∧ t.bad = s.bad ∧ t.rels = s.rels ∧
    (∀ id, placeOf id ≠ placeOf s.cur.id → t.ctx id = s.ctx id) ∧
    (∀ pid core, (t.core pid core).bare = (s.core pid core).bare) ∧
    t.me = s.me.enter cause tval s.cur.addr ∧ t.latch.trap = some (cause, tval)

/-- The slot waits (R418): nothing has happened but that the latch says so. -/
def Waits (s : State) (o : Out) : Prop := o = .next { s with latch := { s.latch with hold := true } }

/-- `TVAL` of `ILLEGAL` with sub-cause FIELD at the slot in hand (R36). -/
def State.fieldTval (s : State) : Word := BitVec.ofNat 64 (s.cur.slot.bit * 256 + 2)

/-- The bytes of a descriptor of `n` bytes at bits 19:0 of `w` in the own scratchpad. -/
def State.descBytes (s : State) (w : Word) (n : Nat) : List Byte := s.readData (s.ownKey (w.toNat % 2 ^ 20)) n

/-- Such a descriptor is aligned and inside the scratchpad (R195, R198). -/
def descOk (w : Word) (n : Nat) : Prop := w.toNat % 16 = 0 ∧ w.toNat % 2 ^ 20 + n ≤ 2 ^ 20

/-! ### Events -/

/-- Nothing but core `core` of package `pid` differs: no other core, no package, no memory, no message, nothing of what the
schedule holds. -/
structure OnlyCore (pid core : Nat) (s t : State) : Prop where
  mem : SameMem s t
  marks : t.bad = s.bad ∧ t.rels = s.rels
  cores : ∀ p c, coreKey p c ≠ coreKey pid core → t.core p c = s.core p c
  pkgs : t.pkgs = s.pkgs
  net : t.net = s.net
  hand : t.cur = s.cur ∧ t.latch = s.latch ∧ t.agenda = s.agenda ∧ t.ticks = s.ticks ∧ t.phase = s.phase

/-- Nothing but package `pid` differs. -/
structure OnlyPkg (pid : Nat) (s t : State) : Prop where
  mem : SameMem s t
  marks : t.bad = s.bad ∧ t.rels = s.rels
  cores : t.cores = s.cores
  pkgs : ∀ p, p ≠ pid → t.pkg p = s.pkg p
  net : t.net = s.net
  hand : t.cur = s.cur ∧ t.latch = s.latch ∧ t.agenda = s.agenda ∧ t.ticks = s.ticks ∧ t.phase = s.phase

/-- A core but for its engines and its contexts. -/
def Core.noEngines (k : Core) : Core := { k.bare with live := { k.bare.live with eng := Vector.replicate 2 {} } }

/-- Engine `eng` of the core in hand becomes `y`; the other engine, every other core's and the own core's other state is as before.
What the context in hand becomes is said apart. -/
structure SetsEngine (eng : Nat) (y : Engine) (s t : State) : Prop where
  mem : SameMem s t
  marks : t.bad = s.bad ∧ t.rels = s.rels
  this : t.myCore.live.engine eng = y
  other : t.myCore.live.engine (eng + 1) = s.myCore.live.engine (eng + 1)
  own : t.myCore.noEngines = s.myCore.noEngines
  cores : ∀ p c, coreKey p c ≠ coreKey s.cur.id.pid s.cur.id.core → t.core p c = s.core p c
  others : ∀ id, placeOf id ≠ placeOf s.cur.id → t.ctx id = s.ctx id
  pkgs : ∀ pid, { t.pkg pid with race := (s.pkg pid).race } = s.pkg pid
  net : t.net = s.net
  hand : t.cur = s.cur ∧ t.latch = s.latch ∧ t.agenda = s.agenda ∧ t.ticks = s.ticks ∧ t.phase = s.phase

/-- No other context, no other core and no other package differs. -/
structure Inside (id : CtxId) (s t : State) : Prop where
  others : ∀ j, placeOf j ≠ placeOf id → t.ctx j = s.ctx j
  cores : ∀ p c, coreKey p c ≠ coreKey id.pid id.core → t.core p c = s.core p c
  pkgs : ∀ p, p ≠ id.pid → t.pkg p = s.pkg p
  hand : t.cur = s.cur ∧ t.latch = s.latch

/-- The ticket of an operation of entry `i` that the context in hand issues on channel `chan` (R197). -/
def State.newTicket (s : State) (i kind chan : Nat) : Word :=
  BitVec.ofNat 64 ((s.me.chanSeq[chan % 16]'(Nat.mod_lt _ (by decide))).toNat * 2 ^ 16 + kind * 2 ^ 12 + i)

/-- A command of slot E has taken entry `i` and gives `x` to `g[r]` one pipeline cycle later; every other register and CSR is as it
was, and so is every other context, core and package. -/
def Commanded (s t : State) (i kind chan : Nat) (r : GNum) (x : Word) : Prop :=
  Inside s.cur.id s t ∧ Took s t i kind chan ∧
  (t.meAt (s.myCore.pcyc + 1)).rg r = (if r = 0 then 0 else x) ∧
  (∀ q, q ≠ r → (t.meAt (s.myCore.pcyc + 1)).rg q = (s.meAt (s.myCore.pcyc + 1)).rg q) ∧
  { (t.meAt (s.myCore.pcyc + 1)).arch with g := (s.meAt (s.myCore.pcyc + 1)).g } = (s.meAt (s.myCore.pcyc + 1)).arch

/-! ### Bundles -/

/-- The slots `xs` are performed one after another from `s`, each by its own meaning, none trapping or waiting: `t` is the state then,
`fs` what each performed slot left in its latch (R34). The wait of a waiting instruction is over before (R418). -/
def Performed : List (Chosen × Slot × Slotted) → State → State → List (CtxId × Latch) → Prop
  | [], s, t, fs => t = s ∧ fs = []
  | (b, x) :: xs, s, t, fs =>
    if s.performs b x then
      ∃ m gs, exec (s.turned b.id x.2.op) (s.slotState b x true) = .next m ∧ m.latch.trap = none ∧ m.latch.hold = false ∧
        fs = (b.id, m.latch) :: gs ∧ Performed xs m t gs
    else Performed xs s t fs

/-- The partition-level instructions (R19, R57). -/
def Instr.partLevel : Instr → Bool
  | .winSet .. | .winClr .. | .pgInval .. | .pgSnap .. | .pgCowRelease .. | .pgCowRestore .. | .pgBlkSet .. | .pgBlkClear .. | .pgMig ..
  | .partInt .. | .ctxPark .. | .ctxUnpark .. | .ifrRd .. | .ifrWr .. | .tret | .snap .. => true
  | _ => false

/-- The level that an instruction asks for: that of R57, or for an access of a CSR bits 11:10 of its number (R42). -/
def Instr.levelOf : Instr → Nat
  | .csrr _ n | .csrw _ n | .csrs _ n | .csrc _ n => n.toNat / 1024
  | i => if Instr.partLevel i then 1 else 0

/-- What R295 bars from the C slot of a buffered bundle. -/
def Instr.barred (i : Instr) : Bool :=
  Instr.partLevel i || (match i with
    | .br _ | .jmp _ | .call _ | .callr _ | .jr _ | .ret | .jmpBkt .. | .tret | .loopCfg .. | .loopRun .. | .hoopJoin .. | .halt
    | .gnodeDone _ | .stkEnd _ => true
    | _ => false)

/-- The sub-cause of R36 that a slot alone gives, 0 for none: OPCODE, then FEATURE by the feature word, then FIELD. -/
def RawSlot.sub (features : Word) (first : Bool) (x : RawSlot) : Nat :=
  let op := x.word.toNat / 32 % 128
  let lacks : Bool := match x.slot.cls with
    | .memory => (op = 0x1B || op = 0x1C) && !features.getLsbD 0
    | .engine => ((op % 32 = 6 || op % 32 = 7) && !features.getLsbD 0) || (op % 32 = 9 && !features.getLsbD 1)
    | .control => (op = 0x63 || op = 0x64) && !features.getLsbD 1
    | _ => false
  match x.dec with
  | .error .opcode => 1
  | .error .field => if lacks then 3 else 2
  | .ok y => if lacks then 3 else if first && x.slot = .c && Instr.barred y.op then 2 else 0

/-- Context `x` is the one the issue stage takes first among those in READY (R251). -/
def State.takesFirst (s : State) (pid core x : Nat) : Prop :=
  let rdy := s.readyList pid core
  match s.aged pid core rdy with
  | some y => y = x
  | none => match s.designate pid core rdy with
    | some d => if d ∈ rdy then d = x else rdy.head? = some x
    | none => rdy.head? = some x

/-! ### Exact values and their rounding (R80 to R85) -/

/-- The magnitude `m × 2^e`. -/
def magRat (m : Nat) (e : Int) : Rat := (m : Rat) * 2 ^ e

/-- The value `±m × 2^e`. -/
def finRat (neg : Bool) (m : Nat) (e : Int) : Rat := if neg then -magRat m e else magRat m e

/-- The magnitudes next to which a format rounds: at most `fbits + 1` bits above the lowest step, where there is one, and going on
above the largest finite magnitude (R65, R82; for E4 the next above 448 is 480, R84). -/
def OnGrid (sp : FSpec) (low : Bool) (g : Rat) : Prop :=
  ∃ (m : Nat) (q : Int), m < 2 ^ (sp.fbits + 1) ∧ (low = true → sp.emin - sp.fbits ≤ q) ∧ g = magRat m q

/-- The numbers next to which a conversion to an integer rounds (R80). -/
def OnInts (g : Rat) : Prop := ∃ n : Nat, g = n

/-- `g` is the real whose rationals at most it are those of `le`. -/
def IsReal (le : Rat → Prop) (g : Rat) : Prop := le g ∧ ∀ h, g < h → ¬le h

/-- `c` is the neighbour that mode `rm` chooses for a magnitude, given by the rationals at most it, with the sign and the draw (R80,
R82). -/
def Picks (grid : Rat → Prop) (rm : Nat) (neg : Bool) (x : BitVec 32) (le : Rat → Prop) (c : Rat) : Prop :=
  ∃ lo hi, grid lo ∧ grid hi ∧ lo < hi ∧ le lo ∧ ¬le hi ∧ (∀ g, grid g → g ≤ lo ∨ hi ≤ g) ∧
    (IsReal le lo → c = lo) ∧ (¬IsReal le lo →
      let mid := (lo + hi) / 2
      match rm with
      | 0 => (¬le mid → c = lo) ∧ (le mid → ¬IsReal le mid → c = hi) ∧
        (IsReal le mid → (c = lo ∨ c = hi) ∧ ∃ n : Nat, c = 2 * n * (hi - lo))
      | 1 => c = lo
      | 2 => c = if neg then hi else lo
      | 3 => c = if neg then lo else hi
      | 4 => (¬le mid → c = lo) ∧ (le mid → c = hi)
      | _ => let t := lo + x.toNat / 2 ^ 32 * (hi - lo)
        (le t → c = hi) ∧ (¬le t → c = lo))

/-- The largest finite magnitude of a format (R65). -/
def maxMag (sp : FSpec) : Rat :=
  if sp.code = 3 then 448 else if sp.code = 5 then 6
  else magRat (2 ^ (sp.fbits + 1) - 1) (2 ^ sp.ebits - 2 - sp.bias - sp.fbits)

/-- `r` holds the bits and the flags of a positive magnitude with a sign, rounded once to a format: the overflow table (R84), the
flush of FTZ (R67), or the chosen neighbour with NX where it differs, and UF where the value rounded with an unbounded exponent is
below the smallest normal (R88). -/
def Rounded (sp : FSpec) (sat8 ftz : Bool) (rm : Nat) (neg : Bool) (x : BitVec 32) (le : Rat → Prop) (r : Nat × Fl) : Prop :=
  ∃ c u, Picks (OnGrid sp true) rm neg x le c ∧ Picks (OnGrid sp false) rm neg x le u ∧
    if maxMag sp < c then
      r.2 = (Fl.of ||| Fl.nx) ∧
      r.1 = if sp.code = 5 ∨ (sat8 = true ∧ (sp.code = 3 ∨ sp.code = 4)) then sp.signBit neg + sp.maxBits
        else if sp.code = 3 then 0x7F
        else sp.signBit neg + if rm = 1 ∨ (rm = 2 ∧ neg = false) ∨ (rm = 3 ∧ neg = true) then sp.maxBits else sp.infBits
    else if ftz = true ∧ sp.code ≤ 2 ∧ 0 < c ∧ c < 2 ^ sp.emin then r = (sp.signBit neg, Fl.uf ||| Fl.nx)
    else r.1 < 2 ^ sp.width ∧ (∃ m e, fdecode sp r.1 = .fin neg m e ∧ magRat m e = c) ∧
      (IsReal le c → r.2 = 0) ∧ (¬IsReal le c → r.2 = Fl.nx ||| (if u < 2 ^ sp.emin then Fl.uf else 0))

/-- The canonical NaN of a format by its code (R66). -/
def canonNan (f : Nat) : Nat := ([0x7FC00000, 0x7FC0, 0x7E00, 0x7F, 0x7E][f]?).getD 0

/-- The value of a finite operand. -/
def valRat : FVal → Rat
  | .fin n m e => finRat n m e
  | _ => 0

/-- `s` is the sum that a k-step forms from the products of `ps` (R137): exact, +0 when it is 0; infinite or NaN by R137's cases. -/
def KSum (ps : List (FVal × FVal)) (s : FVal) : Prop :=
  let inf (n : Bool) : Prop := ∃ p ∈ ps, (fmulX p.1 p.2).1 = .inf n
  let bad : Prop := ∃ p ∈ ps, (fmulX p.1 p.2).1.isNan = true
  (bad ∨ (inf true ∧ inf false) → s = .nan false) ∧ (¬bad → ∀ n, inf n → ¬inf (!n) → s = .inf n) ∧
  (¬bad → ¬inf true → ¬inf false → ∃ n k j, s = .fin n k j ∧
    finRat n k j = (ps.map (fun p => valRat p.1 * valRat p.2)).sum ∧ (finRat n k j = 0 → n = false))

/-! ### Combiner entries (R152 to R155, R233) -/

/-- The rounding of an exact value to F32 or BF16, to nearest, and its flags. -/
def rounded (ot : Nat) (v : FVal) : Nat × Fl := roundF (fspec ot) false false 0 0 v

/-- The window of the contributions `xs` to one element (R154): the exact sum in units of 2^-149, modulo 2^320, and what kinds of values were
among them. -/
def WindowOf (it : Nat) (xs : List (Nat × Nat)) (w : Window) : Prop :=
  let val (x : Nat × Nat) : FVal := fdecode (fspec it) x.2
  let units (x : Nat × Nat) : Int :=
    if it = 4 then (BitVec.ofNat 320 x.2).toInt
    else match val x with
      | .fin n m e => finInt n m e (-149)
      | _ => 0
  w.w = (BitVec.ofInt 320 (xs.map units).sum).toInt ∧
  w.allnz = xs.all (fun x => if it = 4 then x.2.testBit 324 else (val x).isZero && (val x).neg) ∧
  w.snan = xs.any (fun x => if it = 4 then x.2.testBit 323 else (val x).isSnan) ∧
  w.nan = xs.any (fun x => if it = 4 then x.2.testBit 322 else (val x).isNan) ∧
  w.ninf = xs.any (fun x => if it = 4 then x.2.testBit 321 else val x = .inf true) ∧
  w.pinf = xs.any (fun x => if it = 4 then x.2.testBit 320 else val x = .inf false)

/-- The tree of R153 over the contributions of the ranks: `T k r` stands for the ranks `2^k * r` to `2^k * (r + 1) - 1`, none where all are
absent. -/
def TreeOf (op it : Nat) (xs : List (Nat × Nat)) (T : Nat → Nat → Option Nat × Fl) : Prop :=
  (∀ r, T 0 r = ((xs.find? (fun x => x.1 = r)).map (fun x => widen it x.2), 0)) ∧
  ∀ k r, T (k + 1) r = match T k (2 * r), T k (2 * r + 1) with
    | (none, f), (y, g) => (y, f ||| g)
    | (x, f), (none, g) => (x, f ||| g)
    | (some a, f), (some b, g) => (some (comb2 op it a b).1, f ||| g ||| (comb2 op it a b).2)

/-- `r` holds the bits and the flags that an entry delivers for one element, from the contributions `xs` applied to it in order: rank and
bits (R152 to R154). -/
def Combined (c : BitVec 32) (xs : List (Nat × Nat)) (r : Nat × Fl) : Prop :=
  let (op, it, ot) := (ctlOp c, ctlItype c, ctlOtype c)
  if ctlMode c = 2 ∧ op = 0 ∧ intType it = false then
    ∃ w, WindowOf it xs w ∧
      r = if ot = 4 then (w.bits, 0)
        else if w.nan then (canonNan ot, if w.snan then Fl.nv else 0)
        else if w.pinf ∧ w.ninf then (canonNan ot, Fl.nv)
        else if w.pinf ∨ w.ninf then ((fspec ot).signBit w.ninf + (fspec ot).infBits, 0)
        else if w.w = 0 then ((fspec ot).signBit w.allnz, 0)
        else rounded ot (.fin (decide (w.w < 0)) w.w.natAbs (-149))
  else
    let typed (a : Nat) (f : Fl) : Nat × Fl :=
      if intType it then (a, f)
      else
        let v := fdecode (fspec 0) a
        ((rounded ot v).1, f ||| (rounded ot v).2 ||| (if v.isSnan then Fl.nv else 0))
    if ctlMode c = 1 then ∃ T a f, TreeOf op it xs T ∧ T 10 0 = (some a, f) ∧ r = typed a f
    else ∃ x y, xs = x :: y ∧
      let acc := y.foldl (fun (a : Nat × Fl) z => ((comb2 op it a.1 (widen it z.2)).1, a.2 ||| (comb2 op it a.1 (widen it z.2)).2))
        (widen it x.2, 0)
      r = typed acc.1 acc.2

/-- The records that an entry delivers (R232, R233): package, partition and address of the opener's RESULT, then of the RET of each contributor
applied; 64 stands in the place of the partition where the opener was at device level (log 106). -/
def Comb.owes (e : Comb) : List (Nat × Nat × Nat) :=
  (match (if e.device then some 64 else e.part) with
    | some p => if e.result = 0 then [] else [(e.pid, p, e.result.toNat)]
    | none => []) ++
  e.applied.filterMap (fun x => x.part.bind (fun p => if x.ret = 0 then none else some (x.pid, p, x.ret.toNat)))

/-- Entry `k` of a package's switch die has delivered what it holds, `f` (R232, R280): with no rank applied it is FREE at once; else it waits
for its records to be written. -/
def Delivered (s t : State) (pid k : Nat) (f : Comb) : Prop :=
  let rs := if f.applied = [] then [] else f.owes
  (t.pkg pid).combs = NMap.put (s.pkg pid).combs k (if rs = [] then none else some { f with owed := some rs.length, left := none })

/-- A package but for what the chunks of collectives change. -/
def Pkg.noColl (p : Pkg) : Pkg := { p with race := [], blocked := [], colls := [], fields := [] }

/-- `v` is as `t` was but for memory, race detection, waits on BLK, and where the ranks of collectives have got to (R236). -/
def CollAlike (t v : State) : Prop :=
  v.cores = t.cores ∧ v.net = t.net ∧
  ∀ p, (v.pkg p).noColl = (t.pkg p).noColl ∧
    ∀ f, { (v.pkg p).field f with collTurn := 0 } = { (t.pkg p).field f with collTurn := 0 }

/-- What element `e` of the source, with its `NR` ranks, is at rank `m` (R236's table): indexes in DBUF, each with the rank whose element it
takes, none for the element that the ranks' give together. -/
def collGives (d : List Byte) (m e : Nat) : List (Nat × Option Nat) :=
  let nr := bytesAt d 36 2
  let n := bytesAt d 20 4
  let n' := n / nr
  let root := bytesAt d 30 2
  match bytesAt d 26 1 with
  | 0 => [(e, none)]
  | 1 => if e / n' = m then [(e - m * n', none)] else []
  | 2 => (List.range nr).map (fun r => (r * n + e, some r))
  | 3 => [(e, some root)]
  | 4 => if e / n' = m then (List.range nr).map (fun r => (r * n' + (e - m * n'), some r)) else []
  | _ => if m = root then [(e, none)] else []

/-- A group is published where `d` says so (R183): each byte that its units wrote is the last one staged for it, every other as before; else
memory is as before. -/
def PublishedIf (d : Bool) (us : List WriteUnit) (s t : State) : Prop :=
  (d = false → SameMem s t) ∧
  (d = true → ∀ q, t.readByte q = match ((us.flatMap (·.cells)).reverse).find? (fun c => c.1 = q) with
    | some c => c.2
    | none => s.readByte q)

/-- The messages that carry the records of an entry. -/
def CarryRecords (ms : List Msg) (f : Comb) : Prop :=
  ms.map (fun x => (x.dst, x.body)) = (if f.applied = [] then [] else f.owes).map (fun r =>
    (.die r.1, .deliver r.1 r.2.1 r.2.2 (combRecord f) f.dsc))

end Sys2Proof.Machine
end

