-- ==== Sys2Proof/Certificates/Slice0/Obligations.lean ====
section
/-! DEFINITION. The statements about the model that the provers are asked for, from the spec's numbered rules. -/

open Sys2Proof Sys2Proof.Machine

/-! ### Slots A and B -/

/-- R93, R92, R39: the arithmetic of the register-form scalar instructions other than `div` and `rem`, with 64 bits modulo 2^64; `mul`
and `mulh` give the low and the high half of one exact 128-bit product and take 3 pipeline cycles, the others 1. A write to `g0` is
discarded; no flag is raised; nothing else changes.
R93: the bitwise register-form instructions, bit by bit. Shift and rotation amounts are bits 5:0 of `g[rb]`.
R93: `clz`, `ctz` and `popc` count bits; `clz` and `ctz` of 0 are 64.
R94, whole: the four operand cases of `div` and `rem` and their flag; 20 pipeline cycles (R39). -/
def Obligations.ScalarRegister : Prop :=
  ((∀ (s : State) (w : Bool) (rd ra rb : GNum),
  let a := s.rg ra
  let b := s.rg rb
  let less : Bool := if w then a.toNat < b.toNat else a.toInt < b.toInt
  let more : Bool := if w then b.toNat < a.toNat else b.toInt < a.toInt
  Lands s (exec (.add rd ra rb) s) 1 (SetsG rd (a + b)) ∧
  Lands s (exec (.sub rd ra rb) s) 1 (SetsG rd (a - b)) ∧
  Lands s (exec (.mul rd ra rb) s) 3 (SetsG rd (a * b)) ∧
  (∃ hi : Word, (if w then hi.toNat * 2 ^ 64 + (a * b).toNat = a.toNat * b.toNat
      else hi.toInt * 2 ^ 64 + (a * b).toNat = a.toInt * b.toInt) ∧
    Lands s (exec (.mulh w rd ra rb) s) 3 (SetsG rd hi)) ∧
  Lands s (exec (.min w rd ra rb) s) 1 (SetsG rd (if more then b else a)) ∧
  Lands s (exec (.max w rd ra rb) s) 1 (SetsG rd (if less then b else a)) ∧
  Lands s (exec (.slt w rd ra rb) s) 1 (SetsG rd (if less then 1 else 0))) ∧
  ((∀ (s : State) (w : Bool) (rd ra rb : GNum),
  let a := s.rg ra
  let b := s.rg rb
  let n := b.toNat % 64
  let gives (o : Out) (bit : Nat → Bool) : Prop :=
    ∃ x : Word, (∀ i, i < 64 → x.getLsbD i = bit i) ∧ Lands s o 1 (SetsG rd x)
  gives (exec (.and rd ra rb) s) (fun i => a.getLsbD i && b.getLsbD i) ∧
  gives (exec (.or rd ra rb) s) (fun i => a.getLsbD i || b.getLsbD i) ∧
  gives (exec (.xor rd ra rb) s) (fun i => a.getLsbD i != b.getLsbD i) ∧
  gives (exec (.andn rd ra rb) s) (fun i => a.getLsbD i && !b.getLsbD i) ∧
  gives (exec (.shl rd ra rb) s) (fun i => decide (n ≤ i) && a.getLsbD (i - n)) ∧
  gives (exec (.shr w rd ra rb) s) (fun i => if i + n < 64 then a.getLsbD (i + n) else !w && a.getLsbD 63) ∧
  gives (exec (.rot rd ra rb) s) (fun i => a.getLsbD ((i + 64 - n) % 64))) ∧
  (∀ (s : State) (rd ra : GNum),
  let a := s.rg ra
  (∃ n : Nat, n ≤ 64 ∧ (∀ i, 64 - n ≤ i → a.getLsbD i = false) ∧ (n < 64 → a.getLsbD (63 - n) = true) ∧
    Lands s (exec (.clz rd ra) s) 1 (SetsG rd (BitVec.ofNat 64 n))) ∧
  (∃ n : Nat, n ≤ 64 ∧ (∀ i, i < n → a.getLsbD i = false) ∧ (n < 64 → a.getLsbD n = true) ∧
    Lands s (exec (.ctz rd ra) s) 1 (SetsG rd (BitVec.ofNat 64 n))) ∧
  Lands s (exec (.popc rd ra) s) 1 (SetsG rd (BitVec.ofNat 64 ((List.range 64).countP (fun i => a.getLsbD i))))))) ∧
  (∀ (s : State) (w : Bool) (rd ra rb : GNum),
  let a := s.rg ra
  let b := s.rg rb
  ∃ q r : Word,
    (if b = 0 then q = 0xFFFFFFFFFFFFFFFF ∧ r = a
     else if w then q.toNat = a.toNat / b.toNat ∧ r.toNat = a.toNat - a.toNat / b.toNat * b.toNat
     else if a = 0x8000000000000000 ∧ b = 0xFFFFFFFFFFFFFFFF then q = 0x8000000000000000 ∧ r = 0
     else q.toInt = a.toInt.tdiv b.toInt ∧ r.toInt = a.toInt - a.toInt.tdiv b.toInt * b.toInt) ∧
    Lands s (exec (.div w rd ra rb) s) 20
      (fun c d => ∃ e, SetsG rd q c e ∧ s.flagged (if b = 0 then Fl.idz else 0) e d) ∧
    Lands s (exec (.rem w rd ra rb) s) 20
      (fun c d => ∃ e, SetsG rd r c e ∧ s.flagged (if b = 0 then Fl.idz else 0) e d))

/-- R95, R96: the immediate forms; `imm8` and `imm14` are sign-extended, `li.hi` multiplies its destination by 2^14 and adds.
R97, R98, R99: predicates, selection by a predicate (`p0` to `p3`, `p4` to `p7`; `p7` reads 1), the address registers, and the
two instructions that change nothing. -/
def Obligations.ScalarImmediate : Prop :=
  (∀ (s : State) (rd ra : GNum) (imm : BitVec 8) (n : BitVec 6) (k : BitVec 14),
  let a := s.rg ra
  let e : Word := BitVec.ofInt 64 imm.toInt
  let gives (o : Out) (bit : Nat → Bool) : Prop :=
    ∃ x : Word, (∀ i, i < 64 → x.getLsbD i = bit i) ∧ Lands s o 1 (SetsG rd x)
  Lands s (exec (.addi rd ra imm) s) 1 (SetsG rd (a + e)) ∧
  Lands s (exec (.andi rd ra imm) s) 1 (SetsG rd (a &&& e)) ∧
  Lands s (exec (.ori rd ra imm) s) 1 (SetsG rd (a ||| e)) ∧
  Lands s (exec (.xori rd ra imm) s) 1 (SetsG rd (a ^^^ e)) ∧
  gives (exec (.shli rd ra n) s) (fun i => decide (n.toNat ≤ i) && a.getLsbD (i - n.toNat)) ∧
  gives (exec (.shriI64 rd ra n) s) (fun i => if i + n.toNat < 64 then a.getLsbD (i + n.toNat) else a.getLsbD 63) ∧
  gives (exec (.shriW64 rd ra n) s) (fun i => a.getLsbD (i + n.toNat)) ∧
  gives (exec (.roti rd ra n) s) (fun i => a.getLsbD ((i + 64 - n.toNat) % 64)) ∧
  Lands s (exec (.sltiI64 rd ra imm) s) 1 (SetsG rd (if a.toInt < imm.toInt then 1 else 0)) ∧
  Lands s (exec (.sltiW64 rd ra imm) s) 1 (SetsG rd (if a.toNat < e.toNat then 1 else 0)) ∧
  Lands s (exec (.liLo rd k) s) 1 (SetsG rd (BitVec.ofInt 64 k.toInt)) ∧
  Lands s (exec (.liHi rd k) s) 1 (SetsG rd (BitVec.ofNat 64 ((s.rg rd).toNat * 2 ^ 14 + k.toNat)))) ∧
  (∀ (s : State) (w : Bool) (rd ra rb : GNum) (pd pa pb : PNum) (ad : ANum)
    (n : BitVec 2) (k : BitVec 20),
  let a := s.rg ra
  let b := s.rg rb
  let less : Bool := if w then a.toNat < b.toNat else a.toInt < b.toInt
  Lands s (exec (.psetEq pd ra rb) s) 1 (SetsP pd (a = b)) ∧
  Lands s (exec (.psetNe pd ra rb) s) 1 (SetsP pd (a ≠ b)) ∧
  Lands s (exec (.psetLt w pd ra rb) s) 1 (SetsP pd less) ∧
  Lands s (exec (.psetGe w pd ra rb) s) 1 (SetsP pd (!less)) ∧
  Lands s (exec (.pand pd pa pb) s) 1 (SetsP pd (s.rp pa && s.rp pb)) ∧
  Lands s (exec (.por pd pa pb) s) 1 (SetsP pd (s.rp pa || s.rp pb)) ∧
  Lands s (exec (.pxor pd pa pb) s) 1 (SetsP pd (s.rp pa != s.rp pb)) ∧
  Lands s (exec (.selLo n rd ra rb) s) 1 (SetsG rd (if s.rp ((0 : BitVec 1) ++ n) then a else b)) ∧
  Lands s (exec (.selHi n rd ra rb) s) 1 (SetsG rd (if s.rp ((1 : BitVec 1) ++ n) then a else b)) ∧
  Lands s (exec (.amad ad ra rb) s) 3 (SetsA ad (BitVec.ofNat 64 ((s.ra ad).toNat + a.toNat * b.toNat))) ∧
  Lands s (exec (.mova ad ra) s) 1 (SetsA ad a) ∧
  Lands s (exec (.movg rd ad) s) 1 (SetsG rd (s.ra ad)) ∧
  exec .nop s = .next s ∧ exec (.stkCnt k) s = .next s)

/-! ### Slots V0 and V1 -/

/-- R66, R67, R80, R82, R84, R88, R104, R107: what the rounding of every float result is, for every format, mode, draw, `SAT8` and FTZ.
A finite value that is not zero rounds once to the neighbour its mode chooses, in both directions of every grid, with the overflow
table, the flush of FTZ and the flags NX, UF and OF (`Rounded`); a zero keeps its sign, a NaN gives the canonical NaN, an infinity the
table of R84. Sums and products are exact, with the signs of zeros and the infinities and NaNs of R104. `1/a` and `1/√a` are rounded
once from their exact values (the square root as the real whose square times `a` is 1). -/
def Obligations.RoundingExact : Prop := ∀ (f rm : Nat) (sat8 ftz : Bool) (x : BitVec 32), f ≤ 5 → rm ≤ 5 →
  let sp := fspec f
  let nv (c : Bool) : Fl := if c then Fl.nv else 0
  (∀ neg m e, 0 < m → Rounded sp sat8 ftz rm neg x (fun g => g ≤ magRat m e) (roundF sp sat8 ftz rm x (.fin neg m e))) ∧
  (∀ neg e, roundF sp sat8 ftz rm x (.fin neg 0 e) = (sp.signBit neg, 0)) ∧
  (f ≠ 5 → (∀ b, roundF sp sat8 ftz rm x (.nan b) = (canonNan f, 0)) ∧
    (∀ neg, roundF sp sat8 ftz rm x (.inf neg) =
      if f = 3 then (if sat8 then (sp.signBit neg + 0x7E, Fl.of ||| Fl.nx) else (0x7F, Fl.nv)) else (sp.signBit neg + sp.infBits, 0))) ∧
  (∀ a m e b n g, ∃ c k j, faddX rm (.fin a m e) (.fin b n g) = (.fin c k j, 0) ∧ finRat c k j = finRat a m e + finRat b n g ∧
    (finRat c k j = 0 → c = if m = 0 ∧ n = 0 ∧ a = b then a else decide (rm = 2))) ∧
  (∀ a m e b n g, ∃ k j, fmulX (.fin a m e) (.fin b n g) = (.fin (a != b) k j, 0) ∧ magRat k j = magRat m e * magRat n g) ∧
  (∀ u v : FVal, (u.isNan || v.isNan) = true →
    faddX rm u v = (.nan false, nv (u.isSnan || v.isSnan)) ∧ fmulX u v = (.nan false, nv (u.isSnan || v.isSnan))) ∧
  (∀ a b m e n, faddX rm (.inf a) (.fin n m e) = (.inf a, 0) ∧ faddX rm (.fin n m e) (.inf a) = (.inf a, 0) ∧
    faddX rm (.inf a) (.inf b) = if a = b then (.inf a, 0) else (.nan false, Fl.nv)) ∧
  (∀ a, ∀ v : FVal, v.isNan = false → ∀ r : FVal × Fl, r = (if v.isZero then (.nan false, Fl.nv) else (.inf (a != v.neg), 0)) →
    fmulX (.inf a) v = r ∧ fmulX v (.inf a) = r) ∧
  (f ≤ 2 →
    (∀ n m e, 0 < m → Rounded sp false ftz rm n x (fun g => g * magRat m e ≤ 1) (frcp sp ftz rm x (.fin n m e)) ∧
      Rounded sp false ftz rm false x (fun g => g ≤ 0 ∨ g * g * magRat m e ≤ 1) (frsqrt sp ftz rm x (.fin false m e)) ∧
      frsqrt sp ftz rm x (.fin true m e) = (canonNan f, Fl.nv)) ∧
    (∀ n e, frcp sp ftz rm x (.fin n 0 e) = (sp.signBit n + sp.infBits, Fl.dz) ∧
      frsqrt sp ftz rm x (.fin n 0 e) = (sp.signBit n + sp.infBits, Fl.dz)) ∧
    (∀ n, frcp sp ftz rm x (.inf n) = (sp.signBit n, 0) ∧ frsqrt sp ftz rm x (.inf n) = if n then (canonNan f, Fl.nv) else (0, 0)) ∧
    (∀ b, frcp sp ftz rm x (.nan b) = (canonNan f, nv b) ∧ frsqrt sp ftz rm x (.nan b) = (canonNan f, nv b)))

/-- R105, R108 to R111: the special functions, for every operand of a vector format as FTZ reads it. `vrndi` gives the integer its mode
chooses, with the operand's sign; `vgetx` the floor of log2 of the magnitude; `vinsx` the exact `a × 2^n` rounded once; `vmin` and
`vmax` an operand's value, −0 below +0. `vfexp` is 1, 2 and 0.5 exactly at ±0, +1 and −1, the canonical NaN with NV beyond, and raises
NX elsewhere: that it is correctly rounded there rests on a series cut short, log 6, UNVERIFIED, and is not said. -/
def Obligations.SpecialFunctions : Prop := ∀ (f rm bits nbits : Nat) (ftz : Bool) (x : BitVec 32), f ≤ 2 → rm ≤ 5 →
  let sp := fspec f
  let a := fread sp ftz bits
  let nan (q : Bool) : Nat × Fl := (canonNan f, if q then Fl.nv else 0)
  let one := sp.bias.toNat * 2 ^ sp.fbits
  let is (r : Nat × Fl) (neg : Bool) (c : Rat) : Prop := r.2 = 0 ∧ r.1 < 2 ^ sp.width ∧ ∃ k j, fdecode sp r.1 = .fin neg k j ∧ magRat k j = c
  let same (r : Nat) (v : FVal) : Prop := match v with
    | .fin n m e => ∃ k j, fdecode sp r = .fin n k j ∧ magRat k j = magRat m e
    | w => fdecode sp r = w
  let less (u v : FVal) : Prop := (u = .inf true ∧ v ≠ .inf true) ∨ (v = .inf false ∧ u ≠ .inf false) ∨
    ∃ n m e b k j, u = .fin n m e ∧ v = .fin b k j ∧ (finRat n m e < finRat b k j ∨ (m = 0 ∧ k = 0 ∧ n = true ∧ b = false))
  (∀ q, a = .nan q → frndi sp ftz rm x a = nan q ∧ fgetx sp a = nan q ∧ fexp2 sp ftz rm x a = nan q) ∧
  (∀ n, a = .inf n → frndi sp ftz rm x a = (sp.signBit n + sp.infBits, 0) ∧ fgetx sp a = (sp.infBits, 0) ∧ fexp2 sp ftz rm x a = nan true) ∧
  (∀ n m e, a = .fin n m e →
    (∃ c, Picks OnInts rm n x (fun g => g ≤ magRat m e) c ∧ is (frndi sp ftz rm x a) n c) ∧
    (m = 0 → fgetx sp a = (sp.signBit true + sp.infBits, Fl.dz) ∧ fexp2 sp ftz rm x a = (one, 0)) ∧
    (0 < m → ∃ l : Int, magRat 1 l ≤ magRat m e ∧ magRat m e < magRat 1 (l + 1) ∧ is (fgetx sp a) (decide (l < 0)) (l.natAbs : Rat)) ∧
    (magRat m e = 1 → fexp2 sp ftz rm x a = (if n then one - 2 ^ sp.fbits else one + 2 ^ sp.fbits, 0)) ∧
    (1 < magRat m e → fexp2 sp ftz rm x a = nan true) ∧
    (0 < m → magRat m e < 1 → (fexp2 sp ftz rm x a).2 &&& Fl.nx = Fl.nx) ∧
    (∀ b k j, fread sp ftz nbits = .fin b k j →
      ((∀ z : Int, finRat b k j ≠ z) → finsx sp ftz rm x a (.fin b k j) = nan true) ∧
      (∀ z : Int, finRat b k j = z → 0 < m →
        Rounded sp false ftz rm n x (fun g => g ≤ magRat m e * 2 ^ z) (finsx sp ftz rm x a (.fin b k j))) ∧
      (∀ z : Int, finRat b k j = z → m = 0 → finsx sp ftz rm x a (.fin b k j) = (sp.signBit n, 0))) ∧
    finsx sp ftz rm x a (.inf false) = (if m = 0 then nan true else (sp.signBit n + sp.infBits, 0)) ∧
    finsx sp ftz rm x a (.inf true) = (sp.signBit n, 0)) ∧
  (∀ y, y = fread sp ftz nbits →
    ((a.isNan || y.isNan) = true → fminmaxBits sp false ftz bits nbits = nan (a.isSnan || y.isSnan) ∧
      fminmaxBits sp true ftz bits nbits = nan (a.isSnan || y.isSnan) ∧ finsx sp ftz rm x a y = nan (a.isSnan || y.isSnan)) ∧
    ((a.isNan || y.isNan) = false → ∀ up, ∃ r, fminmaxBits sp up ftz bits nbits = (r, 0) ∧
      ((less a y ∧ same r (if up then y else a)) ∨ (less y a ∧ same r (if up then a else y)) ∨
        (¬less a y ∧ ¬less y a ∧ same r a ∧ same r y))))

/-- R103 to R111: the float instructions. Each lane the write mask lets through becomes the rounded exact result of its operands as
FTZ reads them, one rounding a lane (what the roundings are, `RoundingExact` and `SpecialFunctions` say); SR draws once a lane from
the lane position's state; flags go to the slot's record with the result. Basic instructions take 4 pipeline cycles, the special ones
6 (R39). `vmin`, `vmax`, `vabs`, `vneg` round nothing. A lane that is not written keeps what stands in the register when the write
completes (log 40, DEDUCED); the roundings of `vfexp` rest on log 6 (UNVERIFIED). -/
def Obligations.VectorFloat : Prop := ∀ (s : State) (rm : BitVec 3) (fmt : BitVec 4) (vd va vb vc : VNum) (km : KNum),
  let sp := fspec fmt.toNat
  let z := s.me.ftz
  let b := fmtBits fmt
  let raw (v : VNum) (l : Nat) : Nat := lane b l (s.rv v)
  let num (v : VNum) (l : Nat) : FVal := fread sp z (raw v l)
  let ls := s.active fmt km
  let sr : Bool := rm = 5
  LaneWise s (exec (.vadd rm fmt vd va vb km) s) 4 b vd ls sr
    (fun l x => roundWith sp z rm.toNat x (faddX rm.toNat (num va l) (num vb l))) ∧
  LaneWise s (exec (.vsub rm fmt vd va vb km) s) 4 b vd ls sr
    (fun l x => roundWith sp z rm.toNat x (faddX rm.toNat (num va l) (num vb l).negate)) ∧
  LaneWise s (exec (.vmul rm fmt vd va vb km) s) 4 b vd ls sr
    (fun l x => roundWith sp z rm.toNat x (fmulX (num va l) (num vb l))) ∧
  LaneWise s (exec (.vfma rm fmt vd va vb vc) s) 4 b vd (List.range (fmtLanes fmt)) sr
    (fun l x => roundWith sp z rm.toNat x (ffmaX rm.toNat (num va l) (num vb l) (num vc l))) ∧
  LaneWise s (exec (.vmin fmt vd va vb km) s) 4 b vd ls false (fun l _ => fminmaxBits sp false z (raw va l) (raw vb l)) ∧
  LaneWise s (exec (.vmax fmt vd va vb km) s) 4 b vd ls false (fun l _ => fminmaxBits sp true z (raw va l) (raw vb l)) ∧
  LaneWise s (exec (.vabs fmt vd va km) s) 4 b vd ls false (fun l _ => (raw va l % 2 ^ (b - 1), 0)) ∧
  LaneWise s (exec (.vneg fmt vd va km) s) 4 b vd ls false (fun l _ => (raw va l ^^^ 2 ^ (b - 1), 0)) ∧
  LaneWise s (exec (.vrcp rm fmt vd va km) s) 6 b vd ls sr (fun l x => frcp sp z rm.toNat x (num va l)) ∧
  LaneWise s (exec (.vrsqrt rm fmt vd va km) s) 6 b vd ls sr (fun l x => frsqrt sp z rm.toNat x (num va l)) ∧
  LaneWise s (exec (.vfexp rm fmt vd va km) s) 6 b vd ls sr (fun l x => fexp2 sp z rm.toNat x (num va l)) ∧
  LaneWise s (exec (.vrndi rm fmt vd va km) s) 6 b vd ls sr (fun l x => frndi sp z rm.toNat x (num va l)) ∧
  LaneWise s (exec (.vgetx fmt vd va km) s) 6 b vd ls false (fun l _ => fgetx sp (num va l)) ∧
  LaneWise s (exec (.vinsx rm fmt vd va vb km) s) 6 b vd ls sr (fun l x => finsx sp z rm.toNat x (num va l) (num vb l))

/-- R112, R113: the integer instructions, on lanes read as signed for `i` and unsigned for `w` formats; results modulo 2^b but for
`.sat` and `viabs`, which keep to the format's bounds and raise ISAT; shift amounts modulo the element width. 2 pipeline cycles. A lane
that is not written keeps what stands in the register when the write completes (log 40, DEDUCED). -/
def Obligations.VectorInteger : Prop := ∀ (s : State) (sat : Bool) (fmt : BitVec 4) (vd va vb : VNum) (km : KNum),
  let b := fmtBits fmt
  let raw (v : VNum) (l : Nat) : Nat := lane b l (s.rv v)
  let num (v : VNum) (l : Nat) : Int := laneInt fmt.toNat (raw v l) b
  let mod (x : Int) : Nat := (x % 2 ^ b).toNat
  let lo : Int := if fmt.toNat < 12 then -2 ^ (b - 1) else 0
  let hi : Int := if fmt.toNat < 12 then 2 ^ (b - 1) - 1 else 2 ^ b - 1
  let res (keep : Bool) (x : Int) : Nat × Fl :=
    if keep && x < lo then (mod lo, Fl.isat) else if keep && hi < x then (mod hi, Fl.isat) else (mod x, 0)
  let ls := s.active fmt km
  let gives (o : Out) (f : Nat → Nat × Fl) : Prop := LaneWise s o 2 b vd ls false (fun l _ => f l)
  gives (exec (.viadd sat fmt vd va vb km) s) (fun l => res sat (num va l + num vb l)) ∧
  gives (exec (.visub sat fmt vd va vb km) s) (fun l => res sat (num va l - num vb l)) ∧
  gives (exec (.vimul fmt vd va vb km) s) (fun l => (mod (num va l * num vb l), 0)) ∧
  gives (exec (.vimulh fmt vd va vb km) s) (fun l => (mod (num va l * num vb l / 2 ^ b), 0)) ∧
  gives (exec (.vimin fmt vd va vb km) s) (fun l => (if num vb l < num va l then raw vb l else raw va l, 0)) ∧
  gives (exec (.vimax fmt vd va vb km) s) (fun l => (if num va l < num vb l then raw vb l else raw va l, 0)) ∧
  gives (exec (.vand fmt vd va vb km) s) (fun l => (raw va l &&& raw vb l, 0)) ∧
  gives (exec (.vor fmt vd va vb km) s) (fun l => (raw va l ||| raw vb l, 0)) ∧
  gives (exec (.vxor fmt vd va vb km) s) (fun l => (raw va l ^^^ raw vb l, 0)) ∧
  gives (exec (.vandn fmt vd va vb km) s) (fun l => (raw va l &&& (2 ^ b - 1 - raw vb l), 0)) ∧
  gives (exec (.vshl fmt vd va vb km) s) (fun l => (raw va l * 2 ^ (raw vb l % b), 0)) ∧
  gives (exec (.vshr fmt vd va vb km) s) (fun l => (mod (num va l / 2 ^ (raw vb l % b)), 0)) ∧
  gives (exec (.viabs fmt vd va km) s) (fun l => res true (num va l).natAbs) ∧
  gives (exec (.vpopc fmt vd va km) s) (fun l => ((List.range b).countP (fun i => (raw va l).testBit i), 0)) ∧
  gives (exec (.vclz fmt vd va km) s) (fun l => (b - bitLen (raw va l), 0))

/-- R85, R114, R116: what one comparison and one conversion give. A comparison of float lanes follows the exact values, −0 = +0, with
the NaN column of R114; of integer lanes, the lanes' values. A conversion between float formats rounds once (`RoundingExact`) and
raises NV for a signalling NaN; into an integer format it rounds to the integer the mode chooses and saturates with NV; from one it
rounds the integer, or saturates with ISAT. To the same format it returns the operand as read under FTZ, a quiet NaN with its own bits
(log 86, DEDUCED). -/
def Obligations.CompareConvertExact : Prop := ∀ (cond rm dst src bits other : Nat) (fmt : BitVec 4) (sat8 ftz : Bool) (x : BitVec 32),
  rm ≤ 5 →
  let u := fread (fspec fmt.toNat) ftz bits
  let v := fread (fspec fmt.toNat) ftz other
  let less (u v : FVal) : Prop := (u = .inf true ∧ v ≠ .inf true) ∨ (v = .inf false ∧ u ≠ .inf false) ∨
    ∃ n m e b k j, u = .fin n m e ∧ v = .fin b k j ∧ finRat n m e < finRat b k j
  let table (lt gt un : Prop) : Prop := match cond with
    | 0 => ¬lt ∧ ¬gt ∧ ¬un
    | 1 => lt ∨ gt ∨ un
    | 2 => lt ∧ ¬un
    | 3 => ¬gt ∧ ¬un
    | 4 => gt ∧ ¬un
    | 5 => ¬lt ∧ ¬un
    | 6 => un
    | _ => ¬un
  let i := laneInt fmt.toNat bits (fmtBits fmt)
  let j := laneInt fmt.toNat other (fmtBits fmt)
  let w := fread (fspec src) ftz bits
  let r := convert dst src sat8 ftz rm x bits
  let b := codeBits dst
  let lo : Int := if dst < 12 then -(2 ^ (b - 1)) else 0
  let hi : Int := if dst < 12 then 2 ^ (b - 1) - 1 else 2 ^ b - 1
  let mod (z : Int) : Nat := (z % 2 ^ b).toNat
  let z := laneInt src bits (codeBits src)
  (fmt.toNat ≤ 2 → ((cmpLane cond fmt ftz bits other).1 = true ↔ table (less u v) (less v u) ((u.isNan || v.isNan) = true)) ∧
    (cmpLane cond fmt ftz bits other).2 =
      if (u.isSnan || v.isSnan) = true ∨ ((u.isNan || v.isNan) = true ∧ cond ∈ [2, 3, 4, 5]) then Fl.nv else 0) ∧
  (fmt.toNat ∈ [8, 9, 10, 12, 13, 14] → ((cmpLane cond fmt ftz bits other).1 = true ↔ table (i < j) (j < i) False) ∧
    (cmpLane cond fmt ftz bits other).2 = 0) ∧
  (dst ≤ 4 → src ≤ 4 → dst ≠ src → r.1 = (roundF (fspec dst) sat8 ftz rm x w).1 ∧
    r.2 = ((roundF (fspec dst) sat8 ftz rm x w).2 ||| if w.isSnan = true then Fl.nv else 0)) ∧
  (src ≤ 4 → dst = src → r = match w with
    | .nan true => (canonNan src, Fl.nv)
    | .fin n 0 _ => ((fspec src).signBit n, 0)
    | _ => (bits, 0)) ∧
  (src ≤ 4 → 8 ≤ dst → dst ≤ 15 →
    (w.isNan = true → r = (0, Fl.nv)) ∧ (∀ n, w = .inf n → r = (mod (if n then lo else hi), Fl.nv)) ∧
    (∀ n m e, w = .fin n m e → ∃ k : Nat, Picks OnInts rm n x (fun g => g ≤ magRat m e) k ∧
      let y : Int := if n then -k else k
      (y < lo → r = (mod lo, Fl.nv)) ∧ (hi < y → r = (mod hi, Fl.nv)) ∧
      (lo ≤ y → y ≤ hi → r = (mod y, if magRat m e = k then 0 else Fl.nx)))) ∧
  (8 ≤ src → src ≤ 15 → dst ≤ 4 → (z = 0 → r = (0, 0)) ∧
    (z ≠ 0 → Rounded (fspec dst) sat8 ftz rm (decide (z < 0)) x (fun g => g ≤ z.natAbs) r)) ∧
  (8 ≤ src → src ≤ 15 → 8 ≤ dst → dst ≤ 15 →
    (z < lo → r = (mod lo, Fl.isat)) ∧ (hi < z → r = (mod hi, Fl.isat)) ∧ (lo ≤ z → z ≤ hi → r = (mod z, 0)))

/-- R114, R115, R116: comparison into a mask, selection by a mask, and conversion between formats (what one comparison and one
conversion give, `CompareConvertExact` says). Mask bits and lanes that are not written keep what stands when the write completes (log
40, DEDUCED); a quiet NaN converted to its own format keeps its bits (log 86, DEDUCED). -/
def Obligations.VectorCompareSelectConvert : Prop := ∀ (s : State) (cond rm : BitVec 3) (fmt src : BitVec 4) (kd : KNum)
    (vd va vb : VNum) (km : KNum),
  let b := fmtBits fmt
  let g := fmtLanes fmt / 64
  let m := s.rk km
  let cmp (l : Nat) : Bool × Fl := cmpLane cond.toNat fmt s.me.ftz (lane b l (s.rv va)) (lane b l (s.rv vb))
  let cond1 (i : Nat) : Bool := (List.range g).all (fun j => (cmp (g * i + j)).1)
  let cmpLanes := (List.range 64).flatMap (fun i => if m.getLsbD i then (List.range g).map (fun j => g * i + j) else [])
  let n := Nat.min (fmtLanes src) (fmtLanes fmt)
  let done := (List.range n).filter (maskBit m b)
  let zero := (List.range (fmtLanes fmt)).filter (fun l => n ≤ l)
  let conv (l : Nat) : Nat × Fl := convert fmt.toNat src.toNat s.me.sat8 s.me.ftz rm.toNat
    (if rm = 5 then s.me.drawOf l else 0) (lane (fmtBits src) l (s.rv va))
  Lands s (exec (.vcmp cond fmt kd va vb km) s) 4
    (fun c d => ∃ e, SetsMask kd m cond1 c e ∧ s.flagged (orFlags cmpLanes (fun l => (cmp l).2)) e d) ∧
  LaneWise s (exec (.vsel fmt vd va vb km) s) 2 b vd (List.range (fmtLanes fmt)) false
    (fun l _ => (if maskBit m b l then lane b l (s.rv va) else lane b l (s.rv vb), 0)) ∧
  LandsDraw s (exec (.vcvt rm fmt src vd va km) s) 4 (if rm = 5 then done else [])
    (fun c d => ∃ e, SetsLanes b vd (done ++ zero) (fun l => if l ∈ done then (conv l).1 else 0) c e ∧
      s.flagged (orFlags done (fun l => (conv l).2)) e d)

/-- R117, R118, R119: the pairwise tree over all lanes, the running value in ascending lane order over the lanes of the mask, and
the permutations; 6 pipeline cycles, `vmov` 2. A lane that is not written keeps what stands when the write completes (log 40, DEDUCED). -/
def Obligations.VectorCrossLane : Prop := ∀ (s : State) (op : BitVec 3) (fmt : BitVec 4) (vd va vb : VNum) (km : KNum)
    (n : BitVec 8),
  let b := fmtBits fmt
  let m := s.rk km
  let x (v : VNum) (l : Nat) : Nat := lane b l (s.rv v)
  let ls := s.active fmt km
  let comb := redComb op.toNat fmt.toNat b s.me.ftz
  let idv := redId op.toNat fmt.toNat b
  let tree := redTree comb 8 ((List.range (fmtLanes fmt)).map (fun l => if maskBit m b l then x va l else idv))
  let before (l : Nat) : Nat := (ls.filter (fun q => q < l)).foldl (fun a q => (comb a (x va q)).1) idv
  Lands s (exec (.vred op fmt vd va km) s) 6
    (fun c d => ∃ e, SetsLanes b vd ls (fun _ => tree.1) c e ∧ s.flagged tree.2 e d) ∧
  LaneWise s (exec (.vscan op fmt vd va km) s) 6 b vd ls false (fun l _ => comb (before l) (x va l)) ∧
  LaneWise s (exec (.vperm fmt vd va vb km) s) 6 b vd ls false (fun l _ => (x va (x vb l % fmtLanes fmt), 0)) ∧
  LaneWise s (exec (.vbcast fmt vd va n) s) 6 b vd (List.range (fmtLanes fmt)) false (fun _ _ => (x va n.toNat, 0)) ∧
  LaneWise s (exec (.vmov fmt vd va km) s) 2 b vd ls false (fun l _ => (x va l, 0))

/-- R120: moves between register classes and the mask logic. A lane number is one of the format's (R44). `vins` leaves the other lanes
as they stand when its write completes (log 40, DEDUCED).
R121 to R124: `vpart` moves the lanes of mask 1 to the front in order, then the others; `vthr` gives every lane of a row the
number of its lanes that reach their threshold; `vtopk.fix` names in each row the first k of the eligible lanes, survivors first,
each part by descending score and then ascending lane, and `0xFFFF` after them. 8 pipeline cycles. -/
def Obligations.VectorMoves : Prop :=
  (∀ (s : State) (fmt : BitVec 4) (vd vs : VNum) (gd gs : GNum) (kd ka kb : KNum) (n : BitVec 8),
  (Instr.vins fmt vd gs n).legal = true →
  let b := fmtBits fmt
  LaneWise s (exec (.vins fmt vd gs n) s) 2 b vd [n.toNat] false (fun _ _ => ((s.rg gs).toNat % 2 ^ b, 0)) ∧
  (∃ w : Word, (∀ i, i < 64 → w.getLsbD i =
      if i < b then (s.rv vs).getLsbD (b * n.toNat + i)
      else decide (fmt.toNat ∈ [8, 9, 10]) && (s.rv vs).getLsbD (b * n.toNat + b - 1)) ∧
    Lands s (exec (.vext fmt gd vs n) s) 3 (SetsG gd w)) ∧
  Lands s (exec (.kmovKg kd gs) s) 2 (SetsK kd (s.rg gs)) ∧
  Lands s (exec (.kmovGk gd ka) s) 3 (SetsG gd (s.rk ka)) ∧
  Lands s (exec (.kand kd ka kb) s) 2 (SetsK kd (s.rk ka &&& s.rk kb)) ∧
  Lands s (exec (.kor kd ka kb) s) 2 (SetsK kd (s.rk ka ||| s.rk kb)) ∧
  Lands s (exec (.kxor kd ka kb) s) 2 (SetsK kd (s.rk ka ^^^ s.rk kb))) ∧
  (∀ (s : State) (fmt : BitVec 4) (vd va vb : VNum) (km : KNum),
  (Instr.vthr fmt vd va vb km).legal = true →
  let b := fmtBits fmt
  let m := s.rk km
  let lanes := List.range (fmtLanes fmt)
  let num (v : VNum) (l : Nat) : FVal := fread (fspec fmt.toNat) s.me.ftz (lane b l (s.rv v))
  let ge (l : Nat) : Bool := cmpFloat 5 (num va l) (num vb l)
  let nv : Fl := if lanes.any (fun l => (num va l).isSnan || (num vb l).isSnan) then Fl.nv else 0
  let first := (List.range 64).filter (fun l => m.getLsbD l)
  (∀ f32 : BitVec 4, (Instr.vpart f32 vd va km).legal = true →
    LaneWise s (exec (.vpart f32 vd va km) s) 8 32 vd (List.range 64) false
      (fun j _ => (lane 32 (((first ++ (List.range 64).filter (fun l => !m.getLsbD l))[j]?).getD 0) (s.rv va), 0))) ∧
  Lands s (exec (.vthr fmt vd va vb km) s) 8
    (fun c d => ∃ e, SetsLanes b vd lanes (fun l => (rowLanes m fmt l).countP ge) c e ∧ s.flagged nv e d) ∧
  (∃ val : Nat → Nat, (∀ l, l < fmtLanes fmt → ∃ order : List Nat,
      order.Perm ((rowLanes m fmt l).filter (fun q => !(num va q).isNan)) ∧
      order.Pairwise (fun q p => (ge q && !ge p) ∨ (ge q = ge p ∧
        (fcmp (num va p) (num va q) = .lt ∨ (fcmp (num va p) (num va q) = .eq ∧ q < p)))) ∧
      let k := Nat.min (lane b (rowStart m (fmtLanes fmt / 64) l) (s.rv vd)) (rowLanes m fmt l).length
      let i := l - rowStart m (fmtLanes fmt / 64) l
      val l = if i < k && i < order.length then (order[i]?).getD 0 - rowStart m (fmtLanes fmt / 64) l else 0xFFFF) ∧
    Lands s (exec (.vtopkFix fmt vd va vb km) s) 8
      (fun c d => ∃ e, SetsLanes b vd lanes val c e ∧ s.flagged nv e d)))

/-! ### Slot L -/

/-- R194, R201, R202, R203, R39: loads from the own scratchpad at bits 19:0 of the effective address. Inside the scratchpad and
with no race (R189, R147), a load gives the bytes it reads, little-endian, sign- or zero-extended, after 4 pipeline cycles; `vld`
gives all 256; `vgather` gives each lane that is not null, after 8, the other lanes keeping what stands in them then (log entry 40,
DEDUCED). A load, or a lane of a gather, that meets a store or signal of the context's own still under way holds its bundle until that
has been performed (R165, R170; that the bundle is held is log entry 63, DEDUCED). -/
def Obligations.ScratchpadLoads : Prop := ∀ (s : State) (acq : Bool) (sc : BitVec 4) (off : BitVec 12) (ab : ANum) (rd : GNum)
    (vd vi : VNum),
  let go (n : Nat) : Prop :=
    let o := ((s.ra ab).toNat + (off.signExtend 64 * BitVec.ofNat 64 n).toNat) % 2 ^ 20
    o + n ≤ 2 ^ 20 ∧ s.ownMeets s.cur.id false s.cur.id.pid (s.ownPa o) n = false ∧
    s.ownRace (s.acquired acq sc (s.heardAt (s.ownKey o) n)) false o n = none
  let meets (n : Nat) : Prop :=
    let o := ((s.ra ab).toNat + (off.signExtend 64 * BitVec.ofNat 64 n).toNat) % 2 ^ 20
    o + n ≤ 2 ^ 20 ∧ s.ownMeets s.cur.id false s.cur.id.pid (s.ownPa o) n = true
  let data (n : Nat) : List Byte :=
    s.readData (s.ownKey (((s.ra ab).toNat + (off.signExtend 64 * BitVec.ofNat 64 n).toNat) % 2 ^ 20)) n
  let u (n : Nat) : Nat := leNat (data n)
  let i (n : Nat) : Int := if (u n).testBit (8 * n - 1) then (u n : Int) - 2 ^ (8 * n) else u n
  let lanes := (List.range 64).filter (fun l => lane 32 l (s.rv vi) ≠ 0xFFFFFFFF)
  let at_ (l : Nat) : Nat := ((s.ra ab).toNat + 4 * lane 32 l (s.rv vi)) % 2 ^ 20
  (go 1 → LandsRead s (exec (.ldI8 acq sc off ab rd) s) 4 (SetsG rd (BitVec.ofInt 64 (i 1)))) ∧
  (go 1 → LandsRead s (exec (.ldW8 acq sc off ab rd) s) 4 (SetsG rd (BitVec.ofNat 64 (u 1)))) ∧
  (go 2 → LandsRead s (exec (.ldI16 acq sc off ab rd) s) 4 (SetsG rd (BitVec.ofInt 64 (i 2)))) ∧
  (go 2 → LandsRead s (exec (.ldW16 acq sc off ab rd) s) 4 (SetsG rd (BitVec.ofNat 64 (u 2)))) ∧
  (go 4 → LandsRead s (exec (.ldI32 acq sc off ab rd) s) 4 (SetsG rd (BitVec.ofInt 64 (i 4)))) ∧
  (go 4 → LandsRead s (exec (.ldW32 acq sc off ab rd) s) 4 (SetsG rd (BitVec.ofNat 64 (u 4)))) ∧
  (go 8 → LandsRead s (exec (.ldI64 acq sc off ab rd) s) 4 (SetsG rd (BitVec.ofNat 64 (u 8)))) ∧
  (go 256 → LandsRead s (exec (.vld acq sc off ab vd) s) 4
    (fun c d => d.rv vd = BitVec.ofNat 2048 (u 256) ∧ (∀ q, q ≠ vd → d.rv q = c.rv q) ∧ { d with v := c.v } = c)) ∧
  (∀ i : Instr, ∀ n, (i, n) ∈ [(.ldI8 acq sc off ab rd, 1), (.ldW8 acq sc off ab rd, 1), (.ldI16 acq sc off ab rd, 2),
      (.ldW16 acq sc off ab rd, 2), (.ldI32 acq sc off ab rd, 4), (.ldW32 acq sc off ab rd, 4), (.ldI64 acq sc off ab rd, 8),
      (.vld acq sc off ab vd, 256)] → meets n → Waits s (exec i s)) ∧
  ((∀ l ∈ lanes, at_ l + 4 ≤ 2 ^ 20) → (∃ l ∈ lanes, s.ownMeets s.cur.id false s.cur.id.pid (s.ownPa (at_ l)) 4 = true) →
    Waits s (exec (.vgather acq sc vi ab vd) s)) ∧
  ((∀ l ∈ lanes, at_ l + 4 ≤ 2 ^ 20 ∧ s.ownMeets s.cur.id false s.cur.id.pid (s.ownPa (at_ l)) 4 = false) →
   (∀ l ∈ lanes, s.ownRace (s.acquired acq sc (lanes.flatMap (fun l => s.heardAt (s.ownKey (at_ l)) 4))) false (at_ l) 4 = none) →
   LandsRead s (exec (.vgather acq sc vi ab vd) s) 8
     (SetsLanes 32 vd lanes (fun l => leNat (s.readData (s.ownKey (at_ l)) 4))))

/-- R2, R5, R201, R202, R203: stores to the own scratchpad. Inside it and with no race the low bytes of the source stand at the
address, little-endian, and every other byte of memory reads as before; `vscatter` stores its lanes in ascending order, so that
of two lanes at one byte the higher stands. A store is performed at its issue, or holds its bundle (log entry 63, DEDUCED): while an
access of the context's own to its bytes is under way, and, where it carries a release, its own or the one a `fence.sc` left for the
next store of any kind (log entry 65, DEDUCED), while near stores or loads of the context are (R165, R170, R174, R193). Memory is in
canonical form (`StepKeepsMemory`, `ResetValues`). -/
def Obligations.ScratchpadStores : Prop := ∀ (s : State) (rel : Bool) (sc : BitVec 4) (off : BitVec 12) (ab : ANum) (rs : GNum)
    (vs vi : VNum), s.memOk →
  let at_ (n : Nat) : Nat := ((s.ra ab).toNat + (off.signExtend 64 * BitVec.ofNat 64 n).toNat) % 2 ^ 20
  let clear (o n : Nat) : Prop := o + n ≤ 2 ^ 20 ∧ s.ownMeets s.cur.id true s.cur.id.pid (s.ownPa o) n = false ∧
    s.releaseWaits s.cur.id (s.relScope rel sc) = false
  let go (n : Nat) : Prop := clear (at_ n) n ∧ s.ownRace s true (at_ n) n = none
  let low (n : Nat) : List Byte := (List.range n).map (fun j => (s.rg rs).extractLsb' (8 * j) 8)
  let lanes := (List.range 64).filter (fun l => lane 32 l (s.rv vi) ≠ 0xFFFFFFFF)
  let off4 (l : Nat) : Nat := ((s.ra ab).toNat + 4 * lane 32 l (s.rv vi)) % 2 ^ 20
  let key (l : Nat) : Nat := s.ownKey (off4 l)
  (go 1 → Stored s (exec (.stI8 rel sc off ab rs) s) (s.ownKey (at_ 1)) (low 1)) ∧
  (go 2 → Stored s (exec (.stI16 rel sc off ab rs) s) (s.ownKey (at_ 2)) (low 2)) ∧
  (go 4 → Stored s (exec (.stI32 rel sc off ab rs) s) (s.ownKey (at_ 4)) (low 4)) ∧
  (go 8 → Stored s (exec (.stI64 rel sc off ab rs) s) (s.ownKey (at_ 8)) (low 8)) ∧
  (go 256 → Stored s (exec (.vst rel sc off ab vs) s) (s.ownKey (at_ 256))
    ((List.range 256).map (fun j => (s.rv vs).extractLsb' (8 * j) 8))) ∧
  (∀ i : Instr, ∀ n, (i, n) ∈ [(.stI8 rel sc off ab rs, 1), (.stI16 rel sc off ab rs, 2), (.stI32 rel sc off ab rs, 4),
      (.stI64 rel sc off ab rs, 8), (.vst rel sc off ab vs, 256)] → at_ n + n ≤ 2 ^ 20 → ¬clear (at_ n) n → Waits s (exec i s)) ∧
  ((∀ l ∈ lanes, off4 l + 4 ≤ 2 ^ 20) → s.releaseWaits s.cur.id (s.relScope rel sc) = true ∨
      (∃ l ∈ lanes, s.ownMeets s.cur.id true s.cur.id.pid (s.ownPa (off4 l)) 4 = true) →
    Waits s (exec (.vscatter rel sc vi ab vs) s)) ∧
  (s.releaseWaits s.cur.id (s.relScope rel sc) = false →
   (∀ l ∈ lanes, clear (off4 l) 4 ∧ s.ownRace s true (off4 l) 4 = none) →
   ∃ t, exec (.vscatter rel sc vi ab vs) s = .next t ∧ OnlyMeRace s t ∧ { t.me with relNext := s.me.relNext } = s.me ∧
     (∀ k, (∀ l ∈ lanes, ¬(key l ≤ k ∧ k < key l + 4)) → t.readByte k = s.readByte k) ∧
     (∀ l ∈ lanes, ∀ j, j < 4 → (∀ q ∈ lanes, l < q → ¬(key q ≤ key l + j ∧ key l + j < key q + 4)) →
       t.readByte (key l + j) = (s.rv vs).extractLsb' (32 * l + 8 * j) 8))

/-- R194, R195, R202: an access of the own scratchpad whose last byte would lie past offset `0xF_FFFF` raises `MEMFAULT` with reason
RANGE at the bundle, and writes neither register nor memory; of a gather or scatter the lowest such lane is named.
R195, R194, R209, R344, R348, R399: what slot L does with an access that does not resolve: `MEMFAULT` with REASON, W and ADDR, precisely at
the bundle; PERM for a group number of another partition; a wait on BLK or a sealed line, in frozen cycles; `UNDECIDED`. Memory, messages and
registers are otherwise as they were. -/
def Obligations.AccessFaults : Prop :=
  (∀ (s : State) (o : Bool) (sc : BitVec 4) (off : BitVec 12) (ab : ANum) (rd : GNum)
    (v vi : VNum),
  let gives (i : Instr) (w : Bool) (e : Nat) : Prop := ∃ t, exec i s = .next t ∧ SameMem s t ∧ t.net = s.net ∧
    t.latch.trap = some (4, BitVec.ofNat 64 (1 * 2 ^ 60 + (if w then 2 ^ 59 else 0) + e)) ∧
    t.me = s.me.enter 4 (BitVec.ofNat 64 (1 * 2 ^ 60 + (if w then 2 ^ 59 else 0) + e)) s.cur.addr
  let lanes := (List.range 64).filter (fun l => lane 32 l (s.rv vi) ≠ 0xFFFFFFFF)
  let at_ (l : Nat) : Nat := ((s.ra ab).toNat + 4 * lane 32 l (s.rv vi)) % 2 ^ 20
  (∀ l ∈ lanes, 2 ^ 20 < at_ l + 4 → (∀ q ∈ lanes, q < l → at_ q + 4 ≤ 2 ^ 20) →
    gives (.vgather o sc vi ab v) false (at_ l) ∧ gives (.vscatter o sc vi ab v) true (at_ l)) ∧
  ∀ (i : Instr) (n : Nat) (w : Bool), (i, n, w) ∈ [(.ldI8 o sc off ab rd, 1, false), (.ldW8 o sc off ab rd, 1, false), (.ldI16 o sc off ab rd,
    2, false),
    (.ldW16 o sc off ab rd, 2, false), (.ldI32 o sc off ab rd, 4, false), (.ldW32 o sc off ab rd, 4, false),
    (.ldI64 o sc off ab rd, 8, false), (.vld o sc off ab v, 256, false), (.stI8 o sc off ab rd, 1, true),
    (.stI16 o sc off ab rd, 2, true), (.stI32 o sc off ab rd, 4, true), (.stI64 o sc off ab rd, 8, true),
    (.vst o sc off ab v, 256, true)] →
  let e := ((s.ra ab).toNat + (off.signExtend 64 * BitVec.ofNat 64 n).toNat) % 2 ^ 20
  2 ^ 20 < e + n → gives i w e) ∧
  (∀ (s : State) (o : Bool) (sc : BitVec 4) (off : BitVec 12) (ab : ANum) (g rs : GNum) (v : VNum),
  s.me.freeEntry.isSome → s.landFull s.cur.id = false → g ≠ 0 →
  let owned := s.ownsGroup ((s.rg g).toNat % 2 ^ 16)
  (owned = false → ∀ i ∈ [Instr.stgD o sc g ab rs, .stgV o sc g ab v],
    Traps s (exec i s) 4 (BitVec.ofNat 64 (6 * 2 ^ 60 + 2 ^ 59 + (s.ra ab).toNat % 2 ^ 57))) ∧
  let ea (n : Nat) : Word := s.ra ab + off.signExtend 64 * BitVec.ofNat 64 n
  ∀ (i : Instr) (kind : AccKind) (e : Word) (n : Nat), (i, kind, e, n) ∈ [(.ldt o sc g ab v, .read, s.ra ab, 256),
      (.stpD o sc off ab rs, .write, ea 8, 8), (.stpV o sc off ab v, .write, ea 256, 256), (.stgD o sc g ab rs, .group, s.ra ab, 8),
      (.stgV o sc g ab v, .group, s.ra ab, 256), (.flsig sc ab g, .write, s.ra ab, 8)] →
  (kind = .group → owned = true) → ∀ t r, s.access (s.whoOf s.cur.id) kind e n = (t, r) →
  let traps (cause : Nat) (tval : Word) : Prop := ∃ u, exec i s = .next u ∧ SameMem t u ∧ u.net = t.net ∧
    u.latch.trap = some (cause, tval) ∧ u.me = t.me.enter cause tval s.cur.addr
  let held : Prop := ∃ u, exec i s = .next u ∧ u.net = s.net ∧ u.me = s.me ∧ u.latch.hold = true ∧ u.latch.frozen = true ∧
    u.latch.trap = s.latch.trap
  let mf (reason : Nat) (b : Word) : Word :=
    BitVec.ofNat 64 (reason * 2 ^ 60 + (if kind = .read then 0 else 2 ^ 59) + b.toNat % 2 ^ 57)
  (∀ reason b, reason < 16 → r = .fault reason b → traps 4 (mf reason b)) ∧
  (∀ grp ep, r = .lined (.undecided grp ep) → traps 15 (BitVec.ofNat 64 (grp % 65536 * 2 ^ 48 + ep % 65536 * 2 ^ 32))) ∧
  (r = .lined .waits → held) ∧
  (∀ p va, kind ≠ .read → r = .blocked p va →
    let waits := (t.pkg s.cur.id.pid).blocked.find? (fun b => b.id = some s.cur.id && b.chan = 16 && b.part = p && b.va = va)
    (waits.any (·.expired) = false → held) ∧
    (waits.any (·.expired) = true → traps 4 (mf 6 (if va < e.toNat then e else BitVec.ofNat 64 va)))) ∧
  (kind = .group → (∀ ps q, r = .ok ps → q ∈ ps → ∀ pid pa, q.dest = .phys pid pa → regionOf pa ≠ some .vault →
    regionOf pa ≠ some .hbm → traps 4 (mf 9 e))))

/-- R21, R22, R345, R337, R338, R346, R195: how an access resolves and what it raises where it does not. An address of no form is
NONCANON; of the local aperture it names the own core's or a core of the bay's scratchpad, or is APERTURE, or RANGE past its end; at
device level it is physical, or PHYS outside the regions. Below, a bay of no partition maps nothing; an address in a valid window goes
to its exposure, or is WINDOW or PERM; any other goes through the page tables: NOTMAPPED, PHYS, PERM, GTARGET for a group store to host
memory, a wait on BLK, or the byte of its frame. The walk reads one entry a level from ROOT, and cached translations first. Below device
level every byte an access reaches lies in memory its own partition owns, in its bay's scratchpads, or behind a window its partition's
table holds; at a window's target the exposure must admit the source, and every byte lies in memory the target partition owns. The
instructions of slot L raise `MEMFAULT` with that reason. (Exposure counters: log entry 115, DEDUCED.) -/
def Obligations.AccessResolution : Prop := ∀ (s : State) (w : Who) (kind : AccKind) (ea : Word) (n : Nat), 0 < n →
  let a := ea.toNat
  let inPage : Prop := a % 65536 + n ≤ 65536 ∧ a < 2 ^ 57
  let res := s.resolve w kind ea n
  let one (pa : Nat) : Resolved := .ok [{ dest := .phys w.pid pa, len := n }]
  -- the forms of R21
  (2 ^ 57 ≤ a → a < 2 ^ 64 - 2 ^ 28 → res = .fault 3 ea) ∧
  (2 ^ 64 - 2 ^ 28 ≤ a →
    let own : Bool := a / 2 ^ 20 = 0xFFFFFFFFF00
    let bay : Bool := 0xFFFFFFFFF8000000 ≤ a ∧ a < 0xFFFFFFFFF8800000
    let core := if own then w.core else w.core / 8 * 8 + a / 2 ^ 20 % 8
    (own = false → bay = false → res = .fault 4 ea) ∧
    (own || bay → a % 2 ^ 20 + n ≤ 2 ^ 20 → res = one (spadBase + core * 2 ^ 20 + a % 2 ^ 20)) ∧
    (own || bay → 2 ^ 20 < a % 2 ^ 20 + n → res = .fault 1 (BitVec.ofNat 64 ((a / 2 ^ 20 + 1) * 2 ^ 20)))) ∧
  (w.level = .device → a + n ≤ 2 ^ 57 →
    (regionOf a = none → res = .fault 8 ea) ∧
    (∀ r, regionOf a = some r → regionOf (a + n - 1) = some r → homeOf w.pid a = homeOf w.pid (a + n - 1) →
      (r = .spad → a % 2 ^ 20 + n ≤ 2 ^ 20) → (kind = .group → r = .hbm ∨ r = .vault) → res = one a) ∧
    (∀ r, regionOf a = some r → (regionOf (a + n - 1)).isSome → kind = .group → r ≠ .hbm → r ≠ .vault → res = .fault 9 ea)) ∧
  -- below device level
  (w.level ≠ .device → w.part = none → a < 2 ^ 57 → a + n ≤ 2 ^ 57 → res = .fault 5 ea) ∧
  (∀ p x, w.level ≠ .device → w.part = some p → s.part w.pid p = some x → a + n ≤ 2 ^ 57 →
    (∀ d, x.findWin a = some d →
      let fin := winBase d + winLen d
      (fin < a + n → res = .fault 7 (BitVec.ofNat 64 fin)) ∧
      (a + n ≤ fin → permAllows (winPerm d) kind = false → res = .fault 6 ea) ∧
      (a + n ≤ fin → permAllows (winPerm d) kind = true →
        res = .ok [{ dest := .exposure (bytesAt d 24 2 % 1024) (bytesAt d 24 2 / 1024) (bytesAt d 26 1)
                               (bytesAt d 16 8 + (a - winBase d)), len := n }])) ∧
    (x.findWin a = none → w.slot = none → inPage →
      (∀ e, s.walk w.pid p a = .error (.reason e) → res = .fault e ea) ∧
      (∀ l, s.walk w.pid p a = .ok l →
        let f := pteAddr l.word
        let loc := pteLoc l.word
        let ok : Prop := f % l.size = 0 ∧ x.owns f l.size = true ∧
          ((regionOf f = some .hbm ∧ loc = 0) ∨ (regionOf f = some .vault ∧ loc = 1 ∧ l.size = 65536) ∨
           ((regionOf f = some .host0 ∨ regionOf f = some .host1) ∧ loc = 2 ∧ l.size = 65536))
        let r := l.word.getLsbD 56
        let wr := l.word.getLsbD 57
        let need : Bool := match kind with
          | .read => r
          | .write => wr
          | .rmw | .group => r && wr
          | .fetch => l.word.getLsbD 58
        let writes : Bool := kind = .write || kind = .rmw || kind = .group
        (¬ok → res = .fault 8 ea) ∧ (ok → need = false → res = .fault 6 ea) ∧
        (ok → need = true → kind = .group → loc = 2 → res = .fault 9 ea) ∧
        (ok → need = true → ¬(kind = .group ∧ loc = 2) →
          res = if writes && l.word.getLsbD 60 then .blocked p (a / 65536 * 65536) else one (f + (a - l.base)))))) ∧
  -- the walk
  (∀ pid p x, s.part pid p = some x → (∀ t ∈ (s.pkg pid).tlb, ¬(t.part = p ∧ t.base ≤ a ∧ a < t.base + t.size)) →
    ∀ lvl table, s.WalkReaches pid x a lvl table →
      let pa := table + 16 * (if lvl = 0 then a / 2 ^ 16 % 32 else a / 2 ^ (12 + 9 * lvl) % 512)
      let e := s.entryAt pid pa
      let leaf := e.getLsbD 55
      s.entryReads pid pa →
      let bad : Prop := e.getLsbD 0 = false ∨ EntryBad e ∨ (leaf = true ∧ 3 ≤ lvl) ∨ (leaf = false ∧ lvl = 0)
      let size := 2 ^ (if lvl = 0 then 16 else 12 + 9 * lvl)
      (bad → s.walk pid p a = .error (.reason 5)) ∧
      (¬bad → x.owns pa 16 = false → s.walk pid p a = .error (.reason 8)) ∧
      (¬bad → x.owns pa 16 = true → leaf = false → pteAddr e % (if lvl = 1 then 512 else 8192) ≠ 0 →
        s.walk pid p a = .error (.reason 8)) ∧
      (¬bad → x.owns pa 16 = true → leaf = true →
        s.walk pid p a = .ok { key := memKey pid pa, word := e, base := a / size * size, size := size })) ∧
  -- what an access can reach
  (∀ t ps, s.access w kind ea n = (t, .ok ps) → w.level ≠ .device → w.core < 1024 → s.tlbOk w.pid → ∀ p ∈ ps,
    match p.dest with
    | .phys pid pa => pid = w.pid ∧ ((∃ q x, w.part = some q ∧ s.part pid q = some x ∧ x.frameHolds pa p.len) ∨
        (∃ c, spadCore pa = some c ∧ bayOf c = bayOf w.core))
    | .exposure tpid tpart texp _ => ∃ q x d b, w.part = some q ∧ s.part w.pid q = some x ∧ a ≤ b ∧ b < a + n ∧
        x.findWin b = some d ∧ permAllows (winPerm d) kind = true ∧ tpid = bytesAt d 24 2 % 1024 ∧ tpart = bytesAt d 24 2 / 1024 ∧
          texp = bytesAt d 26 1) ∧
  (∀ tpid tpart texp off spid spart,
    let r := s.atTarget tpid tpart texp off n kind spid spart
    let admits (x : Part) : Prop :=
      let d := x.win (256 + texp)
      (expPerm d).testBit 7 ∧ bytesAt d 16 2 ≤ spid ∧ spid ≤ bytesAt d 18 2 ∧
      ((bytesAt d 24 2).testBit 6 ∨ spart = some (bytesAt d 24 2 % 64)) ∧ off + n ≤ winLen d ∧ permAllows (expPerm d) kind = true
    ((∀ x, s.part tpid tpart = some x → ¬admits x) → r = (s.count tpid (1000 + tpart * 256 + texp), .fault 6 0)) ∧
    (∀ t ps, r = (t, .ok ps) → s.tlbOk tpid → ∃ x, s.part tpid tpart = some x ∧ admits x ∧ ∀ p ∈ ps,
      match p.dest with
      | .phys pid pa => pid = tpid ∧ x.frameHolds pa p.len
      | .exposure .. => False))

/-- R204, R205, R196: an `ldt` whose address resolves (`ps` are its pieces by page) and meets no race takes a free in-flight entry,
sends one read a piece to its home and gives `g[gt]` the promised cycle: the requested one, or issue cycle + E where the request is
0, too early or more than 2^24 cycles away, with E at least the route's Lmin (the congestion above it is a free value). A near piece is
read at once (log entry 45, DESIGN CHOICE), or holds the bundle where a store of the context's own to its bytes is under way. The
register of the landing is written when the landing comes (`LandingEvents`). With no free entry or landing buffer the bundle is held
(how many buffers there are is log entry 60, DESIGN CHOICE); `gt` = `g0` is `ILLEGAL` FIELD. The first page's Lmin stands for both
(log entry 94, DESIGN CHOICE). -/
def Obligations.TimedLoad : Prop := ∀ (s : State) (acq : Bool) (sc : BitVec 4) (gt : GNum) (ab : ANum) (vd : VNum),
  let o := exec (.ldt acq sc gt ab vd) s
  (gt = 0 → Traps s o 1 s.fieldTval) ∧
  (gt ≠ 0 → s.me.freeEntry = none ∨ s.landFull s.cur.id = true → Waits s o) ∧
  ∀ (t : State) (i : Nat) (ps : List Piece), gt ≠ 0 → s.me.freeEntry = some i → s.landFull s.cur.id = false →
  s.access (s.whoOf s.cur.id) .read (s.ra ab) 256 = (t, .ok ps) →
  (let u := if acq then t.unblock.acquireFrom s.meAgent sc.toNat (ps.flatMap (fun p => match p.dest with
      | .phys pid pa => t.heardAt (memKey pid pa) p.len
      | .exposure .. => [])) else t.unblock
   s.piecesRace u false ps = none) →
  let c := (s.pkg s.cur.id.pid).cycle.toNat
  let q := (s.rg gt).toNat
  let e := ((ps.head?).map (fun p => s.lmin s.cur.id p.dest)).getD 4 + Config.congestion s.fresh
  let p : Nat := if c + e ≤ q ∧ q ≤ c + 2 ^ 24 ∧ q ≠ 0 then q else c + e
  (ps.any t.readWaits = true → Waits s o) ∧
  (ps.any t.readWaits = false → ∃ u l, o = .next u ∧ Issued t u gt (BitVec.ofNat 64 p) ∧ Took t u i 0 0 ∧
    Sent t u i 0 (pieceBodiesIf (fun p => !t.readsNow p) (fun d o n => .load d o n) 0 ps) ∧
    (u.me.entry i).promised = BitVec.ofNat 64 p ∧ (u.me.entry i).landing = some l ∧ l.vd = some vd ∧
    l.acq = (if acq then some sc else none) ∧ l.left = (ps.filter (fun p => !t.readsNow p)).length ∧
    l.data = BitVec.ofNat 2048 (leNat (t.loadedNow ps)))

/-- R208, R196: a posted store that resolves and meets no race takes an in-flight entry. The bytes of its near pieces stand in memory
at once; one store for each other piece travels on channel 0, and the entry retires where there is none. The bundle is held (log entry
63, DEDUCED) where a near piece lies in a sealed line, in a scratchpad that is being moved, or where an access of the context's own to
its bytes is under way, and, with a release, its own or one left by a `fence.sc` (log entry 65, DEDUCED), until the context's near
stores and its loads have been performed (R24, R165, R170, R174, R183). `stp.d` stores 8 bytes of `g[rs]`,
`stp.v` all 256 of `v[vs]`. -/
def Obligations.PostedStores : Prop := ∀ (s t : State) (rel : Bool) (sc : BitVec 4) (off : BitVec 12) (ab : ANum) (rs : GNum)
    (vs : VNum) (i : Nat) (ps : List Piece) (vec : Bool), t.memOk →
  let n := if vec then 256 else 8
  let op : Instr := if vec then .stpV rel sc off ab vs else .stpD rel sc off ab rs
  let bs : List Byte := if vec then (List.range 256).map (fun j => (s.rv vs).extractLsb' (8 * j) 8)
    else (List.range 8).map (fun j => (s.rg rs).extractLsb' (8 * j) 8)
  let ea := s.ra ab + off.signExtend 64 * BitVec.ofNat 64 n
  let r := s.relScope rel sc
  let waits : Bool := ps.any s.nearWaits || s.releaseWaits s.cur.id r
  s.me.freeEntry = some i → s.access (s.whoOf s.cur.id) .write ea n = (t, .ok ps) → s.piecesRace t.unblock true ps = none →
  (waits = true → Waits s (exec op s)) ∧ (waits = false → ∃ u, exec op s = .next u ∧
    ((u.meAt (s.myCore.pcyc + 1)).arch = (t.meAt (s.myCore.pcyc + 1)).arch) ∧
    (∀ id, placeOf id ≠ placeOf s.cur.id → u.ctx id = t.ctx id) ∧
    (∀ xs p ys pid pa, ps = xs ++ p :: ys → s.isNear p = true → p.dest = .phys pid pa → t.lineAt pid pa p.len = .clear →
      (∀ q ∈ ys, s.isNear q = true → ∀ qd qa, q.dest = .phys qd qa → meets (memKey qd qa) q.len (memKey pid pa) p.len = false) →
      let at_ := (xs.map (·.len)).sum
      at_ + p.len ≤ n → ∀ j, j < p.len → u.readByte (memKey pid pa + j) = bs[at_ + j]?.getD 0) ∧
    (∀ k, (∀ p ∈ ps, s.isNear p = true → ∀ pid pa, p.dest = .phys pid pa → ¬(memKey pid pa ≤ k ∧ k < memKey pid pa + p.len)) →
      u.readByte k = t.readByte k) ∧
    (if ps.all s.isNear then (u.me.entry i).state = .retired ∧ u.net = t.net
     else Took t u i 9 0 ∧
       Sent t u i 0 (pieceBodiesIf (fun p => !s.isNear p) (fun d o k => .store d ((bs.drop o).take k) r) 0 ps)))

/-- R209, R348: a group store to a group number of the context's partition, to vaults or HBM (or through a window), takes an entry and sends its
bytes to their homes with group number and epoch, bits 15:0 and 31:16 of `g[gg]`, and the number of its bytes that go to that home, which stage
as one unit there (log entry 54, DEDUCED); memory is as it was until the group commits. A store that carries a release, its own or one left by a
`fence.sc` (log entry 65, DEDUCED), waits for the context's near stores and its loads (R170, R174; log 117, DESIGN CHOICE). -/
def Obligations.GroupStores : Prop := ∀ (s t : State) (rel : Bool) (sc : BitVec 4) (gg : GNum) (ab : ANum) (rs : GNum) (vs : VNum)
    (i : Nat) (ps : List Piece) (vec : Bool),
  let n := if vec then 256 else 8
  let op : Instr := if vec then .stgV rel sc gg ab vs else .stgD rel sc gg ab rs
  let bs : List Byte := if vec then (List.range 256).map (fun j => (s.rv vs).extractLsb' (8 * j) 8)
    else (List.range 8).map (fun j => (s.rg rs).extractLsb' (8 * j) 8)
  let g := (s.rg gg).toNat % 2 ^ 16
  s.me.freeEntry = some i → s.ownsGroup g = true → s.access (s.whoOf s.cur.id) .group (s.ra ab) n = (t, .ok ps) →
  (∀ p ∈ ps, ∀ pid pa, p.dest = .phys pid pa → regionOf pa = some .vault ∨ regionOf pa = some .hbm) →
  (s.releaseWaits s.cur.id (s.relScope rel sc) = true → Waits s (exec op s)) ∧
  (s.releaseWaits s.cur.id (s.relScope rel sc) = false →
   ∃ u, exec op s = .next u ∧ SameMem t u ∧ OnlyOp t u ∧ Took t u i 10 0 ∧
    ((u.meAt (s.myCore.pcyc + 1)).arch = (t.meAt (s.myCore.pcyc + 1)).arch) ∧
    Sent t u i 0 (pieceBodies (fun d o k => .group d ((bs.drop o).take k) g ((s.rg gg).toNat / 2 ^ 16 % 2 ^ 16)
      ((ps.filter (fun p => p.dest.home = d.home)).map (·.len)).sum (s.relScope rel sc)) 0 ps))

/-- R175, R197, R212, R213: `flsig` sends its 8-byte signal, once the context's near stores and its loads have been performed, behind its earlier
stores on channel 0, with the wider of its own scope and of one that a `fence.sc` left (log entry 65, DEDUCED), and gives `g[gs]` its ticket;
`probe` sends one probe on every route of its channel used since the last one, forgets those routes and gives `g[gd]` its ticket, done at once
where there is none. A ticket holds SEQ in bits 31:16, KIND in 15:12, the entry in 5:0. -/
def Obligations.SignalsAndProbes : Prop := ∀ (s t : State) (sc vc : BitVec 4) (ab : ANum) (g : GNum) (i : Nat) (ps : List Piece),
  s.me.freeEntry = some i →
  let tk (kind chan : Nat) : Word := BitVec.ofNat 64
    ((s.me.chanSeq[chan % 16]'(Nat.mod_lt _ (by decide))).toNat * 2 ^ 16 + kind * 2 ^ 12 + i)
  let rs := s.me.routes.filter (fun r => r.1 = vc.toNat)
  let r := (s.relScope true sc).getD sc
  (s.access (s.whoOf s.cur.id) .write (s.ra ab) 8 = (t, .ok ps) → s.piecesRace t.unblock true ps = none →
    s.releaseWaits s.cur.id (some r) = false →
    ∃ u, exec (.flsig sc ab g) s = .next u ∧ Issued t u g (tk 2 0) ∧ Took t u i 2 0 ∧
      Sent t u i 0 (pieceBodies (fun d o k =>
        .flsig d ((((List.range 8).map (fun j => (s.rg g).extractLsb' (8 * j) 8)).drop o).take k) r) 0 ps)) ∧
  (∃ u, exec (.probe vc g) s = .next u ∧ Issued s u g (tk 3 vc.toNat) ∧
    Sent s u i vc.toNat (rs.map (fun _ => .probe)) ∧ (∀ r ∈ u.me.routes, r.1 ≠ vc.toNat) ∧
    (if rs = [] then (u.me.entry i).state = .retired else Took s u i 3 vc.toNat))

/-- R171, R172, R211, R380: `fence.own` and `fence.sc.rel` never wait: the first does nothing, the second leaves its scope for the
context's next store of whatever kind (log entry 65, DEDUCED). The others wait until the context's loads are in, `fence.sc.ar` and
`fence.far` also until its near stores have been performed, `fence.far` until those near stores and loads of every member of its scope
have that were under way when it began (R172), then complete as blocking operations; `efence` waits until the status of every earlier
operation is known, and then raises a consumed error pending at its level as `MEMERR` with IMPR 0 (of another level's it leaves: log
entry 43), or completes. None writes memory, sends a message or touches another context. -/
def Obligations.Fences : Prop := ∀ (s : State) (sc : BitVec 4),
  exec (.fenceOwn sc) s = .next s ∧
  (∃ t, exec (.fenceScRel sc) s = .next t ∧ SameMem s t ∧ OnlyMe s t ∧ { t.me with relNext := s.me.relNext } = s.me ∧
    ∃ x, t.me.relNext = some x ∧ sc.toNat ≤ x ∧ (∀ y, s.me.relNext = some y → y ≤ x)) ∧
  (let near (m : Msg) : Bool := m.ownOf m.src.ident true && (m.near || m.body.access.1 = .read)
   let out := (s.net.filter (fun m => near m && inScope (s.pkg s.cur.id.pid).flatMesh sc.toNat ⟨s.cur.id, false⟩ ⟨m.src.id, false⟩)).map
     (fun m => (m.src.ident, m.src.issue))
   let l := match s.me.fence with
     | some (a, l) => if a = s.cur.addr then l else out
     | none => out
   ∀ i : Instr, ∀ go : Bool, (i, go) ∈ [
      (.fenceFar sc, s.me.loadsDone && !s.nearOut s.cur.id && !s.net.any (fun m => near m && l.contains (m.src.ident, m.src.issue))),
      (.fenceScAcq sc, s.me.loadsDone), (.fenceScAr sc, s.me.loadsDone && !s.nearOut s.cur.id)] →
    (s.latch.passed || go → ∃ t, exec i s = .next t ∧ SameMem s t ∧ OnlyMeNet s t ∧ GoesOn s t true ∧
      { t.me with relNext := s.me.relNext, fence := s.me.fence } = s.me ∧ (i = .fenceFar sc → t.me.fence = none) ∧
      (if i = .fenceScAcq sc then t.me.relNext = s.me.relNext
       else ∃ x, t.me.relNext = some x ∧ sc.toNat ≤ x ∧ (∀ y, s.me.relNext = some y → y ≤ x))) ∧
    (go = false → s.latch.passed = false →
      if i = .fenceFar sc then ∃ t, exec i s = .next t ∧ SameMem s t ∧ OnlyMeNet s t ∧
        t.latch = { s.latch with hold := true, keep := true } ∧ t.me = { s.me with fence := some (s.cur.addr, l) }
      else Waits s (exec i s))) ∧
  (s.latch.passed || s.statusKnown → ∃ t, exec .efence s = .next t ∧ SameMem s t ∧ OnlyMeNet s t ∧
    match s.me.err with
    | some e =>
      if e.level = s.me.level then
        let tv := BitVec.ofNat 64 (e.origin % 16 * 2 ^ 60 + (if e.more then 2 ^ 59 else 0) + (if e.w then 2 ^ 57 else 0) +
          e.addr.toNat % 2 ^ 57)
        t.latch.trap = some (5, tv) ∧ t.me = { s.me with err := none }.enter 5 tv s.cur.addr
      else GoesOn s t true ∧ t.me = { s.me with efence := none }
    | none => GoesOn s t true ∧ t.me = { s.me with efence := none }) ∧
  (s.statusKnown = false → s.latch.passed = false → ∃ t, exec .efence s = .next t ∧ SameMem s t ∧ OnlyMeNet s t ∧ t.latch.hold = true ∧
    t.latch.trap = s.latch.trap ∧ t.me = { s.me with efence := some s.cur.addr })

/-! ### Slot C at program level -/

/-- R285, R288: the transfers set the next PC, and nothing else but the link register of `call` and `callr` (one pipeline cycle
later, the address after the bundle). `jmp.bkt` takes the first table entry that holds the count, raises `ILLEGAL` (FIELD) where none of
64 does, and traps or waits as the read of an entry before that does. -/
def Obligations.ControlTransfers : Prop := ∀ (s : State) (disp : BitVec 32) (g : GNum) (off : BitVec 20) (row : Nat → List Byte),
  let goes (i : Instr) (target : Word) : Prop :=
    ∃ t, exec i s = .next t ∧ SameMem s t ∧ OnlyMe s t ∧ t.me = { s.me with npc := target }
  let links (i : Instr) (target : Word) : Prop :=
    ∃ t, exec i s = .next t ∧ SameMem s t ∧ OnlyMe s t ∧ t.me.npc = target ∧
      (let n := s.myCore.pcyc + 1
       SetsG 63 (s.cur.addr + BitVec.ofNat 64 s.cur.len) (s.meAt n) { t.meAt n with npc := (s.meAt n).npc })
  let rel := s.cur.addr + disp.signExtend 64
  let base := s.cur.addr - BitVec.ofNat 64 (s.cur.addr.toNat % 8) + off.signExtend 64
  let holds (e : Nat) : Bool := bytesAt (row e) 0 4 = 0xFFFFFFFF || (s.rg g).toNat ≤ bytesAt (row e) 0 4
  goes (.br disp) rel ∧ goes (.jmp disp) rel ∧ goes (.jr g) (s.rg g) ∧ goes .ret (s.rg 63) ∧
  links (.call disp) rel ∧ links (.callr g) (s.rg g) ∧
  (∀ e, e < 64 → (∀ j, j ≤ e → s.fetch s.cur.id (base + BitVec.ofNat 64 (8 * j)) 8 = .ok (row j)) →
    (∀ j, j < e → holds j = false) → holds e = true →
    goes (.jmpBkt g off) (base + (BitVec.ofNat 32 (bytesAt (row e) 4 4)).signExtend 64)) ∧
  (∀ e, e < 64 → (∀ j, j < e → s.fetch s.cur.id (base + BitVec.ofNat 64 (8 * j)) 8 = .ok (row j)) → (∀ j, j < e → holds j = false) →
    (∀ c v, s.fetch s.cur.id (base + BitVec.ofNat 64 (8 * e)) 8 = .trap c v → Traps s (exec (.jmpBkt g off) s) c v) ∧
    (s.fetch s.cur.id (base + BitVec.ofNat 64 (8 * e)) 8 = .waits → Waits s (exec (.jmpBkt g off) s))) ∧
  ((∀ j, j < 64 → s.fetch s.cur.id (base + BitVec.ofNat 64 (8 * j)) 8 = .ok (row j)) → (∀ j, j < 64 → holds j = false) →
    Traps s (exec (.jmpBkt g off) s) 1 s.fieldTval)

/-- R289 to R292, R296: `loop.cfg` sets its level's count and sixteen strides from the 144-byte descriptor (stride j only where bit j
of MASK is set) and leaves the others, an uncorrectable unit reading as zero (log entry 42); `loop.run` starts a first pass of `nm1` + 1
bundles after its own, in the place of any replay, also of another level (log entry 41, DEDUCED: R297 speaks of bundles issued there);
`loop.brk` outside a replay does nothing, in a later pass it goes on after the last buffered bundle, in the first at the address found
by fetching. -/
def Obligations.LoopSequencer : Prop := ∀ (s : State) (gd : GNum) (lev flev : BitVec 3) (nm1 : BitVec 6),
  let bs := s.unseen (s.ownKey ((s.rg gd).toNat % 2 ^ 20)) (s.descBytes (s.rg gd) 144)
  (descOk (s.rg gd) 144 → lev.toNat ≤ 5 → bytesAt bs 0 4 ≠ 0 → bytesAt bs 6 10 = 0 →
    ∃ t, exec (.loopCfg gd lev) s = .next t ∧ SameMem s t ∧ OnlyMe s t ∧
      (∀ l, (t.me.loopLevel l) = if l % 6 = lev.toNat then
          { count := bytesAt bs 0 4, strides := Vector.ofFn (fun j =>
              if (bytesAt bs 4 2).testBit j.val then BitVec.ofNat 64 (bytesAt bs (16 + 8 * j.val) 8) else 0) }
        else s.me.loopLevel l) ∧
      { t.me with seqr := { t.me.seqr with levels := s.me.seqr.levels }, err := s.me.err } = s.me) ∧
  (descOk (s.rg gd) 144 → (bytesAt bs 0 4 = 0 ∨ bytesAt bs 6 10 ≠ 0) → s.badAt (s.ownKey ((s.rg gd).toNat % 2 ^ 20)) 144 = none →
    Traps s (exec (.loopCfg gd lev) s) 1 s.fieldTval) ∧
  (∃ t, exec (.loopRun nm1 flev) s = .next t ∧ SameMem s t ∧ OnlyMe s t ∧
    { t.me with seqr := s.me.seqr } = s.me ∧ t.me.seqr.levels = s.me.seqr.levels ∧
    ∃ r, t.me.seqr.replay = some r ∧ r.n = nm1.toNat + 1 ∧ r.flev = flev.toNat ∧ r.level = s.me.level ∧ r.first = true ∧
      r.want = s.cur.addr + BitVec.ofNat 64 s.cur.len ∧ r.pos = 0 ∧ r.buf = [] ∧ r.iter = Vector.replicate 6 0) ∧
  (s.me.running = none → exec .loopBrk s = .next s) ∧
  (∀ r, s.me.running = some r →
    (∀ b, r.first = false → r.buf.getLast? = some b →
      ∃ t, exec .loopBrk s = .next t ∧ SameMem s t ∧ t.net = s.net ∧ t.pkgs = s.pkgs ∧ t.latch = { s.latch with brk := true } ∧
        t.me = { s.me with npc := b.addr + BitVec.ofNat 64 b.bytes.length }) ∧
    (∀ a, r.first = true → s.skipBundles s.cur.id (r.n - 1 - r.pos) (s.cur.addr + BitVec.ofNat 64 s.cur.len) = .ok a →
      ∃ t, exec .loopBrk s = .next t ∧ SameMem s t ∧ t.net = s.net ∧ t.pkgs = s.pkgs ∧ t.latch = { s.latch with brk := true } ∧
        t.me = { s.me with npc := a }))

/-- R37, R292 to R297: the passes of a replay. In the first pass its bundles are those that follow, and are kept; in a later one they come
from the buffer; a bundle issued elsewhere at the replay's level ends it, and one at another level leaves it alone. A slot marked `first`
is performed only while i[flev] = 0, one marked `last` only at the last index. After the last bundle of a pass the lowest level not at its
last index advances, the lower ones start again, and `a[j]` gains that level's stride j, added to what a bundle one cycle later reads;
where no level is left, or `loop.brk` was performed, every level has count 1 and strides 0, and execution goes on after bundle n. -/
def Obligations.ReplayPasses : Prop := ∀ (s t : State) (fs : List (CtxId × Latch)) (b : Chosen) (r : Replay),
  let c := t.ctx b.id
  let brk : Bool := fs.any (fun f => f.1 = b.id && f.2.brk)
  let d := (State.finishBundle s fs t b).ctx b.id
  let count (l : Nat) : Nat := (c.loopLevel l).count
  let after := b.addr + BitVec.ofNat 64 b.len
  let kept := if r.first then r.buf ++ [⟨b.addr, b.bytes⟩] else r.buf
  let now := (t.core b.id.pid b.id.core).pcyc
  (b.replay = true → c.running = some r →
    (brk = true → d.seqr = {} ∧ d.pc = c.npc) ∧
    (brk = false → r.pos + 1 < r.n → d.pc = (if r.first then c.npc else r.addrAt (r.pos + 1) c.npc) ∧ d.pend = c.pend ∧ d.a = c.a ∧
      d.seqr.levels = c.seqr.levels ∧ ∃ r', d.seqr.replay = some r' ∧ r'.pos = r.pos + 1 ∧ r'.first = r.first ∧ r'.iter = r.iter ∧
        r'.buf = kept ∧ r'.n = r.n ∧ r'.flev = r.flev ∧ r'.level = r.level ∧ (r.first = true → r'.want = after)) ∧
    (brk = false → r.n ≤ r.pos + 1 → (∀ l, l < 6 → count l ≤ r.at l + 1) → d.seqr = {} ∧ d.pc = after ∧ d.pend = c.pend ∧ d.a = c.a) ∧
    (∀ l, brk = false → r.n ≤ r.pos + 1 → l < 6 → r.at l + 1 < count l → (∀ q, q < l → count q ≤ r.at q + 1) →
      (∃ r', d.seqr.replay = some r' ∧ r'.pos = 0 ∧ r'.first = false ∧ r'.buf = kept ∧ r'.n = r.n ∧ r'.flev = r.flev ∧
        r'.level = r.level ∧ ∀ q, q < 6 → r'.at q = if q < l then 0 else if q = l then r.at l + 1 else r.at q) ∧
      d.seqr.levels = c.seqr.levels ∧ d.pc = ((kept[0]?).map (·.addr)).getD c.npc ∧
      ∀ j : Fin 16, let a := (c.landDue (now + 1)).a[j]
        (d.landDue (now + 1)).a[j] = a + (c.loopLevel l).strides[j])) ∧
  -- the iteration classes
  (∀ x : Slot × Slotted, t.performs b x = true ↔
    (b.replay = true → ∀ q, c.running = some q →
      (x.2.it = 1 → q.at q.flev = 0) ∧ (x.2.it = 2 → q.at q.flev + 1 = count q.flev)) ∧
    (x.1 = .c → c.rp x.2.pr ≠ x.2.pn)) ∧
  -- which bundle comes next
  (∀ id : CtxId, let k := s.ctx id
    k.next = none → k.running = some r →
    (∀ x, r.first = false → r.buf[r.pos]? = some x →
      s.nextBundle id = if k.pc = x.addr then (.ok x.addr x.bytes, true, false) else (s.fetchBundle id padFuel k.pc, false, false)) ∧
    (r.first = true → k.pc = r.want → s.nextBundle id = (s.fetchBundle id padFuel k.pc, true, true))) ∧
  (∀ id : CtxId, (s.ctx id).next = none → (s.ctx id).running = none →
    s.nextBundle id = (s.fetchBundle id padFuel (s.ctx id).pc, false, false)) ∧
  -- a bundle outside the replay
  (b.replay = true ∨ (s.ctx b.id).running = none → (s.leaveReplay b).ctx b.id = s.ctx b.id) ∧
  (b.replay = false → (s.ctx b.id).running.isSome = true → (s.leaveReplay b).ctx b.id = { s.ctx b.id with seqr := {} })

/-- R298, R299, R301: the named barriers of the own core. `bar.init` with 1 to 65,535 sets COUNT and clears ARR and POISON, PH unchanged,
and otherwise raises `ILLEGAL` (FIELD); `bar.arrive` keeps the phase it saw in WPH and counts one arrival, the last of COUNT
inverting PH, once the context's near stores have been performed and its loads have read (R168, R174); in a poisoned phase it counts
nothing (R226's sentence; log entry 81); `bar.wait` goes on once PH differs from WPH, traps `POISON` in a poisoned phase, and waits
otherwise; `bar.test` gives that answer to a predicate after 2 pipeline cycles: both look at the barrier after the cycle's arrivals from
quills and other packages (R300; the order of a cycle is log entry 101). No other barrier changes. -/
def Obligations.NamedBarriers : Prop := ∀ (s : State) (b : BitVec 5) (g : GNum) (pd : PNum),
  let x := s.myBarrier b.toNat
  let n := (s.rg g).toNat
  let sets (i : Instr) (y : Barrier) (w : BitVec 32) : Prop :=
    ∃ t, exec i s = .next t ∧ SameMem s t ∧ t.net = s.net ∧ t.latch = s.latch ∧
      (∀ id, placeOf id ≠ placeOf s.cur.id → t.ctx id = s.ctx id) ∧ t.me = { s.me with wph := w } ∧
      { t.myBarrier b.toNat with now := y.now, last := y.last } = y ∧
      (∀ c, c % 32 ≠ b.toNat → t.myBarrier c = s.myBarrier c)
  let bit := BitVec.twoPow 32 b.toNat
  let seen : BitVec 32 := if x.ph then s.me.wph ||| bit else s.me.wph &&& ~~~bit
  let y := s.seenBarrier b.toNat
  let moved : Bool := y.ph != s.me.wph.getLsbD b.toNat
  (1 ≤ n → n ≤ 65535 → sets (.barInit b g) { x with count := BitVec.ofNat 16 n, arr := 0, poison := false } s.me.wph) ∧
  (n = 0 ∨ 65535 < n → Traps s (exec (.barInit b g) s) 1 s.fieldTval) ∧
  (x.count = 0 → Traps s (exec (.barArrive b) s) 1 s.fieldTval) ∧
  (x.count ≠ 0 → s.nearOut s.cur.id || s.myLoadsOut s.cur.id → Waits s (exec (.barArrive b) s)) ∧
  (x.count ≠ 0 → s.nearOut s.cur.id = false → s.myLoadsOut s.cur.id = false → x.poison = false →
    sets (.barArrive b) (if x.arr + 1 = x.count then { x with arr := 0, ph := !x.ph } else { x with arr := x.arr + 1 }) seen) ∧
  (x.count ≠ 0 → s.nearOut s.cur.id = false → s.myLoadsOut s.cur.id = false → x.poison = true → sets (.barArrive b) x seen) ∧
  (s.latch.passed || moved → ∃ t, exec (.barWait b) s = .next t ∧ Quiet s t ∧ GoesOn s t true ∧ t.me = s.me) ∧
  (moved = false → y.poison = true → s.latch.passed = false → Traps s (exec (.barWait b) s) 13 (b.setWidth 64)) ∧
  (moved = false → y.poison = false → s.latch.passed = false → Waits s (exec (.barWait b) s)) ∧
  (moved = true ∨ y.poison = false → LandsRead s (exec (.barTest b pd) s) 2 (SetsP pd moved)) ∧
  (moved = false → y.poison = true → Traps s (exec (.barTest b pd) s) 13 (b.setWidth 64))

/-- R255, R257, R303, R305, R306: `hoop.end` on a register with V = 0 raises `ILLEGAL` (FIELD). Executed first, it sends its arrival to the
hoop's home (behind a flush probe on each route used since the last, once the context's loads have read: R170) and waits; executed again it goes
on once the register's SEQ has moved past the one it arrived in, and waits until then. `hoop.join` sends its join and waits, after an arrival
marked leaving in the old hoop where the register names one, both sent in one move (log entry 58, DEDUCED from R258, R303); it goes on, with the
register written from the hoop, once the home has admitted it and the old hoop's phase has ended. -/
def Obligations.HoopInstructions : Prop := ∀ (s : State) (m : BitVec 2) (gd : GNum),
  let w := s.me.hoopReg m.toNat
  let arrived : HoopWait := { reg := m.toNat, join := false, addr := s.cur.addr, seq := w.toNat / 2 ^ 32 % 2 ^ 15 }
  let d := s.descBytes (s.rg gd) 16
  (w.getLsbD 63 = false → Traps s (exec (.hoopEnd m) s) 1 s.fieldTval) ∧
  (w.getLsbD 63 = true → s.me.hoopWait = none → s.myLoadsOut s.cur.id = true → Waits s (exec (.hoopEnd m) s)) ∧
  (w.getLsbD 63 = true → s.me.hoopWait = none → s.myLoadsOut s.cur.id = false → ∀ pid h, s.hoopOf (s.identOf s.cur.id) m.toNat = some (pid, h) →
    ∃ t, exec (.hoopEnd m) s = .next t ∧ SameMem s t ∧ t.pkgs = s.pkgs ∧ t.latch = { s.latch with hold := true, keep := true } ∧
      t.me.hoopWait = some arrived ∧ t.me.hoopRoutes = [] ∧ t.me.arch = { s.me with hoopWait := some arrived }.arch ∧
      ∃ ms : List Msg, t.net = s.net ++ ms ∧
        ms.map (·.body) = s.me.hoopRoutes.map (fun _ => .probe) ++ [.hoopArrive m.toNat false] ∧
        ms.getLast?.map (fun x => (x.dst, x.idx)) = some (hoopHome pid h.level h.unit, h.hid * 8 + h.level)) ∧
  (∀ q, w.getLsbD 63 = true → s.me.hoopWait = some { arrived with seq := q } → q ≠ arrived.seq →
    ∃ t, exec (.hoopEnd m) s = .next t ∧ Quiet s t ∧ GoesOn s t true ∧ t.me = { s.me with hoopWait := none, phase := [] }) ∧
  (w.getLsbD 63 = true → s.me.hoopWait = some arrived → Waits s (exec (.hoopEnd m) s)) ∧
  (∀ q, descOk (s.rg gd) 16 → s.badAt (s.ownKey ((s.rg gd).toNat % 2 ^ 20)) 16 = none → s.joinReq d = some q →
    (s.me.hoopWait = none → w.getLsbD 63 = false → s.joinedElsewhere m.toNat q = false →
      ∃ t, exec (.hoopJoin m gd) s = .next t ∧ SameMem s t ∧ t.pkgs = s.pkgs ∧ t.latch = { s.latch with hold := true, keep := true } ∧
        t.me.hoopWait = some { reg := m.toNat, join := true, addr := s.cur.addr, seq := 1 } ∧
        ∃ x : Msg, t.net = s.net ++ [x] ∧ x.body = .hoopJoin q.level q.unit q.part q.hid q.nmem m.toNat ∧
          x.dst = hoopHome q.pid q.level q.unit) ∧
    (s.me.hoopWait = none → w.getLsbD 63 = true → s.joinedElsewhere m.toNat q = false → s.myLoadsOut s.cur.id = true →
      Waits s (exec (.hoopJoin m gd) s)) ∧
    (∀ pid h, s.me.hoopWait = none → w.getLsbD 63 = true → s.joinedElsewhere m.toNat q = false → s.myLoadsOut s.cur.id = false →
      s.hoopOf (s.identOf s.cur.id) m.toNat = some (pid, h) →
      ∃ t, exec (.hoopJoin m gd) s = .next t ∧ SameMem s t ∧ t.pkgs = s.pkgs ∧ t.latch = { s.latch with hold := true, keep := true } ∧
        t.me.hoopWait = some { reg := m.toNat, join := true, addr := s.cur.addr, seq := 1 } ∧
        ∃ ms : List Msg, t.net = s.net ++ ms ∧
          ms.map (·.body) = s.me.hoopRoutes.map (fun _ => .probe) ++ [.hoopArrive m.toNat true,
            .hoopJoin q.level q.unit q.part q.hid q.nmem m.toNat]) ∧
    (∀ h k, s.me.hoopWait = some { reg := m.toNat, join := true, addr := s.cur.addr, seq := k } → s.admitted m.toNat q = some h →
      s.leaving m.toNat = false →
      ∃ t, exec (.hoopJoin m gd) s = .next t ∧ Quiet s t ∧ GoesOn s t true ∧
        t.me = { s.me.setHoopReg m.toNat h.word with hoopWait := none, phase := [] }))

/-- R307, R308, R309: `wait.at` goes on once CYCLE has reached its operand and no landing promised by then is still to come, `wait.ev`
once its ticket's operation is done, or at once for a word that is no ticket; both wait otherwise. `yield` marks the primary
context as having yielded, `role` sets the role; neither does anything else.
R310, R311, R385: `halt` and `gnode.done` end the context after its bundle and close its stroke, `gnode.done` keeping the status for
the dispatcher where the context belongs to a node instance; OPEN is cleared at every level (log entry 88, DEDUCED). Memory and the
other contexts are as before. A context of a node instance that leaves a STOPPED chain behind has its instance killed with status 2
(R382). A context that belongs to hoops leaves them: it waits until its loads have read, and sends each an arrival marked leaving behind
its flush probes (R306, R257). -/
def Obligations.WaitingAndEnding : Prop :=
  (∀ (s : State) (g : GNum) (r : BitVec 2),
  let t0 := (s.rg g).toNat
  let w := s.rg g
  let early : Prop := (s.pkg s.cur.id.pid).cycle.toNat < t0 ∨ s.me.landingBy t0 = true
  let bad : Prop := w.toNat / 2 ^ 32 ≠ 0 ∨ w.toNat / 2 ^ 6 % 2 ^ 6 ≠ 0 ∨ 8 < w.toNat / 2 ^ 12 % 2 ^ 4
  let e := s.me.entry (w.toNat % 2 ^ 6)
  let done : Prop := e.seq.toNat ≠ w.toNat / 2 ^ 16 % 2 ^ 16 ∨ e.state = .retired ∨ e.state = .free
  (¬early → ∃ t, exec (.waitAt g) s = .next t ∧ Quiet s t ∧ GoesOn s t true ∧ t.me = s.me) ∧
  (early → s.latch.passed = false → Waits s (exec (.waitAt g) s)) ∧
  (g ≠ 0 → bad ∨ done → ∃ t, exec (.waitEv g) s = .next t ∧ Quiet s t ∧ GoesOn s t true ∧ t.me = s.me) ∧
  (g ≠ 0 → ¬bad → ¬done → s.latch.passed = false → Waits s (exec (.waitEv g) s)) ∧
  (∃ t, exec .yield s = .next t ∧ SameMem s t ∧ (∀ id, t.ctx id = s.ctx id) ∧ t.pkgs = s.pkgs ∧ t.net = s.net ∧ t.latch = s.latch ∧
    t.myCore.yielded = (if s.myCore.primary = some (s.cur.id.ctx % 4) then some (s.cur.id.ctx % 4) else s.myCore.yielded)) ∧
  (∃ t, exec (.role r) s = .next t ∧ SameMem s t ∧ OnlyMe s t ∧ t.me = { s.me with role := r })) ∧
  (∀ (s : State) (g : GNum),
  let inHoop (m : Nat) : Prop := (s.me.hoopReg m).getLsbD 63 = true
  let stopped : Bool := s.myCore.live.chains.any (fun c => c.ctx = s.cur.id.ctx % 4 && c.stopped)
  ((∃ m, m < 4 ∧ inHoop m) → s.myLoadsOut s.cur.id = true → Waits s (exec .halt s) ∧ Waits s (exec (.gnodeDone g) s)) ∧
  (∀ m pid h, m < 4 → inHoop m → (∀ q, q < 4 → q ≠ m → ¬inHoop q) → s.myLoadsOut s.cur.id = false →
    s.hoopOf (s.identOf s.cur.id) m = some (pid, h) → ∀ i ∈ [Instr.halt, .gnodeDone g],
    ∃ t ms, exec i s = .next t ∧ SameMem s t ∧ t.me.halted = true ∧ t.latch = { s.latch with halt := true } ∧ t.net = s.net ++ ms ∧
      ms.map (·.body) = s.me.hoopRoutes.map (fun _ => .probe) ++ [.hoopArrive m true] ∧
      ms.getLast?.map (fun x => (x.dst, x.idx)) = some (hoopHome pid h.level h.unit, h.hid * 8 + h.level)) ∧
  ((∀ m, m < 4 → ¬inHoop m) →
  let ends (i : Instr) (status : Option Word) : Prop :=
    ∃ t, exec i s = .next t ∧ SameMem s t ∧ t.net = s.net ∧
      (stopped = false ∨ s.me.inst = none → t.pkgs = s.pkgs) ∧
      (∀ n, stopped = true → s.me.inst = some n → (∀ p, p ≠ s.cur.id.pid → t.pkg p = s.pkg p) ∧
        t.pkg s.cur.id.pid = { s.pkg s.cur.id.pid with insts := (s.pkg s.cur.id.pid).insts.map (fun x =>
          if x.id = n ∧ x.dying = none then { x with dying := some 0xF000000000000002 } else x) }) ∧
      (∀ id, placeOf id ≠ placeOf s.cur.id → t.ctx id = s.ctx id) ∧ t.latch = { s.latch with halt := true } ∧
      t.me = { s.me with halted := true, stkchk := t.me.stkchk, doneStatus := status, hoopRoutes := [] } ∧
      (∀ j, j < 64 → t.me.stkchk.getLsbD j = (s.me.stkchk.getLsbD j && decide (j ≠ 56)))
  ends .halt s.me.doneStatus ∧ ends (.gnodeDone g) (if s.me.inst.isSome then some (s.rg g) else s.me.doneStatus)))

/-- R405, R406, R20: `trap` and `brk` trap at their bundle, `TVAL` holding its length in bits 29:24 and the code in 19:0.
R90, R91: the trap fence waits while arithmetic flags of earlier bundles are still to be recorded; then it traps `ARITH` where a
record holds a flag that `FCSR.TEN` enables, `TVAL` bit i for record i, and goes on as a blocking operation where none does. -/
def Obligations.TrapInstructions : Prop :=
  (∀ (s : State) (code : BitVec 20), s.cur.len < 64 →
  let v : Word := BitVec.ofNat 64 (s.cur.len * 2 ^ 24 + code.toNat)
  Traps s (exec (.trap code) s) 16 v ∧ Traps s (exec (.brk code) s) 17 v) ∧
  (∀ (s : State),
  let hit (i : Nat) (h : i < 5) : Bool := (List.range 7).any (fun j => s.me.xr[i].getLsbD (57 + j) && s.me.fcsr.getLsbD (16 + j))
  (s.flagsOut = true → s.latch.passed = false → Waits s (exec .tfence s)) ∧
  (s.flagsOut = false → ∃ v : Word, (∀ j, v.getLsbD j = if h : j < 5 then hit j h else false) ∧
    (v ≠ 0 → Traps s (exec .tfence s) 9 v) ∧
    (v = 0 → ∃ t, exec .tfence s = .next t ∧ Quiet s t ∧ GoesOn s t true ∧ t.me = s.me)))

/-- R405, R20, R40: what entering a handler does to a context. Every fixed-latency operation issued before completes. From program
level a cause other than `BRK` goes to partition level: `TEPC` takes the bundle's address, `TCAUSE` level and code, `TVAL` the
value, and the PC `TVEC`; any other trap goes to device level through `DTEPC`, `DTCAUSE`, `DTVAL` and `DTVEC`; at device level the
context halts. Nothing else changes, and at device level the management vector is signalled.
R407: `tret` at partition level goes on at `TEPC` at the level of `TCAUSE`, at device level at `DTEPC` at the level of `DTCAUSE`; with
no STOPPED chain of the context issued at that level it changes nothing else. -/
def Obligations.TrapEntry : Prop :=
  (∀ (s : State) (id : CtxId) (cause : Nat) (tval addr : Word), cause < 32 →
  let c := s.ctx id
  let d := (s.takeTrap id cause tval addr).ctx id
  let done : Ctx := { c.drain with efence := none, fence := none, inval := none, next := none, stall := 0 }
  let cw : Word := BitVec.ofNat 64 (c.level.toNat * 256 + cause)
  (∀ j, placeOf j ≠ placeOf id → (s.takeTrap id cause tval addr).ctx j = s.ctx j) ∧ SameMem s (s.takeTrap id cause tval addr) ∧
  (s.takeTrap id cause tval addr).net = s.net ∧ c.drain.pend = [] ∧
  (match c.level with
   | .program => if cause = 17 then d = { done with dtepc := addr, dtcause := cw, dtval := tval, level := .device, pc := c.dtvec,
                                                    npc := c.dtvec }
       else d = { done with tepc := addr, tcause := cw, tval := tval, level := .partition, pc := c.tvec, npc := c.tvec }
   | .partition => d = { done with dtepc := addr, dtcause := cw, dtval := tval, level := .device, pc := c.dtvec, npc := c.dtvec }
   | .device => d = { done with halted := true, pc := addr, npc := addr } ∧
       ((s.takeTrap id cause tval addr).pkg id.pid).events = (s.pkg id.pid).events ++ [.managementVector id])) ∧
  (∀ (s : State),
  let dev : Bool := s.me.level = .device
  let code : Nat := if dev then s.me.dtcause.toNat / 256 % 4 else s.me.tcause.toNat / 256 % 2
  let n : Level := if code = 0 then .program else if code = 1 then .partition else .device
  (∀ c ∈ s.myCore.live.chains, ¬(c.ctx = s.cur.id.ctx % 4 ∧ c.stopped = true ∧ c.level = n)) →
  ∃ t, exec .tret s = .next t ∧ SameMem s t ∧ OnlyMe s t ∧
    t.me = { s.me with level := n, npc := if dev then s.me.dtepc else s.me.tepc })

/-- R384, R385, R387: `stk.end` above program level does nothing. At program level the stroke is counted with the bundle itself; where
its count, ductus and flags are as expected (or checking is off) the stroke ends with the bundle; otherwise `STROKE` traps, but a
node instance is marked to be killed with status 1 instead, and its bundle waits. -/
def Obligations.StrokeEnd : Prop := ∀ (s : State) (ductus : BitVec 32),
  let xs := (s.myBundle.map (·.slots)).getD []
  let w := stkUpdate s.me.stkchk s.myBlocks (1 + maxSt xs) []
  let u : BitVec 32 := ~~~(stkDuct w)
  let bad : Prop := stkDis w = false ∧ (stkCnt w ≠ pairedCount xs ∨ u ≠ ductus ∨ stkBlkf w = true ∨ stkOvf w = true)
  (s.me.level ≠ .program → exec (.stkEnd ductus) s = .next s) ∧
  (s.me.level = .program → ¬bad → exec (.stkEnd ductus) s = .next { s with latch := { s.latch with stkEnd := true } }) ∧
  (s.me.level = .program → bad → s.me.inst = none → Traps s (exec (.stkEnd ductus) s) 12 (BitVec.ofNat 64
    ((if stkCnt w ≠ pairedCount xs then 2 ^ 59 else 0) + (if stkBlkf w then 2 ^ 58 else 0) + (if stkOvf w then 2 ^ 57 else 0) +
     (if u ≠ ductus then 2 ^ 56 else 0) + stkCnt w * 2 ^ 32 + u.toNat))) ∧
  (∀ n, s.me.level = .program → bad → s.me.inst = some n → ∃ t, exec (.stkEnd ductus) s = .next t ∧ SameMem s t ∧
    (∀ id, t.ctx id = s.ctx id) ∧ t.net = s.net ∧ t.latch = { s.latch with hold := true, keep := true } ∧
    (∀ p, p ≠ s.cur.id.pid → t.pkg p = s.pkg p) ∧
    t.pkg s.cur.id.pid = { s.pkg s.cur.id.pid with insts := (s.pkg s.cur.id.pid).insts.map (fun i =>
      if i.id = n ∧ i.dying = none then { i with dying := some 0xF000000000000001 } else i) })

/-! ### CSRs and partition-level instructions -/

/-- R42, R315: what each CSR reads as, and the traps of a read: an unassigned number raises `ILLEGAL` (FIELD), a number above the
context's level `PRIVILEGE`; otherwise `g[gd]` holds the value after 2 pipeline cycles and nothing else changes. Beside an `mdrain` the
active configuration reads as it stood when the bundle issued (R34). PART of CTXID in a bay of no partition reads 0 (log 99, DESIGN CHOICE).
R42, R315, R316: `csrw` writes its source, `csrs` sets and `csrc` clears the source's bits. A write that names a writable CSR of the
context's level and a value its table admits reads back, leaves every other CSR as it was, and touches no memory and no other
context; of `FCSR` and the sticky records the flags recorded on the same cycle stand besides (R317). Any other write leaves everything
and traps: `ILLEGAL` (FIELD) for the number or the value, `PRIVILEGE` for the level.
R81: a write of `SEED` gives every lane position l its stochastic state, SEED XOR (l × 0x9E3779B9 modulo 2^32), or 0x6D2B79F5 where
that is 0; R74, R75: a write of a bank format register with an admitted value stands for the whole core. A value not admitted traps. -/
def Obligations.CsrAccess : Prop :=
  (∀ (s : State) (gd : GNum),
  let c := s.me
  let e (i : Nat) : Word := match (s.myCore.live.engine i).was with
    | some (n, w) => if n = s.myCore.pcyc then w else (s.myCore.live.engine i).active
    | none => (s.myCore.live.engine i).active
  let table : List (BitVec 12 × Word) :=
    ([(0x000, c.fcsr), (0x001, c.seed), (0x002, c.prog), (0x003, c.role.setWidth 64), (0x004, c.sbchk), (0x008, c.hoopm[0]),
     (0x009, c.hoopm[1]), (0x00A, c.hoopm[2]), (0x00B, c.hoopm[3]), (0x010, c.xr[0]), (0x011, c.xr[1]), (0x012, c.xr[2]),
     (0x013, c.xr[3]), (0x014, c.xr[4]), (0x020, (s.pkg s.cur.id.pid).cycle), (0x021, s.ctxid s.cur.id), (0x110, e 0), (0x111, e 1),
     (0x400, c.tvec), (0x401, c.tcause), (0x402, c.tepc), (0x403, c.tval), (0x404, c.landbnd), (0x405, c.agebnd), (0x406, c.racedet),
     (0x407, c.stkchk), (0x800, c.dtvec), (0x801, c.dtcause), (0x802, c.dtepc), (0x803, c.dtval)] : List (BitVec 12 × Word)) ++
    (List.range 16).map (fun i => ((BitVec.ofNat 12 (0x100 + i) : BitVec 12), s.myCore.bfReg i))
  (∀ r ∈ table, r.1.toNat / 2 ^ 10 ≤ c.level.toNat → Lands s (exec (.csrr gd r.1) s) 2 (SetsG gd r.2)) ∧
  (∀ r ∈ table, c.level.toNat < r.1.toNat / 2 ^ 10 →
    Traps s (exec (.csrr gd r.1) s) 2 (BitVec.ofNat 64 (s.cur.slot.bit * 256))) ∧
  (∀ n : BitVec 12, (∀ r ∈ table, r.1 ≠ n) → Traps s (exec (.csrr gd n) s) 1 s.fieldTval)) ∧
  ((∀ (s : State) (gs : GNum) (n : BitVec 12) (i : Instr) (v : Word),
  (i, v) ∈ [(.csrw gs n, s.rg gs), (.csrs gs n, s.csrRead n ||| s.rg gs), (.csrc gs n, s.csrRead n &&& ~~~(s.rg gs))] →
  let sticky : Prop := n = 0 ∨ (0x010 ≤ n.toNat ∧ n.toNat ≤ 0x014)
  (csrAccess n = some .rw → n.toNat / 2 ^ 10 ≤ s.me.level.toNat → csrOk n v = true → sticky → s.me.flagged ≠ [] →
    ∃ t, exec i s = .next t ∧ SameMem s t ∧ OnlyMe s t ∧
      { t.me with fcsr := s.me.fcsr, xr := s.me.xr, xrIssue := s.me.xrIssue } = s.me ∧
      (n = 0 → ∀ j, j < 64 → t.me.fcsr.getLsbD j = (v.getLsbD j || s.me.flagged.any (fun f => f.2.1.getLsbD j))) ∧
      (∀ r : Rec, n.toNat = 0x010 + r.idx.val → ∀ j, j < 7 → t.me.xr[r.idx].getLsbD (57 + j) =
        (v.getLsbD (57 + j) || s.me.flagged.any (fun f => decide (f.1 = r) && f.2.1.getLsbD j)))) ∧
  (csrAccess n = some .rw → n.toNat / 2 ^ 10 ≤ s.me.level.toNat → csrOk n v = true → ¬sticky ∨ s.me.flagged = [] →
    ∃ t, exec i s = .next t ∧ SameMem s t ∧ t.net = s.net ∧ t.pkgs = s.pkgs ∧ t.latch = s.latch ∧
      (∀ id, placeOf id ≠ placeOf s.cur.id → t.ctx id = s.ctx id) ∧ t.csrRead n = v ∧
      (∀ m, m ≠ n → t.csrRead m = s.csrRead m) ∧
      t.me.g = s.me.g ∧ t.me.a = s.me.a ∧ t.me.p = s.me.p ∧ t.me.k = s.me.k ∧ t.me.v = s.me.v ∧ t.me.pc = s.me.pc ∧
      t.me.npc = s.me.npc ∧ t.me.level = s.me.level ∧ (n ≠ 1 → t.me.sr = s.me.sr)) ∧
  (csrAccess n ≠ some .rw → Traps s (exec i s) 1 s.fieldTval) ∧
  (csrAccess n = some .rw → s.me.level.toNat < n.toNat / 2 ^ 10 →
    Traps s (exec i s) 2 (BitVec.ofNat 64 (s.cur.slot.bit * 256))) ∧
  (csrAccess n = some .rw → n.toNat / 2 ^ 10 ≤ s.me.level.toNat → csrOk n v = false → Traps s (exec i s) 1 s.fieldTval)) ∧
  (∀ (s : State) (v : Word) (n : BitVec 4),
  (v.toNat < 2 ^ 32 → ∃ t, exec (.seedWrite v) s = .next t ∧ SameMem s t ∧ OnlyMe s t ∧
    t.me = { s.me with seed := v, sr := t.me.sr } ∧ (∀ l : Fin 256,
      t.me.sr[l] = (let y := v.setWidth 32 ^^^ BitVec.ofNat 32 (l.val * 0x9E3779B9); if y = 0 then 0x6D2B79F5 else y))) ∧
  (2 ^ 32 ≤ v.toNat → Traps s (exec (.seedWrite v) s) 1 s.fieldTval) ∧
  (bankOk n.toNat v = true → ∃ t, exec (.bankFormatWrite n v) s = .next t ∧ SameMem s t ∧ t.net = s.net ∧ t.pkgs = s.pkgs ∧
    (∀ id, t.ctx id = s.ctx id) ∧ (∀ i, t.myCore.bfReg i = if i % 16 = n.toNat then v else s.myCore.bfReg i)) ∧
  (bankOk n.toNat v = false → Traps s (exec (.bankFormatWrite n v) s) 1 s.fieldTval)))

/-- R345, R359: `win.set` takes a 32-byte descriptor into window or exposure N of the issuing partition and into the table in memory;
`win.clr` clears it. N above 511, a field out of range and an overlap with another valid window are refused by `SYSOP` (REASON 1, 2,
3, with their INFO), with nothing changed. Both wait while the table's entry stands in a sealed line, and raise `UNDECIDED` on that of an
undecided group (R183, R192). -/
def Obligations.WindowInstructions : Prop := ∀ (s : State) (gd gn : GNum) (p : Nat) (x : Part), s.memOk → s.myPart = some (p, x) →
  let n := (s.rg gn).toNat
  let pid := s.cur.id.pid
  let d := s.descBytes (s.rg gd) 32
  let k := memKey pid (x.wtab + 32 * n)
  let sysop (reason info : Nat) : Word := BitVec.ofNat 64 (info * 2 ^ 32 + reason)
  let line := s.lineAt pid (x.wtab + 32 * n) 32
  let lined (i : Instr) : Prop := s.latch.passed = false → (line = .waits → Waits s (exec i s)) ∧
    (∀ g e, line = .undecided g e → Traps s (exec i s) 15 (BitVec.ofNat 64 (g % 65536 * 2 ^ 48 + e % 65536 * 2 ^ 32)))
  let sets (i : Instr) (d : List Byte) : Prop :=
    ∃ t, exec i s = .next t ∧ SameMemBut k 32 s t ∧ (∀ j, j < 32 → t.readByte (k + j) = d[j]?.getD 0) ∧ t.net = s.net ∧
      GoesOn s t true ∧ (∀ id, t.ctx id = s.ctx id) ∧
      (t.part pid p).map (·.wins) = some (x.wins.put n (if d.all (· = 0) then none else some d))
  (n ≤ 511 → descOk (s.rg gd) 32 → s.badAt (s.ownKey ((s.rg gd).toNat % 2 ^ 20)) 32 = none → winBad n d = none →
    x.winClash n d = none → (line = .clear → sets (.winSet gd gn) d) ∧ lined (.winSet gd gn)) ∧
  (n ≤ 511 → (line = .clear → sets (.winClr gn) (List.replicate 32 0)) ∧ lined (.winClr gn)) ∧
  (511 < n → Traps s (exec (.winSet gd gn) s) 11 (sysop 1 2) ∧ Traps s (exec (.winClr gn) s) 11 (sysop 1 2)) ∧
  (∀ b, n ≤ 511 → descOk (s.rg gd) 32 → s.badAt (s.ownKey ((s.rg gd).toNat % 2 ^ 20)) 32 = none → winBad n d = some b →
    Traps s (exec (.winSet gd gn) s) 11 (sysop 2 b)) ∧
  (∀ m, n ≤ 511 → m ≤ 511 → descOk (s.rg gd) 32 → s.badAt (s.ownKey ((s.rg gd).toNat % 2 ^ 20)) 32 = none → winBad n d = none →
    x.winClash n d = some m → Traps s (exec (.winSet gd gn) s) 11 (sysop 3 m))

/-- R336, R339, R341, R344, R360: `pg.inval` removes the cached translations of the partition that meet its range as it is first executed,
and waits while an access translated through them before is under way (log entry 16); a completed walk adds the leaf it met; a page copy
moves the page to the frame popped from the pool, logs the old one and switches the entry, its other fields as software left them
(R339), once no line of it is sealed (R183); a write blocked for BLKTMO µs is marked expired and reported: a BLKTMO record with DETAIL 1
in the partition's fault queue, or DROP counted where that is full. That walks and copies are events of their own is log entry 83
(DESIGN CHOICE). A copy leaves LOC as it was (log 92, DEDUCED). -/
def Obligations.Translations : Prop := ∀ (s : State) (ga : GNum) (sz : BitVec 2) (pid p : Nat) (x : Part) (va : Word) (l : Leaf),
  let size : Nat := if sz = 0 then 2 ^ 16 else if sz = 1 then 2 ^ 21 else if sz = 2 then 2 ^ 30 else 2 ^ 57
  let base : Nat := if sz = 3 then 0 else (s.rg ga).toNat - (s.rg ga).toNat % size
  let meets_ (e : TlbEntry) : Bool := e.part = p && e.base < base + size && base < e.base + e.size
  let ranges := (base, size) :: ((s.pkg s.cur.id.pid).tlb.filter meets_).map (fun e => (e.base, e.size))
  let now := s.translatedOut s.cur.id.pid p [(0, 2 ^ 57)]
  (∀ out, s.myPart = some (p, x) →
    out = (match s.me.inval with
      | some (a, ts, cs) => if a = s.cur.addr then (ts.filter now.1.contains, cs.filter now.2.contains)
          else s.translatedOut s.cur.id.pid p ranges
      | none => s.translatedOut s.cur.id.pid p ranges) →
    ∃ t, exec (.pgInval ga sz) s = .next t ∧ SameMem s t ∧ (∀ id, placeOf id ≠ placeOf s.cur.id → t.ctx id = s.ctx id) ∧ t.net = s.net ∧
      (t.pkg s.cur.id.pid).tlb = (s.pkg s.cur.id.pid).tlb.filter (fun e => !meets_ e) ∧
      (if s.latch.passed || out = ([], []) then GoesOn s t true ∧ t.me = { s.me with inval := none }
       else t.latch = { s.latch with hold := true, keep := true } ∧ t.me = { s.me with inval := some (s.cur.addr, out) })) ∧
  (s.part pid p = some x → va.toNat < 2 ^ 57 →
    (∀ e ∈ (s.pkg pid).tlb, ¬(e.part = p ∧ e.base ≤ va.toNat ∧ va.toNat < e.base + e.size)) →
    walkFrom s pid x va.toNat 4 x.root = .ok l →
    ∃ t, exec (.pageWalkComplete pid p va) s = .next t ∧ SameMem s t ∧ (∀ id, t.ctx id = s.ctx id) ∧ t.net = s.net ∧
      (t.pkg pid).tlb = (s.pkg pid).tlb ++ [{ part := p, base := l.base, size := l.size, key := l.key, word := l.word }] ∧
      (s.tlbOk pid → t.tlbOk pid)) ∧
  (∀ f r, s.memOk → s.part pid p = some x → s.walk pid p va.toNat = .ok l → va.toNat < 2 ^ 57 → pteCow l.word = true →
    s.lineAt pid (pteAddr l.word) 65536 = .clear → l.size = 65536 → l.frameOk x = true → pteW l.word = true → pteBlk l.word = false →
    let pool := memKey pid x.poolbase
    let take := s.readNat (pool + 8) 8
    s.readNat pool 8 ≠ take → x.poolcap ≠ 0 → x.freeLog s pid = some r →
    meets (pool + 8) 8 (memKey pid x.logbase) (32 * x.logcap) = false →
    f = s.readNat (pool + 64 + 8 * (take % x.poolcap)) 8 → f % 65536 = 0 → x.owns f 65536 = true →
    let from_ := memKey pid (pteAddr l.word)
    let dst := memKey pid f
    (∀ k n, (k, n) ∈ [(pool + 8, 8), (r, 24), (l.key, 16)] → meets k n from_ 65536 = false ∧ meets k n dst 65536 = false) →
    meets from_ 65536 dst 65536 = false → meets r 24 l.key 16 = false → meets (pool + 8) 8 l.key 16 = false →
    let old : BitVec 128 := BitVec.ofNat 128 (s.readNat l.key 16)
    ∃ t, exec (.cowCopy pid p va) s = .next t ∧ (∀ j, j < 65536 → t.readByte (dst + j) = s.readByte (from_ + j)) ∧
      (∀ j, j < 128 → (BitVec.ofNat 128 (t.readNat l.key 16)).getLsbD j =
        if 9 ≤ j ∧ j ≤ 51 then f.testBit j else if j = 59 ∨ 64 ≤ j then false else old.getLsbD j) ∧
      t.readNat r 8 = l.base ∧ t.readNat (r + 8) 8 = pteAddr l.word ∧
      t.readNat (r + 16) 8 = (l.word.extractLsb' 64 64).toNat ∧ t.readNat (pool + 8) 8 = (take + 1) % 2 ^ 64 ∧ (∀ id, t.ctx id = s.ctx id) ∧
        t.net = s.net) ∧
  (∀ n b, s.memOk → (s.pkg (n / 65536)).blocked[n % 65536]? = some b → b.left = 0 → b.expired = false →
    ∃ t, exec (.blktmoExpiry n) s = .next t ∧ (t.pkg (n / 65536)).blocked[n % 65536]? = some { b with expired := true } ∧
      (∀ id, t.ctx id = s.ctx id) ∧ t.net = s.net ∧
      ∀ y, s.part (n / 65536) b.part = some y →
        let k := memKey (n / 65536) y.fqbase
        let put := s.readNat k 8
        let held := (put + 2 ^ 64 - s.readNat (k + 8) 8) % 2 ^ 64
        let q := k + 64 + 32 * (put % 2 ^ y.fqlog)
        (∀ r ∈ (s.pkg (n / 65536)).posts, r.part = b.part → 16 ≤ r.kind) →
        s.lineAt (n / 65536) y.fqbase (64 + 32 * 2 ^ y.fqlog) = .clear →
        (held ≠ 2 ^ y.fqlog → held < 2 ^ 63 → t.readNat k 8 = (put + 1) % 2 ^ 64 ∧ t.readNat q 2 = 6 ∧
          t.readNat (q + 8) 8 = b.va % 2 ^ 64 ∧ t.readNat (q + 16) 8 = 1 ∧
          ∀ id, b.id = some id → id.core < 1024 → t.readNat (q + 4) 4 = (s.ctxid { id with ctx := id.ctx % 4 }).toNat % 2 ^ 28) ∧
        (held = 2 ^ y.fqlog ∨ 2 ^ 63 ≤ held → t.readNat k 8 = put ∧ t.readNat (k + 16) 8 = (s.readNat (k + 16) 8 + 1) % 2 ^ 64))

/-- R340, R341, R342: what a snapshot, a release and a restore do with one page. A snapshot sets the slot's HELD bit, and COW with it, in the
entry and in every cached copy; a release clears the bit, COW being HELD ≠ 0, and in the page's log record, posting FRAMEFREE for a frame that no
snapshot holds any longer; a restore clears a bit still set, and otherwise makes the logged frame current again, with the other snapshots of its
record, and logs the frame it replaces where later snapshots hold it. Every other field of the entry stands as memory has it (R339); a page with
no valid leaf, and a host page, take no part. A restore leaves LOC as it was (log 92, DEDUCED); with no free log record it uses the page's own
(log 10, DEDUCED).
R361, R362, R363, R374, R375: `pg.snap` checks every page of its range and then takes it page by page; complete, the
slot is held with its range and `PROG` is 0. `pg.cow` on a held slot of the same range restores or releases page by page, then clears
the slot's log records, frees the slot and sets `PROG` to 0. Stopped after page i, or at a page with a sealed line, either leaves pass
and i in `PROG` and waits; executed again, it goes on from there, in either pass. A large page in the check pass frees the slot and is
refused with LARGE; a slot in another state, or of another range, with STATE or RANGE, and `PROG` becomes 0. -/
def Obligations.SnapshotInstructions : Prop :=
  (∀ (s : State) (pid p slot agent va : Nat) (x : Part) (l : Leaf), s.memOk → slot < 64 →
  va < 2 ^ 57 → s.part pid p = some x → s.walk pid p va = .ok l →
  let now := l.word.extractLsb' 64 64
  let bit : BitVec 64 := BitVec.twoPow 64 slot
  let takesPart : Prop := l.size = 65536 ∧ (l.word.extractLsb' 62 2).toNat < 2
  -- the entry holds ADDR and HELD, COW with it; nothing else of it has changed
  let becomes (t : State) (addr : Option Nat) (held : BitVec 64) : Prop :=
    (∀ j, j < 128 → (BitVec.ofNat 128 (t.readNat l.key 16)).getLsbD j =
      if 64 ≤ j then held.getLsbD (j - 64) else if j = 59 then decide (held ≠ 0)
      else if addr.isSome ∧ 9 ≤ j ∧ j ≤ 51 then (addr.getD 0).testBit j
      else (BitVec.ofNat 128 (s.readNat l.key 16)).getLsbD j) ∧
    (∀ e ∈ (t.pkg pid).tlb, e.key = l.key → pteHeld e.word = held ∧ pteCow e.word = decide (held ≠ 0) ∧
      ∀ a, addr = some a → pteAddr e.word = a)
  let log := memKey pid x.logbase
  let apart : Prop := meets l.key 16 log (32 * x.logcap) = false ∧ x.logbase + 32 * x.logcap ≤ 2 ^ 52
  let recs := s.logOf pid x slot (some va)
  (¬takesPart → s.snapPage pid p slot va = (s, .ok) ∧ s.restorePage pid p slot agent va = (s, .ok)) ∧
  (takesPart →
    (∃ t, s.snapPage pid p slot va = (t, .ok) ∧ becomes t none (now ||| bit) ∧ SameMemBut l.key 16 s t) ∧
    (recs = [] → apart → now.getLsbD slot = true →
      ∃ t, s.releasePage pid p slot agent va = (t, .ok) ∧ becomes t none (now &&& ~~~bit) ∧ SameMemBut l.key 16 s t) ∧
    (now.getLsbD slot = true →
      ∃ t, s.restorePage pid p slot agent va = (t, .ok) ∧ becomes t none (now &&& ~~~bit) ∧ SameMemBut l.key 16 s t) ∧
    (recs = [] → now.getLsbD slot = false →
      s.restorePage pid p slot agent va = (s, .ok) ∧ s.releasePage pid p slot agent va = (s, .ok)) ∧
    (∀ r, recs = [r] → now.getLsbD slot = false →
      let mask : BitVec 64 := BitVec.ofNat 64 (s.readNat (r + 16) 8) &&& ~~~bit
      ∃ t u, s.releasePage pid p slot agent va = (t, .ok) ∧ SameMemBut (r + 16) 8 s u ∧ u.readNat (r + 16) 8 = mask.toNat ∧
        t = if mask = 0 then u.post pid p 17 (s.readNat (r + 8) 8) slot agent else u) ∧
    (∀ r rs f, recs = r :: rs → now.getLsbD slot = false → apart → f = s.readNat (r + 8) 8 → f < 2 ^ 52 → f % 512 = 0 → now ≠ 0 →
      let slotTo := (x.freeLog s pid).getD r
      let mask : BitVec 64 := BitVec.ofNat 64 (s.readNat (r + 16) 8) &&& ~~~bit
      ∃ t, s.restorePage pid p slot agent va = (t, .ok) ∧ becomes t (some f) mask ∧
        (slotTo ≠ r → t.readNat (r + 16) 8 = 0) ∧ t.readNat slotTo 8 = va ∧ t.readNat (slotTo + 8) 8 = pteAddr l.word ∧
        t.readNat (slotTo + 16) 8 = now.toNat ∧
        ∀ k, ¬(l.key ≤ k ∧ k < l.key + 16) → ¬(r + 16 ≤ k ∧ k < r + 24) → ¬(slotTo ≤ k ∧ k < slotTo + 24) → t.readByte k = s.readByte k) ∧
    (∀ r rs f, recs = r :: rs → now = 0 → f = s.readNat (r + 8) 8 → f < 2 ^ 52 → f % 512 = 0 →
      let mask : BitVec 64 := BitVec.ofNat 64 (s.readNat (r + 16) 8) &&& ~~~bit
      ∃ t u, s.restorePage pid p slot agent va = (t, .ok) ∧ SameMemBut (r + 16) 8 s u ∧ u.readNat (r + 16) 8 = 0 ∧
        SameMemBut l.key 16 (u.post pid p 17 (pteAddr l.word) 255 agent) t ∧
        (let e : BitVec 128 := BitVec.ofNat 128 (t.readNat l.key 16)
         pteAddr e = f ∧ pteHeld e = mask ∧ pteCow e = decide (mask ≠ 0))))) ∧
  (∀ (s : State) (ga gl : GNum) (p : Nat) (x : Part), s.myPart = some (p, x) →
  let pid := s.cur.id.pid
  let base := (s.rg ga).toNat
  let l := s.rg gl
  let len := l.toNat / 2 ^ 16
  let slot := l.toNat % 2 ^ 6
  let r := x.slot slot
  let held : Option SnapSlot := some { state := .held, base := base, len := len * 65536 }
  let taking := s.setSlot pid p slot (some { state := .taking, base := base, len := len * 65536 })
  let ending := s.setSlot pid p slot (some { r with state := .ending })
  let page (i : Nat) : Nat := base + 65536 * i
  let going (opc : Nat) : Bool := s.me.prog.getLsbD 63 && s.me.prog.toNat / 2 ^ 48 % 2 ^ 8 = opc
  let at_ (opc : Nat) : Nat × Nat := if going opc then (s.me.prog.toNat / 2 ^ 46 % 4, s.me.prog.toNat % 2 ^ 46) else (0, 0)
  let word (opc pass i : Nat) : Word := BitVec.ofNat 64 (2 ^ 63 + opc * 2 ^ 48 + pass * 2 ^ 46 + i)
  let ends (o : Out) (u : State) (slots : NMap SnapSlot) : Prop :=
    ∃ t, o = .next t ∧ SameMem u t ∧ t.net = s.net ∧ GoesOn s t true ∧ t.me = { s.me with prog := 0 } ∧
      (∀ id, placeOf id ≠ placeOf s.cur.id → t.ctx id = s.ctx id) ∧ (t.part pid p).map (·.slots) = some slots
  let stops (o : Out) (u : State) (w : Word) : Prop :=
    ∃ t, o = .next t ∧ SameMem u t ∧ t.latch = { s.latch with hold := true, keep := true } ∧ t.me = { s.me with prog := w } ∧
      t.part pid p = u.part pid p
  let refuses (o : Out) (reason info : Nat) (sl : Option (NMap SnapSlot)) : Prop :=
    ∃ t, o = .next t ∧ SameMem s t ∧ t.net = s.net ∧ t.latch.trap = some (11, BitVec.ofNat 64 (info * 2 ^ 32 + reason)) ∧
      t.me = { s.me with prog := 0 }.enter 11 (BitVec.ofNat 64 (info * 2 ^ 32 + reason)) s.cur.addr ∧
      (t.part pid p).map (·.slots) = sl
  let slotsOf (u : State) : NMap SnapSlot := ((u.part pid p).map (·.slots)).getD []
  let check (i : Nat) (u : State) := (u, u.snapCheck pid p (page i))
  let snapAt (i : Nat) (u : State) := u.snapPage pid p slot (page i)
  let agent := s.agentOf s.cur.id
  let cow (opr : Bool) (i : Nat) (u : State) :=
    if opr then u.restorePage pid p slot agent (page i) else u.releasePage pid p slot agent (page i)
  let op (opr : Bool) : Instr := if opr then .pgCowRestore ga gl else .pgCowRelease ga gl
  let o := exec (.pgSnap ga gl) s
  (opBad (s.rg ga) l true = none → r.state = .free ∨ r.state = .taking →
    (∀ d u v, at_ 0x63 = (0, d) → d ≤ len → s.longLimit = none → pageRun check (len - d) d taking = (u, len, .ok) →
      pageRun snapAt len 0 u = (v, len, .ok) → ends o v ((slotsOf v).put slot held)) ∧
    (∀ d u, at_ 0x63 = (1, d) → d ≤ len → s.longLimit = none → pageRun snapAt (len - d) d taking = (u, len, .ok) →
      ends o u ((slotsOf u).put slot held)) ∧
    (∀ d u k i, at_ 0x63 = (0, d) → s.longLimit = some k → k < len - d → pageRun check k d taking = (u, i, .ok) →
      stops o u (word 0x63 0 i)) ∧
    (∀ d u v k i, at_ 0x63 = (0, d) → d ≤ len → s.longLimit = some k → len - d ≤ k → k - (len - d) < len →
      pageRun check (len - d) d taking = (u, len, .ok) → pageRun snapAt (k - (len - d)) 0 u = (v, i, .ok) → stops o v (word 0x63 1 i)) ∧
    (∀ d u k i, at_ 0x63 = (1, d) → s.longLimit = some k → k < len - d → pageRun snapAt k d taking = (u, i, .ok) →
      stops o u (word 0x63 1 i)) ∧
    (∀ d u i, at_ 0x63 = (0, d) → s.longLimit = none → pageRun check (len - d) d taking = (u, i, .waits) → stops o u (word 0x63 0 i)) ∧
    (∀ d u i, at_ 0x63 = (1, d) → s.longLimit = none → pageRun snapAt (len - d) d taking = (u, i, .waits) → stops o u (word 0x63 1 i)) ∧
    (∀ d u i va, at_ 0x63 = (0, d) → s.longLimit = none → pageRun check (len - d) d taking = (u, i, .large va) →
      refuses o 4 (va / 65536 % 2 ^ 32) (some ((slotsOf taking).put slot none)))) ∧
  (opBad (s.rg ga) l true = none → r.state = .held ∨ r.state = .ending → refuses o 5 slot (some x.slots)) ∧
  (∀ opr : Bool, opBad (s.rg ga) l false = none →
    (r.state = .held ∨ r.state = .ending → (going 0x64 = true ∨ (r.base = base ∧ r.len = len * 65536)) →
      let d := if (at_ 0x64).1 = 1 then (at_ 0x64).2 else 0
      (∀ u, d ≤ len → s.longLimit = none → pageRun (cow opr) (len - d) d ending = (u, len, .ok) →
        let v := u.releaseLog pid p slot agent
        ends (exec (op opr) s) v ((slotsOf v).put slot none)) ∧
      (∀ u k i, s.longLimit = some k → k < len - d → pageRun (cow opr) k d ending = (u, i, .ok) →
        stops (exec (op opr) s) u (word 0x64 1 i)) ∧
      (∀ u i, s.longLimit = none → pageRun (cow opr) (len - d) d ending = (u, i, .waits) → stops (exec (op opr) s) u (word 0x64 1 i))) ∧
    (r.state = .free ∨ r.state = .taking → refuses (exec (op opr) s) 5 slot (some x.slots)) ∧
    (r.state = .held ∨ r.state = .ending → going 0x64 = false → r.base ≠ base ∨ r.len ≠ len * 65536 →
      refuses (exec (op opr) s) 6 slot (some x.slots))))

/-- R339, R365, R366: `pg.blk` sets or clears BLK of the valid leaf of its address, in the table and in every cached copy, the entry's other
fields as software left them; setting sets it at once, and then waits for the writes translated before (log entry 103, DEDUCED). `pg.mig` on a
blocked 64 KiB page moves its bytes to an owned frame of its partition, once every access translated to the old frame has been performed, and
makes the entry name it. -/
def Obligations.PageInstructions : Prop := ∀ (s : State) (ga gf : GNum) (p : Nat) (x : Part) (l : Leaf),
  s.memOk → s.myPart = some (p, x) → (s.rg ga).toNat < 2 ^ 57 → s.walk s.cur.id.pid p (s.rg ga).toNat = .ok l →
  s.lineAt s.cur.id.pid (keyPa l.key) 16 = .clear →
  let pid := s.cur.id.pid
  let sets (i : Instr) (b goes : Bool) : Prop :=
    ∃ t, exec i s = .next t ∧ SameMemBut l.key 16 s t ∧ (∀ id, t.ctx id = s.ctx id) ∧ t.net = s.net ∧
      (goes = true → GoesOn s t true) ∧ (goes = false → t.latch = { s.latch with hold := true, keep := true }) ∧
      (l.word.getLsbD 60 = b → SameMem s t ∧ t.pkgs = s.pkgs) ∧
      (l.word.getLsbD 60 ≠ b →
        (∀ j, j < 128 → (BitVec.ofNat 128 (t.readNat l.key 16)).getLsbD j =
          if j = 60 then b else (BitVec.ofNat 128 (s.readNat l.key 16)).getLsbD j) ∧
        (∀ e ∈ (t.pkg pid).tlb, e.key = l.key → e.word.getLsbD 60 = b))
  sets (.pgBlkSet ga) true (s.latch.passed || !s.writesOut pid (pteAddr l.word) l.size) ∧
  sets (.pgBlkClear ga) false true ∧
  (let f := (s.rg gf).toNat
   let old := memKey pid (pteAddr l.word)
   ∀ n, (s.rg ga).toNat % 65536 = 0 → l.size = 65536 → pteBlk l.word = true → f % 65536 = 0 → x.owns f 65536 = true → locOf f = some n →
    f ≠ pteAddr l.word → l.frameOk x = true → progMatches s.me.prog 0x66 = false → s.longLimit = none →
    (n ≠ 2 ∨ pteLoc l.word = 2 ∨ pteHeld l.word = 0) → s.writesOut pid (pteAddr l.word) 65536 = false →
    s.accessesOut pid (pteAddr l.word) 65536 true = false →
    meets l.key 16 old 65536 = false → meets l.key 16 (memKey pid f) 65536 = false →
    ∃ t, exec (.pgMig ga gf) s = .next t ∧ GoesOn s t true ∧ t.me = { s.me with prog := 0 } ∧ t.net = s.net ∧
      (∀ id, placeOf id ≠ placeOf s.cur.id → t.ctx id = s.ctx id) ∧
      (∀ j, j < 65536 → t.readByte (memKey pid f + j) = s.readByte (old + j)) ∧
      pteAddr (BitVec.ofNat 128 (t.readNat l.key 16)) = f ∧ pteLoc (BitVec.ofNat 128 (t.readNat l.key 16)) = n ∧
      (∀ k, ¬(l.key ≤ k ∧ k < l.key + 16) → ¬(memKey pid f ≤ k ∧ k < memKey pid f + 65536) → t.readByte k = s.readByte k))

/-- R367, R368, R408, R409: `part.int` with a vector of the partition waits for the context's earlier accesses, writes the payload word and sends
(or, masked, leaves pending) the MSI-X entry; `ctx.park` and `ctx.unpark` set and clear the mark of another context of the partition; `ifr.rd`
reads a word of an in-flight record entry, as it stood when its bundle issued, after 2 pipeline cycles, `ifr.wr` writes ABANDON of a STOPPED one.
-/
def Obligations.InterruptParkRecord : Prop := ∀ (s : State) (g h : GNum) (p : Nat) (x : Part), s.myPart = some (p, x) →
  let pid := s.cur.id.pid
  let v := (s.rg g).toNat
  let m := ((s.pkg pid).msix.get (x.vecbase + v)).getD {}
  let id : CtxId := ⟨pid, v / 4 % 1024, v % 4⟩
  let e : CtxId := ⟨pid, (s.rg h).toNat / 2 ^ 14 % 2 ^ 10, (s.rg h).toNat / 2 ^ 12 % 4⟩
  let i := (s.rg h).toNat / 2 ^ 3 % 2 ^ 6
  let n := (s.rg h).toNat % 8
  let selOk : Prop := (s.rg h).toNat < 2 ^ 24 ∧ (s.rg h).toNat / 2 ^ 9 % 8 = 0 ∧ s.partOfCore pid e.core = some p ∧ s.resident e = true
  let early : Bool := s.me.storesOut s.cur.issue || !s.me.loadsDone || s.nearOut s.cur.id
  (v < x.nvec → early = true → s.latch.passed = false → Waits s (exec (.partInt g h) s)) ∧
  (v < x.nvec → early = false →
    ∃ t, exec (.partInt g h) s = .next t ∧ SameMem s t ∧ (∀ id, t.ctx id = s.ctx id) ∧ t.net = s.net ∧ GoesOn s t true ∧
      (t.pkg pid).ctl.get ((0x20000 + p * 0x100 + 8 * v) / 8) = some (s.rg h) ∧
      (t.pkg pid).msix.get (x.vecbase + v) = some (if m.masked then { m with pending := true } else { m with sent := m.sent + 1 })) ∧
  (x.nvec ≤ v → Traps s (exec (.partInt g h) s) 11 (BitVec.ofNat 64 (1 * 2 ^ 32 + 1))) ∧
  (v < 4096 → s.partOfCore pid id.core = some p → placeOf id ≠ placeOf s.cur.id →
    (s.stateCode id < 4 → ∃ t, exec (.ctxPark g) s = .next t ∧ SameMem s t ∧ t.net = s.net ∧ t.pkgs = s.pkgs ∧ GoesOn s t true ∧
      (∀ j, t.ctx j = if placeOf j = placeOf id then { s.ctx id with parkMark := true } else s.ctx j)) ∧
    (4 ≤ s.stateCode id → exec (.ctxPark g) s = .next { s with latch := { s.latch with blocking := true } }) ∧
    (s.resident id = false → exec (.ctxUnpark g) s = .next { s with latch := { s.latch with blocking := true } }) ∧
    (s.resident id = true → ∃ t, exec (.ctxUnpark g) s = .next t ∧ SameMem s t ∧ t.net = s.net ∧ t.pkgs = s.pkgs ∧
      GoesOn s t true ∧ (∀ j, t.ctx j = if placeOf j = placeOf id then { s.ctx id with parkMark := false } else s.ctx j))) ∧
  (v < 4096 → s.partOfCore pid id.core ≠ some p → Traps s (exec (.ctxPark g) s) 11 (BitVec.ofNat 64 (v * 2 ^ 32 + 10)) ∧
    Traps s (exec (.ctxUnpark g) s) 11 (BitVec.ofNat 64 (v * 2 ^ 32 + 10))) ∧
  (selOk → Lands s (exec (.ifrRd g h) s) 2 (SetsG g (s.latch.record.getD ((s.entry e i).word n))) ∧
    (n = 0 → ∃ t, exec (.ifrWr g h) s = .next t ∧ SameMem s t ∧ t.net = s.net ∧ t.pkgs = s.pkgs ∧ t.latch = s.latch ∧
      t.entry e i = (if (s.entry e i).state = .stopped then { s.entry e i with abandon := (s.rg g).getLsbD 39 } else s.entry e i) ∧
      (∀ j, j % 64 ≠ i → t.entry e j = s.entry e j) ∧ (∀ j, placeOf j ≠ placeOf e → t.ctx j = s.ctx j)))

/-! ### The matrix engines and slot M -/

/-- R128, R132, R134, R135, R139, R140, R143, R145: a queued instruction whose engine has a free entry and whose checks pass puts one entry
at the end of its engine's queue, with the active configuration, the bank format registers and its offsets as they stand at issue,
and sets the context's priority where it carries one; `mma.g` latches its index vector, `mout` its descriptor and the stochastic
states, which advance for the rows that round stochastically (only for those: log 66, DEDUCED). No register, no tile and no byte of
memory changes. With eight entries that have not completed the bundle waits, as while a near store of the context's is still to be
performed (R147; log 63, DEDUCED).
R134: the checks come in the order of the rule and the first that fails traps `MOPERAND`: an active configuration that holds no legal pair
(reason CONFIG, 7, whose OPND and OFF 0 are log 94, DESIGN CHOICE) before all else, then an operand that is not aligned (ALIGN, 5), then bytes
above the scratchpad (RANGE, 1). -/
def Obligations.MatrixQueue : Prop :=
  (∀ (s : State) (eng : BitVec 1) (td : TNum) (aA aB aI : ANum) (ks : BitVec 6) (pri : BitVec 2)
    (acc : Bool) (d : BitVec 3), s.latch.trap = none → s.latch.hold = false →
  let x := s.myCore.live.engine eng.toNat
  let now := s.myCore.pcyc
  let key (off : Nat) : Nat := spadKey s.cur.id.pid s.cur.id.core off
  let entry (op : MOp) (offA offB units : Nat) : MEntry :=
    { op := op, ctx := s.cur.id.ctx % 4, td := td.toNat, cfg := x.active, offA := offA, offB := offB, idx := [], units := units,
      done := 0, startAt := now + 8, order := x.next, bf := s.myCore.live.bf, desc := [], sr := [], sat8 := s.me.sat8,
      addr := s.cur.addr, level := s.me.level, issue := s.cur.issue, doneAt := none }
  let full : Prop := 8 ≤ (x.queue.filter (fun e => match e.doneAt with
    | some c => now < c
    | none => true)).length ∨ s.nearOut s.cur.id = true
  let queued (i : Instr) (e : MEntry) (p : Option (BitVec 2)) (c : Ctx) : Prop :=
    ∃ t, exec i s = .next t ∧
      SetsEngine eng.toNat { x with
        queue := x.queue ++ [e], next := x.next + 1
        pri := (match p with
          | some q => x.pri.set (s.cur.id.ctx % 4) q (Nat.mod_lt _ (by decide))
          | none => x.pri) } s t ∧
      { t.me with heard := s.me.heard, err := s.me.err } = c
  let A := (s.ra aA).toNat % 2 ^ 20
  let B := (s.ra aB).toNat % 2 ^ 20
  let I := (s.ra aI).toNat % 2 ^ 20
  let D := x.active.toNat / 2 ^ 44 % 2 ^ 16 * 16 + 32 * d.toNat
  let vec := s.readData (key I) 128
  let eMma := entry (.mma acc) A B (ks.toNat + 1)
  let eG : MEntry := { entry (.mmaG acc) A B (ks.toNat + 1) with idx := (List.range 64).map (fun i => bytesAt vec (2 * i) 2) }
  let eOut0 : MEntry := { entry .mout A 0 8 with desc := s.readData (key D) 32 }
  let srRows := (List.range 64).filter (fun i => bfRm (bankOf s.myCore.live.bf (A + i * descOstr eOut0.desc)) = 5)
  let eOut : MEntry := { eOut0 with sr := if srRows = [] then [] else s.me.sr.toList }
  let draws (l : Nat) : Nat := (srRows.filter (fun i => i % 2 = l / 128)).length
  (full → Waits s (exec (.mma eng td aA aB ks pri acc) s) ∧ Waits s (exec (.mmaG eng td aA aB aI ks pri acc) s) ∧
    Waits s (exec (.mzero eng td) s) ∧ Waits s (exec (.minit eng td aA) s) ∧ Waits s (exec (.mout eng td aA d pri) s)) ∧
  (¬full → eMma.check 0 0 = none → queued (.mma eng td aA aB ks pri acc) eMma (some pri) s.me) ∧
  (¬full → eG.check I 0 = none → s.raceCheck ⟨s.cur.id, false⟩ s.me.racedet false (key I) 128 = none →
    queued (.mmaG eng td aA aB aI ks pri acc) eG (some pri) s.me) ∧
  (¬full → queued (.mzero eng td) (entry .mzero 0 0 8) none s.me) ∧
  (¬full → A % 4 = 0 → A + 32768 ≤ 2 ^ 20 → queued (.minit eng td aA) (entry .minit A 0 8) none s.me) ∧
  (¬full → eOut.check 0 D = none → s.raceCheck ⟨s.cur.id, false⟩ s.me.racedet false (key D) 32 = none →
    queued (.mout eng td aA d pri) eOut (some pri)
      { s.me with sr := Vector.ofFn (fun l => drawN (draws l.val) s.me.sr[l]) })) ∧
  (∀ (s : State) (eng : BitVec 1) (td : TNum) (aA aB aI : ANum) (ks : BitVec 6) (pri : BitVec 2)
    (acc : Bool) (d : BitVec 3),
  let x := s.myCore.live.engine eng.toNat
  let A := (s.ra aA).toNat % 2 ^ 20
  let B := (s.ra aB).toNat % 2 ^ 20
  let v (reason opnd off : Nat) : Word := BitVec.ofNat 64 (reason * 2 ^ 24 + opnd * 2 ^ 20 + off)
  (x.queue.filter (fun e => match e.doneAt with
    | some c => s.myCore.pcyc < c
    | none => true)).length < 8 → s.nearOut s.cur.id = false →
  (cfgPair x.active = none →
    Traps s (exec (.mma eng td aA aB ks pri acc) s) 10 (v 7 0 0) ∧ Traps s (exec (.mmaG eng td aA aB aI ks pri acc) s) 10 (v 7 0 0) ∧
    Traps s (exec (.mout eng td aA d pri) s) 10 (v 7 0 0)) ∧
  (cfgPair x.active ≠ none → A % 4 ≠ 0 → Traps s (exec (.mma eng td aA aB ks pri acc) s) 10 (v 5 0 A)) ∧
  (cfgPair x.active ≠ none → A % 4 = 0 → B % 4 ≠ 0 → Traps s (exec (.mma eng td aA aB ks pri acc) s) 10 (v 5 1 B)) ∧
  (A % 4 ≠ 0 → Traps s (exec (.minit eng td aA) s) 10 (v 5 3 A)) ∧
  (A % 4 = 0 → 2 ^ 20 < A + 32768 → Traps s (exec (.minit eng td aA) s) 10 (v 1 3 A)))

/-- R131, R132, R145, R146: `mcfg` sets the shadow configuration and `mdrain` makes it the active one (what stood before is kept for the
bundles of the same cycle, R34); a value with bits 63:60 set, a pair
outside the table or a table offset above the scratchpad raises `ILLEGAL` (FIELD). `mprio` sets the context's priority. `mpoll`
gives whether no earlier queued instruction of the context is unfinished on the engine, after 2 pipeline cycles, and `mwait` waits
while one is. -/
def Obligations.MatrixControl : Prop := ∀ (s : State) (eng : BitVec 1) (aA : ANum) (pri : BitVec 2) (pd : PNum),
  let x := s.myCore.live.engine eng.toNat
  let w := s.ra aA
  let legal : Prop := w.toNat / 2 ^ 60 = 0 ∧ (pairOf (w.toNat % 16) (w.toNat / 16 % 16)).isSome ∧ w.toNat / 2 ^ 44 % 2 ^ 16 ≤ 0xFFF0
  let sets (i : Instr) (y : Engine) : Prop := ∃ t, exec i s = .next t ∧ SetsEngine eng.toNat y s t ∧ t.me = s.me
  let busy : Bool := x.queue.any (fun e => e.ctx = s.cur.id.ctx % 4 && (match e.doneAt with
    | some c => decide (s.myCore.pcyc < c)
    | none => true))
  (legal → sets (.mcfg eng aA) { x with shadow := w }) ∧ (¬legal → Traps s (exec (.mcfg eng aA) s) 1 s.fieldTval) ∧
  sets (.mdrain eng) { x with
    active := x.shadow
    was := some (s.myCore.pcyc, (x.was.filter (fun w => w.1 = s.myCore.pcyc)).elim x.active (·.2)) } ∧
  (∃ t, exec (.mprio eng pri) s = .next t ∧ t.me = s.me ∧
    SetsEngine eng.toNat { x with pri := x.pri.set (s.cur.id.ctx % 4) pri (Nat.mod_lt _ (by decide)) } s t) ∧
  ((∀ y ∈ s.me.traps, ¬(y.cause = 8 ∧ y.entry = eng.toNat)) →
    Lands s (exec (.mpoll eng pd) s) 2 (SetsP pd (!busy)) ∧
    (busy = true → Waits s (exec (.mwait eng) s)) ∧
    (busy = false → ∃ t, exec (.mwait eng) s = .next t ∧ Quiet s t ∧ GoesOn s t true ∧ t.me = s.me))

/-- R144, R145: MATRIX_UNIT_START gives an idle engine of a running core a progress unit: each context offers its oldest instruction with
units left, once it has started or may start (8 cycles after its issue); the highest priority is taken (a context passed over 64 times
counts above 3), then the earliest issue. The unit lasts one cycle for `mzero`, 8 for `minit` and `mout`, and the pair's k-step
for the others.
R128, R136, R138, R139, R144: MATRIX_UNIT_END, once the unit's cycles are over, makes its effect whole: `mzero` and `minit` set rows 8u
to 8u + 7 of their tile, to zero or from the scratchpad; a k-step of `mma` or `mma.g` adds to each element the products of its row
and column, or replaces it in a first k-step without accumulation: modulo 2^32 for an integer pair, and for a float pair the exact sum
(`KSum`) added to the element and rounded once to F32 (what the roundings are, `RoundingExact` says); row i of `mma.g` is row idx[i] of
A, and a null row adds +0. These change no byte of memory and no other tile. `mout` writes rows 8u to 8u + 7: each element scaled,
biased, activated and rounded once to its row's bank format, and no other byte. Bytes that a store of its own bundle overwrote are read
as they stood before (R147; log 100, DEDUCED).
The instruction has one more unit done, and completes 8 cycles after its last; MATRIX_COMPLETE then takes it out of its queue. -/
def Obligations.MatrixProgress : Prop :=
  (∀ (s : State) (pid core eng : Nat) (e : MEntry),
  let k := s.core pid core
  let x := k.live.engine eng
  let offers (y : MEntry) : Prop := y.ctx < 4 ∧ x.queue.find? (fun z => z.ctx = y.ctx && decide (z.done < z.units)) = some y ∧
    (0 < y.done ∨ y.startAt ≤ k.pcyc)
  let prio (y : MEntry) : Nat := if 64 ≤ x.passed.toList.getD y.ctx 0 then 4 else (x.pri.toList.getD y.ctx 0).toNat
  k.swap = .running → x.running = none → k.live.gatherTaken eng k.pcyc = false → offers e →
  (∀ y, offers y → y = e ∨ prio y < prio e ∨ (prio y = prio e ∧ e.order < y.order)) →
  ∃ t, exec (.matrixUnitStart pid core eng) s = .next t ∧ OnlyCore pid core s t ∧ (∀ i, t.ctx i = s.ctx i) ∧
    (t.core pid core).live.engine (eng + 1) = k.live.engine (eng + 1) ∧
    (let y := (t.core pid core).live.engine eng
     y.running = some (e.order, k.pcyc + (match e.op with
       | .mma _ | .mmaG _ => ((cfgPair e.cfg).map (·.cyc)).getD 48
       | .mzero => 1
       | _ => 8)) ∧
     { y with running := none, passed := x.passed } = x ∧
     (∀ c, (h : c < 4) → (c = e.ctx → y.passed[c] = 0) ∧
       (c ≠ e.ctx → (∃ z, offers z ∧ z.ctx = c) → y.passed[c] = x.passed[c] + 1) ∧
       (c ≠ e.ctx → (∀ z, offers z → z.ctx ≠ c) → y.passed[c] = x.passed[c])))) ∧
  (∀ (s : State) (pid core eng order due : Nat) (e : MEntry),
  let k := s.core pid core
  let x := k.live.engine eng
  let id : CtxId := ⟨pid, core, e.ctx⟩
  let rd (off n : Nat) : List Byte := (s.readData (spadKey pid core off) n).zipIdx.map (fun b =>
    ((e.hidden.find? (fun h => h.1 = off + b.2)).map (·.2)).getD b.1)
  let outside (lo hi : Nat) (t : State) : Prop := ∀ y, ¬(lo ≤ y.1 ∧ y.1 < hi) →
    (y ∈ (t.core pid core).live.tiles ↔ y ∈ k.live.tiles)
  let moved (t : State) : Prop :=
    (t.core pid core).live.engine eng = { x with running := none, queue := x.queue.map (fun y => if y.order = order then
      { y with done := y.done + 1, doneAt := if y.done + 1 = y.units then some (k.pcyc + 8) else none } else y) } ∧
    (t.core pid core).live.engine (eng + 1) = k.live.engine (eng + 1) ∧
    (∀ i, placeOf i ≠ placeOf id → t.ctx i = s.ctx i) ∧ t.net = s.net ∧
    (∀ p c, coreKey p c ≠ coreKey pid core → t.core p c = s.core p c)
  (∃ t, exec (.matrixComplete pid core eng) s = .next t ∧ OnlyCore pid core s t ∧
    (t.core pid core).live.engine eng = { x with queue := x.queue.filter (fun y => match y.doneAt with
      | some c => decide (k.pcyc < c)
      | none => true) } ∧ (t.core pid core).live.engine (eng + 1) = k.live.engine (eng + 1)) ∧
  (x.running = some (order, due) → due ≤ k.pcyc → k.swap = .running → x.queue.find? (fun y => y.order = order) = some e →
    e.td < 8 → e.ctx < 4 →
    (e.op = .mzero → ∃ t, exec (.matrixUnitEnd pid core eng) s = .next t ∧ moved t ∧ SameMem s t ∧ t.ctx id = s.ctx id ∧
      (∀ r, r < 8 → ∀ j, j < 128 → (t.core pid core).live.tile eng e.td (8 * e.done + r) j = 0) ∧
      outside (tileKey eng e.td (8 * e.done) 0) (tileKey eng e.td (8 * e.done + 8) 0) t) ∧
    (e.op = .minit → ∃ t, exec (.matrixUnitEnd pid core eng) s = .next t ∧ moved t ∧ SameMem s t ∧
      (∀ r, r < 8 → ∀ j, j < 128 → (t.core pid core).live.tile eng e.td (8 * e.done + r) j =
        BitVec.ofNat 32 (bytesAt (rd (e.offA + 4096 * e.done) 4096) (512 * r + 4 * j) 4)) ∧
      outside (tileKey eng e.td (8 * e.done) 0) (tileKey eng e.td (8 * e.done + 8) 0) t) ∧
    (∀ acc p, e.op = .mma acc ∨ e.op = .mmaG acc → cfgPair e.cfg = some p →
      let row (i : Nat) : Option Nat := if e.op = .mma acc then some i else (some ((e.idx[i]?).getD 0)).filter (· ≠ 0xFFFF)
      let prev (i j : Nat) : BitVec 32 := if e.done = 0 && !acc then 0 else (k.live.rowOf eng e.td i).getD j 0
      let offA (r : Nat) : Nat := e.offA + e.done * cfgASTR e.cfg + r * p.sa
      let offB (j : Nat) : Nat := e.offB + e.done * cfgBSTR e.cfg + j * p.sb
      ∃ t, exec (.matrixUnitEnd pid core eng) s = .next t ∧ moved t ∧ SameMem s t ∧
        outside (tileKey eng e.td 0 0) (tileKey eng e.td 64 0) t ∧
        (k.live.badTiles = [] → ∀ i, i < 64 → ∀ j, j < 128 →
          let y := (t.core pid core).live.tile eng e.td i j
          if p.int then
            y = prev i j + (match row i with
              | some r => BitVec.ofInt 32 ((((segInts rd (offA r) p.k).zip (segInts rd (offB j) p.k)).map (fun q => q.1 * q.2)).foldl (· + ·) 0)
              | none => 0)
          else ∃ sum : FVal, (match row i with
              | some r => KSum ((segFloats rd e.bf (cfgFA e.cfg) (offA r) p.k).zip (segFloats rd e.bf (cfgFB e.cfg) (offB j) p.k)) sum
              | none => sum = .fin false 0 0) ∧
            y = BitVec.ofNat 32 (roundF (fspec 0) false false 0 0 (faddX 0 (fdecode (fspec 0) (prev i j).toNat) sum).1).1)) ∧
    (e.op = .mout → ∃ t, exec (.matrixUnitEnd pid core eng) s = .next t ∧ moved t ∧ (t.core pid core).live.tiles = k.live.tiles ∧
      (∀ q, (∀ r, r < 8 → ¬(spadKey pid core (e.offA + (8 * e.done + r) * descOstr e.desc) ≤ q ∧
          q < spadKey pid core (e.offA + (8 * e.done + r) * descOstr e.desc) + 128 * e.outBytes)) →
        t.readByte q = s.readByte q) ∧
      ((s.ctx id).racedet = 0 → k.live.badTiles = [] → 128 * e.outBytes ≤ descOstr e.desc → ∀ r, r < 8 → ∀ j, j < 128 →
        let i := 8 * e.done + r
        let bank := bankOf e.bf (e.offA + i * descOstr e.desc)
        let int := ((cfgPair e.cfg).map (·.int)).getD false
        let vec (off : Nat) : FVal := fdecode (fspec 0) (bytesAt (rd off 512) (4 * j) 4)
        let par := fdecode (fspec 0) (descParam e.desc)
        let c : FVal := match par with
          | .fin _ m q => .fin false m q
          | v => v
        let el := (k.live.rowOf eng e.td i).getD j 0
        let x0 : FVal := if int then ofInt false el.toInt 0 else fdecode (fspec 0) el.toNat
        let x1 := if descScen e.desc then (fmulX x0 (vec (descScoff e.desc))).1 else x0
        let x2 := if descBien e.desc then (faddX (bfRm bank) x1 (vec (descBioff e.desc))).1 else x1
        let x3 : FVal := if x2.isNan then x2 else match descAct e.desc with
          | 1 => if x2.neg then .fin false 0 0 else x2
          | 2 => if fcmp x2 c = .gt then c else if fcmp x2 c.negate = .lt then c.negate else x2
          | 3 => if x2.neg && !x2.isZero then (fmulX x2 par).1 else x2
          | _ => x2
        let draw := if bfRm bank = 5 then
            drawN ((e.srRows.filter (fun q => q < i && q % 2 = i % 2)).length + 1) ((e.sr[(128 * i + j) % 256]?).getD 0) else 0
        t.readBytes (spadKey pid core (e.offA + i * descOstr e.desc) + e.outBytes * j) e.outBytes =
          leBytes e.outBytes (roundTo (bfFmt bank) e.sat8 false (bfRm bank) draw x3).1))))

/-! ### Slot E and the quill -/

/-- R197, R215 to R218: `cpy` puts a chain at the end of its queue, with the context's values at issue, and gives a ticket (KIND 1), or with
landing the promised cycle. A head that is not aligned traps `MEMFAULT` (reason 2; ADDR is the offset: log entry 30); a full queue makes it wait.
`cpyq` gives the status of a ticket: done with code 9 for a word that is no ticket and with code 10 for one that is superseded, the kept status
of a retired entry, otherwise 0 (not done). The promise of a landing is the source's Lmin plus one cycle for each 256 bytes (log 11, DESIGN
CHOICE).
R235, R312, R364: `coll`, `hist` and `snap` read their descriptor (64, 32 and 32 bytes at bits 19:0 of `a[ea]`) at issue, take an
in-flight entry of KIND 4, 8 and 1, and give its ticket. The collective is submitted on its queue, its rank words read with the descriptor
(log 94, DESIGN CHOICE), the histogram work at the bay's unit with the release of its scope; a well-formed `snap` is a chain of queue 0,
whose entry reads CLASS 0 (log 108, DEDUCED). Neither memory nor the messages change. -/
def Obligations.QuillCommands : Prop :=
  (∀ (s : State) (land rel acq : Bool) (sc : BitVec 4) (q : BitVec 3) (gd : GNum) (ea : ANum)
    (i : Nat),
  let head := (s.ra ea).toNat % 2 ^ 20
  let old := s.myCore.live.chains
  let n := (old.filter (fun c => c.queue = q.toNat)).length
  let op : Instr := .cpy land rel acq sc q gd ea
  let w := s.rg gd
  let e := s.me.entry (w.toNat % 2 ^ 6)
  let bad : Prop := w.toNat / 2 ^ 32 ≠ 0 ∨ w.toNat / 2 ^ 6 % 2 ^ 6 ≠ 0 ∨ 8 < w.toNat / 2 ^ 12 % 2 ^ 4
  let stale : Prop := e.seq.toNat ≠ w.toNat / 2 ^ 16 % 2 ^ 16 ∨ e.state = .free ∨ e.kind.toNat ≠ w.toNat / 2 ^ 12 % 2 ^ 4
  let reports (x : Word) : Prop := ∃ t, exec (.cpyq gd) s = .next t ∧ Quiet s t ∧ t.latch = s.latch ∧
    SetsG gd x (s.meAt (s.myCore.pcyc + 2)) (t.meAt (s.myCore.pcyc + 2))
  (head % 16 ≠ 0 → Traps s (exec op s) 4 (BitVec.ofNat 64 (2 * 2 ^ 60 + head))) ∧
  (head % 16 = 0 → 16 ≤ n → Waits s (exec op s)) ∧
  (head % 16 = 0 → n < 16 → s.me.freeEntry = some i →
    ∃ t c, exec op s = .next t ∧ SameMem s t ∧ t.net = s.net ∧
      Commanded s t i 1 q.toNat gd (if land then (t.me.entry i).promised else s.newTicket i 1 q.toNat) ∧
      t.myCore.live.chains.length = old.length + 1 ∧ t.myCore.live.chains.getLast? = some c ∧
      (∀ x ∈ old, ¬(x.ctx = c.ctx ∧ x.entry = i ∧ x.seq = c.seq) → x ∈ t.myCore.live.chains) ∧
      c.ctx = s.cur.id.ctx % 4 ∧ c.entry = i ∧ c.queue = q.toNat ∧ c.head = head ∧ c.off = head ∧ c.elem = 0 ∧ c.land = land ∧
      c.kind = .chain ∧ c.bf = s.myCore.live.bf ∧ c.level = s.me.level ∧ c.rel = (if rel then some sc else none) ∧
      c.stopped = false ∧ ((t.me.entry i).landing.isSome = land)) ∧
  (gd ≠ 0 →
    (bad → reports (0x100000009 : Word)) ∧ (¬bad → stale → reports (0x10000000A : Word)) ∧
    (¬bad → ¬stale → e.state ≠ .retired → reports 0) ∧
    (¬bad → ¬stale → e.state = .retired → e.kind ≠ 0 → reports e.status) ∧
    (¬bad → ¬stale → e.state = .retired → e.kind = 0 → reports (0x100000000 : Word)))) ∧
  (∀ (s : State) (rel acq : Bool) (sc : BitVec 4) (q : BitVec 3) (gd : GNum) (ea : ANum) (i : Nat),
  let w := s.ra ea
  let pid := s.cur.id.pid
  let d := s.descBytes w 64
  let e := s.descBytes w 32
  let old := s.myCore.live.chains
  s.me.freeEntry = some i → s.badAt (s.ownKey (w.toNat % 2 ^ 20)) 64 = none → descOk w 64 →
  (∃ t c, exec (.coll rel acq sc q gd ea) s = .next t ∧ SameMem s t ∧ t.net = s.net ∧
    Commanded s t i 4 (8 + q.toNat) gd (s.newTicket i 4 (8 + q.toNat)) ∧
    (t.pkg pid).colls = (s.pkg pid).colls ++ [c] ∧ { t.pkg pid with colls := (s.pkg pid).colls, race := (s.pkg pid).race } = s.pkg pid ∧
    c.desc = d ∧ c.queue = q.toNat ∧ c.field = fieldOf s.cur.id.core ∧ c.src.id = s.cur.id ∧ c.src.entry = i ∧ c.group = none ∧
    c.chunk = 0 ∧
    (bytesAt d 36 2 ≤ 1024 → bytesAt d 32 4 + 4 * bytesAt d 36 2 ≤ 2 ^ 20 → c.ranks = (List.range (bytesAt d 36 2)).map (fun r =>
      leNat (s.readBytes (spadKey pid s.cur.id.core (bytesAt d 32 4 + 4 * r)) 4)))) ∧
  (∃ t h, exec (.hist rel acq sc gd ea) s = .next t ∧ SameMem s t ∧ t.net = s.net ∧
    Commanded s t i 8 0 gd (s.newTicket i 8 0) ∧ (t.pkg pid).hists = (s.pkg pid).hists ++ [h] ∧
    h.desc = e ∧ h.src.id = s.cur.id ∧ h.src.entry = i ∧ h.rel = (if rel then some sc else none)) ∧
  ((old.filter (fun c => c.queue = 0)).length < 16 → snapBad e = none →
    ∃ t c, exec (.snap rel acq sc gd ea) s = .next t ∧ SameMem s t ∧ t.net = s.net ∧
      Commanded s t i 1 0 gd (s.newTicket i 1 0) ∧ t.myCore.live.chains = old ++ [c] ∧ c.queue = 0 ∧ c.entry = i ∧
      c.ctx = s.cur.id.ctx % 4 ∧ (t.me.entry i).cls = 0 ∧ c.rel = (if rel then some sc else none) ∧
      c.kind = .snap (bytesAt e 0 8) (bytesAt e 8 8) (bytesAt e 16 1 % 64) (bytesAt e 16 1 / 64)))

/-- R199, R230, R231, R234: `cmb.open` takes an entry and sends its descriptor to its package's switch die, whose answer is to be the
handle in `g[gd]`; whether the opener may write RESULT is found now (R233), at device level as a physical address (log 106, DEDUCED); no
register changes now. `cmb.close` takes an entry of KIND 5, gives its ticket, and sends the handle to the switch die on channel 0; no
combiner entry changes before it arrives (what it does there, `CombinerEvents` says). -/
def Obligations.CombinerCommands : Prop := ∀ (s : State) (rel acq : Bool) (sc : BitVec 4) (gd : GNum) (ea : ANum) (i : Nat),
  let w := s.ra ea
  let pid := s.cur.id.pid
  let n := s.myCore.pcyc + 1
  let d := s.descBytes w 32
  let ok : Bool := bytesAt d 8 8 = 0 ||
    s.resultOk (s.whoOf s.cur.id) (bytesAt d 8 8) (recordBytes (BitVec.ofNat 32 (bytesAt d 0 4)))
  s.me.freeEntry = some i →
  (s.badAt (s.ownKey (w.toNat % 2 ^ 20)) 32 = none → descOk w 32 →
    ∃ t, exec (.cmbOpen rel acq sc gd ea) s = .next t ∧ SameMem s t ∧ OnlyOp s t ∧ Took s t i 11 0 ∧
      (t.meAt n).arch = (s.meAt n).arch ∧ (t.me.entry i).gdest = some gd ∧
      (t.me.entry i).mayWrite = ok ∧ Sent s t i 0 [.cmbOpen d ok] ∧ (∀ m ∈ t.net.getLast?, m.dst = .die pid)) ∧
  (∃ t, exec (.cmbClose rel acq sc gd) s = .next t ∧ SameMem s t ∧ Commanded s t i 5 0 gd (s.newTicket i 5 0) ∧
    Sent s t i 0 [.cmbClose (s.rg gd)] ∧ (∀ m ∈ t.net.getLast?, m.dst = .die pid) ∧ ∀ p, (t.pkg p).combs = (s.pkg p).combs)

/-- R237 to R240, R278: a well-formed `gcommit` (KIND 6) becomes a commit in SEALING and sends one seal to each of its homes; a
well-formed `gabort` (KIND 7) makes the decision word hold "abort" and sends a discard to each home, unless the word already holds
"commit", which ends it with code 0x24. Both take an entry and give its ticket; a word whose DEC is 0 or 3 counts as undecided (log 107,
DESIGN CHOICE). (`u` is the state in which DECW has been resolved, `v` the
one in which the entry has been taken.) DECW is resolved, and its page copied, before the entry is taken (log 73, DEDUCED). -/
def Obligations.GroupCommands : Prop := ∀ (s u : State) (rel acq abort : Bool) (sc : BitVec 4) (gd : GNum) (ea : ANum) (i decw : Nat),
  let w := s.ra ea
  let id := s.cur.id
  let nh := bytesAt (s.descBytes w 16) 10 2
  let d := s.descBytes w (16 + 16 * nh)
  let kind := if abort then 7 else 6
  let op : Instr := if abort then .gabort rel acq sc gd ea else .gcommit rel acq sc gd ea
  let v := u.alloc i kind 0 3 (ownVa (spadOff w))
  let homes := (v.gdHomes (v.whoOf id) d).filterMap (fun x => x)
  let group := bytesAt d 8 2
  let epoch := bytesAt d 12 2
  s.me.freeEntry ≠ none → u.me.freeEntry = some i → u.cur = s.cur → 1 ≤ nh → nh ≤ 64 → descOk w (16 + 16 * nh) →
  s.badAt (s.ownKey (w.toNat % 2 ^ 20)) (16 + 16 * nh) = none → s.badAt (s.ownKey (w.toNat % 2 ^ 20)) 16 = none →
  s.decwAt (BitVec.ofNat 64 (bytesAt d 0 8)) = .found u decw →
  u.gdLine (u.whoOf id) d = .clear → u.gdBad id d (some decw) = none → u.memOk →
  ∃ t, exec op s = .next t ∧ (t.me.entry i).state = .outstanding ∧ (t.me.entry i).kind.toNat = kind ∧
    (t.meAt (u.myCore.pcyc + 1)).rg gd = (if gd = 0 then 0 else u.newTicket i kind 0) ∧
    (∀ j, placeOf j ≠ placeOf id → t.ctx j = u.ctx j) ∧
    (abort = false → SameMem u t ∧ ∃ c, (t.pkg id.pid).commits = (u.pkg id.pid).commits ++ [c] ∧ c.abort = false ∧
      c.state = .sealing ∧ c.group = group ∧ c.epoch = epoch ∧ c.decw = decw ∧ c.homes.map (·.1) = homes ∧
      (∀ h ∈ c.homes, h.2.2 = .waiting) ∧ ∃ ms : List Msg, t.net = u.net ++ ms ∧ ms.map (·.dst) = homes ∧
      ∀ m ∈ ms, ∃ n tmo, m.body = .sealMsg c.id id.pid group epoch n decw tmo) ∧
    (abort = true → SameMemBut (memKey id.pid decw) 8 u t ∧
      (decisionOf (u.readNat (memKey id.pid decw) 8) group epoch = some true → (t.pkg id.pid).commits = (u.pkg id.pid).commits ∧
        ∃ m : Msg, t.net = u.net ++ [m] ∧ m.body = .resp (.code 0x24 0) none) ∧
      (decisionOf (u.readNat (memKey id.pid decw) 8) group epoch ≠ some true →
        decisionOf (t.readNat (memKey id.pid decw) 8) group epoch = some false ∧
        ∃ c, (t.pkg id.pid).commits = (u.pkg id.pid).commits ++ [c] ∧ c.abort = true ∧ c.state = .discarding ∧ c.code = 0x23 ∧
          ∃ ms : List Msg, t.net = u.net ++ ms ∧ ms.map (·.dst) = homes ∧ ∀ m ∈ ms, m.body = .decision c.id id.pid group epoch false))

/-- R216, R218, R220, R227: entries that need no message. A chain's unit is performed only where its core runs, nothing holds the chain (an
earlier store of its context still out holds it, R177, and an `ldt`: log 117, DESIGN CHOICE) and its entry is well formed and correctable
(`ready`). `END` retires the in-flight entry with the chain's status and takes the chain out of its queue; `LOOP` goes back to its body, ARG
times counted by a counter of its own, and then past itself; `COND` passes ARG entries over where its condition fails; `WAITFLAG` goes past
itself where its condition holds and otherwise starts its timer of ARG µs; a timer that has run ends the chain with code 6. Memory, messages and
all other chains' contexts are as before. One unit of a queue is under way at a time (log 46, DEDUCED); a fifth active LOOP ends the chain with
FORMAT (log 52, DEDUCED).
R216: QUILL_PROGRESS serves the queues round robin, from the one after the last served. Where the first queue with a chain that can
be served has a well-formed entry to perform, that entry's unit comes next; a well-formed entry that a `COND` passes over is passed
over; where no queue has one, nothing happens. -/
def Obligations.ChainFlow : Prop :=
  (∀ (s u : State) (pid core queue h : Nat) (us : List Nat) (c : Chain) (bs : List Byte),
  let id : CtxId := ⟨pid, core, c.ctx⟩
  let ready (kind : Nat) : Prop := (s.core pid core).swap = .running ∧ s.coreDead pid core = false ∧ c.stopped = false ∧ c.acks = 0 ∧
    c.bad = none ∧ c.skip = 0 ∧ (s.ctx id).storesOut c.issue = false ∧ s.loadsOut c.ident c.issue = false ∧ c.kind = .chain ∧
    s.entryLost id c = false ∧ s.entryBad id c = (none, h, us) ∧
    h % 256 = kind
  let arg := h / 2 ^ 32 % 2 ^ 32
  let v := (us.headD 0) % 2 ^ 64
  let x := leNat bs
  let holds : Prop := match h / 2 ^ 24 % 2 ^ 8 % 4 with
    | 0 => x = v
    | 1 => x ≠ v
    | 2 => v ≤ x
    | _ => x < v
  let next := c.off + 16 + 16 * (h / 2 ^ 12 % 2 ^ 5)
  let t8 : Word := BitVec.ofNat 64 (h / 2 ^ 64 % 2 ^ 64)
  let chains (b t : State) (d : Chain) : Prop :=
    (t.core pid core).live.chains = (b.core pid core).live.chains.map (fun x => if x.same c then d else x)
  let goes (i : Instr) (b : State) (d : Chain) : Prop := ∃ t, exec i s = .next t ∧ chains b t d ∧ SameMem b t ∧
    t.net = b.net ∧ ∀ j, placeOf j ≠ placeOf id → t.ctx j = b.ctx j
  let plain (d : Chain) (off : Nat) : Chain := { d with
    off := off, elem := 0, unit := 0, banks := if d.land then d.banks else [], timer := none, ahead := [], wait := false, got := none }
  let over_ (d : Chain) : Chain := if d.land then d else { d with undo := none }
  s.headChain pid core queue = some c → c.ctx < 4 →
  (ready 12 → c.land = false → ∃ t, exec (.chainEnd pid core queue) s = .next t ∧ SameMem s t ∧ t.net = s.net ∧
    ((t.ctx id).entry c.entry).state = .retired ∧
    ((t.ctx id).entry c.entry).status = statusWord (c.off / 16) c.fl 0 0 ∧
    ∀ y ∈ (t.core pid core).live.chains, ¬(y.ctx = c.ctx ∧ y.entry = c.entry ∧ y.seq = c.seq)) ∧
  (ready 9 → ∀ n, (c.loops.find? (fun l => l.1 = c.off)).map (·.2) = some n ∨
      (c.loops.find? (fun l => l.1 = c.off) = none ∧ c.loops.length < 4 ∧ n = arg) →
    (n = 0 → goes (.chainLoop pid core queue) s { plain c next with loops := c.loops.filter (fun l => l.1 ≠ c.off) }) ∧
    (∀ k, n = k + 1 → (c.off + h / 2 ^ 64 % 2 ^ 64) % 2 ^ 64 < 2 ^ 20 →
      goes (.chainLoop pid core queue) s { plain c ((c.off + h / 2 ^ 64 % 2 ^ 64) % 2 ^ 64) with
        loops := c.loops.filter (fun l => l.1 ≠ c.off) ++ [(c.off, k)] })) ∧
  (ready 10 → t8.toNat % 8 = 0 → s.chainRead id c t8 8 = (u, .ok bs) →
    (holds → goes (.chainCond pid core queue) u (over_ (plain c next))) ∧
    (¬holds → goes (.chainCond pid core queue) u (over_ { plain c next with skip := arg }))) ∧
  (ready 11 → t8.toNat % 8 = 0 → s.chainRead id { c with race := 0 } t8 8 = (u, .ok bs) →
    (holds → c.race = 0 → goes (.chainWaitflag pid core queue) u (over_ (plain c next))) ∧
    (¬holds → c.unit = 0 → goes (.chainWaitflag pid core queue) u (over_ { c with
      timer := if arg = 0 then none else if c.timer.isSome then c.timer else some (arg * Config.cyclesPerMicrosecond) }))) ∧
  (c.timer = some 0 → c.stopped = false → c.land = false → (s.core pid core).swap = .running →
    ∃ t, exec (.waitflagTimeout pid core queue) s = .next t ∧ ((t.ctx id).entry c.entry).state = .retired ∧
      ((t.ctx id).entry c.entry).status = statusWord (c.off / 16) c.fl 0 6 ∧ SameMem s t ∧
      ∀ y ∈ (t.core pid core).live.chains, ¬(y.ctx = c.ctx ∧ y.entry = c.entry ∧ y.seq = c.seq))) ∧
  (∀ (s : State) (pid core q : Nat) (c : Chain) (h : Nat) (us : List Nat),
  let k := s.core pid core
  let id : CtxId := ⟨pid, core, c.ctx⟩
  let can (j : Nat) : Prop := ∃ d, s.headChain pid core j = some d ∧ d.stopped = false ∧ d.acks = 0 ∧ d.timer ≠ some 0 ∧
    (s.ctx ⟨pid, core, d.ctx⟩).storesOut d.issue = false ∧ s.loadsOut d.ident d.issue = false
  s.leftStopped pid core = none → k.swap = .running → s.coreDead pid core = false →
  ((∀ j, j < 8 → ¬can j) → exec (.quillProgress pid core) s = .next s) ∧
  (∀ i, i < 8 → q = (k.quillTurn + i) % 8 → (∀ j, j < i → ¬can ((k.quillTurn + j) % 8)) → s.headChain pid core q = some c → can q →
    c.bad = none → c.kind = .chain → c.land = false → c.unit = 0 → c.got = none → c.ctx < 4 → s.entryLost id c = false →
      s.entryBad id c = (none, h, us) →
    (c.skip = 0 → ∃ t, exec (.quillProgress pid core) s = .next t ∧ SameMem s t ∧ t.net = s.net ∧
      t.agenda = entryEvent pid core c.queue (h % 256) :: s.agenda ∧ (t.core pid core).quillTurn = (q + 1) % 8 ∧
      { t.core pid core with quillTurn := k.quillTurn } = k) ∧
    (0 < c.skip → h % 256 ≠ 12 → ∃ t, exec (.quillProgress pid core) s = .next t ∧ SameMem s t ∧ t.net = s.net ∧ t.agenda = s.agenda ∧
      (t.core pid core).quillTurn = (q + 1) % 8 ∧
      (t.core pid core).live.chains = k.live.chains.map (fun x => if x.same c then { c with
        off := c.off + 16 + 16 * (h / 2 ^ 12 % 2 ^ 5), elem := 0, banks := [], timer := none, ahead := [], wait := false
        skip := c.skip - 1 } else x))))

/-- R78, R83, R164, R174, R177, R179, R222 to R227: entries that write or send. Where nothing holds the chain and no earlier message of its entry
is unanswered (`ready`): a `COPY` unit, `FLAG`, `SIGNAL` and an `ACCUM` element whose one target piece is at the core's own field are performed
there at once, the chain going on. A `COPY` between ends outside scratchpads or in the own core's reads the aligned 8-byte piece of its source
that holds the unit's last byte whole (R164); raw, it moves the bytes, each as though copied after the ones before it where the ends overlap;
converting (no block format), it converts each element under the destination's mode, with the chain's SAT8 and, under SR, the next state of the
chain's own, and ORs the flags (what a conversion gives, `CompareConvertExact` says). Every operation and type of `ACCUM` gives R223's new value;
a fetching one then writes the old value at RET. `REDUCE`, `MCAST`, `ARRIVE` and `GSTORE` send their message on the channel of the queue and wait
for its answer with one more acknowledgement outstanding. One unit of a queue is under way at a time, and reads are made at once (log 46,
DEDUCED); overlapping ends are copied as R222's one element at a time, each aligned 8-byte piece read once (log 48, DEDUCED); a converting copy
draws for every element (log 23, DEDUCED). -/
def Obligations.ChainData : Prop := ∀ (s u v w : State) (pid core queue h : Nat) (us : List Nat) (c : Chain) (cs bs : List Byte)
    (tp ta : Nat),
  let id : CtxId := ⟨pid, core, c.ctx⟩
  let ready (kind : Nat) : Prop := (s.core pid core).swap = .running ∧ s.coreDead pid core = false ∧ c.stopped = false ∧ c.acks = 0 ∧
    c.bad = none ∧ c.skip = 0 ∧ (s.ctx id).storesOut c.issue = false ∧ s.loadsOut c.ident c.issue = false ∧ c.kind = .chain ∧
    s.entryLost id c = false ∧ s.entryBad id c = (none, h, us) ∧
    h % 256 = kind ∧ c.unit = 0 ∧ c.land = false ∧ c.ahead = []
  let arg := h / 2 ^ 32 % 2 ^ 32
  let dst := h / 2 ^ 64 % 2 ^ 64
  let t8 : Word := BitVec.ofNat 64 dst
  let y := us.headD 0 % 2 ^ 64
  let ret := us.headD 0 / 2 ^ 64 % 2 ^ 64
  let next := c.off + 16 + 16 * (h / 2 ^ 12 % 2 ^ 5)
  let plain (d : Chain) (off : Nat) : Chain := { d with
    off := off, elem := 0, unit := 0, banks := if d.land then d.banks else [], timer := none, ahead := [], wait := false, got := none }
  let over_ (d : Chain) : Chain := if d.land then d else { d with undo := none }
  let step (d : Chain) (n total : Nat) : Chain :=
    if d.elem + n < total then { d with elem := d.elem + n, unit := 0, wait := false, got := none } else plain d next
  let chains (b t : State) (d : Chain) : Prop :=
    (t.core pid core).live.chains = (b.core pid core).live.chains.map (fun x => if x.same c then d else x)
  let near (n : Nat) (v : State) : Prop := nearTo id (homeOf tp ta) = true ∧ regionOf ta ≠ some .ctl ∧ v.memOk ∧
    v.homeLost (homeOf tp ta) = false ∧ v.spadBusy tp ta = false ∧ v.lineAt tp ta n = .clear ∧
    v.raceCheck ⟨id, true⟩ c.race true (memKey tp ta) n = none
  let wrote (i : Instr) (b : State) (new : List Byte) (d : Chain) : Prop := ∃ t, exec i s = .next t ∧
    chains b t (over_ d) ∧ SameMemBut (memKey tp ta) new.length b t ∧ t.net = b.net ∧
    (∀ j, j < new.length → t.readByte (memKey tp ta + j) = new[j]?.getD 0)
  let sent (i : Instr) (b : State) (dst : Home) (m : Body) : Prop := ∃ t x, exec i s = .next t ∧ SameMem b t ∧ t.net = b.net ++ [x] ∧
    x.body = m ∧ x.dst = dst ∧ x.chan = queue ∧ x.src.id = id ∧ x.src.entry = c.entry ∧ x.src.chain = true ∧
    chains b t { c with acks := 1, unit := 1, undo := some { sr := c.sr, draws := c.draws, fl := c.fl, ahead := c.ahead } }
  let accum (o ty z old x cmp : Nat) : Nat × Fl :=
    let float : Bool := ty < 2
    let num (b : Nat) : FVal := fdecode (fspec ty) b
    let int (b : Nat) : Int := if ty < 12 then (BitVec.ofNat (8 * z) b).toInt else b
    match o with
    | 0 | 7 => if float then
        let q := faddX 0 (num old) (num x)
        let r := roundF (fspec ty) false false 0 0 q.1
        (r.1, q.2 ||| r.2) else ((old + x) % 2 ^ (8 * z), 0)
    | 1 => if float then fminmaxBits (fspec ty) false false old x else (if int x < int old then x else old, 0)
    | 2 => if float then fminmaxBits (fspec ty) true false old x else (if int old < int x then x else old, 0)
    | 3 => (old &&& x, 0)
    | 4 => (old ||| x, 0)
    | 5 => (old ^^^ x, 0)
    | 6 => (x, 0)
    | _ => (if old = cmp then x else old, 0)
  let u0 := us.headD 0
  let count := u0 / 2 ^ 64 % 2 ^ 32
  let fmtAt (va : Nat) (has : Bool) (f : Nat) : Option Nat := match spadEnd id c.level va with
    | some (_, o) => some (bfFmt (bankOf c.bf o))
    | none => if has then some f else none
  let fa := fmtAt y (u0.testBit 100) (u0 / 2 ^ 96 % 16)
  let fb := fmtAt dst (u0.testBit 108) (u0 / 2 ^ 104 % 16)
  let fs := (fa.or fb).getD 3
  let fd := (fb.or fa).getD 3
  let rm := match spadEnd id c.level dst with
    | some (_, o) => bfRm (bankOf c.bf o)
    | none => u0 / 2 ^ 109 % 8
  let zs := if fs = fd then 1 else codeBits fs / 8
  let zd := if fs = fd then 1 else codeBits fd / 8
  let n := copyUnit (fs = fd) fs fd y dst count ((spadEnd id c.level dst).map (·.2))
  let k := n * zs + Nat.min ((8 - (y + n * zs) % 8) % 8) ((count - n) * zs)
  let copies : Prop := us.length = 1 ∧ (∀ q o, spadEnd id c.level y = some (q, o) ∨ spadEnd id c.level dst = some (q, o) → q = core) ∧
    s.copyBad id c h us = none ∧ s.chainRead id c (BitVec.ofNat 64 y) k = (u, .ok bs) ∧ bs.length = k ∧
    u.access (u.chainWho id c) .write t8 (n * zd) = (w, .ok [{ dest := .phys tp ta, len := n * zd }]) ∧ near (n * zd) w
  let apart : Prop := ∀ p a q b, s.chainPlace id c .read (BitVec.ofNat 64 y) = some (p, a) → s.chainPlace id c .write t8 = some (q, b) →
    p ≠ q ∨ meets a (n * zs + 8) b (n * zd) = false
  let copied (d : Chain) (ah : List Byte) : Chain := if n < count then { step d n count with ahead := ah } else step d n count
  let drawn (i : Nat) : BitVec 32 := if rm = 5 then drawState (c.sr[(c.draws + i) % 256]'(Nat.mod_lt _ (by decide))) else 0
  let conv (i : Nat) : Nat × Fl := convert fd fs c.sat8 false rm (drawn i) (bytesAt bs (zs * i) zs)
  s.headChain pid core queue = some c → c.ctx < 4 → c.elem = 0 →
  (∀ old z, c.got = some old → ready 2 → (h / 2 ^ 28 % 2 ^ 4, z) ∈ [(0, 4), (1, 2), (10, 4), (11, 8), (14, 4), (15, 8)] →
    s.access (s.chainWho id c) .write (BitVec.ofNat 64 ret) z = (u, .ok [{ dest := .phys tp ta, len := z }]) → near z u →
    wrote (.chainAccum pid core queue) u (leBytes z old) (step c 1 arg)) ∧
  (c.got = none →
  (ready 6 → dst % 8 = 0 → s.access (s.chainWho id c) .write t8 8 = (u, .ok [{ dest := .phys tp ta, len := 8 }]) → near 8 u →
    wrote (.chainFlag pid core queue) u (leBytes 8 y) (plain c next)) ∧
  (ready 8 → dst % 8 = 0 → s.access (s.chainWho id c) .rmw t8 8 = (u, .ok [{ dest := .phys tp ta, len := 8 }]) →
    hostAtomBad tp ta .fetchAdd 15 = false →
    near 8 u → u.badAt (memKey tp ta) 8 = none → wrote (.chainSignal pid core queue) u (leBytes 8 ((leNat (u.readData (memKey tp ta) 8) + y) % 2 ^ 64)) (plain c next)) ∧
  (∀ o ty z, ready 2 → o = h / 2 ^ 24 % 2 ^ 4 → ty = h / 2 ^ 28 % 2 ^ 4 →
    (ty, z) ∈ [(0, 4), (1, 2), (10, 4), (11, 8), (14, 4), (15, 8)] → dst % z = 0 → y % z = 0 → (6 ≤ o → ret % z = 0) →
    s.access (s.chainWho id c) .rmw t8 z = (u, .ok [{ dest := .phys tp ta, len := z }]) → hostAtomBad tp ta (accOpOf o) ty = false →
    (if o = 8 then u.chainRead id c (BitVec.ofNat 64 y) z = (v, .ok cs) else v = u) →
    v.chainRead id c (BitVec.ofNat 64 (if o = 8 then y + z else y)) z = (w, .ok bs) →
    (6 ≤ o → (w.chainReach id c .write (BitVec.ofNat 64 ret) z).2.isOk = true) → near z w → w.badAt (memKey tp ta) z = none →
    let old := leNat (w.readData (memKey tp ta) z)
    let r := accum o ty z old (leNat bs) (leNat cs)
    wrote (.chainAccum pid core queue) w (leBytes z r.1)
      (if 6 ≤ o then { c with fl := c.fl ||| r.2, got := some old } else step { c with fl := c.fl ||| r.2 } 1 arg)) ∧
  (ready 1 → copies → fs = fd → apart → wrote (.chainCopy pid core queue) w (bs.take n) (copied c (bs.drop n))) ∧
  (ready 1 → copies → fs = fd → ∀ p a b, s.chainPlace id c .read (BitVec.ofNat 64 y) = some (p, a) →
    s.chainPlace id c .write t8 = some (p, b) → meets a (n + 8) b n = true →
    ∃ new ah : List Byte, new.length = n ∧ ah.length = k - n ∧
      (∀ j, j < k → (new ++ ah)[j]? = if a < b ∧ b - a ≤ j ∧ j - (b - a) < n then new[j - (b - a)]? else bs[j]?) ∧
      wrote (.chainCopy pid core queue) w new (copied c ah)) ∧
  (ready 1 → copies → fs ≠ fd → isBlock fs = false → isBlock fd = false → apart →
    wrote (.chainCopy pid core queue) w ((List.range n).flatMap (fun i => leBytes zd (conv i).1))
      (copied { c with
        draws := c.draws + n, fl := c.fl ||| orFlags (List.range n) (fun i => (conv i).2)
        sr := Vector.ofFn (fun l => if rm = 5 ∧ (l.val + 256 - c.draws % 256) % 256 < n then drawState c.sr[l] else c.sr[l]) } (bs.drop (n * zs)))) ∧
  (ready 3 → s.combOf t8 = none →
    sent (.chainReduce pid core queue) s (.die (dst / 2 ^ 38 % 2 ^ 10)) (.contrib t8 (arg % 1024) 0 [])) ∧
  (∀ e, ready 3 → s.combOf t8 = some e → us.headD 0 / 2 ^ 64 % 2 ^ 64 = 0 →
    s.chainRead id c (BitVec.ofNat 64 y) (ctlNelem e.ctrl * typeBytes (ctlItype e.ctrl)) = (u, .ok bs) →
    sent (.chainReduce pid core queue) u (.die (dst / 2 ^ 38 % 2 ^ 10)) (.contrib t8 (arg % 1024) 0 bs)) ∧
  (ready 4 → s.ownsMcast id c (arg % 1024) = true →
    s.chainRead id c (BitVec.ofNat 64 y) (us.headD 0 / 2 ^ 64 % 2 ^ 32) = (u, .ok bs) →
    sent (.chainMcast pid core queue) u (.die pid) (.mcast (arg % 1024) dst bs)) ∧
  (∀ q k e, ready 5 → arriveTarget id h = some (q, k, e) →
    sent (.chainArrive pid core queue) s (.field q (fieldOf k)) (.arrive q k (arg % 32) e (BitVec.ofNat 4 (h / 2 ^ 20 % 2 ^ 4)))) ∧
  (ready 7 → s.ownsGroupBy id c (arg % 2 ^ 16) = true →
    (let n := count
     dst / 65536 = (dst + n - 1) / 65536 → s.chainRead id c (BitVec.ofNat 64 y) n = (u, .ok bs) → bs.length = n →
     u.access (u.chainWho id c) .group t8 n = (w, .ok [{ dest := .phys tp ta, len := n }]) →
     regionOf ta = some .vault ∨ regionOf ta = some .hbm →
     sent (.chainGstore pid core queue) w (homeOf tp ta) (.group (.phys tp ta) bs (arg % 2 ^ 16) (arg / 2 ^ 16) n none))))

/-! ### Messages at their homes and answers at their sources -/

/-- R180, R204, R206, R217: a landing. LANDING_ARRIVAL reads the bytes of its next deliverable piece at their home, and once none is left marks
the landing arrived. LANDING_SLOT, from the promised cycle on, puts the 256 bytes of an arrived `ldt` into their register and retires its entry;
for `cpy.land` the held bytes take their values together, and where the chain has ended its entry is retired with them, else the chain goes on
without a landing. A landing not present on time freezes the core (LANDING_FREEZE), until it arrives or its bound has passed: then LATE is
pending with its ticket (LANDING_BOUND_EXPIRY). The bytes are read at their home when LANDING_ARRIVAL is performed, and a call of its own marks
the landing arrived (log 45, DESIGN CHOICE). -/
def Obligations.LandingEvents : Prop := ∀ (s : State) (id : CtxId) (i : Nat) (l : Landing),
  let e := s.entry id i
  let k := s.core id.pid id.core
  let due : Prop := (e.state = .outstanding ∨ e.state = .stopped) ∧ l.base.getD e.promised.toNat ≤ (s.pkg id.pid).cycle.toNat ∧
    k.swap = .running
  let rest (t : State) : Prop := SameMem s t ∧ (∀ j, placeOf j ≠ placeOf id → t.ctx j = s.ctx j) ∧
    (∀ j, j % 64 ≠ i % 64 → (t.ctx id).entry j = (s.ctx id).entry j)
  e.landing = some l →
  (∀ n m pid pa off len c, l.vd.isSome → l.left = c + 1 → e.state = .outstanding → s.resident id = true → s.nextLoad id i = some (n, m) →
    m.body = .load (.phys pid pa) off len → s.homeLost (homeOf pid pa) = false →
    s.spadBusy pid pa = false → s.lineAt pid pa len = .clear → s.badAt (memKey pid pa) len = none →
    regionOf pa ≠ some .ctl →
    ∃ t, exec (.landingArrival id i) s = .next t ∧ rest t ∧ t.net = s.net.eraseIdx n ∧
      ∃ l', (t.entry id i).landing = some l' ∧ l'.left = c ∧ l'.vd = l.vd ∧
        l'.data = l.data ||| (BitVec.ofNat 2048 (leNat (s.readBytes (memKey pid pa) len)) <<< (8 * off))) ∧
  (l.vd.isSome → l.left = 0 → l.arrived = false → e.state = .outstanding → s.resident id = true → (s.ctx id).parkMark = false →
    k.freeze = [] →
    ∃ t, exec (.landingArrival id i) s = .next t ∧ rest t ∧ t.net = s.net ∧ (t.entry id i).landing = some { l with arrived := true }) ∧
  (∀ v, due → l.vd = some v → l.arrived = true →
    ∃ t, exec (.landingSlot id i) s = .next t ∧ rest t ∧ t.net = s.net ∧ (t.ctx id).rv v = l.data ∧
      (∀ q, q ≠ v → (t.ctx id).rv q = (s.ctx id).rv q) ∧ (t.ctx id).g = (s.ctx id).g ∧ (t.ctx id).pc = (s.ctx id).pc ∧
      (t.entry id i).state = .retired) ∧
  (∀ c, due → l.vd = none → l.arrived = true → s.memOk → (c.held.map (·.1)).Nodup → id.ctx < 4 →
    k.live.chains.find? (fun c => c.ctx = id.ctx % 4 && c.entry = i % 64 && c.seq = e.seq && c.land && !c.landed && c.off ≠ c.head) = some c →
    ∃ t, exec (.landingSlot id i) s = .next t ∧ t.net = s.net ∧ (∀ b ∈ c.held, t.readByte b.1 = b.2) ∧
      (∀ q, (∀ b ∈ c.held, b.1 ≠ q) → t.readByte q = s.readByte q) ∧ (id.ctx % 4, i % 64) ∉ (t.core id.pid id.core).freeze ∧
      (c.final = none → (t.entry id i).state = e.state ∧ (t.entry id i).landing = none ∧
        (t.core id.pid id.core).live.chains = k.live.chains.map (fun x => if x.same c then { x with held := [], landed := true } else x)) ∧
      (∀ code d, c.final = some (code, d) → (t.entry id i).state = .retired ∧
        (t.entry id i).status = statusWord (c.off / 16) c.fl d code ∧
        (t.core id.pid id.core).live.chains = k.live.chains.filter (fun x => !x.same c))) ∧
  (due → (s.ctx id).parkMark = false → l.arrived = false → l.late = false →
    (e.bnd ≠ 0 → (id.ctx % 4, i % 64) ∉ k.freeze → ∃ t, exec (.landingFreeze id i) s = .next t ∧ OnlyCore id.pid id.core s t ∧
      { t.core id.pid id.core with freeze := k.freeze } = k ∧ (t.core id.pid id.core).freeze = k.freeze ++ [(id.ctx % 4, i % 64)]) ∧
    (e.bnd = 0 ∨ ((id.ctx % 4, i % 64) ∈ k.freeze ∧ e.bnd.toNat ≤ l.frozen) →
      ∃ t, exec (.landingBoundExpiry id i) s = .next t ∧ rest t ∧ OnlyCore id.pid id.core s t ∧
        (t.entry id i).landing = some { l with late := true } ∧ (id.ctx % 4, i % 64) ∉ (t.core id.pid id.core).freeze ∧
        (let tv : Word := BitVec.ofNat 64 (e.seq.toNat * 2 ^ 16 + e.kind.toNat * 2 ^ 12 + i % 64)
         (t.ctx id).traps = (s.ctx id).traps ++ [{ cause := 7, tval := tv, level := e.level, entry := i % 64 }])))

/-- R196, R208, R212, R213, R219, R231, R272, R379, R395: an answer reaches the entry that waits for it, and the last one retires it: with
OK, with a code, or (a handle) after its register is written; a refusal becomes a consumed error of its ORIGIN. An answer that no
resident context waits for is discarded and counted for the field of its tag. A message refused with RETRY is sent again once its
microsecond has passed. Answers travel only where a route joins the packages. Memory never changes. The ORIGIN of a posted store that its
home refuses is 5 (log 64, DEDUCED). Of several consumed errors the one of the earliest operation stands (log 85, DEDUCED).
R394: a source's idle message retires, in every suppression cache, the entries of its channel up to the SEQ it acknowledges, which no
operation that still stands in a parked image under its tag lets pass; a retire-all message retires every entry of its sources, where none of
them has an operation left. Nothing else changes. -/
def Obligations.AnswerEvents : Prop :=
  (∀ (s : State) (n : Nat) (m : Msg) (id : CtxId),
  let i := m.src.entry
  let e := s.entry id i
  let caches (t : State) : Prop := ∀ p, { t.pkg p with dieCache := (s.pkg p).dieCache, fields := (s.pkg p).fields } = s.pkg p
  let only (t : State) : Prop := SameMem s t ∧ t.net = s.net.eraseIdx n ∧ caches t ∧
    (∀ j, placeOf j ≠ placeOf id → t.ctx j = s.ctx j) ∧ (∀ j, j % 64 ≠ i % 64 → (t.ctx id).entry j = (s.ctx id).entry j)
  let retires (x : Instr) (status : Word) : Prop := ∃ t, exec x s = .next t ∧ only t ∧ (t.entry id i).state = .retired ∧
    (t.entry id i).status = status ∧ (t.ctx id).rg = (s.ctx id).rg
  s.net[n]? = some m → (m.body ≠ .probe → m.body.isReply = true → s.answerRoute m = true) →
  (s.awaits m = some id → m.src.chain = false → e.probes ≤ 1 →
    (∀ old, m.body = .resp .ok old → e.gdest = none → m.src.kind ≠ 2 → retires (.responseArrival n) (0x100000000 : Word)) ∧
    (∀ old, m.body = .resp .ok old → e.gdest = none → m.src.kind = 2 → retires (.flsigTokenReturn n) (0x100000000 : Word)) ∧
    (∀ c d old, m.body = .resp (.code c d) old → m.src.kind ≠ 2 → retires (.responseArrival n) (statusWord 0 0 d c)) ∧
    (∀ g h, m.body = .resp .ok (some h) → e.gdest = some g → g ≠ 0 → m.src.kind ≠ 2 → ∃ t, exec (.responseArrival n) s = .next t ∧ only t ∧
      (t.entry id i).state = .retired ∧ (t.ctx id).rg g = BitVec.ofNat 64 h ∧ ∀ q, q ≠ g → (t.ctx id).rg q = (s.ctx id).rg q) ∧
    (∀ o old, m.body = .resp (.refused o) old → e.kind ≠ 0 → (s.ctx id).err = none →
      ∃ t, exec (.consumedErrorReport n) s = .next t ∧ only t ∧ (t.entry id i).state = .retired ∧
        (t.ctx id).err = some { origin := if e.kind = 9 ∧ o = 2 then 5 else o, more := false, w := true
                                addr := e.target + BitVec.ofNat 64 m.idx, level := e.level, issue := e.issue }) ∧
    (m.body = .probe → deliverable s.net n = true → i < 64 → retires (.probeReturn n) (0x100000000 : Word))) ∧
  (∀ c d, m.body = .resp (.code c d) none → m.src.kind ≠ 2 → m.src.chain = true → s.awaits m = some id →
    ∃ t, exec (.responseArrival n) s = .next t ∧ SameMem s t ∧ t.net = s.net.eraseIdx n ∧
      (t.core id.pid id.core).live.chains = (s.core id.pid id.core).live.chains.map (fun x =>
        if x.entry = m.src.entry ∧ x.seq = m.src.seq ∧ x.ident = m.src.ident then { x with acks := x.acks - 1, bad := some (c, d) } else x)) ∧
  (∀ r old, m.body = .resp r old → m.src.kind ≠ 2 → s.awaits m = none →
    ∃ t, exec (.responseArrival n) s = .next t ∧ t.net = s.net.eraseIdx n ∧ SameMem s t ∧ t.cores = s.cores ∧
      (let q := 400 + (m.src.tag.extractLsb' 39 3).toNat
       (t.pkg m.src.id.pid).counters.get q = some (((s.pkg m.src.id.pid).counters.get q).getD 0 + 1))) ∧
  (m.retry = true → m.left ≠ 0 → exec (.retryResend n) s = .next s) ∧
  (m.retry = true → m.left = 0 → ∃ t, exec (.retryResend n) s = .next t ∧ SameMem s t ∧ t.cores = s.cores ∧ t.pkgs = s.pkgs ∧
    t.net = s.net.set n { m with retry := false }) ∧
  (m.body.isReply = false → s.unreachable m = true → (∀ d b r, m.body = .store d b r →
    ∃ t, exec (.homeUnreachable n) s = .next t ∧ SameMem s t ∧ t.cores = s.cores ∧ t.pkgs = s.pkgs ∧
      t.net = s.net.eraseIdx n ++ [{ m with body := .resp (.refused 4) none, retry := false, first := false, via := none }]))) ∧
  (∀ (s : State) (id : CtxId) (chan pid field : Nat) (xs : List CtxId),
  let only (t : State) (gone : Tag → Prop) : Prop := SameMem s t ∧ t.cores = s.cores ∧ t.net = s.net ∧ t.latch = s.latch ∧
    ∀ p, { t.pkg p with dieCache := (s.pkg p).dieCache, fields := (s.pkg p).fields } = s.pkg p ∧
      (∀ e, e ∈ (t.pkg p).dieCache ↔ e ∈ (s.pkg p).dieCache ∧ ¬gone e.1) ∧
      ∀ f e, e ∈ ((t.pkg p).field f).cache ↔ e ∈ ((s.pkg p).field f).cache ∧ ¬gone e.1
  let a := s.acktFor id (s.sourceTag id) chan
  (∃ t, exec (.acktIdleMessage id chan) s = .next t ∧
    only t (fun g => g.src = s.sourceTag id ∧ g.chan = chan % 16 ∧ (a - g.seq).toNat < 2 ^ 15)) ∧
  ((∀ x ∈ xs, x.pid = pid ∧ x.core / 128 = field ∧ ∀ i, i < 64 → ((s.ctx x).entry i).state = .free ∨ ((s.ctx x).entry i).state = .retired) →
    ∃ t, exec (.retireAllMessage pid field xs) s = .next t ∧
      only t (fun g => ∃ x ∈ xs, (s.sourceTag x).extractLsb' 30 22 = g.src.extractLsb' 30 22)))

/-- R174, R175, R179, R182, R192, R199, R208 to R210, R223, R226, R274, R299, R346, R394: messages at their homes. A store that may be delivered
and meets nothing there writes its bytes and is acknowledged; a window's access that its target admits goes on to the physical home. `flsig`, a
read-modify-write, a group store and an arrival are performed once: a repeated tag gets the first answer again and has no other effect. What its
home refuses changes nothing, and its ORIGIN is answered; a read-modify-write of an uncorrectable unit is answered with MEMERR (R378), one that
host memory cannot perform with HOSTATOM. A group store leaves memory as it is and is staged, complete, in its group's record, charged to the
partition that owns the page, a piece as a whole at the field of its first byte (log 116, DESIGN CHOICE); beyond that quota it is not staged, and
its group's seal will fail; a group that is sealed, or closed at that EPOCH, refuses its writer. A store that carries the epoch of a swapped
state reaches that state's image. (What a read-modify-write gives, `accNew`, is spelt out in `ChainData`.) A poisoned barrier counts no arrival
(log 81, DEDUCED); bytes of no partition are charged to none (log 74, DEDUCED); an access whose scratchpad state is nowhere any more is refused
with ORIGIN 2 (log 32, DEDUCED). -/
def Obligations.MessageArrivals : Prop := ∀ (s : State) (n : Nat) (m : Msg) (pid pa : Nat),
  let k := memKey pid pa
  let answer (r : Result) (old : Option Nat) : List Msg := s.net.eraseIdx n ++
    [{ m with body := .resp r old, retry := false, first := false, via := none }]
  let fresh (p : CachePort) : Prop := ∀ x ∈ s.cache p, x.1 ≠ m.tag
  let room (p : CachePort) : Prop := (s.cache p).length < 16384
  let writes (x : Instr) (bs : List Byte) (r : Result) (old : Option Nat) : Prop := ∃ t, exec x s = .next t ∧ t.cores = s.cores ∧
    t.net = answer r old ∧ SameMemBut k bs.length s t ∧ ∀ j, j < bs.length → t.readByte (k + j) = bs[j]?.getD 0
  s.net[n]? = some m → deliverable s.net n = true → s.memOk →
  (regionOf pa ≠ some .ctl →
    (∀ bs rel, m.body = .store (.phys pid pa) bs rel → s.gate m pid pa bs.length = .go →
      writes (.postedStoreArrival n) bs .ok none) ∧
    (∀ bs rel o, m.body = .store (.phys pid pa) bs rel → s.gate m pid pa bs.length = .refuse o →
      ∃ t, exec (.postedStoreArrival n) s = .next t ∧ SameMem s t ∧ t.cores = s.cores ∧ t.net = answer (.refused o) none) ∧
    (∀ bs sc, m.body = .flsig (.phys pid pa) bs sc → s.gate m pid pa bs.length = .go → fresh (portOf pid pa) → room (portOf pid pa) →
      writes (.flsigArrival n) bs .ok none) ∧
    (∀ op fmt z cmp y rel, m.body = .accum (.phys pid pa) op fmt z cmp y rel →
      (hostAtomBad pid pa op fmt = true → ∃ t, exec (.accumArrival n) s = .next t ∧ SameMem s t ∧ t.cores = s.cores ∧
        t.net = answer (.code 4 (m.src.elem % 65536)) none) ∧
      (hostAtomBad pid pa op fmt = false → s.gate m pid pa z = .go → fresh (portOf pid pa) → room (portOf pid pa) →
        (let new := accNew op fmt z (leNat (s.readData k z)) y cmp
         s.badAt k z = none → writes (.accumArrival n) (leBytes z new.1) .ok (some (new.2.toNat * 2 ^ 64 + leNat (s.readData k z)))) ∧
        (s.badAt k z ≠ none → ∃ t, exec (.accumArrival n) s = .next t ∧ SameMem s t ∧ t.cores = s.cores ∧ t.net = answer (.code 2 0) none))) ∧
    (∀ x o, (∃ bs sc, x = .flsigArrival n ∧ m.body = .flsig (.phys pid pa) bs sc ∧ s.gate m pid pa bs.length = .refuse o) ∨
        (∃ op fmt z cmp y rel, x = .accumArrival n ∧ m.body = .accum (.phys pid pa) op fmt z cmp y rel ∧
          hostAtomBad pid pa op fmt = false ∧ s.gate m pid pa z = .refuse o) →
      ∃ t, exec x s = .next t ∧ SameMem s t ∧ t.cores = s.cores ∧ t.net = answer (.refused o) none) ∧
    (∀ bs sc x, m.body = .flsig (.phys pid pa) bs sc → s.gate m pid pa bs.length = .go →
      ((s.retireBy (portOf pid pa) m).cache (portOf pid pa)).find? (fun e => e.1 = m.tag) = some x →
      ∃ t, exec (.flsigArrival n) s = .next t ∧ SameMem s t ∧ t.cores = s.cores ∧ t.net = answer x.2.1 x.2.2)) ∧
  (∀ tpid tpart texp off bs rel t0, m.body = .store (.exposure tpid tpart texp off) bs rel →
    s.atTarget tpid tpart texp off bs.length .write m.src.id.pid m.src.part = (t0, .ok [{ dest := .phys pid pa, len := bs.length }]) →
    ∃ t x, exec (.remoteAccessArrival n) s = .next t ∧ SameMem t0 t ∧ t.net = t0.net.set n x ∧
      x.body = .store (.phys pid pa) bs rel ∧ x.dst = homeOf pid pa ∧ x.src = m.src ∧ x.chan = m.chan) ∧
  (∀ bs group epoch need rel, m.body = .group (.phys pid pa) bs group epoch need rel →
    let key := groupKey (homeNum pa) group
    let r := (s.pkg pid).groups.get key
    let part := m.src.part.getD 64
    let g : GroupRec := match r.filter (fun g => g.state = .opened) with
      | some g => g
      | none => { state := .opened, epoch := epoch, part := part, units := [] }
    let takes : Prop := (s.pkg pid).features.getLsbD 0 = true ∧ ∀ x, r = some x →
      (x.state = .opened ∧ x.part = part ∧ x.epoch = epoch) ∨ ((x.state = .published ∨ x.state = .discarded) ∧ x.epoch ≠ epoch)
    let quota : Prop := ∀ o, s.ownerOf pid pa = some o → ∃ x, (s.pkg pid).parts.get o = some x ∧
      (s.pkg pid).staged (servingField pa) o + bs.length ≤ x.stgq * 262144
    let goes (r : Result) (t : State) : Prop := exec (.groupStoreArrival n) s = .next t ∧ SameMem s t ∧ t.cores = s.cores ∧
      t.net = answer r none
    (s.homeLost (homeOf pid pa) = true → ∃ t, goes (.refused 4) t ∧ (t.pkg pid).groups = (s.pkg pid).groups) ∧
    (s.homeLost (homeOf pid pa) = false → s.route m.src.id.pid pid = true → fresh (.field pid (servingField pa)) →
      room (.field pid (servingField pa)) → (∀ o, s.ownerOf pid pa = some o → o ≠ 64 ∧ ((s.pkg pid).parts.get o).isSome) →
      (takes → quota → g.sealReq = none → (∀ u ∈ g.units, u.op ≠ { m.tag with piece := 0 }) →
        ∃ t u, goes .ok t ∧ (t.pkg pid).groups = NMap.put (s.pkg pid).groups key (some { g with units := g.units ++ [u] }) ∧
          u.cells = bs.zipIdx.map (fun b => (k + b.2, b.1)) ∧ u.ident = m.src.ident ∧ u.op = { m.tag with piece := 0 } ∧ u.need = need ∧
          u.field = servingField pa ∧ u.part = (s.ownerOf pid pa).getD 64 ∧ u.rel = rel.map (fun sc => (m.src.id, sc.toNat))) ∧
      (takes → ¬quota → g.sealReq = none →
        ∃ t, goes .ok t ∧ (t.pkg pid).groups = NMap.put (s.pkg pid).groups key (some { g with failed := true })) ∧
      (¬takes → ∃ t, goes (.refused 3) t ∧ (t.pkg pid).groups = (s.pkg pid).groups))) ∧
  (∀ core bar sc, m.body = .arrive pid core bar none sc → bar < 32 → s.homeLost (.field pid (fieldOf core)) = false →
    fresh (.field pid (fieldOf core)) → room (.field pid (fieldOf core)) →
    (let x := (s.core pid core).live.barriers.toList.getD bar {}
     (x.count = 0 → ∃ t, exec (.barrierArrival n) s = .next t ∧ SameMem s t ∧ t.cores = s.cores ∧ t.net = answer (.code 1 4) none) ∧
     (x.count ≠ 0 → x.poison = true →
       ∃ t, exec (.barrierArrival n) s = .next t ∧ SameMem s t ∧ t.cores = s.cores ∧ t.net = answer (.code 7 bar) none) ∧
     (x.count ≠ 0 → x.poison = false →
     ∃ t, exec (.barrierArrival n) s = .next t ∧ SameMem s t ∧ t.net = answer .ok none ∧ (∀ j, t.ctx j = s.ctx j) ∧
       (let y := (t.core pid core).live.barriers.toList.getD bar {}
        y.count = x.count ∧ y.poison = false ∧ y.arr = (if x.arr + 1 = x.count then 0 else x.arr + 1) ∧
        y.ph = (if x.arr + 1 = x.count then !x.ph else x.ph))))) ∧
  (∀ core bs rel j img, m.body = .store (.phys pid pa) bs rel → spadCore pa = some core → m.epoch ≠ s.epochAt pid pa →
    (s.pkg pid).images.find? (fun x => x.2.core = core && x.2.epoch = m.epoch) = some (j, img) → img.heir = none →
    (img.place ≠ .draining ∨ 1 < img.drain) →
    ∃ t img', exec (.swappedWriteArrival n) s = .next t ∧ SameMem s t ∧ t.cores = s.cores ∧ t.net = answer .ok none ∧
      (t.pkg pid).images.get j = some img' ∧ img'.data = img.data ∧ img'.drain = img.drain - 1 ∧
      (NMap.wf img.spad = true → ∀ q, q < bs.length → (img'.spad.get ((pa - spadBase) % 2 ^ 20 + q)).getD 0 = bs[q]?.getD 0))

/-! ### Combiners, multicast, collectives, histograms -/

/-- R150 to R155, R224, R230 to R234, R280, R349: the switch die. An open takes the lowest free entry within the partition's quota and
answers with its handle, or with an OPEN code: 2 for a bad descriptor, 3 for a RESULT not writable, 1 for the quota. A contribution of a rank
not yet applied joins the entry; one of a wrong type or length, or of a rank applied or above NCON, is discarded with its status bit; one that
names no open entry is answered with code 0xC and counted. The last rank, the timer, or a `cmb.close` of the own partition makes the entry
deliver: one message a record, RESULT's first, the entry held until all are written. A record holds status, count and bitmap of the ranks, and
every element: the exact sum rounded once, the tree's, or that in order of arrival (contributions of one core cycle count as of one cycle of the
die: log 97, DESIGN CHOICE). A delivery record's bytes are written at its address, bytes 4 to 7 a release at DSC. A multicast packet becomes one
write per member, in the exposure of the issuing partition's number (log 12, DEDUCED); an opener at device level gives a physical RESULT (log
106, DEDUCED). -/
def Obligations.CombinerEvents : Prop := ∀ (s : State) (n : Nat) (m : Msg) (pid : Nat),
  let answer (ms : List Msg) (r : Result) (old : Option Nat) : List Msg :=
    s.net.eraseIdx n ++ ms ++ [{ m with body := .resp r old, retry := false, first := false, via := none }]
  let first (p : CachePort) : Prop := (∀ x ∈ s.cache p, x.1 ≠ m.tag) ∧ (s.cache p).length < 16384
  let done (x : Instr) (t : State) : Prop := exec x s = .next t ∧ SameMem s t ∧ t.cores = s.cores
  (s.net[n]? = some m → deliverable s.net n = true →
  (∀ d ok, m.body = .cmbOpen d ok → m.src.id.pid = pid → pid < 1024 → first (.die pid) →
    (∀ code, code = (if openBad d then 2 else if ok then 1 else 3) →
      (code = 1 → ∃ p x, m.src.part = some p ∧ (s.pkg pid).parts.get p = some x ∧ x.cmbq ≤ (s.pkg pid).combsOf (some p)) →
      ∃ t, done (.combinerOpen n) t ∧ t.net = answer [] .ok (some code) ∧ (t.pkg pid).combs = (s.pkg pid).combs) ∧
    (∀ p x k, openBad d = false → ok = true →
      m.src.part = some p → (s.pkg pid).parts.get p = some x → (s.pkg pid).combsOf (some p) < x.cmbq → (s.pkg pid).combsUsed < 4096 →
      k < 4096 → (s.pkg pid).combs.get k = none → (∀ j, j < k → ((s.pkg pid).combs.get j).isSome) →
      ∃ t e h, done (.combinerOpen n) t ∧ t.net = answer [] .ok (some h) ∧
        (t.pkg pid).combs.get k = some e ∧ (∀ j, j ≠ k → (t.pkg pid).combs.get j = (s.pkg pid).combs.get j) ∧
        e.part = some p ∧ e.applied = [] ∧ e.ctrl.toNat = bytesAt d 0 4 % 2 ^ 32 ∧ e.result = BitVec.ofNat 64 (bytesAt d 8 8) ∧
        e.dsc = BitVec.ofNat 4 (bytesAt d 7 1) ∧ e.owed = none ∧ e.device = decide (m.src.level = .device) ∧
        e.left = (if bytesAt d 4 2 = 0 then none else some (bytesAt d 4 2 * Config.cyclesPerMicrosecond)) ∧
        h = e.key.toNat * 2 ^ 48 + pid * 2 ^ 38 + k * 2 ^ 26)) ∧
  (∀ hd rank ret bs, m.body = .contrib hd rank ret bs → hdPid hd = pid → first (.die pid) →
    (s.combOf hd = none → ∃ t, done (.combinerContribution n) t ∧ t.net = answer [] (.code 0xC 0) none ∧
      (t.pkg pid).combs = (s.pkg pid).combs ∧ (t.pkg pid).counters.get 2 = some (((s.pkg pid).counters.get 2).getD 0 + 1)) ∧
    (∀ e, s.combOf hd = some e →
      let bad := contribBad e.ctrl bs
      let again := decide (ctlNcon e.ctrl < rank) || e.applied.any (fun y => y.rank = rank)
      ((bad || again) = true → e.applied.length ≤ ctlNcon e.ctrl → ∃ t, done (.combinerContribution n) t ∧
        t.net = answer [] .ok none ∧ (t.pkg pid).combs = NMap.put (s.pkg pid).combs (hdEntry hd)
          (some { e with fmtErr := e.fmtErr || bad, rankErr := e.rankErr || again })) ∧
      ((bad || again) = false → ∃ t f x ms, done (.combinerContribution n) t ∧ t.net = answer ms .ok none ∧
        f.applied.length = e.applied.length + 1 ∧ x ∈ f.applied ∧ x.rank = rank ∧ x.bytes = bs ∧ x.ret = ret ∧ x.pid = m.src.id.pid ∧
        x.part = (if m.src.level = .device then some 64 else m.src.part) ∧ x.cycle = (s.pkg pid).cycle.toNat ∧
        (∀ y ∈ e.applied, y ∈ f.applied) ∧ f = { e with applied := f.applied } ∧
        (e.applied.length < ctlNcon e.ctrl → ms = [] ∧ (t.pkg pid).combs = NMap.put (s.pkg pid).combs (hdEntry hd) (some f)) ∧
        (e.applied.length = ctlNcon e.ctrl → Delivered s t pid (hdEntry hd) f ∧ CarryRecords ms f)))) ∧
  (∀ hd, m.body = .cmbClose hd → m.dst.pid = pid → first (.die pid) →
    (∀ e, s.combOf hd = some e → e.part = m.src.part → m.src.part.isSome → hdPid hd = pid → ∃ t ms, done (.combinerContribution n) t ∧
      t.net = answer ms .ok none ∧ Delivered s t pid (hdEntry hd) e ∧ CarryRecords ms e) ∧
    ((∀ e, s.combOf hd = some e → e.part ≠ m.src.part ∨ m.src.part = none) → ∃ t, done (.combinerContribution n) t ∧
      t.net = answer [] .ok none ∧ (t.pkg pid).combs = (s.pkg pid).combs)) ∧
  (∀ part va bs sc u p a, m.body = .deliver pid part va bs sc → 8 ≤ bs.length → s.partWrite pid part va bs.length =
      (u, .ok [{ dest := .phys p a, len := bs.length }]) → u.lineOver [{ dest := .phys p a, len := bs.length }] = .clear →
    regionOf a ≠ some .ctl → u.memOk →
    ∃ t, exec (.deliveryRecordArrival n) s = .next t ∧ t.cores = u.cores ∧ t.net = u.net.eraseIdx n ∧
      SameMemBut (memKey p a) bs.length u t ∧ (∀ j, j < bs.length → t.readByte (memKey p a + j) = bs[j]?.getD 0) ∧
      (∃ r ∈ t.rels, r.key = memKey p (a + 4) ∧ r.len = 4 ∧ r.quill = true ∧ r.scope = sc.toNat) ∧
      (∀ e k, (u.pkg m.src.id.pid).combs.get m.src.entry = some e → e.owed = some k → (t.pkg m.src.id.pid).combs =
        NMap.put (u.pkg m.src.id.pid).combs m.src.entry (if k ≤ 1 then none else some { e with owed := some (k - 1) }))) ∧
  (∀ g off bs, m.body = .mcast g off bs →
    (((s.pkg m.dst.pid).mcast.get g).getD [] = [] → ∃ t, done (.mcastReplicate n) t ∧ t.pkgs = s.pkgs ∧ t.net = answer [] .ok none) ∧
    (((s.pkg m.dst.pid).mcast.get g).getD [] ≠ [] → ∃ t, exec (.mcastReplicate n) s = .next t ∧ SameMem s t ∧ t.pkgs = s.pkgs ∧
      t.net = s.net.take n ++ (((s.pkg m.dst.pid).mcast.get g).getD []).map (fun x =>
        if off + bs.length ≤ x.len then
          { m with dst := .die x.pid, body := .store (.exposure x.pid (m.src.part.getD 0) x.exposure (x.base + off)) bs none }
        else { m with body := .resp (.code 8 0) none }) ++ s.net.drop (n + 1)))) ∧
  (∀ j e, (s.pkg pid).combs.get j = some e → e.left = some 0 → e.owed = none →
    ∃ t ms, done (.combinerTimerExpiry pid j) t ∧ t.net = s.net ++ ms ∧ Delivered s t pid j e ∧ CarryRecords ms e) ∧
  (∀ e : Comb, ctlLegal e.ctrl = true → e.applied ≠ [] → (e.applied.map (·.rank)).Nodup → (∀ x ∈ e.applied, x.rank ≤ ctlNcon e.ctrl) →
    let r := combRecord e
    let zi := typeBytes (ctlItype e.ctrl)
    let zo := typeBytes (ctlOtype e.ctrl)
    let k := ctlNelem e.ctrl
    r.length = 256 + k * zo ∧ bytesAt r 4 4 = e.applied.length ∧ bytesAt r 136 120 = 0 ∧
    (∀ j, j < 1024 → (bytesAt r 8 128).testBit j = e.applied.any (fun x => x.rank = j)) ∧
    ∃ v : Nat → Nat × Fl,
      (∀ i, i < k → Combined e.ctrl (e.applied.map (fun x => (x.rank, bytesAt x.bytes (zi * i) zi))) (v i) ∧
        bytesAt r (256 + zo * i) zo = (v i).1 % 2 ^ (8 * zo)) ∧
      bytesAt r 0 4 = (if e.fmtErr then 1024 else 0) + (if e.rankErr then 512 else 0) +
        (if e.applied.length = ctlNcon e.ctrl + 1 then 0 else 256) + (orFlags (List.range k) (fun i => (v i).2)).toNat) ∧
  (∀ it x n q e, it < 2 → fdecode (fspec it) x = .fin n q e → finRat n q e = (finInt n q e (-149) : Rat) * 2 ^ (-149 : Int)) ∧
  (∀ op it x y, 2 ≤ it →
    let b := intBits it
    let less : Bool := (BitVec.ofNat b x).slt (BitVec.ofNat b y)
    comb2 op it x y = match op with
      | 0 => ((x + y) % 2 ^ b, 0)
      | 1 => (if less then x else y, 0)
      | 2 => (if less then y else x, 0)
      | 3 => (x &&& y, 0)
      | 4 => (x ||| y, 0)
      | _ => (x ^^^ y, 0)) ∧
  (∀ x y, let z := faddX 0 (fdecode (fspec 0) x) (fdecode (fspec 0) y)
    comb2 0 0 x y = ((rounded 0 z.1).1, z.2 ||| (rounded 0 z.1).2) ∧ comb2 0 1 x y = comb2 0 0 x y ∧
    ∀ it, it < 2 → comb2 1 it x y = fminmaxBits (fspec 0) false false x y ∧ comb2 2 it x y = fminmaxBits (fspec 0) true false x y)

/-- R235, R236, R282, R312 to R314: collectives and histograms. Once every rank's collective stands, the descriptors are compared: alike, they
become one collective; unlike, each is over with code 1 and detail 0xFFFF. A chunk whose reads have all been made is written at every rank as
R236's table says, each rank then going on to its next chunk or to its end; every other byte stays. The leading rank's engine moves it, in one
step, where no engine that it needs serves another first (log 13, DEDUCED; rank words are read at issue: log 94, DESIGN CHOICE). A finished
collective, and histogram work, answers its command; the histogram waits for its context's earlier loads and stores, its latches count each index
of the source array, from 0 or on top of what stood (MODE 1), OUTR takes each element's rank and OUTC the counts, with the command's release, and
DETAIL the number of indexes out of range. -/
def Obligations.UnitEvents : Prop := ∀ (s : State) (pid i : Nat),
  (∀ c, s.coll pid i = some c → c.group = none → c.done = none →
    (∀ r w, c.ranks[r]? = some w → (s.collAt c r w).isSome) →
    let same : Prop := ∀ r w x, c.ranks[r]? = some w → s.collAt c r w = some x → collSame c x.2 = true
    let all (t : State) (f : Coll → Prop) : Prop := SameMem s t ∧ t.cores = s.cores ∧ t.net = s.net ∧
      ∀ r w x, c.ranks[r]? = some w → s.collAt c r w = some x → ∃ y ∈ (t.pkg x.1).colls, y.id = x.2.id ∧ f y
    ∃ t g, exec (.collDescriptorCompare pid i) s = .next t ∧
      (same → all t (fun y => y.group = some g)) ∧ (¬same → all t (fun y => y.done = some (1, 0xFFFF)))) ∧
  (∀ c c' g t xs mem (key : Nat → Nat → Nat), s.coll pid i = some c → c.group = some g → c.done = none → c.cut = none →
    s.collTake pid c = some c' → s.collLeads pid c g = true → s.collHeld pid c g = false →
    (s.setColl pid c').collGather pid c.chunk (s.collMembers g) = (t, xs) → t.memOk →
    let d := c.desc
    let nr := bytesAt d 36 2
    let ctl : BitVec 32 := BitVec.ofNat 32 (bytesAt d 16 4)
    let joins : Bool := [0, 1, 5].contains (bytesAt d 26 1)
    let lo := c.chunk * bytesAt d 24 2
    let n := Nat.min (bytesAt d 24 2) (bytesAt d 20 4 - lo)
    let zi := typeBytes (ctlItype ctl)
    let z := if joins then typeBytes (ctlOtype ctl) else zi
    let red := if joins then (combResult ctl (nr - 1) n xs).1 else []
    let writes (r : Nat) : List (Nat × List Byte) := collWrites d c.chunk r red xs
    let wrote (r b : Nat) : Prop := ∃ w ∈ writes r, w.1 * z ≤ b ∧ b < w.1 * z + w.2.length
    collBad d [] = none → ctlItype ctl < 5 → lo < bytesAt d 20 4 → t.collMembers g = (List.range nr).map mem →
    xs.map (·.1) = (if bytesAt d 26 1 = 3 then [bytesAt d 30 2] else List.range nr) →
    (∀ x ∈ xs, x.2.length = n * zi) →
    (∀ r, r < nr → (mem r).2.chunk = c.chunk ∧ cdRank (mem r).2.desc = r ∧ collSame c (mem r).2 = true ∧
      ∀ q, q < nr → q ≠ r → ((mem q).1, (mem q).2.id) ≠ ((mem r).1, (mem r).2.id)) →
    (∀ v r, r < nr → CollAlike t v → ∃ id, v.collHere pid (mem r).1 (mem r).2 (bytesAt (mem r).2.desc 8 8) = .here id ∧
      ∀ w ∈ writes r, w.2 ≠ [] → ∃ p a, key r (w.1 * z) = memKey p a ∧ regionOf a ≠ some .ctl ∧ v.homeLost (homeOf p a) = false ∧
        v.unitAccess ((mem r).2.who v id) .write (BitVec.ofNat 64 (bytesAt (mem r).2.desc 8 8 + w.1 * z)) w.2.length =
          (v, .ok [{ dest := .phys p a, len := w.2.length }]) ∧
        v.lineOver [{ dest := .phys p a, len := w.2.length }] = .clear ∧ ∀ b, b < w.2.length → key r (w.1 * z + b) = key r (w.1 * z) + b) →
    (∀ r b r' b', r < nr → r' < nr → wrote r b → wrote r' b' → key r b = key r' b' → r = r' ∧ b = b') →
    ∃ u, exec (.collChunk pid i) s = .next u ∧ u.cores = t.cores ∧ u.net = t.net ∧
      (∀ q, (∀ r b, r < nr → wrote r b → key r b ≠ q) → u.readByte q = t.readByte q) ∧
      (∀ r e, r < nr → lo ≤ e → e < lo + n → ∀ y ∈ collGives d r e, ∀ b, b < z →
        wrote r (y.1 * z + b) ∧
        (∀ r' bs, y.2 = some r' → (r', bs) ∈ xs → some (u.readByte (key r (y.1 * z + b))) = bs[(e - lo) * z + b]?) ∧
        (y.2 = none → ∃ v, Combined ctl (xs.map (fun x => (x.1, bytesAt x.2 (zi * (e - lo)) zi))) v ∧
          (u.readByte (key r (y.1 * z + b))).toNat = v.1 / 2 ^ (8 * b) % 256)) ∧
      (∀ r, r < nr → ∃ y ∈ (u.pkg (mem r).1).colls, y.id = (mem r).2.id ∧ y.chunk = c.chunk + 1 ∧ y.combs = 0 ∧
        y.done = if bytesAt d 20 4 ≤ (c.chunk + 1) * bytesAt d 24 2 then
            some (match (mem r).2.partialAt with
              | some j => (0xB, j)
              | none => (0, 0))
          else none)) ∧
  (∀ c a d, s.coll pid i = some c → c.done = some (a, d) → ∃ t x, exec (.collComplete pid i) s = .next t ∧ SameMem s t ∧
    t.cores = s.cores ∧ t.net = s.net ++ [x] ∧ x.body = .resp (.code a d) none ∧ x.src = c.src ∧ ∀ y ∈ (t.pkg pid).colls, y.id ≠ i) ∧
  (∀ h id p x, (s.pkg pid).hists.find? (fun h => h.id = i) = some h → s.locate h.src = some id → histBad h.desc = none →
    (s.ctx id).storesOut h.src.issue = false → s.loadsOut h.src.ident h.src.issue = false → h.src.part = some p → s.part pid p = some x →
    NMap.wf x.latches = true →
    (let d := h.desc
     let key (o : Nat) : Nat := spadKey id.pid id.core o
     let src := key (bytesAt d 8 4 % 2 ^ 20)
     let outc := key (bytesAt d 12 4 % 2 ^ 20)
     let outr := key (bytesAt d 16 4 % 2 ^ 20)
     let k := bytesAt d 6 2 + 1
     let xs := (List.range k).map (fun e => leNat (s.readData (src + 2 * e) 2))
     let bins := bytesAt d 0 4 / 2 ^ 8 % 2 ^ 9
     let mode := bytesAt d 4 1
     let f := fieldOf id.core
     let old (j : Nat) : Nat := if mode.testBit 0 then (x.latch f (bytesAt d 0 1 + j)).toNat else 0
     let new (j : Nat) : Nat := (old j + (xs.filter (fun v => v = j)).length) % 2 ^ 32
     let rank (e : Nat) : Nat :=
       let v := xs[e]?.getD 0
       if v = 0xFFFF ∨ bins ≤ v then 0xFFFF else Nat.min (old v + ((xs.take e).filter (fun w => w = v)).length) 0xFFFE
     let apart : Prop := outr + 2 * k ≤ outc ∨ outc + 4 * bins ≤ outr
     s.badAt src (2 * k) = none → s.memOk →
     ∃ t m, exec (.histComplete pid i) s = .next t ∧ t.cores = s.cores ∧ t.net = s.net ++ [m] ∧ m.src = h.src ∧
       m.body = .resp (.code 0 (Nat.min ((xs.filter (fun v => v ≠ 0xFFFF ∧ bins ≤ v)).length) 0xFFFF)) none ∧
       (∃ y, t.part pid p = some y ∧ ∀ j, j < bins → (y.latch f (bytesAt d 0 1 + j)).toNat = new j) ∧
       (∀ q, (mode.testBit 1 = true → ¬(outc ≤ q ∧ q < outc + 4 * bins)) → (mode.testBit 2 = true → ¬(outr ≤ q ∧ q < outr + 2 * k)) →
         t.readByte q = s.readByte q) ∧
       (mode.testBit 1 = true → (∀ j, j < bins → t.readNat (outc + 4 * j) 4 = new j) ∧
         ∀ sc, h.rel = some sc → ∃ r ∈ t.rels, r.key = outc ∧ r.len = 4 * bins ∧ r.quill = true ∧ r.scope = sc.toNat) ∧
       (mode.testBit 2 = true → (mode.testBit 1 = true → apart) → ∀ e, e < k → t.readNat (outr + 2 * e) 2 = rank e)))

/-! ### Group commit -/

/-- R182, R183, R192, R210, R238 to R240, R278, R279, R399: a home seals when its staged units equal COUNT and answers; a seal that times out
discards. With every home sealed the coordinator puts "commit" in the decision word, at the first failure heard or its seal timeout "abort", and
the decision that stands there goes out to every home; while the word's line is sealed it stays DECIDING. A decision that stands already is the
one that counts: its CODE is ABORT_REQ where a `gabort` took part or every home had sealed (log 105, DEDUCED); DEC 0 or 3 counts as none (log
107, DESIGN CHOICE). A commit decision publishes a sealed group's bytes in one step, each the last one staged for it, any other discards them; a
sealed home whose timer has run reads the word itself. With every acknowledgement, or at the timeout, the commit is done and answers. The commit
waits for loads of its context (log 117, DESIGN CHOICE). A seal that meets another EPOCH fails (log 72, DEDUCED); a publication is by no tracked
agent (log 76, DEDUCED); the retries of a sealed home are counted from its seal (log 82, DEDUCED). -/
def Obligations.CommitEvents : Prop := ∀ (s : State) (n : Nat) (m : Msg) (pid : Nat),
  let wordOf (c : Commit) : Nat := memKey pid c.decw
  s.memOk →
  (s.net[n]? = some m → deliverable s.net n = true → s.homeLost m.dst = false → m.dst.pid = pid →
    (∀ commit cpid group epoch count decw tmo g, m.body = .sealMsg commit cpid group epoch count decw tmo →
      (s.pkg pid).features.getLsbD 0 = true → (s.pkg pid).groups.get (groupKey (m.dst.code % 16) group) = some g → g.state = .opened →
      g.epoch = epoch → g.sealReq = none → g.failed = false → g.units.length = count → (∀ u ∈ g.units, u.need ≤ u.cells.length) →
      ∃ t x g', exec (.homeSeal n) s = .next t ∧ SameMem s t ∧ t.cores = s.cores ∧ t.net = s.net.eraseIdx n ++ [x] ∧
        x.body = .sealed commit m.idx none ∧ x.dst = .die cpid ∧
        (t.pkg pid).groups.get (groupKey (m.dst.code % 16) group) = some g' ∧ g'.state = .sealed ∧ g'.units = g.units ∧ g'.left = tmo) ∧
    (∀ commit cpid group epoch d g, m.body = .decision commit cpid group epoch d →
      (s.pkg pid).groups.get (groupKey (m.dst.code % 16) group) = some g → g.epoch = epoch → g.state = .sealed →
      ∃ t x g', exec (.homeDecision n) s = .next t ∧ t.cores = s.cores ∧ t.net = s.net.eraseIdx n ++ [x] ∧
        x.body = .decided commit m.idx ∧ x.dst = .die cpid ∧
        (t.pkg pid).groups.get (groupKey (m.dst.code % 16) group) = some g' ∧ g'.units = [] ∧
        g'.state = (if d then .published else .discarded) ∧ PublishedIf d g.units s t)) ∧
  (∀ k g q, (s.pkg pid).groups.get k = some g → g.sealReq = some q →
    (g.state = .opened → q.left = 0 → s.homeLost (homeOfCode (pid * 16 + k / 65536)) = false →
      ∃ t x g', exec (.homeSealTimeout pid k) s = .next t ∧ SameMem s t ∧ t.cores = s.cores ∧
        t.net = s.net ++ [x] ∧ x.body = .sealed q.commit q.idx (some 0x20) ∧ (t.pkg pid).groups.get k = some g' ∧ g'.state = .discarded ∧
        g'.units = []) ∧
    (g.state = .sealed → g.left = 0 →
      let word := decisionOf (s.readNat (memKey q.cpid q.decw) 8) (k % 65536) g.epoch
      let done (t : State) : Prop := exec (.homeDecisionTimeout pid k) s = .next t ∧ t.cores = s.cores ∧ t.net = s.net
      (∀ d, s.route pid q.cpid = true → s.lineAt q.cpid q.decw 8 = .clear → word = some d →
        ∃ t g', done t ∧ (t.pkg pid).groups.get k = some g' ∧ g'.state = (if d then .published else .discarded) ∧ g'.units = [] ∧
          PublishedIf d g.units s t) ∧
      (s.route pid q.cpid = true → s.lineAt q.cpid q.decw 8 = .clear → word = none →
        ∃ t, done t ∧ SameMem s t ∧ (t.pkg pid).groups.get k = some { g with left := q.tmo, attempts := 0 }) ∧
      (s.route pid q.cpid = false → ∃ t, done t ∧ SameMem s t ∧
        (t.pkg pid).groups.get k = some { g with left := q.tmo, attempts := g.attempts + 1,
                                                 undecided := g.undecided || 2 ≤ g.attempts }))) ∧
  (∀ i c, s.commit pid i = some c → c.group < 2 ^ 16 → c.epoch < 2 ^ 16 →
    let word := decisionOf (s.readNat (wordOf c) 8) c.group c.epoch
    let answers := s.sealedOf pid i
    let base (x : Instr) : State := if x = .commitDecide pid i then s.dropSealed pid i else s
    let asked : Bool := (s.pkg pid).aborts.contains (c.decw, c.group, c.epoch)
    let goesOut (x : Instr) (want : Bool) (code detail : Nat) : Prop := ∃ t c' ms, exec x s = .next t ∧
      (∀ j, (t.ctx j).arch = (s.ctx j).arch) ∧ t.net = (base x).net ++ ms ∧
      t.commit pid i = some c' ∧
      (let d := word.getD want
       (word = none → SameMemBut (wordOf c) 8 s t ∧ decisionOf (t.readNat (wordOf c) 8) c.group c.epoch = some want) ∧
       (word.isSome → SameMem s t) ∧ c'.state = (if d then .publishing else .discarding) ∧
       (c'.code, c'.detail) = (if d then (0, 0) else if word = none ∨ (want = false ∧ asked = false) then (code, detail) else (0x23, 0)) ∧
       ms.map (·.dst) = c.homes.map (·.1) ∧ ∀ y ∈ ms, y.src = c.src ∧ y.chan = 0 ∧ y.body = .decision c.id pid c.group c.epoch d)
    let tries (x : Instr) (want : Bool) (code detail : Nat) : Prop :=
      (s.lineAt pid c.decw 8 = .clear → (want = true → s.loadsOut c.src.ident c.src.issue = false) → goesOut x want code detail) ∧
      (s.lineAt pid c.decw 8 ≠ .clear ∨ (want = true ∧ s.loadsOut c.src.ident c.src.issue = true) → ∃ t c', exec x s = .next t ∧ SameMem s t ∧
        t.cores = s.cores ∧ t.net = (base x).net ∧
        t.commit pid i = some c' ∧ c'.state = .deciding want ∧ (c'.code, c'.detail) = (code, detail))
    (c.state = .sealing → answers = (List.range c.homes.length).map (fun h => (h, none)) → tries (.commitDecide pid i) true 0 0) ∧
    (∀ a h b z, c.state = .sealing → answers = a ++ (h, some b) :: z → (∀ y ∈ a, y.2 = none) → tries (.commitDecide pid i) false b h) ∧
    (∀ want, c.state = .deciding want → tries (.commitDecide pid i) want c.code c.detail) ∧
    (∀ h x, c.state = .sealing → c.left = 0 → c.homes[h]? = some x → x.2.2 ≠ .sealed →
      (∀ j y, j < h → c.homes[j]? = some y → y.2.2 = .sealed) → tries (.commitSealTimeout pid i) false 0x20 h)) ∧
  (∀ i c, s.commit pid i = some c →
    let done (x : Instr) (b : State) (code detail : Nat) : Prop := ∃ t y, exec x s = .next t ∧ SameMem s t ∧ t.cores = s.cores ∧
      t.net = b.net ++ [y] ∧ y.body = .resp (.code code detail) none ∧ y.src = c.src ∧ ∀ z ∈ (t.pkg pid).commits, z.id ≠ i
    (c.state = .publishing ∨ c.state = .discarding → (∀ h, h < c.homes.length → h ∈ s.decidedOf pid i) →
      done (.commitAcknowledged pid i) (s.dropDecided pid i) c.code c.detail) ∧
    (c.left = 0 → c.state = .discarding → done (.commitAckTimeout pid i) s c.code c.detail) ∧
    (∀ h x, c.left = 0 → c.state = .publishing → c.homes[h]? = some x → x.2.2 ≠ .acked →
      (∀ j y, j < h → c.homes[j]? = some y → y.2.2 = .acked) → done (.commitAckTimeout pid i) s 0x25 h))

/-! ### Hoops, graphs, pre-emption, the package -/

/-- R255 to R258, R302 to R304, R306, R401: a hoop at its home. A join that names no hoop there opens one where there is room, else is refused
(1); it enters a forming hoop of its NMEM (else refused: 2), or waits for the phase end of a formed one with fewer than 1,024 members (else
refused: 3); an arrival of a context marks its member in the hoop that the context ended, and the last one makes the hoop FLUSHING; then, with no
probe of the phase under way, the phase ends: leavers go, joiners enter, PH is inverted, SEQ grows by one, every resident member's register is
written and every member is to depart with an acquire from each of the others (R186). A refused join is a pending `HOOP` trap of the context that
waits. A hoop with a member in a lost field is released. Memory never changes. The registers of a released hoop become 0 (log 14, DEDUCED); a
moving join has left its old hoop before it is admitted (log 58, DEDUCED). -/
def Obligations.HoopEvents : Prop := ∀ (s : State) (n : Nat) (m : Msg) (pid : Nat),
  let hs := (s.pkg pid).hoops
  (s.net[n]? = some m →
    (∀ level unit part hid nmem reg, m.body = .hoopJoin level unit part hid nmem reg → deliverable s.net n = true →
      s.homeLost m.dst = false → m.dst.pid = pid → level ≤ 3 →
      (∀ h ∈ hs, ¬(h.level = level ∧ h.unit = unit ∧ h.part = part ∧ h.hid = hid)) →
      (s.pkg pid).hoopRoom { pid := pid, level := level, unit := unit, part := part, hid := hid, nmem := nmem } = true →
      ∃ t h, exec (.hoopJoinArrival n) s = .next t ∧ SameMem s t ∧ t.cores = s.cores ∧ t.net = s.net.eraseIdx n ∧
        (t.pkg pid).hoops = hs ++ [h] ∧ h.level = level ∧ h.unit = unit ∧ h.part = part ∧ h.hid = hid ∧ h.nmem = nmem ∧
        h.members = [{ ident := m.src.ident, id := m.src.id, reg := reg }] ∧ h.pending = [] ∧ h.forming = decide (0 < nmem) ∧
        h.ph = false ∧ h.seq = 0) ∧
    (∀ reg leave i h, m.body = .hoopArrive reg leave → deliverable s.net n = true → s.homeLost m.dst = false → m.dst.pid = pid →
      (let counts (h : Hoop) : Prop := h.forming = false ∧ h.name = m.idx ∧ hoopHome pid h.level h.unit = m.dst ∧
         ∃ x ∈ h.members, x.ident = m.src.ident ∧ x.reg = reg
       hs[i]? = some h ∧ counts h ∧ ∀ j g, j < i → hs[j]? = some g → ¬counts g) →
      ∃ t h', exec (.hoopArrival n) s = .next t ∧ SameMem s t ∧ t.cores = s.cores ∧ t.net = s.net.eraseIdx n ∧
        (t.pkg pid).hoops = hs.set i h' ∧ { h' with members := h.members, flushing := h.flushing } = h ∧
        h'.members = h.members.map (fun x => if x.ident = m.src.ident ∧ x.reg = reg then { x with arrived := true, leave := x.leave || leave }
          else x) ∧
        (h'.flushing = true ↔ ∀ x ∈ h'.members, x.arrived = true)) ∧
    (∀ level unit part hid nmem reg, m.body = .hoopJoin level unit part hid nmem reg → deliverable s.net n = true →
      s.homeLost m.dst = false → m.dst.pid = pid → level ≤ 3 →
      let q : JoinReq := { pid := pid, level := level, unit := unit, part := part, hid := hid, nmem := nmem }
      let names (h : Hoop) : Prop := h.level = level ∧ h.unit = unit ∧ h.part = part ∧ h.hid = hid
      let x : HMember := { ident := m.src.ident, id := m.src.id, reg := reg }
      let refused (r : Nat) : Prop := ∃ t y, exec (.hoopJoinArrival n) s = .next t ∧ SameMem s t ∧ t.cores = s.cores ∧
        (t.pkg pid).hoops = hs ∧ t.net = s.net.eraseIdx n ++ [y] ∧ y.body = .hoopRefuse reg r ∧ y.src = m.src
      ((∀ h ∈ hs, ¬names h) → (s.pkg pid).hoopRoom q = false → refused 1) ∧
      (∀ i h, hs[i]? = some h → names h → (∀ j g, j < i → hs[j]? = some g → ¬names g) →
        (∀ y ∈ h.members ++ h.pending, ¬(y.ident = x.ident ∧ y.reg = reg)) →
        let joins (h' : Hoop) : Prop := ∃ t, exec (.hoopJoinArrival n) s = .next t ∧ SameMem s t ∧ t.cores = s.cores ∧
          t.net = s.net.eraseIdx n ∧ (t.pkg pid).hoops = hs.set i h'
        (h.forming = true → h.nmem ≠ nmem → refused 2) ∧
        (h.forming = true → h.nmem = nmem →
          joins { h with members := h.members ++ [x], forming := decide (h.members.length + 1 < h.nmem + 1) }) ∧
        (h.forming = false → 1023 < (h.members.filter (fun y => !y.leave)).length + h.pending.length → refused 3) ∧
        (h.forming = false → (h.members.filter (fun y => !y.leave)).length + h.pending.length ≤ 1023 →
          joins { h with pending := h.pending ++ [x] }))) ∧
    (∀ reg r id w, m.body = .hoopRefuse reg r → s.answerRoute m = true → s.locate m.src = some id → (s.ctx id).hoopWait = some w →
      w.join = true → w.reg = reg →
      ∃ t, exec (.hoopRefusal n) s = .next t ∧ SameMem s t ∧ t.net = s.net.eraseIdx n ∧ t.pkgs = s.pkgs ∧
        (∀ j, placeOf j ≠ placeOf id → t.ctx j = s.ctx j) ∧ (t.ctx id).hoopWait = none ∧
        (t.ctx id).traps = (s.ctx id).traps ++ [{ cause := 14, tval := BitVec.ofNat 64 (reg % 4 * 16 + r % 16), level := m.src.level,
                                                  entry := 0 }])) ∧
  (∀ i h, hs[i]? = some h → h.forming = false →
    (h.flushing = true → s.probesOut h = false →
      let ms := (h.members.filter (fun x => !x.leave)).map (fun x => { x with arrived := false }) ++ h.pending
      let g : Hoop := { h with members := ms, pending := [], ph := !h.ph, seq := (h.seq + 1) % 2 ^ 15, flushing := false }
      ms ≠ [] → ∃ t, exec (.hoopPhaseEnd pid i) s = .next t ∧ SameMem s t ∧ t.net = s.net ∧ (t.pkg pid).hoops = hs.set i g ∧
        (∀ x ∈ ms, ∀ id, s.memberAt x = some id → (t.ctx id).hoopReg x.reg = g.word) ∧
        (∀ x ∈ h.members, ∀ id, s.memberAt x = some id → ∀ y ∈ h.members, y.ident ≠ x.ident → y.id ∈ (t.ctx id).phase) ∧
        (∀ id, (t.ctx id).g = (s.ctx id).g ∧ (t.ctx id).pc = (s.ctx id).pc)) ∧
    (h.members.any (fun x => ((s.pkg x.id.pid).field (x.id.core / 128)).lost) = true →
      ∃ t, exec (.hoopDeviceRelease pid i) s = .next t ∧ SameMem s t ∧ t.net = s.net ∧ (t.pkg pid).hoops = hs.eraseIdx i ∧
        (∀ x ∈ h.members, ∀ id, s.memberAt x = some id → (t.ctx id).hoopReg x.reg = 0)))

/-- R193, R261, R264 to R268, R391, R392: graphs. A write of the launch word requests as many replays as REQ grows by. A replay's start counts it
and makes one instance per node, with its predecessors still to come. An instance in PLACING on idle cores of its field is set up there: its used
contexts run at CODE at program level with their parameters, and it is RUNNING. A budget's refill lets held instances go on to PLACING; ageing
moves a READY one up a level. An instance whose used contexts have all ended with status 0 is DONE and leaves its cores; each successor has one
predecessor less. One that is killed is READY again, or, lost with its field, with an external effect, or killed for the fourth time, FAILED; one
that ends with a nonzero status is FAILED. A placing sets each island's step once: the lowest its power cap allows, on a warm island one above
the present. The header comes with the launch word (log 25, DEDUCED); budgets, caps and temperatures are free (log 28, DESIGN CHOICE); what a
kill drops at once, and the order of its statuses (log 29, DEDUCED). -/
def Obligations.GraphEvents : Prop := ∀ (s : State) (pid n : Nat),
  let is := (s.pkg pid).insts
  let placeStepOf (c : Nat) : Nat :=
    if Config.warnTemp ≤ Config.islandTemp pid (c / 8) (s.pkg pid).cycle.toNat then Nat.min 4 (((s.pkg pid).island (c / 8)).step + 1)
    else Config.capStep pid (c / 8) (s.pkg pid).cycle.toNat % 5
  (∀ part header req x h h' u y old, s.part pid part = some x →
    (let s1 := s.updPart pid part (fun x => { x with header := some header })
     s1.virtWaits pid part (BitVec.toNat header) 64 = false → s1.graphHeader pid part = some h → bytesAt h 0 8 % 8 = 0 →
     s1.virtWaits pid part (bytesAt h 0 8) 4 = false → s1.launchReq pid part = some old →
     s1.hostWrite pid part (bytesAt h 0 8) (leBytes 4 (BitVec.toNat (req : BitVec 32))) = (u, true) → u.part pid part = some y →
     u.graphHeader pid part = some h' → headerWrong h' = none → u.launchReq pid part = some (BitVec.toNat req) →
     (BitVec.toNat req + 2 ^ 32 - old) % 2 ^ 32 < 2 ^ 31 →
     ∃ t, exec (.launchWordWrite pid part header req) s = .next t ∧ SameMem u t ∧ t.cores = u.cores ∧
       t.part pid part = some { y with requested := y.requested + (BitVec.toNat req + 2 ^ 32 - old) % 2 ^ 32 })) ∧
  (∀ part x hv h r, s.part pid part = some x → x.header = some hv → x.started < x.requested →
    ((s.pkg pid).replays.filter (fun r => r.part = part)) = [] → (∀ i ∈ is, i.part = part → i.replay ≠ x.started) →
    s.startWaits pid part (BitVec.toNat hv) = false → s.graphHeader pid part = some h → headerWrong h = none →
    s.takeRange pid part (56 + x.started % 8) (bytesAt h 24 8) (bytesAt h 32 8 / 65536) = some r →
    let u := (r.countRead pid part (BitVec.toNat hv) 64).countRead pid part (bytesAt h 8 8) (64 * bytesAt h 16 2)
    (u.part pid part).isSome →
    (∀ k, k < bytesAt h 16 2 → ∃ d y, u.nodeDesc pid part k = some d ∧ u.part pid part = some y ∧ nodeWrong y d = none) →
    ∃ t, exec (.replayStart pid part) s = .next t ∧ (t.part pid part).map (·.started) = some (x.started + 1) ∧
      (∃ r ∈ (t.pkg pid).replays, r.part = part ∧ r.no = x.started) ∧
      ∀ k d, k < bytesAt h 16 2 → u.nodeDesc pid part k = some d → ∃ i ∈ (t.pkg pid).insts, i.part = part ∧ i.replay = x.started ∧
        i.node = k ∧ i.preds = bytesAt d 26 2 ∧ i.placed = false ∧ i.field = bytesAt d 31 1 / 16 % 8 ∧
        (i.state = .blocked ∨ i.state = .ready)) ∧
  (∀ i x d ws cores, s.inst pid n = some i → i.state = .placing → s.part pid i.part = some x → s.nodeDesc pid i.part i.node = some d →
    s.nodeWaits pid i = false → s.paramWaits pid i d = false →
    (bytesAt d 32 8 = 0 ∨ s.virtWaits pid i.part (bytesAt d 32 8) 8 = false) →
    nodeWrong x d = none → s.imagesOf pid n = [] → s.coresFit pid i (bytesAt d 29 1) cores = true →
    (∀ c ∈ cores, s.idle pid c = true) → bytesAt d 40 8 = 0 → s.paramWords pid i d = some ws →
    ∃ t j, exec (.nodePlace pid n cores) s = .next t ∧ t.inst pid n = some j ∧ j.state = .running ∧ j.cores = cores ∧ t.net = s.net ∧
      (∀ c ∈ cores, ((t.pkg pid).island (c / 8)).step = placeStepOf c) ∧
      ∀ c ∈ cores, (t.core pid c).swap = .running ∧ (t.core pid c).live.chains = [] ∧
        (s.memOk → ∀ o, o < 2 ^ 20 → t.readByte (spadKey pid c o) = 0) ∧ ∀ z, z < 4 →
        (let k := t.ctx ⟨pid, c, z⟩
         ((bytesAt d 31 1).testBit z = false → k.halted = true) ∧
         ((bytesAt d 31 1).testBit z = true → k.halted = false ∧ k.level = .program ∧ k.pc = BitVec.ofNat 64 (bytesAt d 0 8) ∧
           k.role = BitVec.ofNat 2 (bytesAt d 30 1 / 4 ^ z) ∧
           ∀ r : GNum, r ≠ 0 → k.rg r = BitVec.ofNat 64 (((x.bind i.field d ws)[r.toNat]?).getD 0)))) ∧
  (∃ t, exec (.energyRefill pid) s = .next t ∧ SameMem s t ∧ t.cores = s.cores ∧ t.net = s.net ∧
    (t.pkg pid).insts = is.map (fun i => if i.state = .held then { i with state := .placing } else i)) ∧
  (∀ i h, s.inst pid n = some i → i.state = .ready → i.level < 7 → s.graphHeader pid i.part = some h →
    i.since + bytesAt h 18 2 * Config.cyclesPerMicrosecond ≤ (s.pkg pid).cycle.toNat →
    ∃ t j, exec (.nodeAgeing pid n) s = .next t ∧ SameMem s t ∧ t.cores = s.cores ∧ t.inst pid n = some j ∧ j.level = i.level + 1 ∧
      j.since = (s.pkg pid).cycle.toNat ∧ { j with level := i.level, order := i.order, since := i.since } = i) ∧
  (∀ i d bs j, s.inst pid n = some i → i.state = .running → i.dying = none → i.slot = none →
    (∀ id ∈ i.used pid, (s.ctx id).halted = true ∧ (s.ctx id).doneStatus = some 0 ∧
      ∀ e, e < 64 → ((s.ctx id).entry e).state = .free ∨ ((s.ctx id).entry e).state = .retired) →
    s.nodeWaits pid i = false → s.virtWaits pid i.part (bytesAt d 16 8) 2 = false →
    s.nodeDesc pid i.part i.node = some d → bytesAt d 24 2 = 1 → s.virt pid i.part (bytesAt d 16 8) 2 = some bs →
    is.find? (fun j => j.part = i.part && j.replay = i.replay && j.node = bytesAt bs 0 2) = some j → j.field = i.field →
    j.id ≠ n → j.state = .blocked → (∀ k ∈ is, k.part = i.part → k.replay = i.replay → k.state ≠ .failed) →
    ∃ t i' j', exec (.nodeComplete pid n) s = .next t ∧ t.net = s.net ∧ t.inst pid n = some i' ∧ i'.state = .done ∧ i'.cores = [] ∧
      j' ∈ (t.pkg pid).insts ∧ j'.id = j.id ∧ j'.node = j.node ∧ j'.preds = j.preds - 1 ∧
      ∀ c ∈ i.cores, ∀ z, (t.ctx ⟨pid, c, z⟩).inst = none) ∧
  (∀ m i, s.net[n]? = some m → m.dst.pid = pid → m.body = .successor i.id → i ∈ is →
    ∃ t i', exec (.successorMessage n) s = .next t ∧ SameMem s t ∧ t.cores = s.cores ∧ t.net = s.net.eraseIdx n ∧
      i' ∈ (t.pkg pid).insts ∧ i'.id = i.id ∧ i'.node = i.node ∧ i'.preds = i.preds - 1) ∧
  (∀ i st, s.inst pid n = some i → i.dying = some st → (∀ m ∈ s.net, m.src.ident ∉ i.idents) → s.imagesOf pid n = [] → i.slot = none →
    st ≠ 0xF000000000000004 → i.externMark = false → i.kills < 3 →
    ∃ t j, exec (.nodeKill pid n) s = .next t ∧ t.inst pid n = some j ∧ j.state = .ready ∧ j.kills = i.kills + 1 ∧ j.dying = none ∧
      j.cores = [] ∧ ∀ c ∈ i.cores, ((s.core pid c).live.ctx 0).inst = some n →
        (t.core pid c).live.chains = [] ∧ ∀ z, (t.ctx ⟨pid, c, z⟩).halted = true ∧ (t.ctx ⟨pid, c, z⟩).inst = none) ∧
  (∀ i st, s.inst pid n = some i → i.dying = some st → (∀ m ∈ s.net, m.src.ident ∉ i.idents) → s.imagesOf pid n = [] → i.slot = none →
    st = 0xF000000000000004 ∨ i.externMark = true ∨ 3 ≤ i.kills →
    (∃ j ∈ is, j.id ≠ n ∧ j.part = i.part ∧ j.replay = i.replay ∧ j.state = .running) →
    ∃ t j, exec (.nodeKill pid n) s = .next t ∧ t.inst pid n = some j ∧ j.state = .failed ∧ j.kills = i.kills + 1 ∧ j.dying = none ∧
      j.cores = [] ∧ ∀ c ∈ i.cores, ((s.core pid c).live.ctx 0).inst = some n →
        (t.core pid c).live.chains = [] ∧ ∀ z, (t.ctx ⟨pid, c, z⟩).halted = true ∧ (t.ctx ⟨pid, c, z⟩).inst = none) ∧
  (∀ i id st, s.inst pid n = some i → i.state = .running → id ∈ i.used pid → (s.ctx id).doneStatus = some st → st ≠ 0 →
    (∀ m ∈ s.net, m.src.ident ∉ i.idents) → s.imagesOf pid n = [] → i.slot = none →
    (∃ j ∈ is, j.id ≠ n ∧ j.part = i.part ∧ j.replay = i.replay ∧ j.state = .running) →
    ∃ t j, exec (.nodeFailStatus pid n) s = .next t ∧ t.inst pid n = some j ∧ j.state = .failed)

/-- R15, R269, R270, R274, R277: pre-emption. A request stops every running core of its list; a stopping core with a free slot starts saving:
fixed-latency work has completed and no engine runs; the save drops the reads that landings have still to make (they are made again), and keeps
registers, engines, tiles, barriers, chains and the bytes of the scratchpad as an image, and the core is parked and empty. An image may be
evicted to the save area. A parked core of the partition may start a restore; at its end the core runs with the image's registers and, where
nothing was outstanding, with its scratchpad's bytes; the image's place is free then, or drains while writes to the state are in flight. A saved
core's contexts have new identities and keep SEQ and ACKT (log 17, DEDUCED); the bytes of a saved core stay until its next occupant (log 33,
DEDUCED). -/
def Obligations.Preemption : Prop := ∀ (s : State) (pid core slot : Nat),
  let k := s.core pid core
  let base := spadKey pid core 0
  (∀ cs : List Nat, s.onePartition pid cs = true → (∀ c ∈ cs, (s.core pid c).swap = .running ∧ s.instIn pid c = none) →
    ∃ t, exec (.preemptRequest pid cs) s = .next t ∧ SameMem s t ∧ t.net = s.net ∧ t.pkgs = s.pkgs ∧ (∀ id, t.ctx id = s.ctx id) ∧
      (∀ c ∈ cs, (t.core pid c).swap = .stopping ∧ (t.core pid c).freeze = []) ∧
      (∀ p c, (∀ d ∈ cs, coreKey p c ≠ coreKey pid d) → t.core p c = s.core p c)) ∧
  (∀ m, k.swap = .stopping → s.saveSlot pid core = some m →
    let u := (s.unitOver pid core 0).unitOver pid core 1
    let v := (u.core pid core).live
    ((∀ e, (k.live.engine e).running = none) → u = s) ∧
    ∃ t, exec (.stoppingComplete pid core) s = .next t ∧ OnlyCore pid core u t ∧ (t.core pid core).swap = .saving m ∧
      (∀ z, (t.ctx ⟨pid, core, z⟩) = { (u.ctx ⟨pid, core, z⟩).drain with next := none, age := 0 }) ∧
      (∀ e, (t.core pid core).live.engine e = (v.engine e).rebase (· - (u.core pid core).pcyc)) ∧
      (t.core pid core).live.tiles = v.tiles ∧ (t.core pid core).live.chains = v.chains) ∧
  (∀ m, k.swap = .saving m → s.memOk →
    ∃ t i, exec (.saveComplete pid core) s = .next t ∧ SameMem s t ∧
      t.net = s.net.filter (fun x => !x.loadOf ((List.range 4).map (fun z => s.identOf ⟨pid, core, z⟩))) ∧ (t.pkg pid).images.get m = some i ∧
      i.core = core ∧ i.epoch = k.epoch ∧ i.data.eng = k.live.eng ∧ i.data.tiles = k.live.tiles ∧ i.data.bf = k.live.bf ∧
      i.data.barriers = k.live.barriers ∧ i.data.chains = k.live.chains ∧
      (∀ z, { i.data.ctx z with waiting := (k.live.ctx z).waiting, ident := (k.live.ctx z).ident } = k.live.ctx z) ∧
      (∀ o, o < 2 ^ 20 → (i.spad.get o).getD 0 = s.readByte (base + o)) ∧
      (t.core pid core).swap = .parked ∧ (t.core pid core).live.chains = [] ∧ ∀ z, (t.ctx ⟨pid, core, z⟩).halted = true) ∧
  (∀ i, (s.pkg pid).images.get (core * 4 + slot) = some i →
    (i.place = .shadow → i.drain = 0 → s.beingRestored pid (core * 4 + slot) = false → ∃ t, exec (.evict pid core slot) s = .next t ∧
      OnlyPkg pid s t ∧
      (t.pkg pid).images.get (core * 4 + slot) = some { i with place := .evicting }) ∧
    (i.place = .evicting → ∃ t, exec (.evictComplete pid core slot) s = .next t ∧ OnlyPkg pid s t ∧
      ∃ q, 2 ^ 20 ≤ q ∧ (t.pkg pid).images.get q = some { i with place := .saveArea } ∧
        (t.pkg pid).images = ((s.pkg pid).images.put (core * 4 + slot) none).put q (some { i with place := .saveArea }))) ∧
  (∀ i, (s.pkg pid).images.get slot = some i → s.vacant pid core (i.data.ctx 0).inst = true → i.place = .shadow ∨ i.place = .saveArea →
    s.beingRestored pid slot = false → s.partOfCore pid core = s.partOfCore pid i.core →
    ∃ t, exec (.restoreStart pid core slot) s = .next t ∧ SameMem s t ∧ t.net = s.net ∧ (∀ id, t.ctx id = s.ctx id) ∧
      (t.core pid core).swap = .restoring slot ∧
      ∀ n, (i.data.ctx 0).inst = some n → s.placingOn pid n (core / 8) = false → ((t.pkg pid).island (core / 8)).step =
        if Config.warnTemp ≤ Config.islandTemp pid (core / 8) (s.pkg pid).cycle.toNat then Nat.min 4 (((s.pkg pid).island (core / 8)).step + 1)
        else Config.capStep pid (core / 8) (s.pkg pid).cycle.toNat % 5) ∧
  (∀ i, k.swap = .restoring slot → (s.pkg pid).images.get slot = some i →
    let r := s.readImage pid core slot i
    (∀ z e, z < 4 → e < 64 → ((r.ctx ⟨pid, core, z⟩).entry e).state = .outstanding → (r.replayHeld ⟨pid, core, z⟩ e).2 = false) →
    ∃ t, exec (.restoreComplete pid core) s = .next t ∧ (t.core pid core).swap = .running ∧
      (i.drain = 0 → (∀ x ∈ (s.pkg pid).images, x.2.place ≠ .draining) → (t.pkg pid).images = (s.pkg pid).images.put slot none) ∧
      (0 < i.drain → ∃ y, (t.pkg pid).images.get slot = some y ∧ y.place = .draining ∧ y.drain = i.drain ∧ y.epoch = i.epoch) ∧
      (t.core pid core).live.tiles = i.data.tiles ∧
      (t.core pid core).live.eng = i.data.eng.map (fun e => e.rebase (· + k.pcyc)) ∧ (t.core pid core).live.barriers = i.data.barriers ∧
      (∀ z, z < 4 → (t.ctx ⟨pid, core, z⟩).g = (i.data.ctx z).g ∧ (t.ctx ⟨pid, core, z⟩).a = (i.data.ctx z).a ∧
        (t.ctx ⟨pid, core, z⟩).v = (i.data.ctx z).v ∧ (t.ctx ⟨pid, core, z⟩).level = (i.data.ctx z).level ∧
        (t.ctx ⟨pid, core, z⟩).halted = (i.data.ctx z).halted) ∧
      (s.memOk → NMap.wf i.spad = true → (∀ c ∈ i.spad, c.1 < 2 ^ 20) →
        (∀ z e, z < 4 → e < 64 → ((i.data.ctx z).entry e).state ≠ .outstanding) →
        ∀ o, o < 2 ^ 20 → t.readByte (base + o) = (i.spad.get o).getD 0))

/-- R3, R22, R28, R29, R193, R331 to R334, R349, R353 to R355, R367, R377: bring-up gives the package its wiring, its shadow slots and its locked
ports, or reports a failure. Unmasking an MSI-X entry sends what was pending. The debug port reads a tile element or replaces it. Erlimel's go
takes features that are among its three bits and refuses others. A halted context is started at the PC and the level of the word written. A
control block that is well formed and whose bays are free is taken, any other is refused with an event; a resource block within the totals, a
multicast group and a control word are written as given. The host's aperture reads and writes the partition's memory; an access outside it is
refused and counted. Words of the control space that the spec leaves unassigned (log 2, DESIGN CHOICE); a block is validated when written whole
(log 8, DEDUCED), which bounds also the ends of its group numbers (log 113, DEDUCED), and windows are loaded from WTAB then (log 7, DEDUCED);
where host and debugger reads stand (log 34, DESIGN CHOICE); a masked MSI-X entry at reset (log 19, PRESUMED). -/
def Obligations.SystemControl : Prop := ∀ (s : State) (pid : Nat),
  let p := s.pkg pid
  let pkgs (t : State) (f : Pkg → Prop) : Prop := OnlyPkg pid s t ∧ f (t.pkg pid)
  (∀ ok flat slots locked, p.up = false → slots ≤ 2 → (∀ q ∈ s.pkgs, q.2.heldDiscards = []) →
    (ok = true → ∃ t, exec (.resetRelease pid ok flat slots locked) s = .next t ∧ pkgs t (fun q => q.up = true ∧ q.flatMesh = flat ∧
      q.slotsPerCore = slots ∧ ∀ n, n < 40 → (q.port n).locked = ((p.port n).locked || decide (n ∈ locked)))) ∧
    (ok = false → ∃ t, exec (.resetRelease pid ok flat slots locked) s = .next t ∧
      pkgs t (fun q => q = { p with events := p.events ++ [.bringUpFailed] }))) ∧
  (∀ entry, ∃ t, exec (.msixEntryUnmask pid entry) s = .next t ∧ pkgs t (fun q => ∃ m, q.msix.get entry = some m ∧ m.masked = false ∧
    m.pending = false ∧ m.sent = ((p.msix.get entry).getD {}).sent + (if ((p.msix.get entry).getD {}).pending then 1 else 0))) ∧
  (∀ core eng index, ∃ t, exec (.debugPortAccess pid core eng index none) s = .next t ∧ pkgs t (fun q => q =
    { p with debugData := ((s.core pid core).live.tiles.get (eng % 2 * 65536 + index % 65536)).getD 0 })) ∧
  (∀ core eng index v, v ≠ 0 → ∃ t, exec (.debugPortAccess pid core eng index (some v)) s = .next t ∧ OnlyCore pid core s t ∧
    (∀ id, t.ctx id = s.ctx id) ∧ (t.core pid core).live.tiles.get (eng % 2 * 65536 + index % 65536) = some v) ∧
  (p.up = true →
    (p.erlStatus ≠ 1 → p.accept[0] &&& ~~~7 = 0 → p.accept[1] = 0 → p.accept[2] = 0 → p.accept[3] = 0 →
      ∃ t, exec (.erlimelGo pid 1) s = .next t ∧ pkgs t (fun q => q = { p with erlStatus := 1, features := p.accept[0] })) ∧
    (p.erlStatus ≠ 1 → p.accept[0] &&& ~~~7 ≠ 0 →
      ∃ t, exec (.erlimelGo pid 1) s = .next t ∧ pkgs t (fun q => q = { p with erlStatus := 2 })) ∧
    (∀ core ctx v, v.getLsbD 63 = true → v.toNat / 2 ^ 59 % 16 = 0 → v.toNat / 2 ^ 57 % 4 ≠ 3 → s.stateCode ⟨pid, core, ctx⟩ = 5 →
      v.toNat / 2 ^ 57 % 4 = 2 ∨ (s.partOfCore pid core).isSome →
      ∃ t, exec (.contextStart pid core ctx v) s = .next t ∧ OnlyCore pid core s t ∧
        t.ctx ⟨pid, core, ctx⟩ = { s.ctx ⟨pid, core, ctx⟩ with
          halted := false, waiting := false, stall := 0, age := 0, level := levelOf (v.toNat / 2 ^ 57 % 4),
          pc := BitVec.ofNat 64 (v.toNat % 2 ^ 57), npc := BitVec.ofNat 64 (v.toNat % 2 ^ 57) }) ∧
    (∀ part b, part < 64 → blockReserved b = true →
      (let x := p.partOf part b
       (x.blockOk = true → baysFree p part x = true → x.structsOk = true → quotasFit p part x = true →
         ∃ t y, exec (.partitionControlWrite pid part b) s = .next t ∧ pkgs t (fun q => q.parts.get part = some y ∧
           ∀ o, o ≠ part → q.parts.get o = p.parts.get o) ∧ y.block = b) ∧
       (x.blockOk = false ∨ baysFree p part x = false ∨ x.structsOk = false →
         ∃ t, exec (.partitionControlWrite pid part b) s = .next t ∧
           pkgs t (fun q => q = { p with events := p.events ++ [.blockRefused part] })) ∧
       (x.blockOk = true → baysFree p part x = true → x.structsOk = true → quotasFit p part x = false →
         ∃ t, exec (.partitionControlWrite pid part b) s = .next t ∧
           pkgs t (fun q => q = { p with events := p.events ++ [.quotaRefused part] })))) ∧
    (∀ part b, part < 64 → b.length = 64 → bytesAt b 8 56 = 0 →
      (let sum (f : Part → Nat) : Nat := ((p.parts.filter (fun y => y.1 ≠ part)).map (fun y => f y.2)).sum + f (Part.ofBlock [] b)
       sum Part.stgq ≤ 128 → sum Part.cmbq ≤ 4096 → sum Part.fhoopq ≤ 256 → sum Part.shoopq ≤ 1024 →
       ∃ t, exec (.resourceBlockWrite pid part b) s = .next t ∧ pkgs t (fun q => q.quotas.get part = some b ∧
         ∀ x, q.parts.get part = some x → x.quota = b))) ∧
    (∀ group members, group < 1024 → members.length ≤ 64 → members ≠ [] →
      ∃ t, exec (.mcastGroupWrite pid group members) s = .next t ∧ pkgs t (fun q => q.mcast.get group = some members ∧
        { q with mcast := p.mcast } = p)) ∧
    (∀ off v, 0x50000 ≤ off → off < 2 ^ 32 → off % 8 = 0 →
      ∃ t, exec (.controlSpaceWrite pid off v) s = .next t ∧ OnlyPkg pid s t ∧ t.ctlWord pid off = v)) ∧
  (∀ part off len wr, s.part pid part = none ∨ 2 ^ 34 < BitVec.toNat (off : Word) + (Option.map List.length wr).getD len →
    ∃ t, exec (.hostApertureAccess pid part off len wr) s = .next t ∧ pkgs t (fun q => q.hostData = none ∧
      q.counters.get (100 + part) = some ((p.counters.get (100 + part)).getD 0 + 1))) ∧
  (∀ part x off len ps, s.part pid part = some x → BitVec.toNat (off : Word) + len ≤ 2 ^ 34 →
    s.ownRange pid part .read (len / 65536 + 2) off.toNat len = .ok ps → s.lineOver ps = .clear →
    let u := s.countRead pid part off.toNat len
    ∃ t, exec (.hostApertureAccess pid part off len none) s = .next t ∧ SameMem u t ∧ t.cores = u.cores ∧
      (t.pkg pid).hostData = some (ps.flatMap (fun x => match x.dest with
        | .phys q a => s.physBytes q a x.len
        | .exposure .. => []))) ∧
  (∀ part x off len bs u, s.part pid part = some x → BitVec.toNat (off : Word) + bs.length ≤ 2 ^ 34 →
    s.hostWrite pid part off.toNat bs = (u, true) → (∀ h, u.graphHeader pid part = some h → headerWrong h = none) →
    ∃ t, exec (.hostApertureAccess pid part off len (some bs)) s = .next t ∧ SameMem u t ∧ t.cores = u.cores ∧
      (t.pkg pid).hostData = none)

/-- R30, R350, R351, R377, R397, R400, R401, R415: a first thermal trip forces an island, a second halts it with an event, a clear ends the
force. A failed tag and a key update are counted at the port; a port is locked, with the other end of its link, and unlocked with fresh keys. The
debugger halts and releases a field. A reset field has another salt, none of its groups and no chains, and its contexts are HALTED; with a lost
field, each instance on it is marked to be killed. An uncorrectable register error stops its core; a soft error in memory marks the unit that
holds it, of 8 bytes in a vault or a scratchpad and of 32 in HBM. What a field's reset leaves (log 20, DEDUCED); the addresses of soft errors
(log 35, DESIGN CHOICE); a trip of a forced island halts it (log 36, DEDUCED); the board's wiring is free (log 37, DESIGN CHOICE). -/
def Obligations.SystemFaults : Prop := ∀ (s : State) (pid i : Nat),
  let p := s.pkg pid
  let is := p.island i
  let pt := p.port i
  let goes (x : Instr) (q : Pkg) : Prop := ∃ t, exec x s = .next t ∧ OnlyPkg pid s t ∧ t.pkg pid = q
  let putI (x : Island) : Pkg := { p with islands := p.islands.put i (some x) }
  let putP (x : Port) : Pkg := { p with ports := p.ports.put i (some x) }
  (is.forced = false → goes (.thermalTrip pid i) (putI { is with forced := true })) ∧
  (is.forced = true → goes (.thermalTrip pid i) { putI { is with halted := true } with events := p.events ++ [.islandHalted i] }) ∧
  goes (.thermalClear pid i) (putI { is with forced := false }) ∧
  goes (.flitTagFail pid i) (putP { pt with tagFails := pt.tagFails + 1 }) ∧
  goes (.linkKeyUpdate pid i) (putP { pt with keys := pt.keys + 1 }) ∧
  (pt.locked = false → ∃ t, exec (.portLock pid i) s = .next t ∧ t.cores = s.cores ∧ t.net = s.net ∧
    ((t.pkg pid).port i).locked = true ∧ (∀ q n, s.farEnd pid i = some (q, n) → ((t.pkg q).port n).locked = true) ∧
      (t.pkg pid).events = p.events ++ [.portLocked i] ∧ (s.net = [] → SameMem s t)) ∧
  (pt.locked = true → (∀ q ∈ s.pkgs, q.2.heldDiscards = []) → ∃ t, exec (.portReattest pid i) s = .next t ∧ SameMem s t ∧
    t.cores = s.cores ∧ t.net = s.net ∧ t.pkg pid = putP { pt with locked := false, keys := pt.keys + 1, traffic := [] }) ∧
  goes (.debugFieldHalt pid i) { p with fields := p.fields.put i (some { p.field i with halted := true }) } ∧
  goes (.debugFieldRelease pid i) { p with fields := p.fields.put i (some { p.field i with halted := false }) } ∧
  (∃ t, exec (.fieldReset pid i) s = .next t ∧ SameMem s t ∧ t.net = s.net ∧ ((t.pkg pid).field i).salt ≠ (p.field i).salt ∧
    (∀ g ∈ (t.pkg pid).groups, g.1 / 65536 ≠ i ∧ ∀ u ∈ g.2.units, u.field ≠ i) ∧
    (∀ c, c < 1024 → c / 128 ≠ i → t.core pid c = s.core pid c) ∧
    (∀ c z, c < 1024 → c / 128 = i →
      (t.ctx ⟨pid, c, z⟩).halted = true ∧ (t.core pid c).live.chains = [])) ∧
  (∃ t, exec (.fieldLoss pid i) s = .next t ∧ SameMem s t ∧ t.cores = s.cores ∧ t.net = s.net ∧ ((t.pkg pid).field i).lost = true ∧
    ∀ x ∈ p.insts, x.dying = none → (∃ c ∈ x.cores, c / 128 = i) →
      ∃ y ∈ (t.pkg pid).insts, y.id = x.id ∧ y.dying = some 0xF000000000000004) ∧
  (∃ t, exec (.registerUncorrectable pid i) s = .next t ∧ SameMem s t ∧ t.net = s.net ∧ (∀ id, t.ctx id = s.ctx id) ∧
    { t.core pid i with stopped := (s.core pid i).stopped } = s.core pid i ∧ (t.core pid i).stopped = true ∧
    (t.pkg pid).events = p.events ++ [.registerError i]) ∧
  (regionOf i = some .vault ∨ regionOf i = some .spad →
    ∃ t, exec (.memorySoftError pid i false) s = .next t ∧ t.mem = s.mem ∧ t.cores = s.cores ∧ t.pkgs = s.pkgs ∧ t.net = s.net ∧
      (memKey pid (i / 8 * 8), 8) ∈ t.bad ∧ ∀ u ∈ s.bad, u ∈ t.bad) ∧
  (regionOf i = some .hbm →
    ∃ t, exec (.memorySoftError pid i false) s = .next t ∧ t.mem = s.mem ∧ t.cores = s.cores ∧ t.pkgs = s.pkgs ∧
      (memKey pid (i / 32 * 32), 32) ∈ t.bad)

/-! ### The machine as a whole -/

/-- R31, R43 to R57, "A bundle encoded by hand": words written out from the tables of the encoding decode to the instructions they
stand for; the example bundle decodes slot by slot; an unassigned opcode and a field that must be 0 are refused. -/
def Obligations.DecodeWords : Prop :=
  (decodeBundle [0xA1, 0x20, 0x50, 0x18, 0x07, 0x00, 0x42, 0x8C, 0x00, 0x00, 0x22, 0x10, 0xC0, 0xFF, 0xFF, 0xFF]).map
      (fun x => (x.slot, x.word, x.dec)) =
    [(.a, 0x07185020, .ok { it := 0, st := 0, op := .add 5 6 7 }),
     (.l, 0x008C4200, .ok { it := 0, st := 0, op := .vld false 0 2 3 4 }),
     (.c, 0xFFFFFFC01022, .ok { it := 0, st := 2, pr := 1, op := .br 0xFFFFFFC0 })] ∧
  decodeSlot .scalar 0b11111111000011000010100000001011 = .ok { it := 1, st := 3, op := .addi 2 3 0xFF } ∧
  decodeSlot .scalar 0b01000111000110000001001100100000 = .ok { it := 0, st := 0, op := .psetGe true 1 6 7 } ∧
  decodeSlot .vector 0b0010001000110000100010001000000000100000 = .ok { it := 0, st := 0, op := .vadd 1 1 4 2 1 3 } ∧
  decodeSlot .vector 0b0100000000000111000110001010000011000000 = .ok { it := 0, st := 0, op := .vfma 2 0 5 6 14 0 } ∧
  decodeSlot .matrix 0b0000011100001111110100100011010000100000 = .ok { it := 0, st := 0, op := .mma 1 6 8 4 3 3 true } ∧
  decodeSlot .memory 0b0100101111111111110010000111001101100000 = .error .field ∧
  decodeSlot .memory 0b1000101111111111110010000111000101100000 = .ok { it := 0, st := 0, op := .stI64 true 2 0xFFF 2 7 } ∧
  decodeSlot .engine 0b00110001001100001001010000100001 = .ok { it := 0, st := 1, op := .cpy true true false 2 3 2 5 } ∧
  decodeSlot .control 0b000000000000000000100000000010011001100000000000 = .ok { it := 0, st := 0, pr := 1, pn := true,
                                                                                 op := .csrr 9 0x002 } ∧
  decodeSlot .vector 0 = .error .opcode ∧ decodeSlot .matrix 0 = .error .opcode ∧ decodeSlot .scalar 0xFE0 = .error .opcode ∧
  decodeSlot .scalar 0b11000111000110000001001100100000 = .error .field ∧ decodeSlot .scalar 0x18 = .error .field

/-- R31, R37, R43 to R57: every well-formed slot has a word, and the word decodes to it, every operand at every value; the one
opcode of `pg.cow`, whose two instructions its length register tells apart (R361), decodes to the releasing one. Conversely a word
of a slot's width that decodes is the word of what it decodes to, so no bit of it is dropped. -/
def Obligations.DecodeEncode : Prop :=
  (∀ x : Slotted, x.wf = true → (∀ g h, x.op ≠ .pgCowRestore g h) →
    ∃ w, encode x = some w ∧ w.toNat < 2 ^ x.op.cls.bits ∧ decodeSlot x.op.cls w = .ok x) ∧
  (∀ (x : Slotted) (g h : GNum), x.wf = true → x.op = .pgCowRestore g h →
    ∃ w, encode x = some w ∧ decodeSlot .control w = .ok { x with op := .pgCowRelease g h }) ∧
  (∀ (c : SlotClass) (w : BitVec 48) (x : Slotted), w.toNat < 2 ^ c.bits → decodeSlot c w = .ok x →
    x.wf = true ∧ x.op.cls = c ∧ encode x = some w)

/-- R29 with R41, R81, R86, R89, R127, R129, R145, R189, R250, R253, R254, R289, R298, R309, R333, R354, R384: the machine after reset. Every
context is HALTED at device level with PC 0; `AGEBND` holds 1,024, `LANDBND` 64 and every other CSR 0; the generator states are those
of SEED 0; tiles, configurations, barriers, sequencers, race-detection stores and Erlimel's registers are clear. The registers
`g`, `a`, `k` and `v`, and a byte of memory, read 0 by the model's choice (log entries 2 and 3). So do p0 to p6 and the model's own bookkeeping. -/
def Obligations.ResetValues : Prop := ∀ (id : CtxId) (pid core : Nat),
  let s := State.reset
  let c := s.ctx id
  let k := s.core pid core
  let p := s.pkg pid
  (c.halted = true ∧ c.level = .device ∧ c.pc = 0 ∧ c.agebnd = 1024 ∧ c.landbnd = 64 ∧ s.stateCode id = 5) ∧
  (c.fcsr = 0 ∧ c.seed = 0 ∧ c.prog = 0 ∧ c.role = 0 ∧ c.sbchk = 0 ∧ c.racedet = 0 ∧ c.stkchk = 0) ∧
  (c.tvec = 0 ∧ c.tcause = 0 ∧ c.tepc = 0 ∧ c.tval = 0 ∧ c.dtvec = 0 ∧ c.dtcause = 0 ∧ c.dtepc = 0 ∧ c.dtval = 0) ∧
  (∀ i : Fin 4, c.hoopm[i] = 0) ∧ (∀ i : Fin 5, c.xr[i] = 0) ∧ (∀ l : Fin 256, c.sr[l] = seedState 0 l.val) ∧
  (∀ l : Fin 6, c.seqr.levels[l].count = 1 ∧ ∀ j : Fin 16, c.seqr.levels[l].strides[j] = 0) ∧ c.seqr.replay = none ∧ c.wph = 0 ∧
  (∀ i : Fin 64, c.ifr[i].state = .free) ∧ c.err = none ∧ c.traps = [] ∧
  (∀ r, c.rp r = decide (r = 7)) ∧ (∀ r, c.rk r = if r = 0 then BitVec.allOnes 64 else 0) ∧
  (∀ r, c.rg r = 0) ∧ (∀ r, c.ra r = 0) ∧ (∀ r, c.rv r = 0) ∧
  (k.live.tiles = [] ∧ (∀ i : Fin 2, k.live.eng[i].active = 0 ∧ k.live.eng[i].shadow = 0 ∧ k.live.eng[i].queue = [] ∧
    k.live.eng[i].pri = Vector.replicate 4 0) ∧ (∀ i : Fin 16, k.live.bf[i] = 0) ∧
    (∀ b : Fin 32, k.live.barriers[b].count = 0 ∧ k.live.barriers[b].arr = 0 ∧ k.live.barriers[b].ph = false ∧
      k.live.barriers[b].poison = false) ∧ k.live.chains = []) ∧
  (p.accept = Vector.replicate 4 0 ∧ p.erlStatus = 0 ∧ p.features = 0 ∧ p.parts = [] ∧ p.race = [] ∧ p.cycle = 0) ∧
  s.mem = [] ∧ s.memOk ∧ (∀ a, s.readByte a = 0)

/-- R16, R34 to R37, R40, R57, R248 to R252, R294, R295, R405: the issue stage. A pipeline cycle begins with the writes that are due landing, the
stall counts running (`advance`). A core that does not advance only clears its latch. With no context in READY nothing issues. Otherwise the
context that R251 takes first, with no splice switch and no trap due, whose bundle is fetched and passes the checks, is chosen with PC at its
bundle and the next bundle's address after it; a second READY context whose slots are disjoint is merged with it; each other context in READY
grows older. The checks, in their order: an uncorrectable unit of a `jmp.bkt`'s table, LINE, the lowest slot's OPCODE, FEATURE or FIELD, PAIR,
CONFLICT, PRIVILEGE, and with the scoreboard on STALL, for a read of a register with a pending write or a write whose pending one would complete
later. PRIVILEGE and STALL count suppressed slots (log 39, DESIGN CHOICE); they name the lowest slot, STALL its first register, the C predicate
first, reads before writes, and an answer's or late landing's cycle counts as later than any known one (log 102, DESIGN CHOICE). -/
def Obligations.IssueChoice : Prop := ∀ (s : State) (pid core x : Nat), x < 4 →
  let u := { s with latch := {} }
  let v := u.advance pid core
  let rdy := u.readyList pid core
  let id : CtxId := ⟨pid, core, x⟩
  let c := u.ctx id
  let aged (d : Ctx) (y : Nat) (used : List Nat) : Ctx :=
    { d with age := if y ∈ rdy ∧ y ∉ used ∧ d.waiting = false then d.age + 1 else 0 }
  (s.advances pid core = false → exec (.issueChoice pid core) s = .next { s with latch := {} }) ∧
  ((v.core pid core).pcyc = (s.core pid core).pcyc + 1 ∧
    v.ctx id = { { s.ctx id with flagged := [] }.landDue ((s.core pid core).pcyc + 1) with
            stall := (s.ctx id).stall - 1, waiting := false,
            own := if (s.ctx id).stall - 1 = 0 ∨ (s.ctx id).parkMark = true then (s.ctx id).own else (s.ctx id).own + 1 }) ∧
  (s.advances pid core = true → rdy = [] → ∃ t, exec (.issueChoice pid core) s = .next t ∧ t.latch = {} ∧ SameMem s t ∧
    t.pkgs = s.pkgs ∧ t.net = s.net ∧ (∀ p q, coreKey p q ≠ coreKey pid core → t.core p q = s.core p q) ∧
    (t.core pid core).pcyc = (s.core pid core).pcyc ∧ ∀ y, y < 4 → t.ctx ⟨pid, core, y⟩ = aged (u.ctx ⟨pid, core, y⟩) y []) ∧
  (∀ (a : Word) (bs : List Byte) (xs : List (Slot × Slotted)), s.advances pid core = true → u.takesFirst pid core x →
    c.seqr.replay = none → c.next = none → u.splice id a = none → c.duePending a = none → u.fetchBundle id padFuel c.pc = .ok a bs →
    u.checks id a bs false false = .ok xs →
    let b : Chosen := { id := id, addr := a, bytes := bs, len := bs.length, slots := xs, replay := false }
    let w := (u.fetchTouch id a bs.length).updCtx id (fun c => { c with pc := a, npc := a + BitVec.ofNat 64 bs.length })
    (c.level = .device → u.fetchTouch id a bs.length = u) ∧ xs = slotsOf (decodeBundle bs) ∧
    ((∀ y ∈ rdy, y ≠ x → (w.prepare ⟨pid, core, y⟩).2 = .waits ∨
        ∃ b', (w.prepare ⟨pid, core, y⟩).2 = .bundle b' ∧ b'.bytes.headD 0 &&& bs.headD 0 ≠ 0) →
      ∃ t, exec (.issueChoice pid core) s = .next t ∧ t.latch = { chosen := [b] } ∧ SameMem w t ∧ t.pkgs = w.pkgs ∧ t.net = w.net ∧
        (∀ p q, coreKey p q ≠ coreKey pid core → t.core p q = w.core p q) ∧
        ∀ y, y < 4 → t.ctx ⟨pid, core, y⟩ = aged (w.ctx ⟨pid, core, y⟩) y [x]) ∧
    (∀ y b' w', rdy.filter (fun y => y ≠ x) = [y] → b'.bytes.headD 0 &&& bs.headD 0 = 0 →
      w.prepare ⟨pid, core, y⟩ = (w', .bundle b') →
      ∃ t, exec (.issueChoice pid core) s = .next t ∧ t.latch = { chosen := [b, b'] } ∧ SameMem w' t ∧ t.pkgs = w'.pkgs ∧
        t.net = w'.net ∧ ∀ z, z < 4 → t.ctx ⟨pid, core, z⟩ = aged (w'.ctx ⟨pid, core, z⟩) z [x, y])) ∧
  (∀ (a : Word) (bs : List Byte) (inR first : Bool),
    let raw := decodeBundle bs
    let xs := slotsOf raw
    let r := u.checks id a bs inR first
    let gives (cause tval : Nat) : Prop := r = .error (cause, BitVec.ofNat 64 tval)
    let sub := RawSlot.sub (u.pkg pid).features first
    let ends : Bool := xs.any (fun y => match y.2.op with
      | .stkEnd _ => true
      | _ => false)
    let cnts := (xs.filter (fun y => match y.2.op with
      | .stkCnt _ => true
      | _ => false)).length
    let paired : Prop := cnts = if ends then 1 else 0
    let written := (xs.flatMap (fun y => (Instr.regWrites y.2.op).map (·.1))).filter (fun q => q ≠ ⟨0, 0⟩)
    let low (y : Slot × Slotted) : Prop := c.level.toNat < Instr.levelOf y.2.op
    let reads (y : Slot × Slotted) : List RegRef := (if y.1 = .c then [rP y.2.pr] else []) ++ Instr.regReads y.2.op
    let pending (q : RegRef) : Prop := q.fixed = false ∧ ∃ p ∈ c.pendingRegs, p.1 = q
    let later (y : Slot × Slotted) (w : RegRef × Nat) : Prop := w.1.fixed = false ∧ ∃ p ∈ c.pendingRegs, p.1 = w.1 ∧
      u.doneAfter id p.2 (u.doneAt id y.2.op w.2) = true
    let quiet (y : Slot × Slotted) : Prop := (∀ q ∈ reads y, ¬pending q) ∧ ∀ w ∈ Instr.regWrites y.2.op, ¬later y w
    let tval (y : Slot × Slotted) (q : RegRef) : Nat := q.num * 2 ^ 16 + q.cls * 2 ^ 12 + y.1.bit * 256
    (∀ y ∈ xs, ∀ g off e v, y.2.op = .jmpBkt g off → c.performs inR y = true → e < 64 →
      let entry (j : Nat) : Word := a - BitVec.ofNat 64 (a.toNat % 8) + off.signExtend 64 + BitVec.ofNat 64 (8 * j)
      (∀ j, j < e → ∃ row, u.fetch id (entry j) 8 = .ok row ∧ bytesAt row 0 4 ≠ 0xFFFFFFFF ∧ bytesAt row 0 4 < (c.rg g).toNat) →
      u.fetch id (entry e) 8 = .trap 5 v → r = .error (5, v)) ∧
    (u.bucketError id a inR xs = none →
      (64 < a.toNat % 64 + bs.length → gives 1 0x804) ∧
      (a.toNat % 64 + bs.length ≤ 64 →
        (∀ before y after, raw = before ++ y :: after → (∀ z ∈ before, sub z = 0) → sub y ≠ 0 → gives 1 (y.slot.bit * 256 + sub y)) ∧
        ((∀ y ∈ raw, sub y = 0) →
          (¬paired → gives 1 0x806) ∧ (paired → ¬written.Nodup → gives 1 0x805) ∧
          (paired → written.Nodup →
            (∀ before y after, xs = before ++ y :: after → (∀ z ∈ before, ¬low z) → low y → gives 2 (y.1.bit * 256)) ∧
            ((∀ y ∈ xs, ¬low y) →
              (c.sbchk.getLsbD 0 = false → r = .ok xs) ∧
              (c.sbchk.getLsbD 0 = true →
                (∀ before y after, xs = before ++ y :: after → (∀ z ∈ before, quiet z) →
                  (∀ qs q qt, reads y = qs ++ q :: qt → (∀ z ∈ qs, ¬pending z) → pending q → gives 3 (tval y q)) ∧
                  (∀ ws w wt, (∀ q ∈ reads y, ¬pending q) → Instr.regWrites y.2.op = ws ++ w :: wt → (∀ z ∈ ws, ¬later y z) → later y w →
                    gives 3 (tval y w.1))) ∧
                ((∀ y ∈ xs, quiet y) → r = match (if inR then c.strideStall (u.core pid core).pcyc xs else none) with
                  | none => .ok xs
                  | some j => .error (3, BitVec.ofNat 64 (j * 2 ^ 16 + 2 ^ 12 + 2048)))))))))) ∧
  (∀ e ∈ c.pend, ∀ g y, e.tgt = .g g y → (rG g, .pipe e.due) ∈ c.pendingRegs) ∧
  (∀ d e, u.doneAfter id (.pipe d) (.pipe e) = decide (e < d) ∧ u.doneAfter id (.cycle d) (.cycle e) = decide (e < d) ∧
    u.doneAfter id .unknown (.pipe e) = true ∧ u.doneAfter id (.pipe d) .unknown = true)

/-- R34, R35, R38, R248: a step runs the decoded instructions. With nothing on the agenda the clock ticks, and an event acts by its own meaning.
A core's cycle makes its choice once the pipeline cycle has begun and the waits are judged; it performs the slots of the chosen bundles in the
order of R34, once no waiting instruction of theirs waits or traps (R418), each by `exec` of the instruction its word decodes to; then the bundle
ends: PC becomes the next bundle's address, the stall count 1 + max(`st`), own cycles and issue number grow by one. A slot that traps leaves
every slot of its bundle without effect, but a bundle that stands in no replay has ended the one of its level (R297). `ifr.rd` reads the record
as it stands before the slots (R409). A bundle of one slot decodes to that slot's word. The agenda, plain data, says which move is next (log 1,
DESIGN CHOICE); pads cost no issue (log 56, DESIGN CHOICE). -/
def Obligations.StepRunsDecoded : Prop := ∀ (s : State) (e : Instr) (r : List Instr) (pid core : Nat),
  (s.agenda = [] → step s = .next s.tick) ∧
  (s.agenda = e :: r → e.cls = .event → (∀ p q, e ≠ .issueChoice p q) → step s = exec e { s with agenda := r }) ∧
  (∀ (sl : Slot) (w : BitVec 48) (x : Slotted), w.toNat < 2 ^ sl.cls.bits → decodeSlot sl.cls w = .ok x →
    slotsOf (decodeBundle (BitVec.ofNat 8 (2 ^ sl.bit) :: leBytes (sl.cls.bits / 8) w.toNat)) = [(sl, x)]) ∧
  (∀ t, s.agenda = .issueChoice pid core :: r →
    let a : State := { s with agenda := r }
    exec (.issueChoice pid core) (if a.advances pid core then a.beforeChoice pid core else a) = .next t →
    let bs := t.latch.chosen
    let left := bs.foldl State.leaveReplay t
    let start : State := { left with latch := { left.latch with record := left.recordRead bs } }
    waitSlots start (slotOrder bs) = .ok [] →
    (∀ u fs, Performed (slotOrder bs) start u fs →
      ∃ f, step s = .next f ∧ SameMem u f ∧ f.net = u.net ∧ f.pkgs = u.pkgs ∧ f.latch = {} ∧
        (∀ id, (∀ b ∈ bs, placeOf b.id ≠ placeOf id) → f.ctx id = u.ctx id) ∧
        (∀ b, bs = [b] → b.replay = false →
          let ls := (fs.filter (fun l => l.1 = b.id)).map (·.2)
          let c := u.ctx b.id
          let d := if (t.ctx b.id).level = .program ∧ c.halted = false then c.strokeStep b (ls.any (·.blocking)) (ls.any (·.stkEnd)) else c
          f.ctx b.id = { d with pc := c.npc, stall := if c.halted then 0 else 1 + maxSt b.slots, own := c.own + 1,
                                issued := c.issued + 1, age := 0, next := none })) ∧
    (∀ b before x after m fs z cause tval, bs = [b] → slotOrder bs = before ++ (b, x) :: after →
      Performed before start m fs → m.performs b x = true →
      exec (m.turned b.id x.2.op) (m.slotState b x true) = .next z → z.latch.trap = some (cause, tval) → z.latch.keep = false →
      step s = .next { (t.leaveReplay b).takeTrap b.id cause tval b.addr with latch := {} }))

/-- R38, whole: a bundle occupies 1 + max(`st`) of its context's own cycles, the maximum over every present slot, performed or not
(the end of a bundle does not look at what was performed); until those cycles have passed the context is not in READY, so its
next bundle does not issue; each own cycle takes one off the count. A `wait.at` that had to wait counts from the end of its wait (log 87, DEDUCED). -/
def Obligations.BundleDuration : Prop := ∀ (pre s : State) (fs : List (CtxId × Latch)) (b : Chosen) (m n : Nat) (c : Ctx),
  ((s.ctx b.id).halted = false → ∃ k, ((pre.finishBundle fs s b).ctx b.id).stall = 1 + k ∧
    ((pre.finishBundle fs s b).ctx b.id).own = (s.ctx b.id).own + 1 ∧
    (∀ x ∈ b.slots, x.2.st.toNat ≤ k) ∧ (k = 0 ∨ ∃ x ∈ b.slots, x.2.st.toNat = k)) ∧
  (∀ pid core x, x ∈ s.readyList pid core → (s.ctx ⟨pid, core, x⟩).stall = 0) ∧
  (c.stall = 1 + m → c.parkMark = false →
    (∀ j, j ≤ m → ((List.range j).foldl (fun (c : Ctx) i => c.tick (n + i)) c).stall = 1 + m - j) ∧
    ((List.range (m + 1)).foldl (fun (c : Ctx) i => c.tick (n + i)) c).stall = 0 ∧
    ((List.range (m + 1)).foldl (fun (c : Ctx) i => c.tick (n + i)) c).own = c.own + m)

/-- The model's invariant of memory (log entry 3): whatever a step does, memory stays in its canonical form, so that equal memories
are equal data. -/
def Obligations.StepKeepsMemory : Prop := ∀ s t : State, s.memOk → step s = .next t → t.memOk
end

