-- ==== Sys2Proof/Laws/State.lean ====
section
/-! SUPPORT. What each named update of the state leaves of each field, and what is read back where it wrote. -/

namespace Sys2Proof.Machine

/-! ### Sparse data -/

theorem NMap_get_put_some {α : Type} (m : NMap α) (q : Nat) (x : α) : NMap.get (NMap.put m q (some x)) q = some x := by
  induction m with
  | nil => simp [NMap.put, NMap.get]
  | cons c m ih =>
    obtain ⟨k, v⟩ := c
    unfold NMap.put
    split
    · rename_i h
      have h1 : ¬k = q := by omega
      have h2 : ¬q < k := by omega
      simp [NMap.get, h1, h2, ih]
    · split
      · rename_i h; simp [NMap.get, h]
      · simp [NMap.get]

theorem NMap_get_put_other {α : Type} (m : NMap α) (q r : Nat) (x : α) (h : r ≠ q) :
    NMap.get (NMap.put m q (some x)) r = NMap.get m r := by
  induction m with
  | nil =>
    have h1 : ¬q = r := fun e => h e.symm
    simp [NMap.put, NMap.get, h1]
  | cons c m ih =>
    obtain ⟨k, v⟩ := c
    unfold NMap.put
    split
    · simp [NMap.get, ih]
    · split
      · rename_i _ h2
        have h1 : ¬q = r := fun e => h e.symm
        subst h2
        simp [NMap.get, h1]
      · rename_i h1 h2
        have h3 : ¬q = r := fun e => h e.symm
        simp only [NMap.get, h3, if_false]
        by_cases h4 : r < q
        · have h5 : ¬k = r := by omega
          have h6 : r < k := by omega
          simp [h4, h5, h6]
        · simp [h4]

/-! ### Cores, packages and contexts -/

@[simp] theorem State.core_setCore (s : State) (p c : Nat) (k : Core) : (s.setCore p c k).core p c = k := by
  simp [State.core, State.setCore, NMap_get_put_some]

theorem State.core_setCore_other (s : State) (p c p' c' : Nat) (k : Core) (h : coreKey p' c' ≠ coreKey p c) :
    (s.setCore p c k).core p' c' = s.core p' c' := by
  simp [State.core, State.setCore, NMap_get_put_other _ _ _ _ h]

@[simp] theorem State.core_updCore (s : State) (p c : Nat) (f : Core → Core) :
    (s.updCore p c f).core p c = f (s.core p c) := by simp [State.updCore]

theorem State.core_updCore_other (s : State) (p c p' c' : Nat) (f : Core → Core) (h : coreKey p' c' ≠ coreKey p c) :
    (s.updCore p c f).core p' c' = s.core p' c' := State.core_setCore_other s p c p' c' _ h

@[simp] theorem State.pkg_setPkg (s : State) (p : Nat) (x : Pkg) : (s.setPkg p x).pkg p = x := by
  simp [State.pkg, State.setPkg, NMap_get_put_some]

theorem State.pkg_setPkg_other (s : State) (p q : Nat) (x : Pkg) (h : q ≠ p) : (s.setPkg p x).pkg q = s.pkg q := by
  simp [State.pkg, State.setPkg, NMap_get_put_other _ _ _ _ h]

@[simp] theorem State.pkg_updPkg (s : State) (p : Nat) (f : Pkg → Pkg) : (s.updPkg p f).pkg p = f (s.pkg p) := by
  simp [State.updPkg]

theorem State.pkg_updPkg_other (s : State) (p q : Nat) (f : Pkg → Pkg) (h : q ≠ p) :
    (s.updPkg p f).pkg q = s.pkg q := State.pkg_setPkg_other s p q _ h

@[simp] theorem State.core_setPkg (s : State) (p q c : Nat) (x : Pkg) : (s.setPkg p x).core q c = s.core q c := rfl
@[simp] theorem State.core_updPkg (s : State) (p q c : Nat) (f : Pkg → Pkg) : (s.updPkg p f).core q c = s.core q c := rfl
@[simp] theorem State.pkg_setCore (s : State) (p c q : Nat) (k : Core) : (s.setCore p c k).pkg q = s.pkg q := rfl
@[simp] theorem State.pkg_updCore (s : State) (p c q : Nat) (f : Core → Core) : (s.updCore p c f).pkg q = s.pkg q := rfl
@[simp] theorem State.pkg_updCtx (s : State) (id : CtxId) (q : Nat) (f : Ctx → Ctx) : (s.updCtx id f).pkg q = s.pkg q := rfl

@[simp] theorem CoreData.ctx_setCtx (d : CoreData) (n : Nat) (c : Ctx) : (d.setCtx n c).ctx n = c := by
  simp [CoreData.ctx, CoreData.setCtx]

theorem CoreData.ctx_setCtx_other (d : CoreData) (n m : Nat) (c : Ctx) (h : m % 4 ≠ n % 4) :
    (d.setCtx n c).ctx m = d.ctx m := by
  simp only [CoreData.ctx, CoreData.setCtx]
  exact Vector.getElem_set_ne _ _ (fun e => h e.symm)

@[simp] theorem State.ctx_setCtx (s : State) (id : CtxId) (c : Ctx) : (s.setCtx id c).ctx id = c := by
  simp [State.ctx, State.setCtx]

@[simp] theorem State.ctx_updCtx (s : State) (id : CtxId) (f : Ctx → Ctx) : (s.updCtx id f).ctx id = f (s.ctx id) := by
  simp [State.updCtx]

theorem State.ctx_setCtx_other (s : State) (id j : CtxId) (c : Ctx) (h : placeOf j ≠ placeOf id) :
    (s.setCtx id c).ctx j = s.ctx j := by
  unfold State.ctx State.setCtx
  by_cases hk : coreKey j.pid j.core = coreKey id.pid id.core
  · have hc : (s.updCore id.pid id.core fun k => { k with live := k.live.setCtx id.ctx c }).core j.pid j.core
        = { s.core id.pid id.core with live := (s.core id.pid id.core).live.setCtx id.ctx c } := by
      have := State.core_updCore s id.pid id.core (fun k => { k with live := k.live.setCtx id.ctx c })
      simpa [State.core, hk] using this
    have hs : s.core j.pid j.core = s.core id.pid id.core := by simp [State.core, hk]
    rw [hc, hs]
    refine CoreData.ctx_setCtx_other _ _ _ _ (fun e => h ?_)
    simp [placeOf, hk, e]
  · rw [State.core_updCore_other _ _ _ _ _ _ hk]

theorem State.ctx_updCtx_other (s : State) (id j : CtxId) (f : Ctx → Ctx) (h : placeOf j ≠ placeOf id) :
    (s.updCtx id f).ctx j = s.ctx j := State.ctx_setCtx_other s id j _ h

@[simp] theorem State.ctx_updPkg (s : State) (p : Nat) (f : Pkg → Pkg) (id : CtxId) : (s.updPkg p f).ctx id = s.ctx id := rfl

/-! ### One lemma a field and update -/

@[simp] theorem State.setCore_pkgs (s : State) (p c : Nat) (k : Core) : (s.setCore p c k).pkgs = s.pkgs := rfl
@[simp] theorem State.setCore_mem (s : State) (p c : Nat) (k : Core) : (s.setCore p c k).mem = s.mem := rfl
@[simp] theorem State.setCore_bad (s : State) (p c : Nat) (k : Core) : (s.setCore p c k).bad = s.bad := rfl
@[simp] theorem State.setCore_rels (s : State) (p c : Nat) (k : Core) : (s.setCore p c k).rels = s.rels := rfl
@[simp] theorem State.setCore_net (s : State) (p c : Nat) (k : Core) : (s.setCore p c k).net = s.net := rfl
@[simp] theorem State.setCore_cur (s : State) (p c : Nat) (k : Core) : (s.setCore p c k).cur = s.cur := rfl
@[simp] theorem State.setCore_latch (s : State) (p c : Nat) (k : Core) : (s.setCore p c k).latch = s.latch := rfl
@[simp] theorem State.setCore_agenda (s : State) (p c : Nat) (k : Core) : (s.setCore p c k).agenda = s.agenda := rfl
@[simp] theorem State.setCore_longLimit (s : State) (p c : Nat) (k : Core) : (s.setCore p c k).longLimit = s.longLimit := rfl
@[simp] theorem State.setCore_fresh (s : State) (p c : Nat) (k : Core) : (s.setCore p c k).fresh = s.fresh := rfl
@[simp] theorem State.setCore_ticks (s : State) (p c : Nat) (k : Core) : (s.setCore p c k).ticks = s.ticks := rfl
@[simp] theorem State.setCore_phase (s : State) (p c : Nat) (k : Core) : (s.setCore p c k).phase = s.phase := rfl
@[simp] theorem State.updCore_pkgs (s : State) (p c : Nat) (f : Core → Core) : (s.updCore p c f).pkgs = s.pkgs := rfl
@[simp] theorem State.updCore_mem (s : State) (p c : Nat) (f : Core → Core) : (s.updCore p c f).mem = s.mem := rfl
@[simp] theorem State.updCore_bad (s : State) (p c : Nat) (f : Core → Core) : (s.updCore p c f).bad = s.bad := rfl
@[simp] theorem State.updCore_rels (s : State) (p c : Nat) (f : Core → Core) : (s.updCore p c f).rels = s.rels := rfl
@[simp] theorem State.updCore_net (s : State) (p c : Nat) (f : Core → Core) : (s.updCore p c f).net = s.net := rfl
@[simp] theorem State.updCore_cur (s : State) (p c : Nat) (f : Core → Core) : (s.updCore p c f).cur = s.cur := rfl
@[simp] theorem State.updCore_latch (s : State) (p c : Nat) (f : Core → Core) : (s.updCore p c f).latch = s.latch := rfl
@[simp] theorem State.updCore_agenda (s : State) (p c : Nat) (f : Core → Core) : (s.updCore p c f).agenda = s.agenda := rfl
@[simp] theorem State.updCore_longLimit (s : State) (p c : Nat) (f : Core → Core) : (s.updCore p c f).longLimit = s.longLimit := rfl
@[simp] theorem State.updCore_fresh (s : State) (p c : Nat) (f : Core → Core) : (s.updCore p c f).fresh = s.fresh := rfl
@[simp] theorem State.updCore_ticks (s : State) (p c : Nat) (f : Core → Core) : (s.updCore p c f).ticks = s.ticks := rfl
@[simp] theorem State.updCore_phase (s : State) (p c : Nat) (f : Core → Core) : (s.updCore p c f).phase = s.phase := rfl
@[simp] theorem State.setPkg_cores (s : State) (p : Nat) (x : Pkg) : (s.setPkg p x).cores = s.cores := rfl
@[simp] theorem State.setPkg_mem (s : State) (p : Nat) (x : Pkg) : (s.setPkg p x).mem = s.mem := rfl
@[simp] theorem State.setPkg_bad (s : State) (p : Nat) (x : Pkg) : (s.setPkg p x).bad = s.bad := rfl
@[simp] theorem State.setPkg_rels (s : State) (p : Nat) (x : Pkg) : (s.setPkg p x).rels = s.rels := rfl
@[simp] theorem State.setPkg_net (s : State) (p : Nat) (x : Pkg) : (s.setPkg p x).net = s.net := rfl
@[simp] theorem State.setPkg_cur (s : State) (p : Nat) (x : Pkg) : (s.setPkg p x).cur = s.cur := rfl
@[simp] theorem State.setPkg_latch (s : State) (p : Nat) (x : Pkg) : (s.setPkg p x).latch = s.latch := rfl
@[simp] theorem State.setPkg_agenda (s : State) (p : Nat) (x : Pkg) : (s.setPkg p x).agenda = s.agenda := rfl
@[simp] theorem State.setPkg_longLimit (s : State) (p : Nat) (x : Pkg) : (s.setPkg p x).longLimit = s.longLimit := rfl
@[simp] theorem State.setPkg_fresh (s : State) (p : Nat) (x : Pkg) : (s.setPkg p x).fresh = s.fresh := rfl
@[simp] theorem State.setPkg_ticks (s : State) (p : Nat) (x : Pkg) : (s.setPkg p x).ticks = s.ticks := rfl
@[simp] theorem State.setPkg_phase (s : State) (p : Nat) (x : Pkg) : (s.setPkg p x).phase = s.phase := rfl
@[simp] theorem State.updPkg_cores (s : State) (p : Nat) (f : Pkg → Pkg) : (s.updPkg p f).cores = s.cores := rfl
@[simp] theorem State.updPkg_mem (s : State) (p : Nat) (f : Pkg → Pkg) : (s.updPkg p f).mem = s.mem := rfl
@[simp] theorem State.updPkg_bad (s : State) (p : Nat) (f : Pkg → Pkg) : (s.updPkg p f).bad = s.bad := rfl
@[simp] theorem State.updPkg_rels (s : State) (p : Nat) (f : Pkg → Pkg) : (s.updPkg p f).rels = s.rels := rfl
@[simp] theorem State.updPkg_net (s : State) (p : Nat) (f : Pkg → Pkg) : (s.updPkg p f).net = s.net := rfl
@[simp] theorem State.updPkg_cur (s : State) (p : Nat) (f : Pkg → Pkg) : (s.updPkg p f).cur = s.cur := rfl
@[simp] theorem State.updPkg_latch (s : State) (p : Nat) (f : Pkg → Pkg) : (s.updPkg p f).latch = s.latch := rfl
@[simp] theorem State.updPkg_agenda (s : State) (p : Nat) (f : Pkg → Pkg) : (s.updPkg p f).agenda = s.agenda := rfl
@[simp] theorem State.updPkg_longLimit (s : State) (p : Nat) (f : Pkg → Pkg) : (s.updPkg p f).longLimit = s.longLimit := rfl
@[simp] theorem State.updPkg_fresh (s : State) (p : Nat) (f : Pkg → Pkg) : (s.updPkg p f).fresh = s.fresh := rfl
@[simp] theorem State.updPkg_ticks (s : State) (p : Nat) (f : Pkg → Pkg) : (s.updPkg p f).ticks = s.ticks := rfl
@[simp] theorem State.updPkg_phase (s : State) (p : Nat) (f : Pkg → Pkg) : (s.updPkg p f).phase = s.phase := rfl
@[simp] theorem State.setCtx_pkgs (s : State) (id : CtxId) (c : Ctx) : (s.setCtx id c).pkgs = s.pkgs := rfl
@[simp] theorem State.setCtx_mem (s : State) (id : CtxId) (c : Ctx) : (s.setCtx id c).mem = s.mem := rfl
@[simp] theorem State.setCtx_bad (s : State) (id : CtxId) (c : Ctx) : (s.setCtx id c).bad = s.bad := rfl
@[simp] theorem State.setCtx_rels (s : State) (id : CtxId) (c : Ctx) : (s.setCtx id c).rels = s.rels := rfl
@[simp] theorem State.setCtx_net (s : State) (id : CtxId) (c : Ctx) : (s.setCtx id c).net = s.net := rfl
@[simp] theorem State.setCtx_cur (s : State) (id : CtxId) (c : Ctx) : (s.setCtx id c).cur = s.cur := rfl
@[simp] theorem State.setCtx_latch (s : State) (id : CtxId) (c : Ctx) : (s.setCtx id c).latch = s.latch := rfl
@[simp] theorem State.setCtx_agenda (s : State) (id : CtxId) (c : Ctx) : (s.setCtx id c).agenda = s.agenda := rfl
@[simp] theorem State.setCtx_longLimit (s : State) (id : CtxId) (c : Ctx) : (s.setCtx id c).longLimit = s.longLimit := rfl
@[simp] theorem State.setCtx_fresh (s : State) (id : CtxId) (c : Ctx) : (s.setCtx id c).fresh = s.fresh := rfl
@[simp] theorem State.setCtx_ticks (s : State) (id : CtxId) (c : Ctx) : (s.setCtx id c).ticks = s.ticks := rfl
@[simp] theorem State.setCtx_phase (s : State) (id : CtxId) (c : Ctx) : (s.setCtx id c).phase = s.phase := rfl
@[simp] theorem State.updCtx_pkgs (s : State) (id : CtxId) (f : Ctx → Ctx) : (s.updCtx id f).pkgs = s.pkgs := rfl
@[simp] theorem State.updCtx_mem (s : State) (id : CtxId) (f : Ctx → Ctx) : (s.updCtx id f).mem = s.mem := rfl
@[simp] theorem State.updCtx_bad (s : State) (id : CtxId) (f : Ctx → Ctx) : (s.updCtx id f).bad = s.bad := rfl
@[simp] theorem State.updCtx_rels (s : State) (id : CtxId) (f : Ctx → Ctx) : (s.updCtx id f).rels = s.rels := rfl
@[simp] theorem State.updCtx_net (s : State) (id : CtxId) (f : Ctx → Ctx) : (s.updCtx id f).net = s.net := rfl
@[simp] theorem State.updCtx_cur (s : State) (id : CtxId) (f : Ctx → Ctx) : (s.updCtx id f).cur = s.cur := rfl
@[simp] theorem State.updCtx_latch (s : State) (id : CtxId) (f : Ctx → Ctx) : (s.updCtx id f).latch = s.latch := rfl
@[simp] theorem State.updCtx_agenda (s : State) (id : CtxId) (f : Ctx → Ctx) : (s.updCtx id f).agenda = s.agenda := rfl
@[simp] theorem State.updCtx_longLimit (s : State) (id : CtxId) (f : Ctx → Ctx) : (s.updCtx id f).longLimit = s.longLimit := rfl
@[simp] theorem State.updCtx_fresh (s : State) (id : CtxId) (f : Ctx → Ctx) : (s.updCtx id f).fresh = s.fresh := rfl
@[simp] theorem State.updCtx_ticks (s : State) (id : CtxId) (f : Ctx → Ctx) : (s.updCtx id f).ticks = s.ticks := rfl
@[simp] theorem State.updCtx_phase (s : State) (id : CtxId) (f : Ctx → Ctx) : (s.updCtx id f).phase = s.phase := rfl
@[simp] theorem State.updMe_pkgs (s : State) (f : Ctx → Ctx) : (s.updMe f).pkgs = s.pkgs := rfl
@[simp] theorem State.updMe_mem (s : State) (f : Ctx → Ctx) : (s.updMe f).mem = s.mem := rfl
@[simp] theorem State.updMe_bad (s : State) (f : Ctx → Ctx) : (s.updMe f).bad = s.bad := rfl
@[simp] theorem State.updMe_rels (s : State) (f : Ctx → Ctx) : (s.updMe f).rels = s.rels := rfl
@[simp] theorem State.updMe_net (s : State) (f : Ctx → Ctx) : (s.updMe f).net = s.net := rfl
@[simp] theorem State.updMe_cur (s : State) (f : Ctx → Ctx) : (s.updMe f).cur = s.cur := rfl
@[simp] theorem State.updMe_latch (s : State) (f : Ctx → Ctx) : (s.updMe f).latch = s.latch := rfl
@[simp] theorem State.updMe_agenda (s : State) (f : Ctx → Ctx) : (s.updMe f).agenda = s.agenda := rfl
@[simp] theorem State.updMe_longLimit (s : State) (f : Ctx → Ctx) : (s.updMe f).longLimit = s.longLimit := rfl
@[simp] theorem State.updMe_fresh (s : State) (f : Ctx → Ctx) : (s.updMe f).fresh = s.fresh := rfl
@[simp] theorem State.updMe_ticks (s : State) (f : Ctx → Ctx) : (s.updMe f).ticks = s.ticks := rfl
@[simp] theorem State.updMe_phase (s : State) (f : Ctx → Ctx) : (s.updMe f).phase = s.phase := rfl
@[simp] theorem State.updMyCore_pkgs (s : State) (f : Core → Core) : (s.updMyCore f).pkgs = s.pkgs := rfl
@[simp] theorem State.updMyCore_mem (s : State) (f : Core → Core) : (s.updMyCore f).mem = s.mem := rfl
@[simp] theorem State.updMyCore_bad (s : State) (f : Core → Core) : (s.updMyCore f).bad = s.bad := rfl
@[simp] theorem State.updMyCore_rels (s : State) (f : Core → Core) : (s.updMyCore f).rels = s.rels := rfl
@[simp] theorem State.updMyCore_net (s : State) (f : Core → Core) : (s.updMyCore f).net = s.net := rfl
@[simp] theorem State.updMyCore_cur (s : State) (f : Core → Core) : (s.updMyCore f).cur = s.cur := rfl
@[simp] theorem State.updMyCore_latch (s : State) (f : Core → Core) : (s.updMyCore f).latch = s.latch := rfl
@[simp] theorem State.updMyCore_agenda (s : State) (f : Core → Core) : (s.updMyCore f).agenda = s.agenda := rfl
@[simp] theorem State.updMyCore_longLimit (s : State) (f : Core → Core) : (s.updMyCore f).longLimit = s.longLimit := rfl
@[simp] theorem State.updMyCore_fresh (s : State) (f : Core → Core) : (s.updMyCore f).fresh = s.fresh := rfl
@[simp] theorem State.updMyCore_ticks (s : State) (f : Core → Core) : (s.updMyCore f).ticks = s.ticks := rfl
@[simp] theorem State.updMyCore_phase (s : State) (f : Core → Core) : (s.updMyCore f).phase = s.phase := rfl
@[simp] theorem State.updLive_pkgs (s : State) (p c : Nat) (f : CoreData → CoreData) : (s.updLive p c f).pkgs = s.pkgs := rfl
@[simp] theorem State.updLive_mem (s : State) (p c : Nat) (f : CoreData → CoreData) : (s.updLive p c f).mem = s.mem := rfl
@[simp] theorem State.updLive_bad (s : State) (p c : Nat) (f : CoreData → CoreData) : (s.updLive p c f).bad = s.bad := rfl
@[simp] theorem State.updLive_rels (s : State) (p c : Nat) (f : CoreData → CoreData) : (s.updLive p c f).rels = s.rels := rfl
@[simp] theorem State.updLive_net (s : State) (p c : Nat) (f : CoreData → CoreData) : (s.updLive p c f).net = s.net := rfl
@[simp] theorem State.updLive_cur (s : State) (p c : Nat) (f : CoreData → CoreData) : (s.updLive p c f).cur = s.cur := rfl
@[simp] theorem State.updLive_latch (s : State) (p c : Nat) (f : CoreData → CoreData) : (s.updLive p c f).latch = s.latch := rfl
@[simp] theorem State.updLive_agenda (s : State) (p c : Nat) (f : CoreData → CoreData) : (s.updLive p c f).agenda = s.agenda := rfl
@[simp] theorem State.updLive_longLimit (s : State) (p c : Nat) (f : CoreData → CoreData) : (s.updLive p c f).longLimit = s.longLimit := rfl
@[simp] theorem State.updLive_fresh (s : State) (p c : Nat) (f : CoreData → CoreData) : (s.updLive p c f).fresh = s.fresh := rfl
@[simp] theorem State.updLive_ticks (s : State) (p c : Nat) (f : CoreData → CoreData) : (s.updLive p c f).ticks = s.ticks := rfl
@[simp] theorem State.updLive_phase (s : State) (p c : Nat) (f : CoreData → CoreData) : (s.updLive p c f).phase = s.phase := rfl
@[simp] theorem State.updField_cores (s : State) (p n : Nat) (f : Field → Field) : (s.updField p n f).cores = s.cores := rfl
@[simp] theorem State.updField_mem (s : State) (p n : Nat) (f : Field → Field) : (s.updField p n f).mem = s.mem := rfl
@[simp] theorem State.updField_bad (s : State) (p n : Nat) (f : Field → Field) : (s.updField p n f).bad = s.bad := rfl
@[simp] theorem State.updField_rels (s : State) (p n : Nat) (f : Field → Field) : (s.updField p n f).rels = s.rels := rfl
@[simp] theorem State.updField_net (s : State) (p n : Nat) (f : Field → Field) : (s.updField p n f).net = s.net := rfl
@[simp] theorem State.updField_cur (s : State) (p n : Nat) (f : Field → Field) : (s.updField p n f).cur = s.cur := rfl
@[simp] theorem State.updField_latch (s : State) (p n : Nat) (f : Field → Field) : (s.updField p n f).latch = s.latch := rfl
@[simp] theorem State.updField_agenda (s : State) (p n : Nat) (f : Field → Field) : (s.updField p n f).agenda = s.agenda := rfl
@[simp] theorem State.updField_longLimit (s : State) (p n : Nat) (f : Field → Field) : (s.updField p n f).longLimit = s.longLimit := rfl
@[simp] theorem State.updField_fresh (s : State) (p n : Nat) (f : Field → Field) : (s.updField p n f).fresh = s.fresh := rfl
@[simp] theorem State.updField_ticks (s : State) (p n : Nat) (f : Field → Field) : (s.updField p n f).ticks = s.ticks := rfl
@[simp] theorem State.updField_phase (s : State) (p n : Nat) (f : Field → Field) : (s.updField p n f).phase = s.phase := rfl
@[simp] theorem State.count_cores (s : State) (p n : Nat) : (s.count p n).cores = s.cores := rfl
@[simp] theorem State.count_mem (s : State) (p n : Nat) : (s.count p n).mem = s.mem := rfl
@[simp] theorem State.count_bad (s : State) (p n : Nat) : (s.count p n).bad = s.bad := rfl
@[simp] theorem State.count_rels (s : State) (p n : Nat) : (s.count p n).rels = s.rels := rfl
@[simp] theorem State.count_net (s : State) (p n : Nat) : (s.count p n).net = s.net := rfl
@[simp] theorem State.count_cur (s : State) (p n : Nat) : (s.count p n).cur = s.cur := rfl
@[simp] theorem State.count_latch (s : State) (p n : Nat) : (s.count p n).latch = s.latch := rfl
@[simp] theorem State.count_agenda (s : State) (p n : Nat) : (s.count p n).agenda = s.agenda := rfl
@[simp] theorem State.count_longLimit (s : State) (p n : Nat) : (s.count p n).longLimit = s.longLimit := rfl
@[simp] theorem State.count_fresh (s : State) (p n : Nat) : (s.count p n).fresh = s.fresh := rfl
@[simp] theorem State.count_ticks (s : State) (p n : Nat) : (s.count p n).ticks = s.ticks := rfl
@[simp] theorem State.count_phase (s : State) (p n : Nat) : (s.count p n).phase = s.phase := rfl
@[simp] theorem State.event_cores (s : State) (p : Nat) (e : DevEvent) : (s.event p e).cores = s.cores := rfl
@[simp] theorem State.event_mem (s : State) (p : Nat) (e : DevEvent) : (s.event p e).mem = s.mem := rfl
@[simp] theorem State.event_bad (s : State) (p : Nat) (e : DevEvent) : (s.event p e).bad = s.bad := rfl
@[simp] theorem State.event_rels (s : State) (p : Nat) (e : DevEvent) : (s.event p e).rels = s.rels := rfl
@[simp] theorem State.event_net (s : State) (p : Nat) (e : DevEvent) : (s.event p e).net = s.net := rfl
@[simp] theorem State.event_cur (s : State) (p : Nat) (e : DevEvent) : (s.event p e).cur = s.cur := rfl
@[simp] theorem State.event_latch (s : State) (p : Nat) (e : DevEvent) : (s.event p e).latch = s.latch := rfl
@[simp] theorem State.event_agenda (s : State) (p : Nat) (e : DevEvent) : (s.event p e).agenda = s.agenda := rfl
@[simp] theorem State.event_longLimit (s : State) (p : Nat) (e : DevEvent) : (s.event p e).longLimit = s.longLimit := rfl
@[simp] theorem State.event_fresh (s : State) (p : Nat) (e : DevEvent) : (s.event p e).fresh = s.fresh := rfl
@[simp] theorem State.event_ticks (s : State) (p : Nat) (e : DevEvent) : (s.event p e).ticks = s.ticks := rfl
@[simp] theorem State.event_phase (s : State) (p : Nat) (e : DevEvent) : (s.event p e).phase = s.phase := rfl
@[simp] theorem State.updPart_cores (s : State) (p n : Nat) (f : Part → Part) : (s.updPart p n f).cores = s.cores := rfl
@[simp] theorem State.updPart_mem (s : State) (p n : Nat) (f : Part → Part) : (s.updPart p n f).mem = s.mem := rfl
@[simp] theorem State.updPart_bad (s : State) (p n : Nat) (f : Part → Part) : (s.updPart p n f).bad = s.bad := rfl
@[simp] theorem State.updPart_rels (s : State) (p n : Nat) (f : Part → Part) : (s.updPart p n f).rels = s.rels := rfl
@[simp] theorem State.updPart_net (s : State) (p n : Nat) (f : Part → Part) : (s.updPart p n f).net = s.net := rfl
@[simp] theorem State.updPart_cur (s : State) (p n : Nat) (f : Part → Part) : (s.updPart p n f).cur = s.cur := rfl
@[simp] theorem State.updPart_latch (s : State) (p n : Nat) (f : Part → Part) : (s.updPart p n f).latch = s.latch := rfl
@[simp] theorem State.updPart_agenda (s : State) (p n : Nat) (f : Part → Part) : (s.updPart p n f).agenda = s.agenda := rfl
@[simp] theorem State.updPart_longLimit (s : State) (p n : Nat) (f : Part → Part) : (s.updPart p n f).longLimit = s.longLimit := rfl
@[simp] theorem State.updPart_fresh (s : State) (p n : Nat) (f : Part → Part) : (s.updPart p n f).fresh = s.fresh := rfl
@[simp] theorem State.updPart_ticks (s : State) (p n : Nat) (f : Part → Part) : (s.updPart p n f).ticks = s.ticks := rfl
@[simp] theorem State.updPart_phase (s : State) (p n : Nat) (f : Part → Part) : (s.updPart p n f).phase = s.phase := rfl
@[simp] theorem State.bump_cores (s : State) : (s.bump).cores = s.cores := rfl
@[simp] theorem State.bump_pkgs (s : State) : (s.bump).pkgs = s.pkgs := rfl
@[simp] theorem State.bump_mem (s : State) : (s.bump).mem = s.mem := rfl
@[simp] theorem State.bump_bad (s : State) : (s.bump).bad = s.bad := rfl
@[simp] theorem State.bump_rels (s : State) : (s.bump).rels = s.rels := rfl
@[simp] theorem State.bump_net (s : State) : (s.bump).net = s.net := rfl
@[simp] theorem State.bump_cur (s : State) : (s.bump).cur = s.cur := rfl
@[simp] theorem State.bump_latch (s : State) : (s.bump).latch = s.latch := rfl
@[simp] theorem State.bump_agenda (s : State) : (s.bump).agenda = s.agenda := rfl
@[simp] theorem State.bump_longLimit (s : State) : (s.bump).longLimit = s.longLimit := rfl
@[simp] theorem State.bump_ticks (s : State) : (s.bump).ticks = s.ticks := rfl
@[simp] theorem State.bump_phase (s : State) : (s.bump).phase = s.phase := rfl
@[simp] theorem State.hold_cores (s : State) : (s.hold).cores = s.cores := rfl
@[simp] theorem State.hold_pkgs (s : State) : (s.hold).pkgs = s.pkgs := rfl
@[simp] theorem State.hold_mem (s : State) : (s.hold).mem = s.mem := rfl
@[simp] theorem State.hold_bad (s : State) : (s.hold).bad = s.bad := rfl
@[simp] theorem State.hold_rels (s : State) : (s.hold).rels = s.rels := rfl
@[simp] theorem State.hold_net (s : State) : (s.hold).net = s.net := rfl
@[simp] theorem State.hold_cur (s : State) : (s.hold).cur = s.cur := rfl
@[simp] theorem State.hold_agenda (s : State) : (s.hold).agenda = s.agenda := rfl
@[simp] theorem State.hold_longLimit (s : State) : (s.hold).longLimit = s.longLimit := rfl
@[simp] theorem State.hold_fresh (s : State) : (s.hold).fresh = s.fresh := rfl
@[simp] theorem State.hold_ticks (s : State) : (s.hold).ticks = s.ticks := rfl
@[simp] theorem State.hold_phase (s : State) : (s.hold).phase = s.phase := rfl
@[simp] theorem State.holdKeep_cores (s : State) : (s.holdKeep).cores = s.cores := rfl
@[simp] theorem State.holdKeep_pkgs (s : State) : (s.holdKeep).pkgs = s.pkgs := rfl
@[simp] theorem State.holdKeep_mem (s : State) : (s.holdKeep).mem = s.mem := rfl
@[simp] theorem State.holdKeep_bad (s : State) : (s.holdKeep).bad = s.bad := rfl
@[simp] theorem State.holdKeep_rels (s : State) : (s.holdKeep).rels = s.rels := rfl
@[simp] theorem State.holdKeep_net (s : State) : (s.holdKeep).net = s.net := rfl
@[simp] theorem State.holdKeep_cur (s : State) : (s.holdKeep).cur = s.cur := rfl
@[simp] theorem State.holdKeep_agenda (s : State) : (s.holdKeep).agenda = s.agenda := rfl
@[simp] theorem State.holdKeep_longLimit (s : State) : (s.holdKeep).longLimit = s.longLimit := rfl
@[simp] theorem State.holdKeep_fresh (s : State) : (s.holdKeep).fresh = s.fresh := rfl
@[simp] theorem State.holdKeep_ticks (s : State) : (s.holdKeep).ticks = s.ticks := rfl
@[simp] theorem State.holdKeep_phase (s : State) : (s.holdKeep).phase = s.phase := rfl
@[simp] theorem State.kept_cores (s : State) : (s.kept).cores = s.cores := rfl
@[simp] theorem State.kept_pkgs (s : State) : (s.kept).pkgs = s.pkgs := rfl
@[simp] theorem State.kept_mem (s : State) : (s.kept).mem = s.mem := rfl
@[simp] theorem State.kept_bad (s : State) : (s.kept).bad = s.bad := rfl
@[simp] theorem State.kept_rels (s : State) : (s.kept).rels = s.rels := rfl
@[simp] theorem State.kept_net (s : State) : (s.kept).net = s.net := rfl
@[simp] theorem State.kept_cur (s : State) : (s.kept).cur = s.cur := rfl
@[simp] theorem State.kept_agenda (s : State) : (s.kept).agenda = s.agenda := rfl
@[simp] theorem State.kept_longLimit (s : State) : (s.kept).longLimit = s.longLimit := rfl
@[simp] theorem State.kept_fresh (s : State) : (s.kept).fresh = s.fresh := rfl
@[simp] theorem State.kept_ticks (s : State) : (s.kept).ticks = s.ticks := rfl
@[simp] theorem State.kept_phase (s : State) : (s.kept).phase = s.phase := rfl
@[simp] theorem State.blocking_cores (s : State) : (s.blocking).cores = s.cores := rfl
@[simp] theorem State.blocking_pkgs (s : State) : (s.blocking).pkgs = s.pkgs := rfl
@[simp] theorem State.blocking_mem (s : State) : (s.blocking).mem = s.mem := rfl
@[simp] theorem State.blocking_bad (s : State) : (s.blocking).bad = s.bad := rfl
@[simp] theorem State.blocking_rels (s : State) : (s.blocking).rels = s.rels := rfl
@[simp] theorem State.blocking_net (s : State) : (s.blocking).net = s.net := rfl
@[simp] theorem State.blocking_cur (s : State) : (s.blocking).cur = s.cur := rfl
@[simp] theorem State.blocking_agenda (s : State) : (s.blocking).agenda = s.agenda := rfl
@[simp] theorem State.blocking_longLimit (s : State) : (s.blocking).longLimit = s.longLimit := rfl
@[simp] theorem State.blocking_fresh (s : State) : (s.blocking).fresh = s.fresh := rfl
@[simp] theorem State.blocking_ticks (s : State) : (s.blocking).ticks = s.ticks := rfl
@[simp] theorem State.blocking_phase (s : State) : (s.blocking).phase = s.phase := rfl
@[simp] theorem State.pend_pkgs (s : State) (lat : Nat) (x : Target) : (s.pend lat x).pkgs = s.pkgs := rfl
@[simp] theorem State.pend_mem (s : State) (lat : Nat) (x : Target) : (s.pend lat x).mem = s.mem := rfl
@[simp] theorem State.pend_bad (s : State) (lat : Nat) (x : Target) : (s.pend lat x).bad = s.bad := rfl
@[simp] theorem State.pend_rels (s : State) (lat : Nat) (x : Target) : (s.pend lat x).rels = s.rels := rfl
@[simp] theorem State.pend_net (s : State) (lat : Nat) (x : Target) : (s.pend lat x).net = s.net := rfl
@[simp] theorem State.pend_cur (s : State) (lat : Nat) (x : Target) : (s.pend lat x).cur = s.cur := rfl
@[simp] theorem State.pend_latch (s : State) (lat : Nat) (x : Target) : (s.pend lat x).latch = s.latch := rfl
@[simp] theorem State.pend_agenda (s : State) (lat : Nat) (x : Target) : (s.pend lat x).agenda = s.agenda := rfl
@[simp] theorem State.pend_longLimit (s : State) (lat : Nat) (x : Target) : (s.pend lat x).longLimit = s.longLimit := rfl
@[simp] theorem State.pend_fresh (s : State) (lat : Nat) (x : Target) : (s.pend lat x).fresh = s.fresh := rfl
@[simp] theorem State.pend_ticks (s : State) (lat : Nat) (x : Target) : (s.pend lat x).ticks = s.ticks := rfl
@[simp] theorem State.pend_phase (s : State) (lat : Nat) (x : Target) : (s.pend lat x).phase = s.phase := rfl
@[simp] theorem State.updEntry_pkgs (s : State) (id : CtxId) (i : Nat) (f : IfrEntry → IfrEntry) : (s.updEntry id i f).pkgs = s.pkgs := rfl
@[simp] theorem State.updEntry_mem (s : State) (id : CtxId) (i : Nat) (f : IfrEntry → IfrEntry) : (s.updEntry id i f).mem = s.mem := rfl
@[simp] theorem State.updEntry_bad (s : State) (id : CtxId) (i : Nat) (f : IfrEntry → IfrEntry) : (s.updEntry id i f).bad = s.bad := rfl
@[simp] theorem State.updEntry_rels (s : State) (id : CtxId) (i : Nat) (f : IfrEntry → IfrEntry) : (s.updEntry id i f).rels = s.rels := rfl
@[simp] theorem State.updEntry_net (s : State) (id : CtxId) (i : Nat) (f : IfrEntry → IfrEntry) : (s.updEntry id i f).net = s.net := rfl
@[simp] theorem State.updEntry_cur (s : State) (id : CtxId) (i : Nat) (f : IfrEntry → IfrEntry) : (s.updEntry id i f).cur = s.cur := rfl
@[simp] theorem State.updEntry_latch (s : State) (id : CtxId) (i : Nat) (f : IfrEntry → IfrEntry) : (s.updEntry id i f).latch = s.latch := rfl
@[simp] theorem State.updEntry_agenda (s : State) (id : CtxId) (i : Nat) (f : IfrEntry → IfrEntry) : (s.updEntry id i f).agenda = s.agenda := rfl
@[simp] theorem State.updEntry_longLimit (s : State) (id : CtxId) (i : Nat) (f : IfrEntry → IfrEntry) : (s.updEntry id i f).longLimit = s.longLimit := rfl
@[simp] theorem State.updEntry_fresh (s : State) (id : CtxId) (i : Nat) (f : IfrEntry → IfrEntry) : (s.updEntry id i f).fresh = s.fresh := rfl
@[simp] theorem State.updEntry_ticks (s : State) (id : CtxId) (i : Nat) (f : IfrEntry → IfrEntry) : (s.updEntry id i f).ticks = s.ticks := rfl
@[simp] theorem State.updEntry_phase (s : State) (id : CtxId) (i : Nat) (f : IfrEntry → IfrEntry) : (s.updEntry id i f).phase = s.phase := rfl
@[simp] theorem State.alloc_pkgs (s : State) (i kind chan cls : Nat) (x : Word) : (s.alloc i kind chan cls x).pkgs = s.pkgs := rfl
@[simp] theorem State.alloc_mem (s : State) (i kind chan cls : Nat) (x : Word) : (s.alloc i kind chan cls x).mem = s.mem := rfl
@[simp] theorem State.alloc_bad (s : State) (i kind chan cls : Nat) (x : Word) : (s.alloc i kind chan cls x).bad = s.bad := rfl
@[simp] theorem State.alloc_rels (s : State) (i kind chan cls : Nat) (x : Word) : (s.alloc i kind chan cls x).rels = s.rels := rfl
@[simp] theorem State.alloc_net (s : State) (i kind chan cls : Nat) (x : Word) : (s.alloc i kind chan cls x).net = s.net := rfl
@[simp] theorem State.alloc_cur (s : State) (i kind chan cls : Nat) (x : Word) : (s.alloc i kind chan cls x).cur = s.cur := rfl
@[simp] theorem State.alloc_latch (s : State) (i kind chan cls : Nat) (x : Word) : (s.alloc i kind chan cls x).latch = s.latch := rfl
@[simp] theorem State.alloc_agenda (s : State) (i kind chan cls : Nat) (x : Word) : (s.alloc i kind chan cls x).agenda = s.agenda := rfl
@[simp] theorem State.alloc_longLimit (s : State) (i kind chan cls : Nat) (x : Word) : (s.alloc i kind chan cls x).longLimit = s.longLimit := rfl
@[simp] theorem State.alloc_fresh (s : State) (i kind chan cls : Nat) (x : Word) : (s.alloc i kind chan cls x).fresh = s.fresh := rfl
@[simp] theorem State.alloc_ticks (s : State) (i kind chan cls : Nat) (x : Word) : (s.alloc i kind chan cls x).ticks = s.ticks := rfl
@[simp] theorem State.alloc_phase (s : State) (i kind chan cls : Nat) (x : Word) : (s.alloc i kind chan cls x).phase = s.phase := rfl
@[simp] theorem State.retire_pkgs (s : State) (id : CtxId) (i : Nat) (w : Word) : (s.retire id i w).pkgs = s.pkgs := rfl
@[simp] theorem State.retire_mem (s : State) (id : CtxId) (i : Nat) (w : Word) : (s.retire id i w).mem = s.mem := rfl
@[simp] theorem State.retire_bad (s : State) (id : CtxId) (i : Nat) (w : Word) : (s.retire id i w).bad = s.bad := rfl
@[simp] theorem State.retire_rels (s : State) (id : CtxId) (i : Nat) (w : Word) : (s.retire id i w).rels = s.rels := rfl
@[simp] theorem State.retire_net (s : State) (id : CtxId) (i : Nat) (w : Word) : (s.retire id i w).net = s.net := rfl
@[simp] theorem State.retire_cur (s : State) (id : CtxId) (i : Nat) (w : Word) : (s.retire id i w).cur = s.cur := rfl
@[simp] theorem State.retire_latch (s : State) (id : CtxId) (i : Nat) (w : Word) : (s.retire id i w).latch = s.latch := rfl
@[simp] theorem State.retire_agenda (s : State) (id : CtxId) (i : Nat) (w : Word) : (s.retire id i w).agenda = s.agenda := rfl
@[simp] theorem State.retire_longLimit (s : State) (id : CtxId) (i : Nat) (w : Word) : (s.retire id i w).longLimit = s.longLimit := rfl
@[simp] theorem State.retire_fresh (s : State) (id : CtxId) (i : Nat) (w : Word) : (s.retire id i w).fresh = s.fresh := rfl
@[simp] theorem State.retire_ticks (s : State) (id : CtxId) (i : Nat) (w : Word) : (s.retire id i w).ticks = s.ticks := rfl
@[simp] theorem State.retire_phase (s : State) (id : CtxId) (i : Nat) (w : Word) : (s.retire id i w).phase = s.phase := rfl
@[simp] theorem State.writeBytes_cores (s : State) (k : Nat) (bs : List Byte) : (s.writeBytes k bs).cores = s.cores := rfl
@[simp] theorem State.writeBytes_pkgs (s : State) (k : Nat) (bs : List Byte) : (s.writeBytes k bs).pkgs = s.pkgs := rfl
@[simp] theorem State.writeBytes_net (s : State) (k : Nat) (bs : List Byte) : (s.writeBytes k bs).net = s.net := rfl
@[simp] theorem State.writeBytes_cur (s : State) (k : Nat) (bs : List Byte) : (s.writeBytes k bs).cur = s.cur := rfl
@[simp] theorem State.writeBytes_latch (s : State) (k : Nat) (bs : List Byte) : (s.writeBytes k bs).latch = s.latch := rfl
@[simp] theorem State.writeBytes_agenda (s : State) (k : Nat) (bs : List Byte) : (s.writeBytes k bs).agenda = s.agenda := rfl
@[simp] theorem State.writeBytes_longLimit (s : State) (k : Nat) (bs : List Byte) : (s.writeBytes k bs).longLimit = s.longLimit := rfl
@[simp] theorem State.writeBytes_fresh (s : State) (k : Nat) (bs : List Byte) : (s.writeBytes k bs).fresh = s.fresh := rfl
@[simp] theorem State.writeBytes_ticks (s : State) (k : Nat) (bs : List Byte) : (s.writeBytes k bs).ticks = s.ticks := rfl
@[simp] theorem State.writeBytes_phase (s : State) (k : Nat) (bs : List Byte) : (s.writeBytes k bs).phase = s.phase := rfl
@[simp] theorem State.writeNat_cores (s : State) (k n x : Nat) : (s.writeNat k n x).cores = s.cores := rfl
@[simp] theorem State.writeNat_pkgs (s : State) (k n x : Nat) : (s.writeNat k n x).pkgs = s.pkgs := rfl
@[simp] theorem State.writeNat_net (s : State) (k n x : Nat) : (s.writeNat k n x).net = s.net := rfl
@[simp] theorem State.writeNat_cur (s : State) (k n x : Nat) : (s.writeNat k n x).cur = s.cur := rfl
@[simp] theorem State.writeNat_latch (s : State) (k n x : Nat) : (s.writeNat k n x).latch = s.latch := rfl
@[simp] theorem State.writeNat_agenda (s : State) (k n x : Nat) : (s.writeNat k n x).agenda = s.agenda := rfl
@[simp] theorem State.writeNat_longLimit (s : State) (k n x : Nat) : (s.writeNat k n x).longLimit = s.longLimit := rfl
@[simp] theorem State.writeNat_fresh (s : State) (k n x : Nat) : (s.writeNat k n x).fresh = s.fresh := rfl
@[simp] theorem State.writeNat_ticks (s : State) (k n x : Nat) : (s.writeNat k n x).ticks = s.ticks := rfl
@[simp] theorem State.writeNat_phase (s : State) (k n x : Nat) : (s.writeNat k n x).phase = s.phase := rfl
@[simp] theorem State.send_pkgs (s : State) (m : Msg) : (s.send m).pkgs = s.pkgs := rfl
@[simp] theorem State.send_mem (s : State) (m : Msg) : (s.send m).mem = s.mem := rfl
@[simp] theorem State.send_bad (s : State) (m : Msg) : (s.send m).bad = s.bad := rfl
@[simp] theorem State.send_rels (s : State) (m : Msg) : (s.send m).rels = s.rels := rfl
@[simp] theorem State.send_cur (s : State) (m : Msg) : (s.send m).cur = s.cur := rfl
@[simp] theorem State.send_latch (s : State) (m : Msg) : (s.send m).latch = s.latch := rfl
@[simp] theorem State.send_agenda (s : State) (m : Msg) : (s.send m).agenda = s.agenda := rfl
@[simp] theorem State.send_longLimit (s : State) (m : Msg) : (s.send m).longLimit = s.longLimit := rfl
@[simp] theorem State.send_fresh (s : State) (m : Msg) : (s.send m).fresh = s.fresh := rfl
@[simp] theorem State.send_ticks (s : State) (m : Msg) : (s.send m).ticks = s.ticks := rfl
@[simp] theorem State.send_phase (s : State) (m : Msg) : (s.send m).phase = s.phase := rfl
@[simp] theorem State.reply_cores (s : State) (m : Msg) (b : Body) : (s.reply m b).cores = s.cores := rfl
@[simp] theorem State.reply_pkgs (s : State) (m : Msg) (b : Body) : (s.reply m b).pkgs = s.pkgs := rfl
@[simp] theorem State.reply_mem (s : State) (m : Msg) (b : Body) : (s.reply m b).mem = s.mem := rfl
@[simp] theorem State.reply_bad (s : State) (m : Msg) (b : Body) : (s.reply m b).bad = s.bad := rfl
@[simp] theorem State.reply_rels (s : State) (m : Msg) (b : Body) : (s.reply m b).rels = s.rels := rfl
@[simp] theorem State.reply_cur (s : State) (m : Msg) (b : Body) : (s.reply m b).cur = s.cur := rfl
@[simp] theorem State.reply_latch (s : State) (m : Msg) (b : Body) : (s.reply m b).latch = s.latch := rfl
@[simp] theorem State.reply_agenda (s : State) (m : Msg) (b : Body) : (s.reply m b).agenda = s.agenda := rfl
@[simp] theorem State.reply_longLimit (s : State) (m : Msg) (b : Body) : (s.reply m b).longLimit = s.longLimit := rfl
@[simp] theorem State.reply_fresh (s : State) (m : Msg) (b : Body) : (s.reply m b).fresh = s.fresh := rfl
@[simp] theorem State.reply_ticks (s : State) (m : Msg) (b : Body) : (s.reply m b).ticks = s.ticks := rfl
@[simp] theorem State.reply_phase (s : State) (m : Msg) (b : Body) : (s.reply m b).phase = s.phase := rfl
@[simp] theorem State.writeG_pkgs (s : State) (lat : Nat) (r : GNum) (x : Word) : (s.writeG lat r x).pkgs = s.pkgs := by unfold State.writeG; split <;> rfl
@[simp] theorem State.writeG_mem (s : State) (lat : Nat) (r : GNum) (x : Word) : (s.writeG lat r x).mem = s.mem := by unfold State.writeG; split <;> rfl
@[simp] theorem State.writeG_bad (s : State) (lat : Nat) (r : GNum) (x : Word) : (s.writeG lat r x).bad = s.bad := by unfold State.writeG; split <;> rfl
@[simp] theorem State.writeG_rels (s : State) (lat : Nat) (r : GNum) (x : Word) : (s.writeG lat r x).rels = s.rels := by unfold State.writeG; split <;> rfl
@[simp] theorem State.writeG_net (s : State) (lat : Nat) (r : GNum) (x : Word) : (s.writeG lat r x).net = s.net := by unfold State.writeG; split <;> rfl
@[simp] theorem State.writeG_cur (s : State) (lat : Nat) (r : GNum) (x : Word) : (s.writeG lat r x).cur = s.cur := by unfold State.writeG; split <;> rfl
@[simp] theorem State.writeG_latch (s : State) (lat : Nat) (r : GNum) (x : Word) : (s.writeG lat r x).latch = s.latch := by unfold State.writeG; split <;> rfl
@[simp] theorem State.writeG_agenda (s : State) (lat : Nat) (r : GNum) (x : Word) : (s.writeG lat r x).agenda = s.agenda := by unfold State.writeG; split <;> rfl
@[simp] theorem State.writeG_longLimit (s : State) (lat : Nat) (r : GNum) (x : Word) : (s.writeG lat r x).longLimit = s.longLimit := by unfold State.writeG; split <;> rfl
@[simp] theorem State.writeG_fresh (s : State) (lat : Nat) (r : GNum) (x : Word) : (s.writeG lat r x).fresh = s.fresh := by unfold State.writeG; split <;> rfl
@[simp] theorem State.writeG_ticks (s : State) (lat : Nat) (r : GNum) (x : Word) : (s.writeG lat r x).ticks = s.ticks := by unfold State.writeG; split <;> rfl
@[simp] theorem State.writeG_phase (s : State) (lat : Nat) (r : GNum) (x : Word) : (s.writeG lat r x).phase = s.phase := by unfold State.writeG; split <;> rfl
@[simp] theorem State.writeA_pkgs (s : State) (lat : Nat) (r : ANum) (x : Word) : (s.writeA lat r x).pkgs = s.pkgs := rfl
@[simp] theorem State.writeA_mem (s : State) (lat : Nat) (r : ANum) (x : Word) : (s.writeA lat r x).mem = s.mem := rfl
@[simp] theorem State.writeA_bad (s : State) (lat : Nat) (r : ANum) (x : Word) : (s.writeA lat r x).bad = s.bad := rfl
@[simp] theorem State.writeA_rels (s : State) (lat : Nat) (r : ANum) (x : Word) : (s.writeA lat r x).rels = s.rels := rfl
@[simp] theorem State.writeA_net (s : State) (lat : Nat) (r : ANum) (x : Word) : (s.writeA lat r x).net = s.net := rfl
@[simp] theorem State.writeA_cur (s : State) (lat : Nat) (r : ANum) (x : Word) : (s.writeA lat r x).cur = s.cur := rfl
@[simp] theorem State.writeA_latch (s : State) (lat : Nat) (r : ANum) (x : Word) : (s.writeA lat r x).latch = s.latch := rfl
@[simp] theorem State.writeA_agenda (s : State) (lat : Nat) (r : ANum) (x : Word) : (s.writeA lat r x).agenda = s.agenda := rfl
@[simp] theorem State.writeA_longLimit (s : State) (lat : Nat) (r : ANum) (x : Word) : (s.writeA lat r x).longLimit = s.longLimit := rfl
@[simp] theorem State.writeA_fresh (s : State) (lat : Nat) (r : ANum) (x : Word) : (s.writeA lat r x).fresh = s.fresh := rfl
@[simp] theorem State.writeA_ticks (s : State) (lat : Nat) (r : ANum) (x : Word) : (s.writeA lat r x).ticks = s.ticks := rfl
@[simp] theorem State.writeA_phase (s : State) (lat : Nat) (r : ANum) (x : Word) : (s.writeA lat r x).phase = s.phase := rfl
@[simp] theorem State.writeP_pkgs (s : State) (lat : Nat) (r : PNum) (x : Bool) : (s.writeP lat r x).pkgs = s.pkgs := rfl
@[simp] theorem State.writeP_mem (s : State) (lat : Nat) (r : PNum) (x : Bool) : (s.writeP lat r x).mem = s.mem := rfl
@[simp] theorem State.writeP_bad (s : State) (lat : Nat) (r : PNum) (x : Bool) : (s.writeP lat r x).bad = s.bad := rfl
@[simp] theorem State.writeP_rels (s : State) (lat : Nat) (r : PNum) (x : Bool) : (s.writeP lat r x).rels = s.rels := rfl
@[simp] theorem State.writeP_net (s : State) (lat : Nat) (r : PNum) (x : Bool) : (s.writeP lat r x).net = s.net := rfl
@[simp] theorem State.writeP_cur (s : State) (lat : Nat) (r : PNum) (x : Bool) : (s.writeP lat r x).cur = s.cur := rfl
@[simp] theorem State.writeP_latch (s : State) (lat : Nat) (r : PNum) (x : Bool) : (s.writeP lat r x).latch = s.latch := rfl
@[simp] theorem State.writeP_agenda (s : State) (lat : Nat) (r : PNum) (x : Bool) : (s.writeP lat r x).agenda = s.agenda := rfl
@[simp] theorem State.writeP_longLimit (s : State) (lat : Nat) (r : PNum) (x : Bool) : (s.writeP lat r x).longLimit = s.longLimit := rfl
@[simp] theorem State.writeP_fresh (s : State) (lat : Nat) (r : PNum) (x : Bool) : (s.writeP lat r x).fresh = s.fresh := rfl
@[simp] theorem State.writeP_ticks (s : State) (lat : Nat) (r : PNum) (x : Bool) : (s.writeP lat r x).ticks = s.ticks := rfl
@[simp] theorem State.writeP_phase (s : State) (lat : Nat) (r : PNum) (x : Bool) : (s.writeP lat r x).phase = s.phase := rfl
@[simp] theorem State.writeV_pkgs (s : State) (lat : Nat) (r : VNum) (x m : VReg) : (s.writeV lat r x m).pkgs = s.pkgs := rfl
@[simp] theorem State.writeV_mem (s : State) (lat : Nat) (r : VNum) (x m : VReg) : (s.writeV lat r x m).mem = s.mem := rfl
@[simp] theorem State.writeV_bad (s : State) (lat : Nat) (r : VNum) (x m : VReg) : (s.writeV lat r x m).bad = s.bad := rfl
@[simp] theorem State.writeV_rels (s : State) (lat : Nat) (r : VNum) (x m : VReg) : (s.writeV lat r x m).rels = s.rels := rfl
@[simp] theorem State.writeV_net (s : State) (lat : Nat) (r : VNum) (x m : VReg) : (s.writeV lat r x m).net = s.net := rfl
@[simp] theorem State.writeV_cur (s : State) (lat : Nat) (r : VNum) (x m : VReg) : (s.writeV lat r x m).cur = s.cur := rfl
@[simp] theorem State.writeV_latch (s : State) (lat : Nat) (r : VNum) (x m : VReg) : (s.writeV lat r x m).latch = s.latch := rfl
@[simp] theorem State.writeV_agenda (s : State) (lat : Nat) (r : VNum) (x m : VReg) : (s.writeV lat r x m).agenda = s.agenda := rfl
@[simp] theorem State.writeV_longLimit (s : State) (lat : Nat) (r : VNum) (x m : VReg) : (s.writeV lat r x m).longLimit = s.longLimit := rfl
@[simp] theorem State.writeV_fresh (s : State) (lat : Nat) (r : VNum) (x m : VReg) : (s.writeV lat r x m).fresh = s.fresh := rfl
@[simp] theorem State.writeV_ticks (s : State) (lat : Nat) (r : VNum) (x m : VReg) : (s.writeV lat r x m).ticks = s.ticks := rfl
@[simp] theorem State.writeV_phase (s : State) (lat : Nat) (r : VNum) (x m : VReg) : (s.writeV lat r x m).phase = s.phase := rfl
@[simp] theorem State.writeK_pkgs (s : State) (lat : Nat) (r : KNum) (x m : Word) : (s.writeK lat r x m).pkgs = s.pkgs := rfl
@[simp] theorem State.writeK_mem (s : State) (lat : Nat) (r : KNum) (x m : Word) : (s.writeK lat r x m).mem = s.mem := rfl
@[simp] theorem State.writeK_bad (s : State) (lat : Nat) (r : KNum) (x m : Word) : (s.writeK lat r x m).bad = s.bad := rfl
@[simp] theorem State.writeK_rels (s : State) (lat : Nat) (r : KNum) (x m : Word) : (s.writeK lat r x m).rels = s.rels := rfl
@[simp] theorem State.writeK_net (s : State) (lat : Nat) (r : KNum) (x m : Word) : (s.writeK lat r x m).net = s.net := rfl
@[simp] theorem State.writeK_cur (s : State) (lat : Nat) (r : KNum) (x m : Word) : (s.writeK lat r x m).cur = s.cur := rfl
@[simp] theorem State.writeK_latch (s : State) (lat : Nat) (r : KNum) (x m : Word) : (s.writeK lat r x m).latch = s.latch := rfl
@[simp] theorem State.writeK_agenda (s : State) (lat : Nat) (r : KNum) (x m : Word) : (s.writeK lat r x m).agenda = s.agenda := rfl
@[simp] theorem State.writeK_longLimit (s : State) (lat : Nat) (r : KNum) (x m : Word) : (s.writeK lat r x m).longLimit = s.longLimit := rfl
@[simp] theorem State.writeK_fresh (s : State) (lat : Nat) (r : KNum) (x m : Word) : (s.writeK lat r x m).fresh = s.fresh := rfl
@[simp] theorem State.writeK_ticks (s : State) (lat : Nat) (r : KNum) (x m : Word) : (s.writeK lat r x m).ticks = s.ticks := rfl
@[simp] theorem State.writeK_phase (s : State) (lat : Nat) (r : KNum) (x m : Word) : (s.writeK lat r x m).phase = s.phase := rfl
@[simp] theorem State.flag_pkgs (s : State) (lat : Nat) (f : Fl) : (s.flag lat f).pkgs = s.pkgs := by unfold State.flag; split <;> rfl
@[simp] theorem State.flag_mem (s : State) (lat : Nat) (f : Fl) : (s.flag lat f).mem = s.mem := by unfold State.flag; split <;> rfl
@[simp] theorem State.flag_bad (s : State) (lat : Nat) (f : Fl) : (s.flag lat f).bad = s.bad := by unfold State.flag; split <;> rfl
@[simp] theorem State.flag_rels (s : State) (lat : Nat) (f : Fl) : (s.flag lat f).rels = s.rels := by unfold State.flag; split <;> rfl
@[simp] theorem State.flag_net (s : State) (lat : Nat) (f : Fl) : (s.flag lat f).net = s.net := by unfold State.flag; split <;> rfl
@[simp] theorem State.flag_cur (s : State) (lat : Nat) (f : Fl) : (s.flag lat f).cur = s.cur := by unfold State.flag; split <;> rfl
@[simp] theorem State.flag_latch (s : State) (lat : Nat) (f : Fl) : (s.flag lat f).latch = s.latch := by unfold State.flag; split <;> rfl
@[simp] theorem State.flag_agenda (s : State) (lat : Nat) (f : Fl) : (s.flag lat f).agenda = s.agenda := by unfold State.flag; split <;> rfl
@[simp] theorem State.flag_longLimit (s : State) (lat : Nat) (f : Fl) : (s.flag lat f).longLimit = s.longLimit := by unfold State.flag; split <;> rfl
@[simp] theorem State.flag_fresh (s : State) (lat : Nat) (f : Fl) : (s.flag lat f).fresh = s.fresh := by unfold State.flag; split <;> rfl
@[simp] theorem State.flag_ticks (s : State) (lat : Nat) (f : Fl) : (s.flag lat f).ticks = s.ticks := by unfold State.flag; split <;> rfl
@[simp] theorem State.flag_phase (s : State) (lat : Nat) (f : Fl) : (s.flag lat f).phase = s.phase := by unfold State.flag; split <;> rfl
@[simp] theorem State.consumeBad_pkgs (s : State) (w : Bool) (va : Word) (k n : Nat) : (s.consumeBad w va k n).pkgs = s.pkgs := by unfold State.consumeBad; split <;> rfl
@[simp] theorem State.consumeBad_mem (s : State) (w : Bool) (va : Word) (k n : Nat) : (s.consumeBad w va k n).mem = s.mem := by unfold State.consumeBad; split <;> rfl
@[simp] theorem State.consumeBad_bad (s : State) (w : Bool) (va : Word) (k n : Nat) : (s.consumeBad w va k n).bad = s.bad := by unfold State.consumeBad; split <;> rfl
@[simp] theorem State.consumeBad_rels (s : State) (w : Bool) (va : Word) (k n : Nat) : (s.consumeBad w va k n).rels = s.rels := by unfold State.consumeBad; split <;> rfl
@[simp] theorem State.consumeBad_net (s : State) (w : Bool) (va : Word) (k n : Nat) : (s.consumeBad w va k n).net = s.net := by unfold State.consumeBad; split <;> rfl
@[simp] theorem State.consumeBad_cur (s : State) (w : Bool) (va : Word) (k n : Nat) : (s.consumeBad w va k n).cur = s.cur := by unfold State.consumeBad; split <;> rfl
@[simp] theorem State.consumeBad_latch (s : State) (w : Bool) (va : Word) (k n : Nat) : (s.consumeBad w va k n).latch = s.latch := by unfold State.consumeBad; split <;> rfl
@[simp] theorem State.consumeBad_agenda (s : State) (w : Bool) (va : Word) (k n : Nat) : (s.consumeBad w va k n).agenda = s.agenda := by unfold State.consumeBad; split <;> rfl
@[simp] theorem State.consumeBad_longLimit (s : State) (w : Bool) (va : Word) (k n : Nat) : (s.consumeBad w va k n).longLimit = s.longLimit := by unfold State.consumeBad; split <;> rfl
@[simp] theorem State.consumeBad_fresh (s : State) (w : Bool) (va : Word) (k n : Nat) : (s.consumeBad w va k n).fresh = s.fresh := by unfold State.consumeBad; split <;> rfl
@[simp] theorem State.consumeBad_ticks (s : State) (w : Bool) (va : Word) (k n : Nat) : (s.consumeBad w va k n).ticks = s.ticks := by unfold State.consumeBad; split <;> rfl
@[simp] theorem State.consumeBad_phase (s : State) (w : Bool) (va : Word) (k n : Nat) : (s.consumeBad w va k n).phase = s.phase := by unfold State.consumeBad; split <;> rfl
@[simp] theorem State.takeTrap_mem (s : State) (id : CtxId) (c : Nat) (v a : Word) : (s.takeTrap id c v a).mem = s.mem := by simp only [State.takeTrap]; split <;> rfl
@[simp] theorem State.takeTrap_bad (s : State) (id : CtxId) (c : Nat) (v a : Word) : (s.takeTrap id c v a).bad = s.bad := by simp only [State.takeTrap]; split <;> rfl
@[simp] theorem State.takeTrap_rels (s : State) (id : CtxId) (c : Nat) (v a : Word) : (s.takeTrap id c v a).rels = s.rels := by simp only [State.takeTrap]; split <;> rfl
@[simp] theorem State.takeTrap_net (s : State) (id : CtxId) (c : Nat) (v a : Word) : (s.takeTrap id c v a).net = s.net := by simp only [State.takeTrap]; split <;> rfl
@[simp] theorem State.takeTrap_cur (s : State) (id : CtxId) (c : Nat) (v a : Word) : (s.takeTrap id c v a).cur = s.cur := by simp only [State.takeTrap]; split <;> rfl
@[simp] theorem State.takeTrap_latch (s : State) (id : CtxId) (c : Nat) (v a : Word) : (s.takeTrap id c v a).latch = s.latch := by simp only [State.takeTrap]; split <;> rfl
@[simp] theorem State.takeTrap_agenda (s : State) (id : CtxId) (c : Nat) (v a : Word) : (s.takeTrap id c v a).agenda = s.agenda := by simp only [State.takeTrap]; split <;> rfl
@[simp] theorem State.takeTrap_longLimit (s : State) (id : CtxId) (c : Nat) (v a : Word) : (s.takeTrap id c v a).longLimit = s.longLimit := by simp only [State.takeTrap]; split <;> rfl
@[simp] theorem State.takeTrap_fresh (s : State) (id : CtxId) (c : Nat) (v a : Word) : (s.takeTrap id c v a).fresh = s.fresh := by simp only [State.takeTrap]; split <;> rfl
@[simp] theorem State.takeTrap_ticks (s : State) (id : CtxId) (c : Nat) (v a : Word) : (s.takeTrap id c v a).ticks = s.ticks := by simp only [State.takeTrap]; split <;> rfl
@[simp] theorem State.takeTrap_phase (s : State) (id : CtxId) (c : Nat) (v a : Word) : (s.takeTrap id c v a).phase = s.phase := by simp only [State.takeTrap]; split <;> rfl
@[simp] theorem State.raise_mem (s : State) (c : Nat) (v : Word) : (s.raise c v).mem = s.mem := by simp [State.raise]
@[simp] theorem State.raise_bad (s : State) (c : Nat) (v : Word) : (s.raise c v).bad = s.bad := by simp [State.raise]
@[simp] theorem State.raise_rels (s : State) (c : Nat) (v : Word) : (s.raise c v).rels = s.rels := by simp [State.raise]
@[simp] theorem State.raise_net (s : State) (c : Nat) (v : Word) : (s.raise c v).net = s.net := by simp [State.raise]
@[simp] theorem State.raise_cur (s : State) (c : Nat) (v : Word) : (s.raise c v).cur = s.cur := by simp [State.raise]
@[simp] theorem State.raise_agenda (s : State) (c : Nat) (v : Word) : (s.raise c v).agenda = s.agenda := by simp [State.raise]
@[simp] theorem State.raise_longLimit (s : State) (c : Nat) (v : Word) : (s.raise c v).longLimit = s.longLimit := by simp [State.raise]
@[simp] theorem State.raise_fresh (s : State) (c : Nat) (v : Word) : (s.raise c v).fresh = s.fresh := by simp [State.raise]
@[simp] theorem State.raise_ticks (s : State) (c : Nat) (v : Word) : (s.raise c v).ticks = s.ticks := by simp [State.raise]
@[simp] theorem State.raise_phase (s : State) (c : Nat) (v : Word) : (s.raise c v).phase = s.phase := by simp [State.raise]
@[simp] theorem State.memfault_mem (s : State) (r : Nat) (w : Bool) (a : Word) : (s.memfault r w a).mem = s.mem := by simp [State.memfault]
@[simp] theorem State.memfault_bad (s : State) (r : Nat) (w : Bool) (a : Word) : (s.memfault r w a).bad = s.bad := by simp [State.memfault]
@[simp] theorem State.memfault_rels (s : State) (r : Nat) (w : Bool) (a : Word) : (s.memfault r w a).rels = s.rels := by simp [State.memfault]
@[simp] theorem State.memfault_net (s : State) (r : Nat) (w : Bool) (a : Word) : (s.memfault r w a).net = s.net := by simp [State.memfault]
@[simp] theorem State.memfault_cur (s : State) (r : Nat) (w : Bool) (a : Word) : (s.memfault r w a).cur = s.cur := by simp [State.memfault]
@[simp] theorem State.memfault_agenda (s : State) (r : Nat) (w : Bool) (a : Word) : (s.memfault r w a).agenda = s.agenda := by simp [State.memfault]
@[simp] theorem State.memfault_longLimit (s : State) (r : Nat) (w : Bool) (a : Word) : (s.memfault r w a).longLimit = s.longLimit := by simp [State.memfault]
@[simp] theorem State.memfault_fresh (s : State) (r : Nat) (w : Bool) (a : Word) : (s.memfault r w a).fresh = s.fresh := by simp [State.memfault]
@[simp] theorem State.memfault_ticks (s : State) (r : Nat) (w : Bool) (a : Word) : (s.memfault r w a).ticks = s.ticks := by simp [State.memfault]
@[simp] theorem State.memfault_phase (s : State) (r : Nat) (w : Bool) (a : Word) : (s.memfault r w a).phase = s.phase := by simp [State.memfault]
@[simp] theorem State.sysop_mem (s : State) (r i : Nat) : (s.sysop r i).mem = s.mem := by simp [State.sysop]
@[simp] theorem State.sysop_bad (s : State) (r i : Nat) : (s.sysop r i).bad = s.bad := by simp [State.sysop]
@[simp] theorem State.sysop_rels (s : State) (r i : Nat) : (s.sysop r i).rels = s.rels := by simp [State.sysop]
@[simp] theorem State.sysop_net (s : State) (r i : Nat) : (s.sysop r i).net = s.net := by simp [State.sysop]
@[simp] theorem State.sysop_cur (s : State) (r i : Nat) : (s.sysop r i).cur = s.cur := by simp [State.sysop]
@[simp] theorem State.sysop_agenda (s : State) (r i : Nat) : (s.sysop r i).agenda = s.agenda := by simp [State.sysop]
@[simp] theorem State.sysop_longLimit (s : State) (r i : Nat) : (s.sysop r i).longLimit = s.longLimit := by simp [State.sysop]
@[simp] theorem State.sysop_fresh (s : State) (r i : Nat) : (s.sysop r i).fresh = s.fresh := by simp [State.sysop]
@[simp] theorem State.sysop_ticks (s : State) (r i : Nat) : (s.sysop r i).ticks = s.ticks := by simp [State.sysop]
@[simp] theorem State.sysop_phase (s : State) (r i : Nat) : (s.sysop r i).phase = s.phase := by simp [State.sysop]
@[simp] theorem State.illegalField_mem (s : State) : (s.illegalField).mem = s.mem := by simp [State.illegalField]
@[simp] theorem State.illegalField_bad (s : State) : (s.illegalField).bad = s.bad := by simp [State.illegalField]
@[simp] theorem State.illegalField_rels (s : State) : (s.illegalField).rels = s.rels := by simp [State.illegalField]
@[simp] theorem State.illegalField_net (s : State) : (s.illegalField).net = s.net := by simp [State.illegalField]
@[simp] theorem State.illegalField_cur (s : State) : (s.illegalField).cur = s.cur := by simp [State.illegalField]
@[simp] theorem State.illegalField_agenda (s : State) : (s.illegalField).agenda = s.agenda := by simp [State.illegalField]
@[simp] theorem State.illegalField_longLimit (s : State) : (s.illegalField).longLimit = s.longLimit := by simp [State.illegalField]
@[simp] theorem State.illegalField_fresh (s : State) : (s.illegalField).fresh = s.fresh := by simp [State.illegalField]
@[simp] theorem State.illegalField_ticks (s : State) : (s.illegalField).ticks = s.ticks := by simp [State.illegalField]
@[simp] theorem State.illegalField_phase (s : State) : (s.illegalField).phase = s.phase := by simp [State.illegalField]
@[simp] theorem State.privilege_mem (s : State) : (s.privilege).mem = s.mem := by simp [State.privilege]
@[simp] theorem State.privilege_bad (s : State) : (s.privilege).bad = s.bad := by simp [State.privilege]
@[simp] theorem State.privilege_rels (s : State) : (s.privilege).rels = s.rels := by simp [State.privilege]
@[simp] theorem State.privilege_net (s : State) : (s.privilege).net = s.net := by simp [State.privilege]
@[simp] theorem State.privilege_cur (s : State) : (s.privilege).cur = s.cur := by simp [State.privilege]
@[simp] theorem State.privilege_agenda (s : State) : (s.privilege).agenda = s.agenda := by simp [State.privilege]
@[simp] theorem State.privilege_longLimit (s : State) : (s.privilege).longLimit = s.longLimit := by simp [State.privilege]
@[simp] theorem State.privilege_fresh (s : State) : (s.privilege).fresh = s.fresh := by simp [State.privilege]
@[simp] theorem State.privilege_ticks (s : State) : (s.privilege).ticks = s.ticks := by simp [State.privilege]
@[simp] theorem State.privilege_phase (s : State) : (s.privilege).phase = s.phase := by simp [State.privilege]

end Sys2Proof.Machine
end

