-- ==== Sys2Proof/Laws/Memory.lean ====
section
/-! SUPPORT. Sparse data keep their keys rising; memory keeps its canonical form, and a write is read back (log entry 3). -/

namespace Sys2Proof

/-! ### Sparse data -/

section
variable {α : Type}

theorem NMap.above_put {q k : Nat} {x : Option α} (m : NMap α) (h : NMap.above q m = true) (w : NMap.wf m = true) (hk : q < k) :
    NMap.above q (NMap.put m k x) = true := by
  cases m with
  | nil => cases x <;> simp [NMap.put, NMap.above, hk]
  | cons c m =>
    obtain ⟨j, v⟩ := c
    simp only [NMap.above, decide_eq_true_eq] at h
    simp only [NMap.wf, Bool.and_eq_true] at w
    unfold NMap.put
    split
    · simp [NMap.above, h]
    · split
      · cases x with
        | none =>
          cases m with
          | nil => rfl
          | cons c m => simp only [NMap.above, decide_eq_true_eq] at w ⊢; omega
        | some y => simp [NMap.above, h]
      · cases x <;> simp [NMap.above, h, hk]

/-- Setting or removing a value keeps the keys rising. -/
theorem NMap.wf_put (m : NMap α) (k : Nat) (x : Option α) (w : NMap.wf m = true) : NMap.wf (NMap.put m k x) = true := by
  induction m with
  | nil => cases x <;> simp [NMap.put, NMap.wf, NMap.above]
  | cons c m ih =>
    obtain ⟨j, v⟩ := c
    simp only [NMap.wf, Bool.and_eq_true] at w
    unfold NMap.put
    split
    · simp [NMap.wf, ih w.2, NMap.above_put m w.1 w.2 (by assumption)]
    · split
      · cases x <;> simp [NMap.wf, w.1, w.2]
      · have : k < j := by omega
        have h1 : NMap.wf ((j, v) :: m) = true := by simp [NMap.wf, w.1, w.2]
        cases x with
        | none => exact h1
        | some y => rw [NMap.wf, h1]; simp [NMap.above, this]

theorem NMap.get_above (m : NMap α) (k : Nat) (h : NMap.above k m = true) : NMap.get m k = none := by
  cases m with
  | nil => rfl
  | cons c m =>
    obtain ⟨j, v⟩ := c
    simp only [NMap.above, decide_eq_true_eq] at h
    have : ¬j = k := by omega
    simp [NMap.get, h, this]

/-- What is set is read. -/
theorem NMap.get_put_self (m : NMap α) (k : Nat) (x : Option α) (w : NMap.wf m = true) : NMap.get (NMap.put m k x) k = x := by
  induction m with
  | nil => cases x <;> simp [NMap.put, NMap.get]
  | cons c m ih =>
    obtain ⟨j, v⟩ := c
    simp only [NMap.wf, Bool.and_eq_true] at w
    unfold NMap.put
    split
    · have h1 : ¬j = k := by omega
      have h2 : ¬k < j := by omega
      simp [NMap.get, h1, h2, ih w.2]
    · split
      · rename_i h; subst h
        cases x with
        | none => exact NMap.get_above m j w.1
        | some y => simp [NMap.get]
      · have h1 : ¬j = k := by omega
        have h2 : k < j := by omega
        cases x <;> simp [NMap.get, h1, h2]

/-- Every other key reads as before. -/
theorem NMap.get_put_ne (m : NMap α) (k q : Nat) (x : Option α) (w : NMap.wf m = true) (h : q ≠ k) :
    NMap.get (NMap.put m k x) q = NMap.get m q := by
  induction m with
  | nil =>
    have h1 : ¬k = q := fun e => h e.symm
    cases x <;> simp [NMap.put, NMap.get, h1]
  | cons c m ih =>
    obtain ⟨j, v⟩ := c
    simp only [NMap.wf, Bool.and_eq_true] at w
    unfold NMap.put
    split
    · simp [NMap.get, ih w.2]
    · split
      · rename_i h0; subst h0
        have h1 : ¬j = q := fun e => h e.symm
        cases x with
        | none =>
          simp only [NMap.get, h1, if_false]
          split
          · cases m with
            | nil => rfl
            | cons c m =>
              obtain ⟨i, u⟩ := c
              simp only [NMap.above, decide_eq_true_eq] at w
              have h2 : ¬i = q := by omega
              have h3 : q < i := by omega
              simp [NMap.get, h2, h3]
          · rfl
        | some y => simp [NMap.get, h1]
      · have h1 : ¬k = q := fun e => h e.symm
        cases x with
        | none => rfl
        | some y =>
          simp only [NMap.get, h1, if_false]
          split
          · have h2 : ¬j = q := by omega
            have h3 : q < j := by omega
            simp [h2, h3]
          · rfl

theorem NMap.all_put (p : Nat × α → Bool) (m : NMap α) (k : Nat) (x : Option α) (h : m.all p = true)
    (hx : ∀ y, x = some y → p (k, y) = true) : (NMap.put m k x).all p = true := by
  induction m with
  | nil => cases x <;> simp [NMap.put, hx]
  | cons c m ih =>
    obtain ⟨j, v⟩ := c
    simp only [List.all_cons, Bool.and_eq_true] at h
    unfold NMap.put
    split
    · simp [h.1, ih h.2]
    · split
      · rename_i e; subst e
        cases x <;> simp [h.2, hx]
      · cases x <;> simp [h.1, h.2, hx]

theorem NMap.above_of_above {a b : Nat} (m : NMap α) (h : NMap.above b m = true) (hab : a ≤ b) : NMap.above a m = true := by
  cases m with
  | nil => rfl
  | cons c m => simp only [NMap.above, decide_eq_true_eq] at h ⊢; omega

theorem NMap.above_filter (p : Nat × α → Bool) (q : Nat) (m : NMap α) (h : NMap.above q m = true) (w : NMap.wf m = true) :
    NMap.above q (m.filter p) = true := by
  induction m with
  | nil => rfl
  | cons c m ih =>
    simp only [NMap.above, decide_eq_true_eq] at h
    simp only [NMap.wf, Bool.and_eq_true] at w
    rw [List.filter_cons]
    split
    · simpa [NMap.above] using h
    · exact ih (NMap.above_of_above m w.1 (by omega)) w.2

theorem NMap.wf_filter (p : Nat × α → Bool) (m : NMap α) (w : NMap.wf m = true) : NMap.wf (m.filter p) = true := by
  induction m with
  | nil => rfl
  | cons c m ih =>
    simp only [NMap.wf, Bool.and_eq_true] at w
    rw [List.filter_cons]
    split
    · simp [NMap.wf, NMap.above_filter p c.1 m w.1 w.2, ih w.2]
    · exact ih w.2

theorem NMap.above_all (q : Nat) (m : NMap α) (w : NMap.wf m = true) (h : NMap.above q m = true) : ∀ c ∈ m, q < c.1 := by
  induction m generalizing q with
  | nil => simp
  | cons c m ih =>
    simp only [NMap.above, decide_eq_true_eq] at h
    simp only [NMap.wf, Bool.and_eq_true] at w
    intro d hd
    rcases List.mem_cons.mp hd with rfl | hd
    · exact h
    · have := ih c.1 w.2 w.1 d hd
      omega

/-- Two maps whose keys do not mingle, one after the other. -/
theorem NMap.wf_append (m n : NMap α) (w : NMap.wf m = true) (v : NMap.wf n = true) (h : ∀ a ∈ m, ∀ b ∈ n, a.1 < b.1) :
    NMap.wf (m ++ n) = true := by
  induction m with
  | nil => exact v
  | cons c m ih =>
    simp only [NMap.wf, Bool.and_eq_true] at w
    simp only [List.cons_append, NMap.wf, Bool.and_eq_true]
    refine ⟨?_, ih w.2 (fun a ha => h a (List.mem_cons_of_mem _ ha))⟩
    cases m with
    | nil =>
      cases n with
      | nil => rfl
      | cons d n => simpa [NMap.above] using h c (by simp) d (by simp)
    | cons d m => simpa [NMap.above] using w.1

end

end Sys2Proof

namespace Sys2Proof.Machine

/-! ### Memory keeps its canonical form -/

theorem Memory.wf_putByte (m : List Host.Cell) (k : Nat) (b : Byte) (w : Memory.wf m) : Memory.wf (putByte m k b) := by
  refine ⟨NMap.wf_put _ _ _ w.1, NMap.all_put _ _ _ _ w.2 fun y hy => ?_⟩
  split at hy
  · cases hy
  · rename_i h; cases hy; simpa using h

theorem Memory.wf_putBytes (bs : List Byte) (m : List Host.Cell) (k : Nat) (w : Memory.wf m) : Memory.wf (putBytes m k bs) := by
  induction bs generalizing m k with
  | nil => exact w
  | cons b bs ih => exact ih _ _ (Memory.wf_putByte m k b w)

theorem State.memOk_writeBytes (s : State) (k : Nat) (bs : List Byte) (w : s.memOk) : (s.writeBytes k bs).memOk :=
  Memory.wf_putBytes bs s.mem k w

theorem State.memOk_writeNat (s : State) (k n x : Nat) (w : s.memOk) : (s.writeNat k n x).memOk := s.memOk_writeBytes _ _ w

/-- A scratchpad's bytes put back (R270). -/
theorem State.memOk_putSpadOf (s : State) (pid core : Nat) (i : Image) (w : s.memOk) : (s.putSpadOf pid core i).memOk := by
  have key : ∀ (l : NMap Byte) (base : Nat),
      Memory.wf (l.foldr (fun (c : Nat × Byte) m => putByte m (base + c.1 % 0x100000) c.2) []) ∧
      ∀ c ∈ l.foldr (fun (c : Nat × Byte) m => putByte m (base + c.1 % 0x100000) c.2) [], base ≤ c.1 ∧ c.1 < base + 0x100000 := by
    intro l base
    induction l with
    | nil => exact ⟨⟨rfl, rfl⟩, by simp⟩
    | cons x l ih =>
      refine ⟨Memory.wf_putByte _ _ _ ih.1, fun c hc => ?_⟩
      have hall : ∀ m : NMap Byte, (∀ c ∈ m, base ≤ c.1 ∧ c.1 < base + 0x100000) →
          m.all (fun c => Nat.ble base c.1 && Nat.blt c.1 (base + 0x100000)) = true := fun m h => by
        rw [List.all_eq_true]
        intro c hc
        have := h c hc
        simp [Nat.blt]; omega
      have := NMap.all_put _ _ (base + x.1 % 0x100000) (if x.2 = 0 then none else some x.2) (hall _ ih.2)
        (fun y _ => by have := Nat.mod_lt x.1 (show 0 < 0x100000 by omega); simp [Nat.blt]; omega)
      have := List.all_eq_true.mp this c hc
      simp [Nat.blt] at this
      omega
  have hk := key i.spad (spadKey pid core 0)
  refine ⟨NMap.wf_append _ _ (NMap.wf_append _ _ (NMap.wf_filter _ _ w.1) hk.1.1 fun a ha b hb => ?_) (NMap.wf_filter _ _ w.1)
    fun a ha b hb => ?_, ?_⟩
  · have h1 := (List.mem_filter.mp ha).2
    have h2 := (hk.2 b hb).1
    simp only [decide_eq_true_eq] at h1
    omega
  · have h2 := (List.mem_filter.mp hb).2
    simp only [decide_eq_true_eq] at h2
    rcases List.mem_append.mp ha with ha | ha
    · have h1 := (List.mem_filter.mp ha).2
      simp only [decide_eq_true_eq] at h1
      omega
    · have h1 := (hk.2 a ha).2
      omega
  · have hw := w.2
    simp only [State.putSpadOf, State.untagSpad, State.updRace, State.updPkg_mem, State.spadFrom, List.all_append, Bool.and_eq_true]
    refine ⟨⟨?_, hk.1.2⟩, ?_⟩
    all_goals
      rw [List.all_eq_true] at hw ⊢
      exact fun c hc => hw c (List.mem_filter.mp hc).1

theorem State.raceTag_mem (s : State) (a : Option Agent) (k n : Nat) : (s.raceTag a k n).mem = s.mem := by
  unfold State.raceTag
  induction granuleStarts k n generalizing s with
  | nil => rfl
  | cons q qs ih =>
    rw [List.foldl_cons, ih]
    split
    · dsimp only
      repeat' split
      all_goals rfl
    · rfl

theorem State.markRel_mem (s : State) (a : Agent) (k n : Nat) (rel : Option (BitVec 4)) : (s.markRel a k n rel).mem = s.mem := by
  unfold State.markRel; split <;> rfl

theorem State.raceRelease_mem (s : State) (a : Agent) (sc : Nat) : (s.raceRelease a sc).mem = s.mem := by
  unfold State.raceRelease
  split
  · rfl
  · dsimp only
    split <;> rfl

/-- A store's effect on memory is its bytes, whoever makes it. -/
theorem State.storeBy_mem (s : State) (a : Option Agent) (k : Nat) (bs : List Byte) (rel : Option (BitVec 4)) :
    (s.storeBy a k bs rel).mem = putBytes s.mem k bs := by
  unfold State.storeBy
  split
  · simp only [State.markRel_mem, State.raceRelease_mem, State.raceTag_mem]; rfl
  · simp only [State.raceTag_mem]; rfl

theorem State.storeHome_mem (s : State) (a : Agent) (pid pa : Nat) (bs : List Byte) (rel : Option (BitVec 4)) :
    (s.storeHome a pid pa bs rel).mem = putBytes s.mem (memKey pid pa) bs := by
  unfold State.storeHome
  dsimp only
  split
  · exact s.storeBy_mem _ _ _ _
  · rw [State.markRel_mem, s.storeBy_mem]

theorem State.ctlBytes_mem (s : State) (pid off : Nat) (bs : List Byte) : (s.ctlBytes pid off bs).mem = s.mem := by
  have fold : ∀ (f : State → Nat → State), (∀ s i, (f s i).mem = s.mem) → ∀ (l : List Nat) (s : State), (l.foldl f s).mem = s.mem := by
    intro f hf l
    induction l with
    | nil => intro s; rfl
    | cons x l ih => intro s; rw [List.foldl_cons, ih, hf]
  unfold State.ctlBytes
  split
  · unfold State.writeBlock; dsimp only; repeat' split
    all_goals rfl
  · split
    · refine fold _ (fun s i => ?_) _ _
      unfold State.writeQuota; dsimp only; repeat' split
      all_goals rfl
    · split
      · refine fold _ (fun s i => ?_) _ _
        unfold State.ctlWrite State.startContext State.writeAccept State.writeCtl; dsimp only; repeat' split
        all_goals rfl
      · rfl

/-- A write at a physical address: the control space is no memory. -/
theorem State.physWrite_mem (s : State) (a : Option Agent) (pid pa : Nat) (bs : List Byte) (rel : Option (BitVec 4)) :
    (s.physWrite a pid pa bs rel).mem = if regionOf pa = some .ctl then s.mem else putBytes s.mem (memKey pid pa) bs := by
  unfold State.physWrite
  split
  · exact s.ctlBytes_mem pid _ bs
  · split
    · exact s.storeHome_mem _ pid pa bs rel
    · exact s.storeBy_mem _ _ bs _

theorem State.memOk_physWrite (s : State) (a : Option Agent) (pid pa : Nat) (bs : List Byte) (rel : Option (BitVec 4)) (w : s.memOk) :
    (s.physWrite a pid pa bs rel).memOk := by
  unfold State.memOk
  rw [State.physWrite_mem]
  split
  · exact w
  · exact Memory.wf_putBytes bs _ _ w

/-! ### What a write leaves -/

/-- A byte written is read back, and every other byte reads as before. -/
theorem readByte_putByte (m : List Host.Cell) (k j : Nat) (b : Byte) (w : Memory.wf m) :
    (NMap.get (putByte m k b) j).getD 0 = if j = k then b else (NMap.get m j).getD 0 := by
  unfold putByte
  by_cases h : j = k
  · subst h
    rw [NMap.get_put_self _ _ _ w.1]
    by_cases hb : b = 0
    · simp [hb]
    · rw [if_neg hb]; simp
  · rw [NMap.get_put_ne _ _ _ _ w.1 h]; simp [h]

theorem readByte_putBytes (bs : List Byte) (m : List Host.Cell) (k j : Nat) (w : Memory.wf m) :
    (NMap.get (putBytes m k bs) j).getD 0 = if k ≤ j ∧ j < k + bs.length then bs[j - k]?.getD 0 else (NMap.get m j).getD 0 := by
  induction bs generalizing m k with
  | nil =>
    have : ¬(k ≤ j ∧ j < k + ([] : List Byte).length) := by simp only [List.length_nil]; omega
    rw [if_neg this]; rfl
  | cons b bs ih =>
    rw [putBytes, ih _ _ (Memory.wf_putByte m k b w), readByte_putByte m k j b w]
    simp only [List.length_cons]
    by_cases h : j = k
    · subst h
      have : ¬(j + 1 ≤ j ∧ j < j + 1 + bs.length) := by omega
      rw [if_neg this]; simp
    · by_cases h1 : k + 1 ≤ j ∧ j < k + 1 + bs.length
      · have h2 : k ≤ j ∧ j < k + (bs.length + 1) := by omega
        have h3 : j - k = (j - (k + 1)) + 1 := by omega
        rw [if_pos h1, if_pos h2, h3]; simp
      · have h2 : ¬(k ≤ j ∧ j < k + (bs.length + 1)) := by omega
        rw [if_neg h1, if_neg h, if_neg h2]

/-- Reading after a write: the bytes written, and every other byte as before. -/
theorem State.readByte_writeBytes (s : State) (k j : Nat) (bs : List Byte) (w : s.memOk) :
    (s.writeBytes k bs).readByte j = if k ≤ j ∧ j < k + bs.length then bs[j - k]?.getD 0 else s.readByte j :=
  readByte_putBytes bs s.mem k j w

/-- The device's own write of bytes: memory as a plain write leaves it. -/
theorem State.deviceBytes_mem (s : State) (k : Nat) (bs : List Byte) : (s.deviceBytes k bs).mem = putBytes s.mem k bs :=
  s.storeBy_mem none k bs none

theorem State.memOk_deviceBytes (s : State) (k : Nat) (bs : List Byte) (w : s.memOk) : (s.deviceBytes k bs).memOk := by
  unfold State.memOk
  rw [State.deviceBytes_mem]
  exact Memory.wf_putBytes bs _ _ w

theorem State.readByte_deviceBytes (s : State) (k j : Nat) (bs : List Byte) (w : s.memOk) :
    (s.deviceBytes k bs).readByte j = if k ≤ j ∧ j < k + bs.length then bs[j - k]?.getD 0 else s.readByte j := by
  unfold State.readByte
  rw [State.deviceBytes_mem]
  exact readByte_putBytes bs s.mem k j w

/-- An edit of a page-table entry: its 16 bytes in memory, changed from what stands there, and nothing else of memory (R339). -/
theorem State.editLeaf_mem (s : State) (pid key : Nat) (f : BitVec 128 → BitVec 128) :
    (s.editLeaf pid key f).mem = putBytes s.mem key (leBytes 16 (f (BitVec.ofNat 128 (s.readNat key 16))).toNat) :=
  s.deviceBytes_mem key _

theorem State.memOk_editLeaf (s : State) (pid key : Nat) (f : BitVec 128 → BitVec 128) (w : s.memOk) : (s.editLeaf pid key f).memOk := by
  unfold State.memOk
  rw [State.editLeaf_mem]
  exact Memory.wf_putBytes _ _ _ w

/-- A page copied by the device: the source's bytes at the destination, and nothing else of memory (R341, R366). -/
theorem State.copyPage_mem (s : State) (pid src dst n : Nat) :
    (s.copyPage pid src dst n).mem = putBytes s.mem (memKey pid dst) (s.readBytes (memKey pid src) n) :=
  s.deviceBytes_mem _ _

end Sys2Proof.Machine
end

