-- ==== Sys2Proof/Laws/Pending.lean ====
section
/-! SUPPORT. What a pending write does: nothing before its cycle, and the last word on its cycle (R39, R40). -/

namespace Sys2Proof.Machine

theorem splitDue_insert_same (n : Nat) (x : Target) (k : Nat) (l : List Pend) :
    splitDue n (insertPend ⟨n, x, k⟩ l) = ((splitDue n l).1 ++ [⟨n, x, k⟩], (splitDue n l).2) := by
  induction l with
  | nil => simp [insertPend, splitDue]
  | cons y ys ih =>
    unfold insertPend
    by_cases h : y.due ≤ n
    · simp [h, splitDue, ih]
    · simp [h, splitDue]

theorem splitDue_insert_before (n m : Nat) (h : m < n) (x : Target) (k : Nat) (l : List Pend) :
    (splitDue m (insertPend ⟨n, x, k⟩ l)).1 = (splitDue m l).1 := by
  have hx : ¬n ≤ m := by omega
  induction l with
  | nil => simp [insertPend, splitDue, hx]
  | cons y ys ih =>
    unfold insertPend
    by_cases h1 : y.due ≤ n
    · by_cases h2 : y.due ≤ m
      · simp [h1, h2, splitDue, ih]
      · simp [h1, h2, splitDue]
    · have h2 : ¬y.due ≤ m := by omega
      simp [h1, h2, splitDue, hx]

/-- Landing a write does not look at what is pending. -/
theorem Ctx.land_with_pend (c : Ctx) (p : List Pend) (x : Target) :
    ({ c with pend := p } : Ctx).land x = { c.land x with pend := p } := by
  cases x <;> simp only [Ctx.land, Ctx.record, Ctx.rv, Ctx.rk] <;> (try split) <;> rfl

theorem Ctx.foldl_land_with_pend (l : List Pend) (c : Ctx) (p : List Pend) :
    l.foldl (fun (c : Ctx) (x : Pend) => c.land x.tgt) { c with pend := p }
      = { l.foldl (fun (c : Ctx) (x : Pend) => c.land x.tgt) c with pend := p } := by
  induction l generalizing c with
  | nil => rfl
  | cons y ys ih => simp only [List.foldl_cons, Ctx.land_with_pend, ih]

/-- On the cycle on which a write is due it lands after every other write due by then. -/
theorem Ctx.landDue_insert (c : Ctx) (n : Nat) (x : Target) (k : Nat) :
    ({ c with pend := insertPend ⟨n, x, k⟩ c.pend } : Ctx).landDue n = (c.landDue n).land x := by
  simp [Ctx.landDue, splitDue_insert_same, List.foldl_append]

theorem Ctx.foldl_land_still (l : List Pend) (c : Ctx) (p q : List Pend) :
    (l.foldl (fun (c : Ctx) (x : Pend) => c.land x.tgt) { c with pend := p }).still
      = (l.foldl (fun (c : Ctx) (x : Pend) => c.land x.tgt) { c with pend := q }).still := by
  rw [Ctx.foldl_land_with_pend l c p, Ctx.foldl_land_with_pend l c q]; rfl

/-- Before that cycle it has not landed. -/
theorem Ctx.landDue_insert_before (c : Ctx) (n m : Nat) (h : m < n) (x : Target) (k : Nat) :
    (({ c with pend := insertPend ⟨n, x, k⟩ c.pend } : Ctx).landDue m).still = (c.landDue m).still := by
  unfold Ctx.landDue
  simp only [splitDue_insert_before n m h]
  exact Ctx.foldl_land_still _ c _ _

@[simp] theorem State.me_updMe (s : State) (f : Ctx → Ctx) : (s.updMe f).me = f s.me := by
  simp [State.me, State.updMe]

@[simp] theorem State.me_pend (s : State) (lat : Nat) (x : Target) :
    (s.pend lat x).me = { s.me with pend := insertPend ⟨s.myCore.pcyc + lat, x, s.cur.issue⟩ s.me.pend } := by
  simp [State.pend]

theorem State.myCore_updMe_bare (s : State) (f : Ctx → Ctx) : (s.updMe f).myCore.bare = s.myCore.bare := by
  simp [State.myCore, State.updMe, State.updCtx, State.setCtx, Core.bare, CoreData.setCtx]

theorem State.core_updCtx_bare (s : State) (id : CtxId) (f : Ctx → Ctx) (p c : Nat) :
    ((s.updCtx id f).core p c).bare = (s.core p c).bare := by
  by_cases h : coreKey p c = coreKey id.pid id.core
  · have h1 : (s.updCtx id f).core p c = (s.updCtx id f).core id.pid id.core := by simp [State.core, h]
    have h2 : s.core p c = s.core id.pid id.core := by simp [State.core, h]
    rw [h1, h2]
    simp [State.updCtx, State.setCtx, Core.bare, CoreData.setCtx]
  · unfold State.updCtx State.setCtx
    rw [State.core_updCore_other _ _ _ _ _ _ h]

@[simp] theorem State.pcyc_updMe (s : State) (f : Ctx → Ctx) : (s.updMe f).myCore.pcyc = s.myCore.pcyc := by
  simp [State.myCore, State.updMe, State.updCtx, State.setCtx]
@[simp] theorem State.pcyc_pend (s : State) (lat : Nat) (x : Target) : (s.pend lat x).myCore.pcyc = s.myCore.pcyc := by
  simp [State.pend]

/-- A change of the context in hand leaves everything else. -/
theorem OnlyMe.updMe (s : State) (f : Ctx → Ctx) : OnlyMe s (s.updMe f) where
  others := fun _ h => State.ctx_updCtx_other _ _ _ _ h
  cores := State.core_updCtx_bare _ _ _
  pkgs := rfl
  marks := ⟨rfl, rfl⟩
  net := rfl
  hand := ⟨rfl, rfl, rfl, rfl, rfl⟩

theorem OnlyMe.refl (s : State) : OnlyMe s s := ⟨fun _ _ => rfl, fun _ _ => rfl, rfl, ⟨rfl, rfl⟩, rfl, ⟨rfl, rfl, rfl, rfl, rfl⟩⟩

theorem OnlyMe.trans {s t u : State} (h : OnlyMe s t) (k : OnlyMe t u) : OnlyMe s u where
  others := fun id hid => by
    rw [k.others id (by rw [h.hand.1]; exact hid), h.others id hid]
  cores := fun p c => (k.cores p c).trans (h.cores p c)
  pkgs := k.pkgs.trans h.pkgs
  marks := ⟨k.marks.1.trans h.marks.1, k.marks.2.trans h.marks.2⟩
  net := k.net.trans h.net
  hand := ⟨k.hand.1.trans h.hand.1, k.hand.2.1.trans h.hand.2.1, k.hand.2.2.1.trans h.hand.2.2.1,
    k.hand.2.2.2.1.trans h.hand.2.2.2.1, k.hand.2.2.2.2.trans h.hand.2.2.2.2⟩

theorem OnlyMe.pend (s : State) (lat : Nat) (x : Target) : OnlyMe s (s.pend lat x) := OnlyMe.updMe s _

theorem SameMem.of_mem {s t : State} (h : t.mem = s.mem) : SameMem s t := fun k => by simp [State.readByte, h]

end Sys2Proof.Machine
end

