-- ==== Sys2Proof/Laws/Writes.lean ====
section
/-! SUPPORT. What a fixed-latency write does, once for each kind of register. -/

namespace Sys2Proof.Machine

theorem Lands.pend (s : State) (lat : Nat) (x : Target) (P : Ctx → Ctx → Prop) (h : ∀ c : Ctx, P c (c.land x)) :
    Lands s (.next (s.pend lat x)) lat P := by
  refine ⟨_, rfl, SameMem.of_mem rfl, OnlyMe.pend s lat x, fun n hn => ?_, ?_⟩
  · simp only [State.meAt, State.me_pend]
    exact Ctx.landDue_insert_before _ _ _ hn _ _
  · simp only [State.meAt, State.me_pend, Ctx.landDue_insert]
    exact h _

/-- Two writes of one latency: the second lands after the first. -/
theorem Lands.pend2 (s : State) (lat : Nat) (x y : Target) (P : Ctx → Ctx → Prop)
    (h : ∀ c : Ctx, P c ((c.land x).land y)) : Lands s (.next ((s.pend lat x).pend lat y)) lat P := by
  refine ⟨_, rfl, SameMem.of_mem rfl, (OnlyMe.pend s lat x).trans (OnlyMe.pend _ lat y), fun n hn => ?_, ?_⟩
  · simp only [State.meAt, State.me_pend, State.pcyc_pend]
    exact (Ctx.landDue_insert_before _ _ _ hn _ _).trans (Ctx.landDue_insert_before _ _ _ hn _ _)
  · simp only [State.meAt, State.me_pend, State.pcyc_pend, State.pend_cur]
    have h1 := Ctx.landDue_insert { s.me with pend := insertPend ⟨s.myCore.pcyc + lat, x, s.cur.issue⟩ s.me.pend }
      (s.myCore.pcyc + lat) y s.cur.issue
    simp only at h1
    rw [h1, Ctx.landDue_insert]
    exact h _

theorem Draws.none (c : Ctx) : Draws [] c c := ⟨fun _ => by simp, rfl⟩

/-- An operation that writes nothing. -/
theorem Lands.none (s : State) (lat : Nat) (P : Ctx → Ctx → Prop) (h : ∀ c : Ctx, P c c) : Lands s (.next s) lat P :=
  ⟨s, rfl, fun _ => rfl, OnlyMe.refl s, fun _ _ => rfl, h _⟩

theorem SetsG.land (r : GNum) (x : Word) (hr : r ≠ 0) (c : Ctx) : SetsG r x c (c.land (.g r x)) := by
  have e : c.land (.g r x) = { c with g := c.g.set r.toNat x r.isLt } := if_neg hr
  rw [e]
  refine ⟨?_, fun q hq => ?_, rfl⟩
  · simp only [Ctx.rg, if_neg hr, Vector.getElem_set_self]
  · have : r.toNat ≠ q.toNat := fun e => hq (BitVec.eq_of_toNat_eq e.symm)
    simp only [Ctx.rg, Vector.getElem_set_ne _ _ this]

theorem SetsG.zero (x : Word) (c : Ctx) : SetsG 0 x c c := ⟨by simp [Ctx.rg], fun _ _ => rfl, rfl⟩

theorem SetsA.land (r : ANum) (x : Word) (c : Ctx) : SetsA r x c (c.land (.a r x)) := by
  refine ⟨by simp only [Ctx.land, Ctx.ra, Vector.getElem_set_self], fun q hq => ?_, rfl⟩
  have : r.toNat ≠ q.toNat := fun e => hq (BitVec.eq_of_toNat_eq e.symm)
  simp only [Ctx.land, Ctx.ra, Vector.getElem_set_ne _ _ this]

theorem SetsK.land (r : KNum) (x : Word) (c : Ctx) : SetsK r x c (c.land (.k r x (BitVec.allOnes 64))) := by
  by_cases hr : r = 0
  · have e : c.land (.k r x (BitVec.allOnes 64)) = c := if_pos hr
    rw [e]
    exact ⟨by simp only [Ctx.rk, if_pos hr], fun _ _ => rfl, rfl⟩
  · have e : c.land (.k r x (BitVec.allOnes 64))
        = { c with k := c.k.set r.toNat ((x &&& BitVec.allOnes 64) ||| (c.rk r &&& ~~~BitVec.allOnes 64)) r.isLt } :=
      if_neg hr
    rw [e]
    refine ⟨?_, fun q hq => ?_, rfl⟩
    · simp only [Ctx.rk, if_neg hr, Vector.getElem_set_self]
      rw [BitVec.and_allOnes, BitVec.not_allOnes, BitVec.and_zero, BitVec.or_zero]
    · have : r.toNat ≠ q.toNat := fun e => hq (BitVec.eq_of_toNat_eq e.symm)
      simp only [Ctx.rk, Vector.getElem_set_ne _ _ this]

theorem SetsP.land (r : PNum) (x : Bool) (c : Ctx) : SetsP r x c (c.land (.p r x)) := by
  by_cases hr : r = 7
  · have e : c.land (.p r x) = c := if_pos hr
    rw [e]
    exact ⟨by simp [Ctx.rp, hr], fun _ _ => rfl, rfl⟩
  · have e : c.land (.p r x) = { c with p := if x then c.p ||| ((1 : BitVec 8) <<< r.toNat)
        else c.p &&& ~~~((1 : BitVec 8) <<< r.toNat) } := if_neg hr
    rw [e]
    have h8 : r.toNat < 8 := r.isLt
    refine ⟨?_, fun q hq => ?_, rfl⟩
    · cases x <;> simp [Ctx.rp, h8]
    · have hq8 : q.toNat < 8 := q.isLt
      have hne : r.toNat ≠ q.toNat := fun e => hq (BitVec.eq_of_toNat_eq e.symm)
      have h1 : ((1#8) <<< r.toNat).getLsbD q.toNat = false := by
        rw [BitVec.getLsbD_shiftLeft, BitVec.getLsbD_one]
        by_cases h : q.toNat < r.toNat
        · simp [h]
        · have : ¬q.toNat - r.toNat = 0 := by omega
          simp [this]
      cases x
      · change (decide (q = 7) || (c.p &&& ~~~((1#8) <<< r.toNat)).getLsbD q.toNat) = _
        rw [BitVec.getLsbD_and, BitVec.getLsbD_not, h1]
        simp [Ctx.rp, hq8]
      · change (decide (q = 7) || (c.p ||| ((1#8) <<< r.toNat)).getLsbD q.toNat) = _
        rw [BitVec.getLsbD_or, h1]
        simp [Ctx.rp]

theorem Lands.writeG (s : State) (lat : Nat) (r : GNum) (x : Word) : Lands s (.next (s.writeG lat r x)) lat (SetsG r x) := by
  unfold State.writeG
  split
  · rename_i h; subst h; exact Lands.none s lat _ (SetsG.zero x)
  · rename_i h; exact Lands.pend s lat _ _ (SetsG.land r x h)

/-! ### Lanes -/

theorem packLanes_fold (b : Nat) (rs : List (Nat × Nat)) (v : VReg) (i : Nat) (hi : i < 2048) :
    (rs.foldl (fun (v : VReg) r => v ||| (BitVec.ofNat 2048 (r.2 % 2 ^ b) <<< (b * r.1))) v).getLsbD i
      = (v.getLsbD i || rs.any (fun r => decide (b * r.1 ≤ i) && (r.2 % 2 ^ b).testBit (i - b * r.1))) := by
  induction rs generalizing v with
  | nil => simp
  | cons r rs ih =>
    simp only [List.foldl_cons, ih, List.any_cons, BitVec.getLsbD_or, BitVec.getLsbD_shiftLeft, hi, decide_true,
      Bool.true_and, BitVec.getLsbD_ofNat, Bool.or_assoc]
    congr 2
    by_cases h : i < b * r.1
    · have : ¬b * r.1 ≤ i := by omega
      simp [h, this]
    · have h1 : b * r.1 ≤ i := by omega
      have h2 : i - b * r.1 < 2048 := by omega
      simp [h, h1, h2]

theorem packLanes_bit (b : Nat) (rs : List (Nat × Nat)) (i : Nat) (hi : i < 2048) :
    (packLanes b rs).getLsbD i = rs.any (fun r => decide (b * r.1 ≤ i) && (r.2 % 2 ^ b).testBit (i - b * r.1)) := by
  rw [packLanes, packLanes_fold b rs 0 i hi]; simp

/-- A bit of lane `l` of packed lanes is that of the lane's own value. -/
theorem packLanes_lane_bit (b : Nat) (ls : List Nat) (val : Nat → Nat) (l j : Nat) (hj : j < b) (hl : b * l + b ≤ 2048) :
    (packLanes b (ls.map (fun l => (l, val l)))).getLsbD (b * l + j) = (decide (l ∈ ls) && (val l).testBit j) := by
  rw [packLanes_bit _ _ _ (by omega)]
  rw [Bool.eq_iff_iff]
  simp only [List.any_map, List.any_eq_true, Function.comp_apply, Bool.and_eq_true, decide_eq_true_eq, Nat.testBit_mod_two_pow]
  constructor
  · rintro ⟨q, hq, h1, h2, h3⟩
    have hlq : q = l := by
      have h4 : b * q < b * (l + 1) := by rw [Nat.mul_succ]; omega
      have h5 : b * l < b * (q + 1) := by rw [Nat.mul_succ]; omega
      have := Nat.lt_of_mul_lt_mul_left h4
      have := Nat.lt_of_mul_lt_mul_left h5
      omega
    subst hlq
    exact ⟨hq, by simpa using h3⟩
  · rintro ⟨hq, h3⟩
    exact ⟨l, hq, by omega, by omega, by simpa using h3⟩

theorem SetsLanes.land (b : Nat) (r : VNum) (ls : List Nat) (val : Nat → Nat) (c : Ctx) :
    SetsLanes b r ls val c (c.land (.v r (packLanes b (ls.map (fun l => (l, val l)))) (lanesMask b ls))) := by
  refine ⟨fun l hl => ?_, fun q hq => ?_, rfl⟩
  · have e : (c.land (.v r (packLanes b (ls.map (fun l => (l, val l)))) (lanesMask b ls))).rv r
        = (packLanes b (ls.map (fun l => (l, val l))) &&& lanesMask b ls) ||| (c.rv r &&& ~~~lanesMask b ls) := by
      simp only [Ctx.land, Ctx.rv, Vector.getElem_set_self]
    rw [e]
    apply Nat.eq_of_testBit_eq
    intro j
    by_cases hj : j < b
    · have hi : b * l + j < 2048 := by omega
      have hm : (lanesMask b ls).getLsbD (b * l + j) = decide (l ∈ ls) := by
        unfold lanesMask
        rw [packLanes_lane_bit b ls (fun _ => 2 ^ b - 1) l j hj hl, Nat.testBit_two_pow_sub_one]; simp [hj]
      have hL : ∀ x : VReg, (lane b l x).testBit j = x.getLsbD (b * l + j) := by
        intro x; simp [lane, hj, BitVec.getLsbD]
      rw [hL, BitVec.getLsbD_or, BitVec.getLsbD_and, BitVec.getLsbD_and, BitVec.getLsbD_not, hm,
        packLanes_lane_bit b ls val l j hj hl]
      by_cases hin : l ∈ ls
      · simp [hin, Nat.testBit_mod_two_pow, hj]
      · simp [hin, hL, hi]
    · have hz : ∀ x, x < 2 ^ b → x.testBit j = false := fun x hx =>
        Nat.testBit_lt_two_pow (Nat.lt_of_lt_of_le hx (Nat.pow_le_pow_right (by decide) (by omega)))
      have hlt : ∀ x : VReg, lane b l x < 2 ^ b := fun x => (x.extractLsb' (b * l) b).isLt
      rw [hz _ (hlt _)]
      split
      · rw [hz _ (Nat.mod_lt _ (Nat.two_pow_pos b))]
      · rw [hz _ (hlt _)]
  · have : r.toNat ≠ q.toNat := fun e => hq (BitVec.eq_of_toNat_eq e.symm)
    simp only [Ctx.land, Ctx.rv, Vector.getElem_set_ne _ _ this]

/-! ### Flags -/

theorem Records.land (r : Rec) (f : Fl) (addr : Word) (issue : Nat) (c : Ctx) :
    Records r f addr issue c (c.land (.flags r f addr issue)) := by
  refine ⟨?_, ?_, fun q hq => ⟨?_, ?_⟩, ?_, fun i => ?_, rfl, rfl⟩
  · simp only [Ctx.land, Ctx.record, Fin.getElem_fin, Vector.getElem_set_self]
    exact BitVec.extractLsb'_append_eq_left
  · simp only [Ctx.land, Ctx.record, Fin.getElem_fin, Vector.getElem_set_self]
    rw [BitVec.extractLsb'_append_eq_right]
  · have : r.idx.val ≠ q.val := fun e => hq (Fin.ext e.symm)
    simp only [Ctx.land, Ctx.record, Fin.getElem_fin, Vector.getElem_set_ne _ _ this]
  · have : r.idx.val ≠ q.val := fun e => hq (Fin.ext e.symm)
    simp only [Ctx.land, Ctx.record, Fin.getElem_fin]
    split
    · rw [Vector.getElem_set_ne _ _ this]
    · rfl
  · simp only [Ctx.land, Ctx.record, Fin.getElem_fin]
    split <;> simp
  · simp only [Ctx.land, Ctx.record, BitVec.getLsbD_or, BitVec.getLsbD_setWidth]
    by_cases h : i < 64
    · simp [h]
    · have : f.getLsbD i = false := BitVec.getLsbD_of_ge _ _ (by omega)
      simp [h, this]

theorem State.flagged_flag (s u : State) (lat : Nat) (f : Fl) (x : Target) (P : Ctx → Ctx → Prop)
    (hu : u = s.pend lat x) (h : ∀ c e d, e = c.land x → s.flagged f e d → P c d) :
    Lands s (.next (u.flag lat f)) lat P := by
  subst hu
  unfold State.flag
  split
  · rename_i h0
    exact Lands.pend s lat x P (fun c => h c _ _ rfl (by simp [State.flagged, h0]))
  · rename_i h0
    refine Lands.pend2 s lat x _ P (fun c => h c _ _ rfl ?_)
    simp only [State.flagged, h0, if_false]
    exact Records.land _ _ _ _ _

/-! ### Lane-wise operations -/

theorem Draws.drawLanes (ls : List Nat) (hn : ls.Nodup) (hb : ∀ l ∈ ls, l < 256) (c : Ctx) : Draws ls c (c.drawLanes ls) := by
  refine ⟨?_, rfl⟩
  have key : ∀ (ls : List Nat), ls.Nodup → (∀ l ∈ ls, l < 256) → ∀ (v : Vector (BitVec 32) 256) (l : Fin 256),
      (ls.foldl (fun v l => v.set (l % 256) (drawState (v[l % 256]'(Nat.mod_lt _ (by decide)))) (Nat.mod_lt _ (by decide))) v)[l]
        = if l.val ∈ ls then drawState v[l] else v[l] := by
    intro ls
    induction ls with
    | nil => intro _ _ v l; simp
    | cons q qs ih =>
      intro hn hb v l
      have hq : q % 256 = q := Nat.mod_eq_of_lt (hb q (by simp))
      rw [List.foldl_cons, ih (List.nodup_cons.mp hn).2 (fun x hx => hb x (by simp [hx]))]
      have hnot := (List.nodup_cons.mp hn).1
      by_cases h : l.val = q
      · have h1 : l.val ∉ qs := h ▸ hnot
        subst h
        simp [hq, h1]
      · have h2 : q % 256 ≠ l.val := by rw [hq]; exact fun e => h e.symm
        simp only [Fin.getElem_fin, Vector.getElem_set_ne _ _ h2, List.mem_cons, h, false_or]
  exact key ls hn hb c.sr

theorem LandsDraw.of_lands (s : State) (f : Ctx → Ctx) (o : Out) (lat : Nat) (ls : List Nat) (P : Ctx → Ctx → Prop)
    (h : Lands (s.updMe f) o lat P) (hd : Draws ls s.me (f s.me)) : LandsDraw s o lat ls P := by
  obtain ⟨t, ho, hm, hf, hb, hp⟩ := h
  refine ⟨t, f s.me, ho, fun k => (hm k).trans rfl, (OnlyMe.updMe s f).trans hf, hd, fun n hn => ?_, ?_⟩
  · simpa [State.meAt] using hb n (by simpa using hn)
  · simpa [State.meAt] using hp

theorem LandsDraw.of_lands' (s : State) (o : Out) (lat : Nat) (P : Ctx → Ctx → Prop) (h : Lands s o lat P) :
    LandsDraw s o lat [] P := by
  obtain ⟨t, ho, hm, hf, hb, hp⟩ := h
  exact ⟨t, s.me, ho, hm, hf, Draws.none _, hb, hp⟩

theorem orFlags_foldl (ls : List Nat) (f : Nat → Nat × Nat × Fl) :
    (ls.map f).foldl (fun (a : Fl) r => a ||| r.2.2) 0 = orFlags ls (fun l => (f l).2.2) := by
  unfold orFlags; rw [List.foldl_map]

/-- What `lanesOp` does (R103), when no lane is written 0 besides. -/
theorem LaneWise.lanesOp (s : State) (lat b : Nat) (vd : VNum) (ls : List Nat) (sr : Bool) (f : Nat → BitVec 32 → Nat × Fl)
    (hn : ls.Nodup) (hb : ∀ l ∈ ls, l < 256) : LaneWise s (.next (s.lanesOp lat b vd ls [] sr f)) lat b vd ls sr f := by
  have e : s.lanesOp lat b vd ls [] sr f
      = (((if sr then s.updMe (fun c => c.drawLanes ls) else s).pend lat (.v vd
          (packLanes b (ls.map (fun l => (l, (f l (if sr then s.me.drawOf l else 0)).1)))) (lanesMask b ls)))).flag lat
          (orFlags ls (fun l => (f l (if sr then s.me.drawOf l else 0)).2)) := by
    simp only [State.lanesOp, List.append_nil, List.map_map, Function.comp_def, orFlags_foldl, State.writeV]
  rw [e]
  unfold LaneWise
  cases sr with
  | false =>
    simp only [Bool.false_eq_true, if_false]
    refine LandsDraw.of_lands' _ _ _ _ (State.flagged_flag s _ lat _ _ _ rfl (fun c e d he hd => ⟨e, ?_, hd⟩))
    rw [he]; exact SetsLanes.land b vd ls _ c
  | true =>
    simp only [if_true]
    refine LandsDraw.of_lands s (fun c => c.drawLanes ls) _ lat ls _ ?_ (Draws.drawLanes ls hn hb _)
    refine State.flagged_flag _ _ lat _ _ _ rfl (fun c e d he hd => ⟨e, ?_, hd⟩)
    rw [he]; exact SetsLanes.land b vd ls _ c

theorem State.active_nodup (s : State) (fmt : BitVec 4) (km : KNum) : (s.active fmt km).Nodup :=
  List.nodup_range.filter _

theorem fmtLanes_le (fmt : BitVec 4) : fmtLanes fmt ≤ 256 := by unfold fmtLanes; split <;> omega

theorem State.active_lt (s : State) (fmt : BitVec 4) (km : KNum) : ∀ l ∈ s.active fmt km, l < 256 := fun l hl => by
  have h1 : l < fmtLanes fmt := by
    simpa [State.active] using (List.mem_filter.mp hl).1
  have := fmtLanes_le fmt
  omega

end Sys2Proof.Machine
end

