-- ==== Sys2Proof/Tests/Slice0.lean ====
section
/-! SUPPORT. Tests of the model's own parts, and a witness for every statement with hypotheses: expected results come from the spec's
tables and examples. -/

namespace Sys2Proof.Tests
set_option Elab.async false
open Sys2Proof Sys2Proof.Machine

/-! ### Well-formedness: one ill-formed term for each check -/

/-- The scalar operation `add g1, g2, g3` in a slot is well-formed. -/
theorem test_wf_good : Slotted.wf { it := 1, st := 7, op := .add 1 2 3 } = true := by decide
/-- R37: `it` = 11; R51: a predicate outside C, `pr` = 7 with `pn` = 1, a predicated `jmp`, a transfer with `st` 1; R57: `stk.end` with
an iteration class; an event stands in no slot. -/
theorem test_wf_slot : ([{ it := 3, st := 0, op := .nop }, { it := 0, st := 0, pr := 1, op := .nop },
    { it := 0, st := 0, pn := true, op := .nop }, { it := 0, st := 0, pn := true, op := .halt },
    { it := 0, st := 2, pr := 1, op := .jmp 0 }, { it := 0, st := 1, op := .br 0 }, { it := 1, st := 0, op := .stkEnd 0 },
    { it := 2, st := 0, op := .stkCnt 0 }, { it := 0, st := 0, op := .issueChoice 0 0 }] : List Slotted).all
      (fun x => !x.wf) = true := by decide
/-- Operands outside the ranges of R42, R44 to R57, R97, R102, R114 and R120, one for each check of `Instr.legal`. -/
theorem test_wf_operands : ([.psetEq 7 0 0, .pxor 7 0 0, .vadd 6 0 0 0 0 0, .vadd 0 3 0 0 0 0, .vfma 0 8 0 0 0 0, .vfma 7 0 0 0 0 0,
    .vmin 8 0 0 0 0, .vthr 3 0 0 0 0, .vabs 5 0 0 0, .vrcp 6 0 0 0 0, .vrcp 0 12 0 0 0, .vgetx 3 0 0 0, .viadd true 0 0 0 0 0,
    .vshl 7 0 0 0 0, .viabs 12 0 0 0, .vpopc 0 0 0 0, .vcmp 0 3 1 0 0 0, .vcmp 0 0 0 0 0 0, .vsel 5 0 0 0 0, .vmov 15 0 0 0,
    .vcvt 6 0 0 0 0 0, .vcvt 0 5 0 0 0 0, .vcvt 0 0 6 0 0 0, .vred 6 0 0 0 0, .vred 3 0 0 0 0, .vscan 0 3 0 0 0, .vbcast 0 0 0 64,
    .vins 5 0 0 0, .vext 0 0 0 64, .vpart 1 0 0 0, .kmovKg 0 0, .kand 0 0 0, .mmaG 0 0 0 0 15 0 0 false, .mpoll 0 7, .ldI8 false 1 0 0 0,
    .ldI8 true 9 0 0 0, .vst true 9 0 0 0, .ldt false 0 0 0 0, .ldt true 9 1 0 0, .stpD false 2 0 0 0, .stgD false 0 0 0 0,
    .fenceOwn 9, .cpy false false false 1 0 0 0, .coll true false 9 0 0 0, .snap false true 12 0 0, .cpyq 0, .jmpBkt 0 4, .loopCfg 0 6,
    .loopRun 0 7, .barTest 0 7, .waitEv 0, .csrr 0 5, .csrw 0 3, .csrs 0 0x110, .csrc 0 0x20] : List Instr).all
      (fun i => !i.wf) = true := by decide

/-! ### Decoding: words written out field by field from R43 to R57 -/

/-- R43, R52: the R, I and K forms. -/
theorem test_decode_scalar : ([
    (0b00000000000000000000000000000000, .nop),
    (0b00000010000001111111000000100000, .add 63 1 2),
    (0b01000111000110000101000010000000, .mulh true 5 6 7),
    (0b00000011000010000001000010100000, .div false 1 2 3),
    (0b10000000000011000010100000000000, .addi 2 3 0x80),
    (0b10000000000001001001110000000000, .liLo 9 0x2001),
    (0b01000111000110000001001100100000, .psetGe true 1 6 7)] : List (BitVec 48 × Instr)).all (fun r => (match decodeSlot .scalar r.1 with
      | .ok x => decide (x.op = r.2)
      | .error _ => false) && decide ((encode { it := 0, st := 0, op := r.2 }) = some r.1)) = true := by decide +kernel

/-- R44, R45, R53: the forms VR, VF, VU, VC, VL, VX and VK. -/
theorem test_decode_vector : ([
    (0b0010001000110000100010001000000000100000, .vadd 1 1 4 2 1 3),
    (0b0100000111110111000110001010000011000000, .vfma 2 0 5 6 14 31),
    (0b0000010001110000000010000010000011100000, .vabs 2 1 2 7),
    (0b1010000001000001100010000010100100000000, .vcvt 5 0 3 1 2 4),
    (0b0000000000011111100010000010101001100000, .vbcast 0 1 2 63),
    (0b0000001001111111001001000110110000000000, .vins 1 3 9 127),
    (0b1111010001010000100010000110100000000000, .vcmp 7 10 3 2 1 5),
    (0b0000000000000011000101001000110010000000, .kand 4 5 6)] : List (BitVec 48 × Instr)).all (fun r => (match decodeSlot .vector r.1 with
      | .ok x => decide (x.op = r.2)
      | .error _ => false) && decide ((encode { it := 0, st := 0, op := r.2 }) = some r.1)) = true := by decide +kernel

/-- R47, R54. -/
theorem test_decode_matrix : ([
    (0b0000011100001111110100100011010000100000, .mma 1 6 8 4 3 3 true),
    (0b0000000011111101000011001000100001000000, .mmaG 0 1 2 3 4 63 0 false),
    (0b0010101000000011110000001111110010100000, .mout 1 7 3 5 2),
    (0b0000000000000011110000100100010011000000, .mcfg 1 9),
    (0b0000000000000011110000000011000100100000, .mpoll 0 6)] : List (BitVec 48 × Instr)).all (fun r => (match decodeSlot .matrix r.1 with
      | .ok x => decide (x.op = r.2)
      | .error _ => false) && decide ((encode { it := 0, st := 0, op := r.2 }) = some r.1)) = true := by decide +kernel

/-- R48, R49, R55: the forms LM, LV, LT, LF, LS and LP. -/
theorem test_decode_memory : ([
    (0b0100111111111111110010000111000010000000, .ldW16 true 3 0xFFF 2 7),
    (0b1000101000000000000010000111000101100000, .stI64 true 2 0x800 2 7),
    (0b0000000000000010010101000011001001000000, .vgather false 0 9 5 3),
    (0b0110000000001111110101000011001100000000, .ldt true 8 63 5 3),
    (0b0010000000000000000000000000010000100000, .fenceFar 8),
    (0b1001000000000000000000000000010001000000, .fenceScRel 4),
    (0b0001110000000000000100001001010001100000, .flsig 7 4 9),
    (0b0000000000000011110000001001010010000000, .probe 15 9)] : List (BitVec 48 × Instr)).all (fun r => (match decodeSlot .memory r.1 with
      | .ok x => decide (x.op = r.2)
      | .error _ => false) && decide ((encode { it := 0, st := 0, op := r.2 }) = some r.1)) = true := by decide +kernel

/-- R50, R56. -/
theorem test_decode_engine : ([
    (0b00110001001100001001010000100000, .cpy true true false 2 3 2 5),
    (0b00000000000000100100000001000000, .cpyq 9),
    (0b00001100011100001000010001100000, .coll false true 8 7 2 1),
    (0b00000000000000001000010011000000, .gcommit false false 0 2 1)] : List (BitVec 48 × Instr)).all (fun r => (match decodeSlot .engine r.1 with
      | .ok x => decide (x.op = r.2)
      | .error _ => false) && decide ((encode { it := 0, st := 0, op := r.2 }) = some r.1)) = true := by decide +kernel

/-- R51, R57: the forms CD, CR, CC and CS; `st` is 2. -/
theorem test_decode_control : ([
    (0b111111111111111111111111110000000111000000100010, .br 0xFFFFFFC0),
    (0b100000000000000010000000000010010111000011100010, .jmpBkt 9 0x80008),
    (0b000000000000000001010000000000110111001000000010, .loopCfg 3 5),
    (0b000000000001011111110000000000000111001000100010, .loopRun 63 5),
    (0b000000000000000111110001100000000111001101100010, .barTest 31 6),
    (0b000000000100000001100010010000000111100000100010, .csrw 9 0x406),
    (0b000000001000000000110000000010010111100000000010, .csrr 9 0x803),
    (0b000100100011010001010110011110000111011000000010, .stkEnd 0x12345678),
    (0b000000000000000000010000000010000111110010100010, .pgBlkSet 8),
    (0b000000000000000000000001110010000111110010000010, .pgCowRelease 8 7)] : List (BitVec 48 × Instr)).all (fun r => (match decodeSlot .control r.1 with
      | .ok x => decide (x.op = r.2)
      | .error _ => false) && decide ((encode { it := 0, st := 2, op := r.2 }) = some r.1)) = true := by decide +kernel

/-! ### Small states -/

/-- Context 0 of core 0 of package 0. -/
def id0 : CtxId := ⟨0, 0, 0⟩

/-- That context is `c`, its core otherwise `k`, its package `p`; some bytes of memory stand. -/
def st (c : Ctx) (k : Core := {}) (p : Pkg := {}) (cells : List Host.Cell := []) : State :=
  { State.reset with
    cores := [(0, { k with live := { k.live with ctxs := k.live.ctxs.set 0 c } })]
    pkgs := [(0, p)]
    mem := cells
    cur := { id := id0, addr := 0x1000, len := 5, slot := .c, issue := 1 } }

/-- A running context at program level, and at device level. -/
def user : Ctx := { level := .program, halted := false }
def dev : Ctx := { level := .device, halted := false }
def withG (c : Ctx) (r : Fin 64) (x : Word) : Ctx := { c with g := c.g.set r x }
def withA (c : Ctx) (r : Fin 16) (x : Word) : Ctx := { c with a := c.a.set r x }
def withV (c : Ctx) (r : Fin 32) (x : VReg) : Ctx := { c with v := c.v.set r x }

/-- The cells of some bytes at a key: those that are not 0. -/
def cellsOf (k : Nat) (bs : List Byte) : List Host.Cell :=
  bs.zipIdx.filterMap (fun b => if b.1 = 0 then none else some (k + b.2, b.1))

/-- The bytes of a number. -/
def le (n x : Nat) : List Byte := leBytes n x

/-- A posted store of a context to 4 bytes of its own scratchpad at `o`, still under way; and the state with it. -/
def ownStoreMsg (id : CtxId) (o : Nat) : Msg :=
  { src := { id := id, ident := placeOf id, part := none, level := .program, entry := 7, seq := 0, tag := 0, issue := 0 }, chan := 0,
    dst := homeOf 0 (spadBase + id.core * 2 ^ 20 + o), body := .store (.phys 0 (spadBase + id.core * 2 ^ 20 + o)) [1, 2, 3, 4] none }
/-- An `ldt` of a context that has still to read 4 bytes of HBM. -/
def ownLoadMsg (id : CtxId) : Msg := { ownStoreMsg id 0 with dst := .hbm 0, body := .load (.phys 0 0x10000) 0 4 }
def withNet (s : State) (ms : List Msg) : State := { s with net := ms }

/-- A chain at entry offset `off` of queue 0, of context 0. -/
def chain0 (off : Nat) : Chain :=
  { ctx := 0, entry := 0, seq := 0, queue := 0, head := 0, off := off, bf := Vector.replicate 16 0, race := 0, sat8 := false,
    sr := Vector.replicate 256 1, level := .device, part := none, ident := 0, issue := 0, rel := none }

/-! ### Scalar and vector slots: results of the spec's tables, and witnesses -/

/-- What `g[r]` of the context in hand holds once `n` pipeline cycles have passed. -/
def afterG (o : Out) (n : Nat) (r : GNum) : Option Word :=
  match o with
  | .next t => some ((t.meAt (t.myCore.pcyc + n)).rg r)
  | _ => none

/-- R93: `add` wraps; R39: one cycle before its latency the old value stands. -/
theorem test_add : afterG (exec (.add 1 1 2) (st (withG (withG user 1 0xFFFFFFFFFFFFFFFF) 2 2))) 1 1 = some 1 ∧
    afterG (exec (.add 1 1 2) (st (withG (withG user 1 0xFFFFFFFFFFFFFFFF) 2 2))) 0 1 = some 0xFFFFFFFFFFFFFFFF := by decide +kernel
/-- R94: −7 ÷ 2 is −3 with remainder −1; division by 0 gives all ones and the dividend. -/
theorem test_div : afterG (exec (.div false 3 1 2) (st (withG (withG user 1 (-7)) 2 2))) 20 3 = some (-3) ∧
    afterG (exec (.rem false 3 1 2) (st (withG (withG user 1 (-7)) 2 2))) 20 3 = some (-1) ∧
    afterG (exec (.div true 3 1 2) (st (withG user 1 9))) 20 3 = some 0xFFFFFFFFFFFFFFFF ∧
    afterG (exec (.rem true 3 1 2) (st (withG user 1 9))) 20 3 = some 9 := by decide +kernel
/-- R96: `li.lo` sign-extends, `li.hi` shifts in 14 bits. -/
theorem test_li : afterG (exec (.liLo 1 0x3FFF) (st user)) 1 1 = some 0xFFFFFFFFFFFFFFFF ∧
    afterG (exec (.liHi 1 5) (st (withG user 1 3))) 1 1 = some (3 * 16384 + 5) := by decide +kernel
/-- R41: a write to `g0` is discarded. -/
theorem test_g0 : exec (.addi 0 1 5) (st user) = .next (st user) := rfl
/-- R104, R83: 1.0 + 2^−24 in F32 rounds to 1.0 under RN and up under RU. -/
theorem test_vadd :
    (match exec (.vadd 0 0 3 1 2 0) (st (withV (withV user 1 0x3F800000) 2 0x33800000)) with
     | .next t => some ((t.meAt 4).rv 3)
     | _ => none) = some 0x3F800000 ∧
    (match exec (.vadd 3 0 3 1 2 0) (st (withV (withV user 1 0x3F800000) 2 0x33800000)) with
     | .next t => some ((t.meAt 4).rv 3)
     | _ => none) = some 0x3F800001 := by decide +kernel

/-- Witness of `VectorMoves`: the last lane of F32, and the formats of the three selections. -/
theorem witness_VectorMoves : (Instr.vins 0 1 2 63).legal = true ∧ (Instr.vthr 0 1 2 3 0).legal = true ∧
    (Instr.vpart 0 1 2 0).legal = true := by decide

/-! ### Slot L -/

/-- Witness of `ScratchpadLoads`: the last byte or bytes of the scratchpad, for each width, and a gather at its end. -/
theorem witness_ScratchpadLoads :
    (∀ n ∈ [1, 2, 4, 8, 256],
      let s := st (withA user 2 (BitVec.ofNat 64 (2 ^ 20 - n)))
      (s.ra 2).toNat % 2 ^ 20 + n ≤ 2 ^ 20 ∧ s.ownMeets s.cur.id false 0 (s.ownPa (2 ^ 20 - n)) n = false ∧
      s.ownRace (s.acquired true 3 (s.heardAt (s.ownKey (2 ^ 20 - n)) n)) false (2 ^ 20 - n) n = none ∧
      (withNet s [ownStoreMsg id0 0xFFFFC]).ownMeets s.cur.id false 0 (s.ownPa (2 ^ 20 - n)) n = true) ∧
    (let s := st (withA (withV user 1 0) 2 0xFFFFC)
     (∀ l, l < 64 → ((s.ra 2).toNat + 4 * lane 32 l (s.rv 1)) % 2 ^ 20 + 4 ≤ 2 ^ 20) ∧
     (withNet s [ownStoreMsg id0 0xFFFFC]).ownMeets s.cur.id false 0 (s.ownPa 0xFFFFC) 4 = true ∧
     s.ownMeets s.cur.id false 0 (s.ownPa 0xFFFFC) 4 = false ∧
     s.ownRace (s.acquired false 0 []) false 0xFFFFC 4 = none) := by decide +kernel
/-- R201, R2: a negative halfword is sign-extended, little-endian. -/
theorem test_ld : afterG (exec (.ldI16 false 0 1 2 3) (st (withA user 2 0x10) {} {} (cellsOf (spadKey 0 0 0x12) [0x34, 0x92]))) 4 3
    = some 0xFFFFFFFFFFFF9234 := by decide +kernel

/-- Witness of `ScratchpadStores`: a store of each width to the last bytes, and a scatter of overlapping lanes. -/
theorem witness_ScratchpadStores :
    (∀ n ∈ [1, 2, 4, 8, 256],
      let s := st (withA user 2 (BitVec.ofNat 64 (2 ^ 20 - n))) {} {} (cellsOf (spadKey 0 0 0xFFFF0) [7])
      let w := withNet s [ownStoreMsg id0 0xFFFFC]
      s.memOk ∧ (s.ra 2).toNat % 2 ^ 20 + n ≤ 2 ^ 20 ∧ s.ownRace s true (2 ^ 20 - n) n = none ∧
      s.ownMeets s.cur.id true 0 (s.ownPa (2 ^ 20 - n)) n = false ∧ s.releaseWaits s.cur.id (s.relScope true 3) = false ∧
      w.ownMeets s.cur.id true 0 (s.ownPa (2 ^ 20 - n)) n = true ∧ w.releaseWaits s.cur.id (w.relScope true 3) = true ∧
      w.memOk) ∧
    (let s := st (withA (withV user 1 0) 2 0xFFFFC)
     s.memOk ∧ s.ownMeets s.cur.id true 0 (s.ownPa 0xFFFFC) 4 = false ∧ s.releaseWaits s.cur.id (s.relScope true 3) = false ∧
     (withNet s [ownStoreMsg id0 0xFFFFC]).ownMeets s.cur.id true 0 (s.ownPa 0xFFFFC) 4 = true ∧
     ∀ l, l < 64 → ((s.ra 2).toNat + 4 * lane 32 l (s.rv 1)) % 2 ^ 20 + 4 ≤ 2 ^ 20 ∧ s.ownRace s true 0xFFFFC 4 = none) := by
  decide +kernel
/-- R201: the low 2 bytes, little-endian; the byte after them stays. -/
theorem test_st : (match exec (.stI16 false 0 0 2 3) (st (withA (withG user 3 0x123456) 2 0x10) {} {} (cellsOf (spadKey 0 0 0x12) [9])) with
    | .next t => some (t.readBytes (spadKey 0 0 0x10) 3)
    | _ => none) = some [0x56, 0x34, 9] := by decide +kernel
/-- R203: of lanes that name one place the highest stands. -/
theorem test_vscatter : (match exec (.vscatter false 0 1 2 3) (st (withV (withV (withA user 2 0x20) 1 0) 3 (BitVec.ofNat 2048 (7 * 2 ^ 2016)))) with
    | .next t => some (t.readBytes (spadKey 0 0 0x20) 4)
    | _ => none) = some [7, 0, 0, 0] := by decide +kernel

/-- Witness of `ScratchpadRange`: one byte too far; of a gather that runs on, lane 0 the last that fits. -/
theorem witness_ScratchpadRange : let s := st (withA user 2 0xFFFFD)
    (let g := st (withA (withV user 1 (2 ^ 32)) 2 0xFFFFC)
     2 ^ 20 < ((g.ra 2).toNat + 4 * lane 32 0 (g.rv 1)) % 2 ^ 20 + 4 + 1 ∧ lane 32 1 (g.rv 1) ≠ 0xFFFFFFFF ∧
     ((g.ra 2).toNat + 4 * lane 32 0 (g.rv 1)) % 2 ^ 20 + 4 ≤ 2 ^ 20) ∧
    2 ^ 20 < ((s.ra 2).toNat + 4 * lane 32 0 (s.rv 1)) % 2 ^ 20 + 4 ∧ lane 32 0 (s.rv 1) ≠ 0xFFFFFFFF ∧
    2 ^ 20 < ((s.ra 2).toNat + ((0 : BitVec 12).signExtend 64 * BitVec.ofNat 64 4).toNat) % 2 ^ 20 + 4 ∧
    2 ^ 20 < ((s.ra 2).toNat + ((0 : BitVec 12).signExtend 64 * BitVec.ofNat 64 8).toNat) % 2 ^ 20 + 8 := by decide +kernel

/-- Witness of `TimedLoad`: device level, an address of HBM, the first free entry; no entry or no landing buffer left; a near piece, one
that waits for the context's own store. -/
theorem witness_TimedLoad :
    let s := st (withA (withG dev 1 5) 2 0x10000)
    let full : Ctx := { dev with ifr := Vector.replicate 64 { state := .outstanding } }
    let near (ms : List Msg) : Prop :=
      let z := withNet (st (withA dev 2 (BitVec.ofNat 64 spadBase))) ms
      let ps : List Piece := [{ dest := .phys 0 spadBase, len := 256 }]
      let r := z.access (z.whoOf z.cur.id) .read (z.ra 2) 256
      z.me.freeEntry = some 0 ∧ z.landFull z.cur.id = false ∧ r.2 = .ok ps ∧ z.piecesRace r.1.unblock false ps = none ∧
      ps.any r.1.readWaits = !ms.isEmpty ∧ ps.all r.1.readsNow = true
    near [] ∧ near [ownStoreMsg id0 0] ∧ (st full).me.freeEntry = none ∧ { s with landRoom := some 0 }.landFull s.cur.id = true ∧
    s.landFull s.cur.id = false ∧
    ([{ dest := .phys 0 0x10000, len := 256 }] : List Piece).any (s.access (s.whoOf s.cur.id) .read (s.ra 2) 256).1.readWaits = false ∧
    (1 : GNum) ≠ 0 ∧ s.me.freeEntry = some 0 ∧ (s.access (s.whoOf s.cur.id) .read (s.ra 2) 256).2 = .ok [{ dest := .phys 0 0x10000, len := 256 }] ∧
    s.piecesRace (((s.access (s.whoOf s.cur.id) .read (s.ra 2) 256).1.unblock).acquireFrom s.meAgent 3 []) false
      [{ dest := .phys 0 0x10000, len := 256 }] = none ∧
    s.piecesRace (s.access (s.whoOf s.cur.id) .read (s.ra 2) 256).1.unblock false [{ dest := .phys 0 0x10000, len := 256 }] = none := by
  decide +kernel

/-- Witness of `PostedStores`: a near store (the own bay's scratchpad), and one to HBM, for both widths; one that waits. -/
theorem witness_PostedStores : ∀ n ∈ [8, 256], ∀ b : Bool,
    let a : Word := BitVec.ofNat 64 (if b then spadBase else 0x10000)
    let s := st (withA dev 2 a)
    let w := withNet s [ownStoreMsg id0 0]
    let r := s.access (s.whoOf s.cur.id) .write (s.ra 2) n
    let ps : List Piece := [{ dest := .phys 0 a.toNat, len := n }]
    r.1.memOk ∧ s.me.freeEntry = some 0 ∧ r.2 = .ok ps ∧ s.piecesRace r.1.unblock true ps = none ∧
    ps.all s.isNear = b ∧ (ps.any s.nearWaits || s.releaseWaits s.cur.id (s.relScope true 8)) = false ∧
      s.releaseWaits s.cur.id (s.relScope true 8) = false ∧
    (b = true → r.1.lineAt 0 a.toNat n = .clear) ∧
    (w.access (w.whoOf w.cur.id) .write (w.ra 2) n).1.memOk ∧ w.me.freeEntry = some 0 ∧
    (w.access (w.whoOf w.cur.id) .write (w.ra 2) n).2 = .ok ps ∧
    w.piecesRace (w.access (w.whoOf w.cur.id) .write (w.ra 2) n).1.unblock true ps = none ∧
    w.releaseWaits w.cur.id (w.relScope true 8) = true ∧ (b = true → ps.any w.nearWaits = true) := by
  decide +kernel

/-- Witness of `GroupStores`: a store that goes on, and one whose release waits for the context's near store. -/
theorem witness_GroupStores :
    let s := st (withA (withG dev 1 0x00020001) 2 0x10000)
    let r := s.access (s.whoOf s.cur.id) .group (s.ra 2) 256
    let w := withNet s [ownStoreMsg id0 0]
    w.releaseWaits w.cur.id (w.relScope true 3) = true ∧ w.me.freeEntry = some 0 ∧ w.ownsGroup 1 = true ∧
    (w.access (w.whoOf w.cur.id) .group (w.ra 2) 256).2 = .ok [{ dest := .phys 0 0x10000, len := 256 }] ∧
    s.me.freeEntry = some 0 ∧ s.ownsGroup 1 = true ∧ s.releaseWaits s.cur.id (s.relScope true 3) = false ∧
      r.2 = .ok [{ dest := .phys 0 0x10000, len := 256 }] ∧ regionOf 0x10000 = some .hbm := by
  decide +kernel

/-- Witness of `SignalsAndProbes`. -/
theorem witness_SignalsAndProbes :
    let s := st (withA dev 2 0x10000)
    let r := s.access (s.whoOf s.cur.id) .write (s.ra 2) 8
    s.me.freeEntry = some 0 ∧ r.2 = .ok [{ dest := .phys 0 0x10000, len := 8 }] ∧
    s.piecesRace r.1.unblock true [{ dest := .phys 0 0x10000, len := 8 }] = none ∧
    s.releaseWaits s.cur.id (some ((s.relScope true 3).getD 3)) = false := by decide +kernel

/-- Witness of `Fences`: loads in and out, near stores of the context and of another member of its
core still under way or not, status known and not. -/
theorem witness_Fences :
    let busy : Ctx := { user with ifr := user.ifr.set 0 { state := .outstanding, landing := some { vd := some 0, left := 1 } } }
    let late := withNet (st user) [ownStoreMsg id0 0]
    (st user).me.loadsDone = true ∧ (st busy).me.loadsDone = false ∧ (st user).statusKnown = true ∧ (st busy).statusKnown = false ∧
    (st user).nearOut id0 = false ∧ late.nearOut id0 = true ∧ (st user).buffered id0 3 = [] ∧
    (withNet (st user) [ownStoreMsg ⟨0, 0, 1⟩ 0]).buffered id0 3 = [(placeOf ⟨0, 0, 1⟩, 0)] ∧
    (withNet (st user) [ownStoreMsg ⟨0, 0, 1⟩ 0]).nearOut id0 = false ∧ (st user).latch.passed = false ∧
    (let f := st { user with fence := some (0x1000, [(9, 9)]) }
     f.me.fence = some (f.cur.addr, [(9, 9)]) ∧ f.net.any (fun m => [(9, 9)].contains (m.src.ident, m.src.issue)) = false) ∧
    (let e (l : Level) : CErr := { origin := 2, more := true, w := true, addr := 5, level := l, issue := 0 }
     (st { user with err := some (e .program) }).statusKnown = true ∧ (e .program).level = user.level ∧ (e .device).level ≠ user.level ∧
     (st { user with err := some (e .device) }).statusKnown = true) := by
  decide +kernel

/-! ### Slot C -/

/-- Witness of `ControlTransfers`: `jmp.bkt` with a count the first entry holds, one that only the last of 64 does, and none; a table
that is not mapped, and one in a sealed line. -/
theorem witness_ControlTransfers :
    let z : List Byte := List.replicate 8 0
    let last : List Byte := [0xFF, 0xFF, 0xFF, 0xFF, 8, 0, 0, 0]
    let s := st dev
    let t := st (withG dev 1 1) {} {} (cellsOf (0x1000 + 8 * 63) last)
    let sealed1 : GroupRec :=
      { state := .sealed, epoch := 1, part := 0,
        units := [{ op := { src := 0, chan := 0, seq := 0, off := 0, elem := 0 }, need := 1, ident := 0, field := 0, part := 0,
                    cells := [(0x1000, 1)] }] }
    (match (st user).fetch id0 0x1000 8 with
     | .trap 4 _ => true
     | _ => false) = true ∧
    (st dev {} { groups := [(1, sealed1)] }).fetch id0 0x1000 8 = .waits ∧
    s.fetch s.cur.id 0x1000 8 = .ok z ∧ (s.rg 1).toNat ≤ bytesAt z 0 4 ∧
    (∀ j, j < 63 → t.fetch t.cur.id (0x1000 + BitVec.ofNat 64 (8 * j)) 8 = .ok z ∧ ¬((t.rg 1).toNat ≤ bytesAt z 0 4)) ∧
    t.fetch t.cur.id (0x1000 + BitVec.ofNat 64 (8 * 63)) 8 = .ok last ∧ bytesAt last 0 4 = 0xFFFFFFFF ∧
    (let u := st (withG dev 1 1)
     ∀ j, j < 64 → u.fetch u.cur.id (0x1000 + BitVec.ofNat 64 (8 * j)) 8 = .ok z ∧ ¬((u.rg 1).toNat ≤ bytesAt z 0 4)) := by decide +kernel
/-- R285: a displacement counts from the bundle's own address and is sign-extended. -/
theorem test_br : (match exec (.br 0xFFFFFFC0) (st user) with
    | .next t => some t.me.npc
    | _ => none) = some 0xFC0 := by decide +kernel
/-- R285: `call` writes the address after its bundle to `g63`. -/
theorem test_call : afterG (exec (.call 8) (st user)) 1 63 = some 0x1005 := by decide +kernel

/-- A running replay of two bundles. -/
def replay (first : Bool) (n pos : Nat) : Replay :=
  { n := n, flev := 0, level := .device, want := 0x1005, buf := if first then [] else [⟨0x1000, [1, 0, 0, 0, 0]⟩, ⟨0x1005, [1, 0, 0, 0, 0]⟩],
    pos := pos, iter := Vector.replicate 6 0, first := first }

/-- Witness of `LoopSequencer`: the last 144 bytes of the scratchpad, level 5; a count of 0; replays in a later and in the first pass. -/
theorem witness_LoopSequencer :
    let s := st (withG dev 1 0xFFF70) {} {} (cellsOf (spadKey 0 0 0xFFF70) [1])
    let t := st (withG dev 1 0xFFF70)
    let u := st { dev with seqr := { replay := some (replay false 2 1) } }
    let v := st { dev with seqr := { replay := some (replay true 2 0) } } {} {} (cellsOf 0x1005 [1])
    descOk (s.rg 1) 144 ∧ (5 : BitVec 3).toNat ≤ 5 ∧
    bytesAt (s.unseen (s.ownKey 0xFFF70) (s.descBytes (s.rg 1) 144)) 0 4 = 1 ∧
    bytesAt (s.unseen (s.ownKey 0xFFF70) (s.descBytes (s.rg 1) 144)) 6 10 = 0 ∧
    bytesAt (t.unseen (t.ownKey 0xFFF70) (t.descBytes (t.rg 1) 144)) 0 4 = 0 ∧ t.badAt (t.ownKey 0xFFF70) 144 = none ∧
    t.me.running = none ∧ u.me.running = some (replay false 2 1) ∧ (replay false 2 1).buf.getLast? = some ⟨0x1005, [1, 0, 0, 0, 0]⟩ ∧
    v.me.running = some (replay true 2 0) ∧ (match v.skipBundles v.cur.id 1 0x1005 with
      | .ok a => decide (a = 0x100A)
      | .error _ => false) = true := by
  unfold descOk; decide +kernel

/-- Witness of `ReplayPasses`: a bundle within a pass and the last of one, in the first pass and a later one, with a level left and none,
with `loop.brk`; slots of each class performed and not; the next bundle of each kind; a bundle outside the replay. -/
theorem witness_ReplayPasses :
    let lev (n : Nat) : Seqr := { levels := (Vector.replicate 6 ({} : LoopLevel)).set 0 { count := n, strides := Vector.replicate 16 8 } }
    let s (r : Replay) (n : Nat) : State := st { dev with pc := 0x1005, seqr := { lev n with replay := some r } } {} {} (cellsOf 0x1005 [1])
    let b (rep : Bool) : Chosen := { id := id0, addr := 0x1000, bytes := [1, 0, 0, 0, 0], len := 5, replay := rep,
                                     slots := [(.a, { it := 1, st := 0, op := .nop })] }
    let fs : List (CtxId × Latch) := [(id0, { brk := true })]
    let last : Replay := replay false 2 1
    ((s last 3).ctx id0).running = some last ∧ fs.any (fun f => f.1 = (b true).id && f.2.brk) = true ∧ last.n ≤ last.pos + 1 ∧
    (replay false 2 0).pos + 1 < (replay false 2 0).n ∧ (replay true 2 0).first = true ∧
    (((s last 3).ctx id0).loopLevel 0).count = 3 ∧ last.at 0 + 1 < 3 ∧ (∀ l, l < 6 → (((s last 1).ctx id0).loopLevel l).count ≤ last.at l + 1) ∧
    (s last 3).performs (b true) (.a, { it := 1, st := 0, op := .nop }) = true ∧
    (s last 3).performs (b true) (.a, { it := 2, st := 0, op := .nop }) = false ∧
    ((s last 3).ctx id0).next = none ∧ last.buf[last.pos]? = some ⟨0x1005, [1, 0, 0, 0, 0]⟩ ∧ ((s last 3).ctx id0).pc = 0x1005 ∧
    ((s (replay true 2 0) 3).ctx id0).running = some (replay true 2 0) ∧ (replay true 2 0).want = 0x1005 ∧ ((st dev).ctx id0).running = none ∧
    (b false).replay = false ∧ ((s last 3).ctx (b false).id).running.isSome = true ∧
    (let t := (State.finishBundle (s last 3) [] (s last 3) (b true)).ctx id0
     t.seqr.replay.map (fun r => (r.pos, r.at 0, r.at 1)) = some (0, 1, 0) ∧ t.pc = 0x1000 ∧ (t.landDue 1).a[5] = 8) := by decide +kernel

/-- A core whose barrier 31 is `b`. -/
def barrierCore (b : Barrier) : Core := { live := { barriers := (Vector.replicate 32 {}).set 31 b } }

/-- Witness of `NamedBarriers`: counts at both ends of their range and beyond, a barrier not set up, one open, one poisoned, one
whose phase is over. -/
theorem witness_NamedBarriers :
    ((st (withG user 1 1)).rg 1).toNat = 1 ∧ ((st (withG user 1 65535)).rg 1).toNat = 65535 ∧
    65535 < ((st (withG user 1 65536)).rg 1).toNat ∧ ((st user).rg 1).toNat = 0 ∧ ((st user).myBarrier 31).count = 0 ∧
    (let s := st user (barrierCore { count := 2, arr := 1 })
     (s.myBarrier 31).count ≠ 0 ∧ (s.myBarrier 31).poison = false ∧ ((s.myBarrier 31).ph != s.me.wph.getLsbD 31) = false) ∧
    (let s := st user (barrierCore { count := 2, poison := true })
     (s.myBarrier 31).count ≠ 0 ∧ (s.myBarrier 31).poison = true ∧ ((s.myBarrier 31).ph != s.me.wph.getLsbD 31) = false) ∧
    (let s := st user (barrierCore { count := 2, ph := true })
     ((s.myBarrier 31).ph != s.me.wph.getLsbD 31) = true ∧ ((s.seenBarrier 31).ph != s.me.wph.getLsbD 31) = true) ∧
    (let s := st user (barrierCore { count := 2, poison := true })
     (s.seenBarrier 31).poison = true ∧ ((s.seenBarrier 31).ph != s.me.wph.getLsbD 31) = false ∧ s.latch.passed = false) ∧
    (let s := st user (barrierCore { count := 2, arr := 1 })
     (s.seenBarrier 31).poison = false ∧ s.nearOut id0 = false ∧ (withNet s [ownStoreMsg id0 0]).nearOut id0 = true ∧
     s.myLoadsOut id0 = false ∧ (withNet s [ownLoadMsg id0]).myLoadsOut id0 = true ∧
     ((withNet s [ownLoadMsg id0]).myBarrier 31).count ≠ 0 ∧ ((withNet s [ownStoreMsg id0 0]).myBarrier 31).count ≠ 0) := by decide +kernel
/-- R299: the last arrival inverts PH. -/
theorem test_bar_arrive : (match exec (.barArrive 31) (st user (barrierCore { count := 2, arr := 1 })) with
    | .next t => some ((t.myBarrier 31).ph, (t.myBarrier 31).arr)
    | _ => none) = some (true, 0) := by decide +kernel

/-- A hoop at core level of which context 0 is a member by register 0. -/
def hoop0 : Hoop :=
  { level := 0, unit := 0, part := 0, hid := 0, forming := false, nmem := 1, members := [{ ident := 0, id := id0, reg := 0 }], pending := [],
    ph := false, seq := 3, flushing := false }
/-- That context with its membership register. -/
def member (w : Option HoopWait) : Ctx :=
  { dev with hoopm := dev.hoopm.set 0 (hoop0.word), hoopWait := w }

/-- Witness of `HoopInstructions`: outside a hoop; inside, arriving, waiting and released; a join sent and admitted. -/
theorem witness_HoopInstructions :
    let s := st (member none) {} { hoops := [hoop0] }
    let w := s.me.hoopReg 0
    let arrived : HoopWait := { reg := 0, join := false, addr := 0x1000, seq := w.toNat / 2 ^ 32 % 2 ^ 15 }
    let q : JoinReq := { pid := 0, level := 0, unit := 0, part := 0, hid := 0, nmem := 0 }
    let j : HoopWait := { reg := 0, join := true, addr := 0x1000, seq := 1 }
    let t := st { dev with hoopWait := some j } {} { hoops := [hoop0] }
    s.myLoadsOut id0 = false ∧ (withNet s [ownLoadMsg id0]).myLoadsOut id0 = true ∧
    (withNet s [ownLoadMsg id0]).me.hoopWait = none ∧ (withNet s [ownLoadMsg id0]).joinedElsewhere 0 q = false ∧
    ((st dev).me.hoopReg 0).getLsbD 63 = false ∧ w.getLsbD 63 = true ∧ s.me.hoopWait = none ∧
    s.hoopOf (s.identOf s.cur.id) 0 = some (0, hoop0) ∧ { arrived with seq := 2 } ≠ arrived ∧
    (st (member (some { arrived with seq := 2 }))).me.hoopWait = some { arrived with seq := 2 } ∧
    (st (member (some arrived))).me.hoopWait = some arrived ∧
    descOk ((st dev).rg 1) 16 ∧ (st dev).badAt ((st dev).ownKey 0) 16 = none ∧
    (st dev).joinReq ((st dev).descBytes ((st dev).rg 1) 16) = some q ∧ (st dev).joinedElsewhere 0 q = false ∧
    t.me.hoopWait = some j ∧ t.admitted 0 q = some hoop0 ∧ t.leaving 0 = false ∧
    (let u := s
     w.getLsbD 63 = true ∧ u.me.hoopWait = none ∧ u.joinedElsewhere 0 q = false ∧ u.joinReq (u.descBytes (u.rg 1) 16) = some q ∧
     u.hoopOf (u.identOf u.cur.id) 0 = some (0, hoop0) ∧ descOk (u.rg 1) 16 ∧ u.badAt (u.ownKey 0) 16 = none) := by
  unfold descOk; decide +kernel

/-- Witness of `WaitingAndEnding`: a cycle reached and not, no ticket, a done and an outstanding ticket, a context outside hoops and in
one, with a load that has still to read and without, a STOPPED chain of a node instance's context. -/
theorem witness_WaitingAndEnding :
    let busy : Ctx := { withG user 1 0x00010000 with ifr := user.ifr.set 0 { state := .outstanding, seq := 1 } }
    let s := st (withG user 1 7) {} { cycle := 7 }
    let t := st (withG user 1 8) {} { cycle := 7 }
    s.latch.passed = false ∧ ¬((s.pkg 0).cycle.toNat < (s.rg 1).toNat ∨ s.me.landingBy 7 = true) ∧ (t.pkg 0).cycle.toNat < (t.rg 1).toNat ∧
    (1 : GNum) ≠ 0 ∧ ((st (withG user 1 0x100000000)).rg 1).toNat / 2 ^ 32 ≠ 0 ∧ ((st user).me.entry 0).state = .free ∧
    ((st busy).rg 1).toNat / 2 ^ 16 % 2 ^ 16 = ((st busy).me.entry 0).seq.toNat ∧ ((st busy).me.entry 0).state = .outstanding ∧
    (∀ m, m < 4 → ((st user).me.hoopReg m).getLsbD 63 = false) ∧
    (let h := st (member none) {} { hoops := [hoop0] }
     (∀ m, m < 4 → ((h.me.hoopReg m).getLsbD 63 = true ↔ m = 0)) ∧ h.myLoadsOut id0 = false ∧ (withNet h [ownLoadMsg id0]).myLoadsOut id0 = true ∧
     h.hoopOf (h.identOf id0) 0 = some (0, hoop0)) ∧
    (let k : Core := {}
     let c : Chain := { chain0 0 with stopped := true }
     let x := st { user with inst := some 4 } { k with live := { k.live with chains := [c] } }
     x.myCore.live.chains.any (fun c => c.ctx = 0 && c.stopped) = true ∧ x.me.inst = some 4) := by decide +kernel

/-- Witness of `TrapInstructions`: a bundle in hand; flags still out; a hit, and none. -/
theorem witness_TrapInstructions :
    let out : Ctx := { user with pend := [⟨3, .flags .a 1 0 0, 0⟩] }
    (st user).cur.len < 64 ∧ (st out).flagsOut = true ∧ (st out).latch.passed = false ∧ (st user).flagsOut = false := by decide +kernel
/-- R405, R36: `trap 5` in a bundle of 5 bytes at program level. -/
theorem test_trap : (match exec (.trap 5) (st { user with tvec := 0x200 }) with
    | .next t => some (t.me.pc, t.me.tepc, t.me.tcause, t.me.tval, t.me.level)
    | _ => none) = some (0x200, 0x1000, 16, 0x05000005, .partition) := by decide +kernel
/-- R90, R91: an enabled flag in a record traps `ARITH` (9). -/
theorem test_tfence : (match exec .tfence (st { user with fcsr := 0x10000, xr := user.xr.set 2 (1 <<< 57) }) with
    | .next t => t.latch.trap
    | _ => none) = some (9, 4) := by decide +kernel

/-- Witness of `TrapEntry` and `TrapReturn`: causes at both ends; each level; no chain is stopped. -/
theorem witness_TrapEntry : 0 < 32 ∧ 31 < 32 ∧ (st user).me.level = .program ∧ (st { user with level := .partition }).me.level = .partition ∧
    (st dev).me.level = .device ∧ (st dev).myCore.live.chains = [] := by decide +kernel
/-- R407: `tret` at device level goes on at `DTEPC` at the level of `DTCAUSE`. -/
theorem test_tret : (match exec .tret (st { dev with dtepc := 0x300, dtcause := 0x104 }) with
    | .next t => some (t.me.npc, t.me.level)
    | _ => none) = some (0x300, .partition) := by decide +kernel

/-- Witness of `StrokeEnd`: above program level; a stroke as expected, checking off; a wrong one outside and in a node instance. -/
theorem witness_StrokeEnd :
    let off := st { user with stkchk := 0x0800000000000000 }
    let bad := st user
    let u (s : State) : Word := stkUpdate s.me.stkchk false 1 []
    (st dev).me.level ≠ .program ∧ off.me.level = .program ∧ stkDis (u off) = true ∧ stkDis (u bad) = false ∧
    stkCnt (u bad) ≠ pairedCount [] ∧ bad.me.inst = none ∧ (st { user with inst := some 4 }).me.inst = some 4 := by decide +kernel

/-! ### CSRs and partitions -/

/-- Witness of `CsrRead`: a number of the own level, one of the next, and the last below an assigned one. -/
theorem witness_CsrRead : (0x021 : BitVec 12).toNat / 2 ^ 10 ≤ (st user).me.level.toNat ∧
    (st user).me.level.toNat < (0x400 : BitVec 12).toNat / 2 ^ 10 ∧ csrAccess 0x005 = none ∧ csrAccess 0x804 = none := by decide +kernel
/-- R316: a write above the context's level is `PRIVILEGE` (2) with the slot in bits 11:8. -/
theorem test_csrw : (match exec (.csrw 1 0x800) (st user) with
    | .next t => t.latch.trap
    | _ => none) = some (2, 0x700) := by decide +kernel

/-- Witness of `CsrWrite`: admitted and refused values at the ends of their ranges, a number that is read only, one above the level. -/
theorem witness_CsrWrite : csrAccess 0x000 = some .rw ∧ csrOk 0x000 0 = true ∧ csrAccess 0x003 ≠ some .rw ∧
    csrAccess 0x400 = some .rw ∧ (st user).me.level.toNat < (0x400 : BitVec 12).toNat / 2 ^ 10 ∧ csrAccess 0x001 = some .rw ∧
    csrOk 0x001 0x100000000 = false ∧ (st user).me.flagged = [] ∧ csrAccess 0x010 = some .rw ∧ csrOk 0x010 0 = true ∧
    (st { user with flagged := [(.a, 1, 0, 0)] }).me.flagged ≠ [] ∧ (0xFFFFFFFF : Word).toNat < 2 ^ 32 ∧ 2 ^ 32 ≤ (0x100000000 : Word).toNat ∧
    bankOk 15 0 = true ∧ bankOk 15 7 = false := by decide +kernel

/-- A control block: values at byte offsets. -/
def blk (fs : List (Nat × Nat)) : List Byte := leBytes 256 (fs.foldl (fun a f => a + f.2 * 2 ^ (8 * f.1)) 0)
/-- Partition 0: bay 0, 4 MiB of HBM from 0, one vector, one group number, one log record, one pool frame. -/
def part0 : Part := Part.ofBlock (blk [(0, 1), (16, 0x10000), (24, 0x20000), (32, 0x30000), (40, 0x40000), (48, 6), (49, 6), (54, 1),
  (56, 0x50000), (64, 1), (68, 1), (72, 0x60000), (80, 1), (84, 1), (88, 1), (90, 1), (92, 1), (94, 1), (104, 64)])
  (leBytes 16 (2 ^ 0 + 2 ^ 16 + 2 ^ 32 + 2 ^ 48))
def pkg0 : Pkg := { parts := [(0, part0)] }
/-- The kernel's tables: four levels above one of 64 KiB pages, whose entry 0 is `leaf`. -/
def tables (leaf : Nat) : List Host.Cell :=
  cellsOf 0x10000 (le 8 0x12001) ++ cellsOf 0x12000 (le 8 0x14001) ++ cellsOf 0x14000 (le 8 0x16001) ++
  cellsOf 0x16000 (le 8 0x18001) ++ cellsOf 0x18000 (le 16 leaf)
/-- Page 0 in frame `0x7_0000`, readable, writable and executable; held by a snapshot; blocked. -/
def leaf0 : Nat := 0x07800000_00070001
def leafCow : Nat := 0x0F800000_00070001 + 2 ^ 64
def leafBlk : Nat := 0x17800000_00070001
/-- A context at partition level in that partition. -/
def sup : Ctx := { level := .partition, halted := false }
/-- A sealed group whose staged bytes include the byte at a key (R183). -/
def sealedAt (k : Nat) : GroupRec :=
  { state := .sealed, epoch := 1, part := 0,
    units := [{ op := { src := 0, chan := 0, seq := 0, off := 0, elem := 0 }, need := 1, ident := 0, field := 0, part := 0, cells := [(k, 1)] }] }
/-- A store under way to a physical address, from context 0. -/
def storeMsg (pa : Nat) : Msg :=
  { src := { id := id0, ident := 0, part := some 0, level := .program, entry := 0, seq := 0, tag := 0, issue := 0 }, chan := 0,
    dst := .hbm 0, body := .store (.phys 0 pa) [1] none }

/-- The same group with its decision out of reach (R399). -/
def undecidedAt (k : Nat) : GroupRec := { sealedAt k with undecided := true }
/-- Outbound window 0 over the second 64 KiB page, readable, to exposure 3 of partition 5 of package 7; exposure 3 of partition 0 over
page 0 for package 0, readable and writable. -/
def outWin : List Byte := le 8 0x10000 ++ le 8 0x10000 ++ le 8 0x20000 ++ le 2 (7 + 5 * 1024) ++ [3, 0x81] ++ le 4 0
def expWin : List Byte := le 8 0 ++ le 8 0x10000 ++ le 2 0 ++ le 2 0 ++ le 4 0 ++ le 2 64 ++ [0x83, 0] ++ le 4 0
def partW : Part := { part0 with wins := [(0, outWin), (259, expWin)] }
/-- A context of partition 0 as an accessor. -/
def who0 (l : Level) (p : Option Nat) : Who := { pid := 0, core := 0, part := p, level := l }
/-- Partition 0 with those windows over page tables with a leaf. -/
def mapped (leaf : Nat) : State := st sup {} { parts := [(0, partW)] } (tables leaf)
/-- What an access of `n` bytes resolves to: reason and address of a fault (16: it waits on BLK, 17: on a line), or its first piece. -/
def how (s : State) (w : Who) (k : AccKind) (a : Nat) (n : Nat) : Nat × Nat :=
  match s.resolve w k (BitVec.ofNat 64 a) n with
  | .fault r b => (r, b.toNat)
  | .ok [{ dest := .phys 0 pa, .. }] => (0, pa)
  | .ok [{ dest := .exposure 7 5 3 o, .. }] => (18, o)
  | .ok _ => (19, 0)
  | .blocked _ va => (16, va)
  | .lined _ => (17, 0)

/-- Witness of `AccessResolution`, and the outcomes that R21, R22, R337, R338 and R345 give: no form; the own and a bay core's scratchpad
to the last byte and past it, the hole beside them; physical addresses; no partition; a window and its permissions and end; the page
tables: nothing mapped, a fault of the frame, permissions, BLK, a sealed line. -/
theorem witness_AccessResolution :
    let d := who0 .device none
    let u := who0 .program (some 0)
    let s := mapped leaf0
    how s u .read (2 ^ 57) 8 = (3, 2 ^ 57) ∧ how s u .read (2 ^ 64 - 2 ^ 28 - 1) 1 = (3, 2 ^ 64 - 2 ^ 28 - 1) ∧
    how s u .write 0xFFFFFFFFF00FFFF8 8 = (0, spadBase + 0xFFFF8) ∧ how s u .write 0xFFFFFFFFF00FFFF9 8 = (1, 0xFFFFFFFFF0100000) ∧
    how s u .read 0xFFFFFFFFF8700000 8 = (0, spadBase + 7 * 2 ^ 20) ∧ how s u .read 0xFFFFFFFFF8800000 8 = (4, 0xFFFFFFFFF8800000) ∧
    how s d .read 0x10000 8 = (0, 0x10000) ∧ regionOf 0x10000 = some .hbm ∧ how s d .read (2 ^ 56) 8 = (8, 2 ^ 56) ∧ regionOf (2 ^ 56) = none ∧
    how s d .group spadBase 8 = (9, spadBase) ∧ regionOf spadBase = some .spad ∧ how s (who0 .program none) .read 0 8 = (5, 0) ∧
    s.part 0 0 = some partW ∧ partW.findWin 0x1FFF8 = some outWin ∧ how s u .read 0x1FFF8 8 = (18, 0x2FFF8) ∧
    how s u .read 0x1FFF9 8 = (7, 0x20000) ∧ how s u .write 0x1FFF8 8 = (6, 0x1FFF8) ∧ partW.findWin 0 = none ∧
    how s u .read 0x20000 8 = (5, 0x20000) ∧ how s u .write 0xFFF8 8 = (0, 0x7FFF8) ∧ how s u .group 0xFFF8 8 = (0, 0x7FFF8) ∧
    how (mapped 0x01800000_00070001) u .write 0 8 = (6, 0) ∧ how (mapped 0x07800000_00200001) u .read 0 8 = (0, 0x200000) ∧
    how (mapped 0x07800000_00800001) u .read 0 8 = (8, 0) ∧ how (mapped leafBlk) u .write 8 8 = (16, 0) ∧
      how (mapped leafBlk) u .read 8 8 = (0, 0x70008) ∧
    how { s with pkgs := [(0, { parts := [(0, partW)], groups := [(1, sealedAt 0x18000)] })] } u .read 8 8 = (17, 0) ∧
    (s.pkg 0).tlb = [] ∧ (s.access u .write 8 8).2 = .ok [{ dest := .phys 0 0x70008, len := 8 }] := by decide +kernel
/-- The walk reaches level 3 from the root, through an entry that can be read; its last table holds a leaf, or nothing. -/
theorem witness_AccessResolution_walk : (mapped leaf0).WalkReaches 0 partW 0 3 0x12000 ∧ (mapped leaf0).entryReads 0 0x12000 ∧
    (mapped leaf0).entryReads 0 0x18010 ∧ ((mapped leaf0).entryAt 0 0x18010).getLsbD 0 = false ∧ ¬EntryBad ((mapped leaf0).entryAt 0 0x12000) ∧
    partW.owns 0x12000 16 = true ∧ (mapped leaf0).tlbOk 0 := by
  refine ⟨State.WalkReaches.down 3 0x10000 0x10000 State.WalkReaches.root ?_ ?_ ?_ ?_ ?_ ?_ ?_, ?_⟩
  · decide
  · unfold State.entryReads; decide +kernel
  · decide +kernel
  · unfold EntryBad; decide +kernel
  · decide +kernel
  · decide +kernel
  · decide +kernel
  · unfold State.entryReads EntryBad State.tlbOk; decide +kernel
/-- An exposure that admits its source, and the two ways in which one does not: another package, an access past its end. -/
theorem witness_AccessResolution_target : ∀ k ∈ [(0, 0, 8), (1, 0, 8), (0, 0xFFFF, 2)],
    let s := mapped leaf0
    let x := partW.win 259
    (expPerm x).testBit 7 = true ∧ bytesAt x 16 2 = 0 ∧ bytesAt x 18 2 = 0 ∧ (bytesAt x 24 2).testBit 6 = true ∧ winLen x = 0x10000 ∧
    permAllows (expPerm x) .write = true ∧
    (s.atTarget 0 0 3 k.2.1 k.2.2 .write k.1 none).2 = (if k.1 = 0 ∧ k.2.1 = 0 then .ok [{ dest := .phys 0 0x70000, len := 8 }] else .fault 6 0) := by
  decide +kernel

/-- Witness of `AccessFaults`: a group number of another partition; a page that is not mapped; an undecided and a sealed line; a write
that meets BLK, its time not over and over; a group store to a scratchpad. -/
theorem witness_AccessFaults :
    let sup2 (g : Word) : Ctx := withA (withG sup 1 g) 2 0x20000
    let own (c : Ctx) (g : List (Nat × GroupRec)) (l : Nat) (b : List Blocked) : State :=
      st c {} { parts := [(0, partW)], groups := g, blocked := b } (tables l)
    let acc (s : State) (k : AccKind) (n : Nat) := (s.access (s.whoOf s.cur.id) k (s.ra 2) n).2
    let s := own (sup2 9) [] leaf0 []
    let at0 := withA (withG sup 1 1) 2 8
    let b (e : Bool) : Blocked := { id := some id0, part := 0, va := 0, left := 0, expired := e }
    s.me.freeEntry.isSome = true ∧ s.landFull id0 = false ∧ s.ownsGroup ((s.rg 1).toNat % 2 ^ 16) = false ∧
    (own at0 [] leaf0 []).ownsGroup 1 = true ∧ acc s .write 8 = .fault 5 0x20000 ∧
    acc (own at0 [(1, undecidedAt 0x18000)] leaf0 []) .read 256 = .lined (.undecided 1 1) ∧
    acc (own at0 [(1, sealedAt 0x18000)] leaf0 []) .write 8 = .lined .waits ∧
    acc (own at0 [] leafBlk [b false]) .write 8 = .blocked 0 0 ∧
    ((own at0 [] leafBlk [b false]).pkg 0).blocked.find? (fun b => b.id = some id0 && b.chan = 16 && b.part = 0 && b.va = 0) = some (b false) ∧
    acc (own at0 [] leafBlk [b true]) .write 8 = .blocked 0 0 ∧
    (let t := st (withA (withG dev 1 1) 2 0xFFFFFFFFF0000000)
     t.ownsGroup 1 = true ∧ acc t .group 8 = .ok [{ dest := .phys 0 spadBase, len := 8 }] ∧ regionOf spadBase = some .spad) := by
  decide +kernel

/-- Witness of `WindowInstructions`: windows 0 and 511, number 512, a reserved bit, an overlap. -/
theorem witness_WindowInstructions :
    let s (n : Nat) := st (withG (withG sup 1 0x100) 2 (BitVec.ofNat 64 n)) {} pkg0
    let win : List Byte := le 8 0x10000 ++ le 8 0x10000 ++ le 8 0 ++ [0, 0, 0, 0x80] ++ le 4 0
    let x1 : Part := { part0 with wins := [(3, win)] }
    let t := st (withG sup 1 0x100) {} { parts := [(0, x1)] } (cellsOf (spadKey 0 0 0x100) win)
    (s 0).memOk ∧ (s 0).myPart = some (0, part0) ∧ descOk ((s 0).rg 1) 32 ∧ (s 0).badAt ((s 0).ownKey 0x100) 32 = none ∧
    winBad 0 ((s 0).descBytes ((s 0).rg 1) 32) = none ∧ part0.winClash 0 ((s 0).descBytes ((s 0).rg 1) 32) = none ∧
    ((s 511).rg 2).toNat = 511 ∧ winBad 511 ((s 511).descBytes ((s 511).rg 1) 32) = none ∧ 511 < ((s 512).rg 2).toNat ∧
    winBad 0 (List.replicate 27 (0 : Byte) ++ [0x10, 0, 0, 0, 0]) = some 27 ∧
    (s 0).lineAt 0 0x30000 32 = .clear ∧
    (let u := st (withG sup 1 0x100) {} { pkg0 with groups := [(1, sealedAt 0x30000)] }
     u.memOk ∧ u.myPart = some (0, part0) ∧ u.lineAt 0 0x30000 32 = .waits ∧ u.latch.passed = false ∧ (u.rg 2).toNat = 0 ∧
     (st (withG sup 1 0x100) {} { pkg0 with groups := [(1, undecidedAt 0x30000)] }).lineAt 0 0x30000 32 = .undecided 1 1 ∧
     u.badAt (u.ownKey 0x100) 32 = none ∧ winBad 0 (u.descBytes (u.rg 1) 32) = none ∧ part0.winClash 0 (u.descBytes (u.rg 1) 32) = none) ∧
    t.myPart = some (0, x1) ∧ winBad 0 (t.descBytes (t.rg 1) 32) = none ∧ x1.winClash 0 (t.descBytes (t.rg 1) 32) = some 3 := by
  unfold descOk; decide +kernel

/-- Witness of `Translations`: nothing and something under way, at the first execution and at a later one; a walk to a leaf, a held
page with a frame to copy to, a blocked write whose time is over, with room in the fault queue and with none. -/
theorem witness_Translations :
    let s := st sup {} pkg0 (tables leaf0)
    let t := { s with net := [{ storeMsg 0x70000 with via := some (0, 0) }] }
    let again : State := { t with cores := (st { sup with inval := some (0x1000, t.translatedOut 0 0 [(0, 2 ^ 57)]) }).cores }
    let c := st sup {} pkg0 (tables leafCow ++ cellsOf 0x50000 (le 8 1) ++ cellsOf 0x50040 (le 8 0x80000))
    let b : Blocked := { id := some id0, part := 0, va := 0, left := 0, expired := false }
    s.myPart = some (0, part0) ∧ s.translatedOut 0 0 [(0, 2 ^ 57)] = ([], []) ∧ t.myPart = some (0, part0) ∧
    (t.translatedOut 0 0 [(0, 2 ^ 57)]).1.length = 1 ∧ t.translatedOut 0 0 [(0x10000, 0x10000)] = ([], []) ∧ t.latch.passed = false ∧
    again.me.inval = some (again.cur.addr, t.translatedOut 0 0 [(0, 2 ^ 57)]) ∧
    (let q (put : Nat) := st sup {} { pkg0 with blocked := [b] } (cellsOf 0x30000 (le 8 put))
     (q 0).part 0 0 = some part0 ∧ ((q 0).pkg 0).posts = [] ∧ (q 0).lineAt 0 0x30000 (64 + 32 * 2 ^ 6) = .clear ∧ part0.fqlog = 6 ∧
     part0.fqbase = 0x30000 ∧ (q 0).readNat 0x30000 8 = 0 ∧ (q 64).readNat 0x30000 8 = 64) ∧
    s.part 0 0 = some part0 ∧ (s.pkg 0).tlb = [] ∧
    (match walkFrom s 0 part0 0 4 part0.root with
     | .ok l => decide (l = { key := 0x18000, word := BitVec.ofNat 128 leaf0, base := 0, size := 65536 })
     | .error _ => false) = true ∧
    c.memOk ∧
    (match c.walk 0 0 0 with
     | .ok l => decide (l.key = 0x18000 ∧ pteCow l.word = true ∧ pteLoc l.word < 2 ∧ l.size = 65536 ∧ l.frameOk part0 = true ∧
         pteW l.word = true ∧ pteBlk l.word = false ∧ pteAddr l.word = 0x70000)
     | .error _ => false) = true ∧ c.lineAt 0 0x70000 65536 = .clear ∧
    c.readNat 0x50000 8 ≠ c.readNat 0x50008 8 ∧ part0.poolcap ≠ 0 ∧ part0.freeLog c 0 = some 0x60000 ∧
    c.readNat (0x50040 + 8 * (c.readNat 0x50008 8 % 1)) 8 = 0x80000 ∧ part0.owns 0x80000 65536 = true ∧
    meets 0x50008 8 0x60000 32 = false ∧ part0.logbase = 0x60000 ∧ part0.logcap = 1 ∧ part0.poolbase = 0x50000 ∧ meets 0x50008 8 0x18000 16 = false ∧
    (∀ k ∈ [(0x50008, 8), (0x60000, 24), (0x18000, 16)], meets k.1 k.2 0x70000 65536 = false ∧ meets k.1 k.2 0x80000 65536 = false) ∧
    meets 0x70000 65536 0x80000 65536 = false ∧ meets 0x60000 24 0x18000 16 = false ∧
    ((st sup {} { blocked := [b] }).pkg (0 / 65536)).blocked[0 % 65536]? = some b := by decide +kernel

/-- Witness of `SnapshotPages`: a host page and a page of a frame; a page that slot 5 holds, that slot 6 holds, that no slot holds, with
and without a record of slot 5's old frame in the log. What a restore of slot 5 does with slot 6's page: it makes the logged frame current,
and logs the replaced one for slot 6. -/
theorem witness_SnapshotPages :
    let held (n : Nat) : Nat := leaf0 + 2 ^ 59 + 2 ^ (64 + n)
    let log : List Host.Cell := cellsOf 0x60000 (le 8 0 ++ le 8 0x90000 ++ le 8 (2 ^ 5))
    let s (l : Nat) (cs : List Host.Cell) := st sup {} pkg0 (tables l ++ cs)
    let word (s : State) : Nat := match s.walk 0 0 0 with
      | .ok l => if l.key = 0x18000 ∧ l.size = 65536 then l.word.toNat else 0
      | .error _ => 0
    (s leaf0 []).memOk ∧ (s (held 6) log).memOk ∧ (s leaf0 []).part 0 0 = some part0 ∧ word (s leaf0 []) = leaf0 ∧ word (s (held 5) []) = held 5 ∧
    word (s (held 6) log) = held 6 ∧ (BitVec.ofNat 128 (held 5)).extractLsb' 64 64 = BitVec.twoPow 64 5 ∧
    ((BitVec.ofNat 128 (leaf0 + 2 ^ 63)).extractLsb' 62 2).toNat = 2 ∧ ((BitVec.ofNat 128 leaf0).extractLsb' 62 2).toNat = 0 ∧
    (s leaf0 []).logOf 0 part0 5 (some 0) = [] ∧ (s (held 6) log).logOf 0 part0 5 (some 0) = [0x60000] ∧
    (s leaf0 log).logOf 0 part0 5 (some 0) = [0x60000] ∧ meets 0x18000 16 0x60000 32 = false ∧ part0.freeLog (s (held 6) log) 0 = none ∧
    (s (held 6) log).readNat 0x60008 8 = 0x90000 ∧ 0x90000 % 512 = 0 ∧
    (let t := ((s (held 6) log).restorePage 0 0 5 0 0).1
     word t = 0x07800000_00090001 ∧ t.readNat 0x60000 8 = 0 ∧ t.readNat 0x60008 8 = 0x70000 ∧ t.readNat 0x60010 8 = 2 ^ 6) ∧
    word ((s (held 5) []).restorePage 0 0 5 0 0).1 = leaf0 ∧ word ((s leaf0 []).snapPage 0 0 5 0).1 = held 5 ∧
    (let t := ((s leaf0 log).releasePage 0 0 5 0 0).1
     t.readNat 0x60010 8 = 0 ∧ t.readNat 0x40000 8 = 1 ∧ t.readNat 0x40040 2 = 17) := by decide +kernel

/-- Witness of `SnapshotInstructions`: one page; slot 5 free, being taken after a stop, held; a stop of the snapshot in either pass, of a
release; a page whose entry stands in a sealed line; a large page; a held slot of another range. -/
theorem witness_SnapshotInstructions :
    let l : Word := 0x10005
    let c : Ctx := withG sup 2 l
    let s := st c {} pkg0 (tables leaf0)
    let x (r : SState) : Part := { part0 with slots := [(5, { state := r, base := 0, len := 65536 })] }
    let taking (s : State) := s.setSlot 0 0 5 (some { state := .taking, base := 0, len := 65536 })
    let u := { st { c with prog := 0x8063_4000_0000_0000 } {} { parts := [(0, x .taking)] } (tables leaf0) with longLimit := none }
    let h := st c {} { parts := [(0, x .held)] } (tables leafCow)
    let k := { s with longLimit := some 0 }
    s.myPart = some (0, part0) ∧ opBad (s.rg 1) (s.rg 2) true = none ∧ (part0.slot 5).state = .free ∧ progMatches s.me.prog 0x63 = false ∧
    (pageRun (fun i t => (t, t.snapCheck 0 0 (65536 * i))) 1 0 (taking s)).2 = (1, .ok) ∧
    (pageRun (fun i t => t.snapPage 0 0 5 (65536 * i)) 1 0 (taking s)).2 = (1, .ok) ∧
    u.myPart = some (0, x .taking) ∧ ((x .taking).slot 5).state = .taking ∧ progMatches u.me.prog 0x63 = true ∧ progPass u.me.prog = 1 ∧
    progDone u.me.prog = 0 ∧ (pageRun (fun i t => t.snapPage 0 0 5 (65536 * i)) 1 0 (taking u)).2 = (1, .ok) ∧
    k.longLimit = some 0 ∧ (pageRun (fun i t => (t, t.snapCheck 0 0 (65536 * i))) 0 0 (taking k)).2 = (0, .ok) ∧
    (let k1 := { s with longLimit := some 1 }
     k1.longLimit = some 1 ∧ (pageRun (fun i t => (t, t.snapCheck 0 0 (65536 * i))) 1 0 (taking k1)).2 = (1, .ok) ∧
     (pageRun (fun i t => t.snapPage 0 0 5 (65536 * i)) 0 0 (taking k1)).2 = (0, .ok)) ∧
    (pageRun (fun i t => t.snapPage 0 0 5 (65536 * i)) 0 0 (taking { u with longLimit := some 0 })).2 = (0, .ok) ∧
    (let z (s : State) : State := s.updPkg 0 (fun p => { p with groups := [(1, sealedAt 0x18000)] })
     (pageRun (fun i t => (t, t.snapCheck 0 0 (65536 * i))) 1 0 (taking (z s))).2 = (0, .waits) ∧
     (pageRun (fun i t => t.snapPage 0 0 5 (65536 * i)) 1 0 (taking (z u))).2 = (0, .waits) ∧
     (pageRun (fun i t => t.releasePage 0 0 5 0 (65536 * i)) 1 0 ((z h).setSlot 0 0 5 (some
       { state := .ending, base := 0, len := 65536 }))).2 = (0, .waits)) ∧
    (let large := st c {} pkg0 (cellsOf 0x10000 (le 8 0x12001) ++ cellsOf 0x12000 (le 8 0x14001) ++ cellsOf 0x14000 (le 8 0x16001) ++
       cellsOf 0x16000 (le 8 0x07800000_00200001))
     large.myPart = some (0, part0) ∧ (pageRun (fun i t => (t, t.snapCheck 0 0 (65536 * i))) 1 0 (taking large)).2 = (0, .large 0)) ∧
    (let y : SnapSlot := { state := .held, base := 0x10000, len := 65536 }
     y.base ≠ (s.rg 1).toNat ∧ progMatches s.me.prog 0x64 = false) ∧
    opBad (h.rg 1) (h.rg 2) false = none ∧ (x .held).slot 5 = { state := .held, base := 0, len := 65536 } ∧ progMatches h.me.prog 0x64 = false ∧
    (pageRun (fun i t => t.restorePage 0 0 5 0 (65536 * i)) 1 0 (h.setSlot 0 0 5 (some { state := .ending, base := 0, len := 65536 }))).2 = (1, .ok) ∧
    (pageRun (fun i t => t.releasePage 0 0 5 0 (65536 * i)) 1 0 (h.setSlot 0 0 5 (some
      { state := .ending, base := 0, len := 65536 }))).2 = (1, .ok) := by
  decide +kernel

/-- Witness of `PageInstructions`: a page with and without a write under way, and a blocked one that may move. -/
theorem witness_PageInstructions :
    let s := st sup {} pkg0 (tables leaf0)
    let t := { s with net := [storeMsg 0x70000] }
    let b := st (withG sup 2 0x90000) {} pkg0 (tables leafBlk)
    let isLeaf (s : State) (w : Nat) : Prop := (match s.walk 0 0 0 with
      | .ok l => decide (l = { key := 0x18000, word := BitVec.ofNat 128 w, base := 0, size := 65536 })
      | .error _ => false) = true
    s.memOk ∧ s.myPart = some (0, part0) ∧ isLeaf s leaf0 ∧ s.writesOut 0 0x70000 65536 = false ∧ t.writesOut 0 0x70000 65536 = true ∧
    s.lineAt 0 (keyPa 0x18000) 16 = .clear ∧ t.lineAt 0 (keyPa 0x18000) 16 = .clear ∧ t.latch.passed = false ∧ isLeaf t leaf0 ∧ t.memOk ∧
    b.lineAt 0 (keyPa 0x18000) 16 = .clear ∧ b.writesOut 0 0x70000 65536 = false ∧ b.accessesOut 0 0x70000 65536 true = false ∧
    b.memOk ∧ isLeaf b leafBlk ∧ pteBlk (BitVec.ofNat 128 leafBlk) = true ∧ pteAddr (BitVec.ofNat 128 leafBlk) = 0x70000 ∧
    part0.owns 0x90000 65536 = true ∧ locOf 0x90000 = some 0 ∧
    ({ key := 0x18000, word := BitVec.ofNat 128 leafBlk, base := 0, size := 65536 } : Leaf).frameOk part0 = true ∧
    0x90000 ≠ pteAddr (BitVec.ofNat 128 leafBlk) ∧ (BitVec.ofNat 128 leaf0).getLsbD 60 = false ∧ (BitVec.ofNat 128 leafBlk).getLsbD 60 = true ∧
    progMatches b.me.prog 0x66 = false ∧ b.longLimit = none ∧ meets 0x18000 16 0x70000 65536 = false ∧ meets 0x18000 16 0x90000 65536 = false := by
  decide +kernel

/-- Witness of `InterruptParkRecord`: the last and the first number beyond; a context in and out of READY, one of no partition; an
in-flight record's entry. -/
theorem witness_InterruptParkRecord :
    let s := st (withG sup 1 1) {} pkg0
    let e : CtxId := ⟨0, 0, 1⟩
    s.myPart = some (0, part0) ∧ ((st sup).rg 1).toNat < part0.nvec ∧ s.me.storesOut s.cur.issue = false ∧
    (s.me.storesOut s.cur.issue || !s.me.loadsDone || s.nearOut s.cur.id) = false ∧
    (let w := withNet (st sup {} pkg0) [ownStoreMsg id0 0]
     w.myPart = some (0, part0) ∧ (w.rg 1).toNat < part0.nvec ∧ w.latch.passed = false ∧
     (w.me.storesOut w.cur.issue || !w.me.loadsDone || w.nearOut w.cur.id) = true) ∧
    s.resident e = true ∧ { s with cores := [(0, { swap := .parked })] }.resident e = false ∧
    { s with cores := [(0, { swap := .parked })] }.partOfCore 0 0 = some 0 ∧ part0.nvec ≤ (s.rg 1).toNat ∧
    (s.rg 1).toNat < 4096 ∧ s.partOfCore 0 0 = some 0 ∧ placeOf e ≠ placeOf s.cur.id ∧ 4 ≤ s.stateCode e ∧
    (s.updCtx e (fun c => { c with halted := false })).stateCode e < 4 ∧ (s.core 0 0).swap = .running ∧
    (e.ctx = 1 ∧ s.me.loadsDone = true) ∧ s.partOfCore 0 1023 ≠ some 0 ∧ 4092 < 4096 ∧ ((s.rg 2).toNat < 2 ^ 24 ∧
      (s.rg 2).toNat / 2 ^ 9 % 8 = 0 ∧ s.resident id0 = true) := by
  decide +kernel

/-! ### The matrix engines -/

/-- A core whose engine 0 is `x`. -/
def engCore (x : Engine) (n : Nat := 0) : Core := { live := { eng := (Vector.replicate 2 {}).set 0 x }, pcyc := n }
/-- A queued `mzero` of context 0. -/
def mzero0 (d : Option Nat) : MEntry :=
  { op := .mzero, ctx := 0, td := 7, cfg := 0, offA := 0, offB := 0, idx := [], units := 8, done := 0, startAt := 8, order := 0,
    bf := Vector.replicate 16 0, desc := [], sr := [], sat8 := false, addr := 0, level := .program, issue := 0, doneAt := d }
/-- Its `mma` and `mout`, with the configuration of the pair `.e4e4` (R130: code 3 twice) and of `.i8i8` (8 twice). -/
def mma0 : MEntry := { mzero0 none with op := .mma false, cfg := 0x33, units := 1, bf := Vector.replicate 16 3 }
def mout0 : MEntry := { mzero0 none with op := .mout, cfg := 0x33, bf := Vector.replicate 16 3 }

/-- Witness of `MatrixQueue`: a full engine and an empty one; entries that pass the checks; a pair outside R130's table, operands
not aligned and too high. -/
theorem witness_MatrixQueue :
    let full := st user (engCore { queue := List.replicate 8 (mzero0 none) })
    let s := st (withA user 2 0xF8000) (engCore { active := 0x33 })
    (withNet (st user) [ownStoreMsg id0 0]).nearOut id0 = true ∧ s.nearOut id0 = false ∧ full.nearOut id0 = false ∧
    full.latch.trap = none ∧ full.latch.hold = false ∧ ((full.myCore.live.engine 0).queue.filter (fun e => match e.doneAt with
      | some c => full.myCore.pcyc < c
      | none => true)).length = 8 ∧
    (s.myCore.live.engine 0).queue = [] ∧ mma0.check 0 0 = none ∧ { mma0 with op := .mmaG true, idx := List.replicate 64 0 }.check 0 0 = none ∧
    s.raceCheck ⟨s.cur.id, false⟩ s.me.racedet false (spadKey 0 0 0) 128 = none ∧ (s.ra 2).toNat % 2 ^ 20 + 32768 = 2 ^ 20 ∧
    { mout0 with desc := le 32 (128 * 2 ^ 64) }.check 0 0 = none ∧ cfgPair 0 = none ∧ cfgPair 0x33 ≠ none ∧
    ((st (withA user 2 0xF8004)).ra 2).toNat % 2 ^ 20 + 32768 > 2 ^ 20 ∧ ((st (withA user 2 2)).ra 2).toNat % 4 ≠ 0 := by decide +kernel

/-- Witness of `MatrixControl`: a legal pair, reserved bits, a table offset one unit too high; queues with and without unfinished work. -/
theorem witness_MatrixControl :
    (pairOf 3 3).isSome ∧ (0x1000000000000033 : Word).toNat / 2 ^ 60 ≠ 0 ∧ (pairOf 0 0).isNone ∧
    0xFFF0 < (0xFFF100000000033 : Word).toNat / 2 ^ 44 % 2 ^ 16 ∧ (0xFFF000000000033 : Word).toNat / 2 ^ 44 % 2 ^ 16 ≤ 0xFFF0 ∧
    (st user).me.traps = [] ∧
    (let busy (s : State) : Bool := (s.myCore.live.engine 0).queue.any (fun e => e.ctx = s.cur.id.ctx % 4 && (match e.doneAt with
      | some c => decide (s.myCore.pcyc < c)
      | none => true))
     busy (st user) = false ∧ busy (st user (engCore { queue := [mzero0 none] })) = true ∧
     busy (st user (engCore { queue := [mzero0 (some 5)] } 5)) = false) := by decide +kernel

/-- Witness of `MatrixProgress`: a waiting instruction 8 cycles after its issue, and each kind of instruction under way and due. -/
theorem witness_MatrixProgress :
    (let x : Engine := { queue := [mzero0 none] }
     let s := st user (engCore x 8)
     let k := s.core 0 0
     k.swap = .running ∧ (k.live.engine 0).running = none ∧ k.live.gatherTaken 0 k.pcyc = false ∧ (mzero0 none).ctx < 4 ∧
     (k.live.engine 0).queue.find? (fun z => z.ctx = 0 && decide (z.done < z.units)) = some (mzero0 none) ∧ (mzero0 none).startAt ≤ k.pcyc) ∧
    (∀ e ∈ [mzero0 none, { mzero0 none with op := .minit }, mma0, { mma0 with cfg := 0x88 }, mout0],
      let s := st user (engCore { queue := [e], running := some (0, 9) } 9)
      let k := s.core 0 0
      (k.live.engine 0).running = some (0, 9) ∧ 9 ≤ k.pcyc ∧ k.swap = .running ∧
      (k.live.engine 0).queue.find? (fun y => y.order = 0) = some e ∧ e.td < 8 ∧ e.ctx < 4 ∧ k.live.badTiles = []) ∧
    cfgPair 0x33 ≠ none ∧ (cfgPair 0x88).map (·.int) = some true ∧ (cfgPair 0x33).map (·.int) = some false ∧
    (let g : MEntry := { mma0 with op := .mmaG true, idx := 0xFFFF :: List.replicate 63 63 }
     ((some ((g.idx[0]?).getD 0)).filter (· ≠ 0xFFFF)) = none ∧ ((some ((g.idx[1]?).getD 0)).filter (· ≠ 0xFFFF)) = some 63 ∧
     cfgPair g.cfg ≠ none ∧ g.td < 8) ∧
    (let m : MEntry := { mout0 with desc := le 32 (128 * 2 ^ 64), offA := 0x1000 }
     let s := st user { live := { eng := (Vector.replicate 2 {}).set 0 { queue := [m], running := some (0, 9) }
                                  tiles := [(tileKey 0 7 0 0, 0x3F800000)] }, pcyc := 9 }
     (s.ctx id0).racedet = 0 ∧ (s.core 0 0).live.badTiles = [] ∧ m.outBytes = 1 ∧ descOstr m.desc = 128 ∧
     (match exec (.matrixUnitEnd 0 0 0) s with
      | .next t => decide (t.readBytes (spadKey 0 0 0x1000) 2 = [0x38, 0])
      | _ => false) = true) := by decide +kernel
/-- R145: with one instruction queued, no other can be offered in its place. -/
theorem witness_MatrixProgress_only (y : MEntry) (e : MEntry)
    (h : ([e] : List MEntry).find? (fun z => z.ctx = y.ctx && decide (z.done < z.units)) = some y) : y = e :=
  List.mem_singleton.mp (List.mem_of_find?_eq_some h)

/-! ### Slot E -/

/-- Witness of `ChainCommands`: a misaligned head, a full queue, a free place; the words of `cpyq` in every case. -/
theorem witness_ChainCommands :
    let e (x : IfrEntry) : State := st { withG user 1 0x00011000 with ifr := user.ifr.set 0 x }
    (st (withA user 2 8)).ra 2 = 8 ∧ ((st user).ra 2).toNat % 16 = 0 ∧
    ((st user { live := { chains := List.replicate 16 (chain0 0) } }).myCore.live.chains.filter (fun c => c.queue = 0)).length = 16 ∧
    (st user).myCore.live.chains = [] ∧ (st user).me.freeEntry = some 0 ∧ ((st (withG user 1 0x100000000)).rg 1).toNat / 2 ^ 32 ≠ 0 ∧
    ((e {}).me.entry 0).state = .free ∧
    ((e { state := .outstanding, seq := 1, kind := 1 }).me.entry 0).seq.toNat = ((e {}).rg 1).toNat / 2 ^ 16 % 2 ^ 16 ∧
    ((e { state := .outstanding, seq := 1, kind := 1 }).me.entry 0).kind.toNat = ((e {}).rg 1).toNat / 2 ^ 12 % 2 ^ 4 ∧
    ((e { state := .retired, seq := 1, kind := 1 }).me.entry 0).state = .retired ∧
    ((e { state := .retired, seq := 1, kind := 0 }).me.entry 0).kind = 0 := by decide +kernel

/-- Witness of `UnitCommands`: descriptors at the end of the scratchpad. -/
theorem witness_UnitCommands :
    let s := st (withA user 2 0xFFFC0) {} {} (cellsOf (spadKey 0 0 0xFFFC0) (le 8 0x10000 ++ le 8 0x10000))
    s.me.freeEntry = some 0 ∧ s.badAt (s.ownKey 0xFFFC0) 64 = none ∧ descOk (s.ra 2) 64 ∧
    bytesAt (s.descBytes (s.ra 2) 64) 36 2 ≤ 1024 ∧ bytesAt (s.descBytes (s.ra 2) 64) 32 4 + 4 * 0 ≤ 2 ^ 20 ∧
    (s.myCore.live.chains.filter (fun c => c.queue = 0)).length < 16 ∧ snapBad (s.descBytes (s.ra 2) 32) = none := by
  unfold descOk; decide +kernel

/-- An open combiner entry of partition 0. -/
def comb0 : Comb := { key := 5, ctrl := 0, part := some 0, pid := 0, result := 0, dsc := 0, left := none, applied := [] }

/-- Witness of `CombinerCommands`: no open entry, and an open one named by the handle. -/
theorem witness_CombinerCommands :
    let s := st (withG user 1 0x0005000000000000) {} { parts := [(0, part0)], combs := [(0, comb0)] }
    s.me.freeEntry = some 0 ∧ s.badAt (s.ownKey 0) 32 = none ∧ descOk (s.ra 2) 32 ∧ (st user).combOf ((st user).rg 1) = none ∧
    s.combOf (s.rg 1) = some comb0 ∧ comb0.part = some 0 ∧ s.partOfCore 0 0 = some 0 ∧ (s.rg 1).toNat / 2 ^ 38 % 2 ^ 10 = 0 := by
  unfold descOk; decide +kernel

/-! ### The quill -/

/-- Queue 0 holds one chain, whose entry at offset 0 has header `h` and unit `u`; group features are accepted. -/
def quill (h u : Nat) (c : Chain := chain0 0) (p : Pkg := { features := 1 }) : State :=
  st dev { live := { chains := [c] } } p (cellsOf (spadKey 0 0 0) (le 16 h ++ le 16 u))
/-- A header: KIND, PLEN, OPT, ARG and DST (R220). -/
def hdr (kind plen opt arg dst : Nat) : Nat := kind + plen * 2 ^ 12 + opt * 2 ^ 24 + arg * 2 ^ 32 + dst * 2 ^ 64
/-- Nothing holds the chain, and its entry is well formed and of a kind. -/
def ready (s : State) (c : Chain) (kind h : Nat) : Bool :=
  decide (s.headChain 0 0 0 = some c) && decide ((s.core 0 0).swap = .running) && !s.coreDead 0 0 && !c.stopped && c.acks = 0 &&
  decide (c.bad = none) && !(s.ctx id0).storesOut c.issue && !s.loadsOut c.ident c.issue && !s.entryLost id0 c && decide (c.kind = .chain) &&
    decide ((s.entryBad id0 c).1 = none) &&
  decide ((s.entryBad id0 c).2.1 = h) && h % 256 = kind && c.ctx < 4
/-- A read by the chain gives these bytes. -/
def reads (s : State) (c : Chain) (a : Word) (bs : List Byte) : Bool :=
  match (s.chainRead id0 c a bs.length).2 with
  | .ok b => decide (b = bs)
  | .error _ => false
/-- An address of the own field's vault. -/
def vaultAt (n : Nat) : Nat := vaultBase + n

/-- Witness of `ChainFlow`: `END`; `LOOP` with iterations left, on its last, and begun; `COND` and `WAITFLAG` that hold and do not; a
timer that has run; a queue with nothing to serve, one with an entry to perform, one with an entry to pass over. -/
theorem witness_ChainFlow :
    ready (quill (hdr 12 0 0 0 0) 0) (chain0 0) 12 (hdr 12 0 0 0 0) = true ∧ (chain0 0).land = false ∧
    (let h := hdr 9 0 0 5 (2 ^ 64 - 16)
     let c := { chain0 16 with loops := [(16, 1)] }
     let z := { chain0 16 with loops := [(16, 0)] }
     let s (c : Chain) := st dev { live := { chains := [c] } } {} (cellsOf (spadKey 0 0 16) (le 16 h))
     ready (s (chain0 16)) (chain0 16) 9 h = true ∧ ready (s c) c 9 h = true ∧ ready (s z) z 9 h = true ∧
     c.loops.find? (fun l => l.1 = c.off) = some (16, 1) ∧ (16 + h / 2 ^ 64 % 2 ^ 64) % 2 ^ 64 < 2 ^ 20) ∧
    (∀ kind ∈ [10, 11], ∀ v ∈ [0, 1],
      let h := hdr kind 1 0 7 (vaultAt 0x100)
      ready (quill h v) (chain0 0) kind h = true ∧ reads (quill h v) (chain0 0) (BitVec.ofNat 64 (vaultAt 0x100)) (le 8 0) = true ∧
      (h / 2 ^ 64 % 2 ^ 64) % 8 = 0) ∧ (leNat (le 8 0) = 0 ∧ leNat (le 8 0) ≠ 1) ∧
    (let c := { chain0 0 with timer := some 0 }
     (quill 0 0 c).headChain 0 0 0 = some c ∧ c.stopped = false ∧ ((quill 0 0 c).core 0 0).swap = .running) ∧
    (∀ j, j < 8 → (st dev).headChain 0 0 j = none) ∧ (st dev).coreDead 0 0 = false ∧
    (let c := { chain0 0 with skip := 2 }
     let h := hdr 6 1 0 0 (vaultAt 0x100)
     ready (quill h 5) (chain0 0) 6 h = true ∧ ready (quill h 5 c) c 6 h = true ∧ (0 < c.skip ∧ h % 256 ≠ 12) ∧
     ((quill h 5).core 0 0).quillTurn = 0 ∧ (chain0 0).acks = 0 ∧ (chain0 0).timer ≠ some 0) := by decide +kernel

/-- The target piece of a chain's access is near and free. -/
def near (s : State) (w : Who) (kind : AccKind) (a n : Nat) (c : Chain) : Bool :=
  let r := s.access w kind (BitVec.ofNat 64 a) n
  decide (r.2 = .ok [{ dest := .phys 0 a, len := n }]) && nearTo id0 (homeOf 0 a) && decide (regionOf a ≠ some .ctl) &&
  decide (r.1.memOk) && !r.1.homeLost (homeOf 0 a) && !r.1.spadBusy 0 a && decide (r.1.lineAt 0 a n = .clear) &&
  decide (r.1.raceCheck ⟨id0, true⟩ c.race true (memKey 0 a) n = none)

/-- A one-element or longer `COPY` whose destination is the own field's vault at `0x100`: its unit is read whole, and the ends lie apart or
the destination `d` bytes on from the source. -/
def copies (s : State) (u0 src : Nat) (fs fd zs zd count n : Nat) (d : Option Int) : Bool :=
  let va := vaultAt 0x100
  let k := n * zs + Nat.min ((8 - (src + n * zs) % 8) % 8) ((count - n) * zs)
  let h := hdr 1 1 0 0 va
  ready s (chain0 0) 1 h && decide (s.copyBad id0 (chain0 0) h [u0] = none) && decide (spadEnd id0 .device va = none) &&
  decide (copyUnit (fs = fd) fs fd src va count none = n) && reads s (chain0 0) (BitVec.ofNat 64 src) (s.readBytes (memKey 0 src) k) &&
  near s (s.chainWho id0 (chain0 0)) .write va (n * zd) (chain0 0) &&
  (match s.chainPlace id0 (chain0 0) .read (BitVec.ofNat 64 src), s.chainPlace id0 (chain0 0) .write (BitVec.ofNat 64 va), d with
   | some (p, a), some (q, b), none => p ≠ q || !meets a (n * zs + 8) b (n * zd)
   | some (p, a), some (q, b), some e => p = q && meets a (n + 8) b n && (b : Int) - a = e
   | _, _, _ => false)
/-- Witness of `ChainData` on the data of an element: every operation of `ACCUM` with each of its types, the second write of a fetching one,
and a `COPY` raw, over itself, and from F32 to BF16, inexact. -/
theorem witness_ChainData_elements :
    (∀ o ∈ List.range 9, ∀ t ∈ [(0, 4), (1, 2), (10, 4), (11, 8), (14, 4), (15, 8)], ¬(t.1 < 2 ∧ (3 ≤ o ∧ o ≤ 5 ∨ o = 8)) →
      let va := vaultAt 0x100
      let h := hdr 2 1 (o + 16 * t.1) 3 va
      let s := quill h (vaultAt 0x200 + vaultAt 0x300 * 2 ^ 64)
      ready s (chain0 0) 2 h = true ∧ hostAtomBad 0 va (accOpOf o) t.1 = false ∧ near s (s.chainWho id0 (chain0 0)) .rmw va t.2 (chain0 0) = true ∧
      reads s (chain0 0) (BitVec.ofNat 64 (vaultAt 0x200)) (le t.2 0) = true ∧
        reads s (chain0 0) (BitVec.ofNat 64 (vaultAt 0x200 + t.2)) (le t.2 0) = true ∧
      (s.chainReach id0 (chain0 0) .write (BitVec.ofNat 64 (vaultAt 0x300)) t.2).2.isOk = true ∧ s.badAt (memKey 0 va) t.2 = none ∧
      ({ chain0 0 with got := some 7 }).got = some 7 ∧ near s (s.chainWho id0 (chain0 0)) .write (vaultAt 0x300) t.2 (chain0 0) = true) ∧
    copies (quill (hdr 1 1 0 0 (vaultAt 0x100)) (vaultAt 0x200 + 5 * 2 ^ 64)) (vaultAt 0x200 + 5 * 2 ^ 64) (vaultAt 0x200) 3 3 1 1 5 5 none = true ∧
    copies (quill (hdr 1 1 0 0 (vaultAt 0x100)) (vaultAt 0xFC + 16 * 2 ^ 64)) (vaultAt 0xFC + 16 * 2 ^ 64) (vaultAt 0xFC) 3 3 1 1 16 16 (some 4) = true ∧
    (let u := vaultAt 0x200 + 2 * 2 ^ 64 + 2 ^ 100 + 2 ^ 104 + 2 ^ 108
     let s := (quill (hdr 1 1 0 0 (vaultAt 0x100)) u).writeBytes (memKey 0 (vaultAt 0x200)) (le 4 0x3F800000 ++ le 4 0x3F800001)
     copies s u (vaultAt 0x200) 0 1 4 2 2 2 none = true ∧
     (match exec (.chainCopy 0 0 0) s with
      | .next t => decide (t.readBytes (memKey 0 (vaultAt 0x100)) 4 = [0x80, 0x3F, 0x80, 0x3F] ∧ (t.core 0 0).live.chains.map Chain.fl = [1])
      | _ => false) = true) := by decide +kernel

/-- Witness of `ChainData`: each kind of entry, with a near target. -/
theorem witness_ChainData :
    (∀ k ∈ [(6, AccKind.write), (8, AccKind.rmw)],
      let h := hdr k.1 1 0 0 (vaultAt 0x100)
      ready (quill h 5) (chain0 0) k.1 h = true ∧ near (quill h 5) ((quill h 5).chainWho id0 (chain0 0)) k.2 (vaultAt 0x100) 8 (chain0 0) = true) ∧
    (let h := hdr 2 1 0xA0 3 (vaultAt 0x100)
     let s := quill h (vaultAt 0x200)
     ready s (chain0 0) 2 h = true ∧ h / 2 ^ 24 % 2 ^ 4 = 0 ∧ h / 2 ^ 28 % 2 ^ 4 = 10 ∧
     hostAtomBad 0 (vaultAt 0x100) .add 10 = false ∧ hostAtomBad 0 (vaultAt 0x100) .fetchAdd 15 = false ∧
     near s (s.chainWho id0 (chain0 0)) .rmw (vaultAt 0x100) 4 (chain0 0) = true ∧
     reads s (chain0 0) (BitVec.ofNat 64 (vaultAt 0x200)) (le 4 0) = true) ∧
    (let h := hdr 1 1 0 0 (vaultAt 0x100)
     let s := quill h (vaultAt 0x200 + 5 * 2 ^ 64)
     ready s (chain0 0) 1 h = true ∧ spadEnd id0 .device (vaultAt 0x100) = none ∧
     copyUnit true 3 3 (vaultAt 0x200) (vaultAt 0x100) 5 none = 5 ∧
     Nat.min ((8 - (vaultAt 0x200 + 5) % 8) % 8) (5 - 5) = 0 ∧
     reads s (chain0 0) (BitVec.ofNat 64 (vaultAt 0x200)) (le 5 0) = true ∧
     near s (s.chainWho id0 (chain0 0)) .write (vaultAt 0x100) 5 (chain0 0) = true) ∧
    (let h := hdr 3 1 0 2 0x0005000000000000
     ready (quill h 0) (chain0 0) 3 h = true ∧ (quill h 0).combOf 0x0005000000000000 = none ∧
     (let s := quill h (vaultAt 0x200) (chain0 0) { features := 1, combs := [(0, comb0)] }
      ready s (chain0 0) 3 h = true ∧ s.combOf 0x0005000000000000 = some comb0 ∧
      reads s (chain0 0) (BitVec.ofNat 64 (vaultAt 0x200)) (le (ctlNelem comb0.ctrl * typeBytes (ctlItype comb0.ctrl)) 0) = true)) ∧
    (let h := hdr 4 1 0 1 0
     let c := { chain0 0 with part := some 0 }
     let s := quill h (vaultAt 0x200 + 8 * 2 ^ 64) c { pkg0 with features := 1 }
     ready s c 4 h = true ∧ s.ownsMcast id0 c 1 = true ∧ reads s c (BitVec.ofNat 64 (vaultAt 0x200)) (le 8 0) = true) ∧
    (let h := hdr 5 0 0 (2 ^ 31 + 31) 0
     ready (quill h 0) (chain0 0) 5 h = true ∧ arriveTarget id0 h = some (0, 0, some 0)) ∧
    (let h := hdr 7 1 0 (1 + 2 * 2 ^ 16) (vaultAt 0x100)
     let s := quill h (vaultAt 0x200 + 8 * 2 ^ 64)
     ready s (chain0 0) 7 h = true ∧ s.ownsGroupBy id0 (chain0 0) 1 = true ∧
     (s.access (s.chainWho id0 (chain0 0)) .group (BitVec.ofNat 64 (vaultAt 0x100)) 8).2 = .ok [{ dest := .phys 0 (vaultAt 0x100), len := 8 }] ∧
     reads s (chain0 0) (BitVec.ofNat 64 (vaultAt 0x200)) (le 8 0) = true ∧ regionOf (vaultAt 0x100) = some .vault) := by decide +kernel

/-! ### Messages -/

/-- An operation of context 0, of entry 0, and a message of it. -/
def src0 : Src := { id := id0, ident := 0, part := some 0, level := .program, entry := 0, seq := 0, tag := 0, issue := 0 }
def msg (dst : Home) (b : Body) (src : Src := src0) : Msg := { src := src, chan := 0, dst := dst, body := b, ackt := 0xFFFF }
/-- A state with messages under way; context 0's entry 0 is `e`. -/
def out (ms : List Msg) (e : IfrEntry := { state := .outstanding }) (p : Pkg := {}) (k : Core := {}) (cells : List Host.Cell := []) : State :=
  { st { user with ifr := user.ifr.set 0 e } k p cells with net := ms }

/-- Witness of `GroupCommands`: one home, no decision yet (commit and abort), and a decision that stands. -/
theorem witness_GroupCommands : ∀ abort : Bool, ∀ w ∈ [[], cellsOf 0x20000 (le 8 (1 * 2 ^ 32 + 7 + 9 * 65536))],
    let s := st dev {} {} (w ++ cellsOf (spadKey 0 0 0) (le 16 (0x20000 + 7 * 2 ^ 64 + 1 * 2 ^ 80 + 9 * 2 ^ 96 + 50 * 2 ^ 112) ++
      le 16 (0x30000 + 3 * 2 ^ 64)))
    let a : ANum := 2
    let d := s.descBytes (s.ra a) 32
    s.me.freeEntry = some 0 ∧ bytesAt (s.descBytes (s.ra a) 16) 10 2 = 1 ∧ descOk (s.ra a) 32 ∧
    s.badAt (s.ownKey ((s.ra a).toNat % 2 ^ 20)) 32 = none ∧
    s.badAt (s.ownKey ((s.ra a).toNat % 2 ^ 20)) 16 = none ∧
    (match s.decwAt (BitVec.ofNat 64 (bytesAt d 0 8)) with
     | .found u pa =>
       decide (pa = 0x20000 ∧ u.me.freeEntry = some 0 ∧ u.cur = s.cur ∧ u.gdLine (u.whoOf id0) d = .clear ∧
         u.gdBad id0 d (some 0x20000) = none ∧ u.memOk ∧
         decisionOf (u.readNat (memKey 0 0x20000) 8) 7 9 = if w = [] then none else some true)
     | _ => false) = true := by
  unfold descOk; decide +kernel

/-- Witness of `LandingEvents`: a piece to read, none left, a landing on its promised cycle for a register and for a chain, one that
is late with and without a bound. -/
theorem witness_LandingEvents :
    let x : Landing := { vd := some 3, left := 1 }
    let e (l : Landing) (b : BitVec 10) : IfrEntry := { state := .outstanding, landing := some l, bnd := b }
    let s := out [msg (.field 0 0) (.load (.phys 0 vaultBase) 0 256)] (e x 4)
    let f (n : Nat) : State := out [] (e { x with left := 0, frozen := n } 4) {} { freeze := [(0, 0)] }
    (∃ m, s.nextLoad id0 0 = some (0, m) ∧ m.body = .load (.phys 0 vaultBase) 0 256 ∧ m.epoch = s.epochAt 0 vaultBase) ∧
    s.resident id0 = true ∧ s.homeLost (homeOf 0 vaultBase) = false ∧ s.spadBusy 0 vaultBase = false ∧ s.lineAt 0 vaultBase 256 = .clear ∧
      s.badAt (memKey 0 vaultBase) 256 = none ∧
    regionOf vaultBase ≠ some .ctl ∧ (s.ctx id0).parkMark = false ∧ (s.core 0 0).freeze = [] ∧
    ((out [] (e { x with left := 0, arrived := true } 4)).entry id0 0).promised.toNat ≤ ((out []).pkg 0).cycle.toNat ∧
    ((out []).core 0 0).swap = .running ∧
    ((out [] (e x 4)).entry id0 0).bnd ≠ 0 ∧ (0 % 4, 0 % 64) ∉ ((out []).core 0 0).freeze ∧ ((out [] (e x 0)).entry id0 0).bnd = 0 ∧
    (0, 0) ∈ ((f 4).core 0 0).freeze ∧ ((f 4).entry id0 0).bnd.toNat ≤ 4 := by
  refine ⟨⟨_, rfl, rfl, rfl⟩, ?_⟩
  decide +kernel

/-- Witness of the landing of a `cpy.land` in `LandingEvents`: the chain goes on, or is over with it. -/
theorem witness_LandingEvents_copy : ∀ f ∈ [none, some (0, 0)],
    let c : Chain := { chain0 16 with land := true, final := f, held := [(memKey 0 0x100, 7)] }
    let s := out [] { state := .outstanding, landing := some { vd := none, left := 0, arrived := true } } {} { live := { chains := [c] } }
    (c.held.map (·.1)).Nodup ∧ s.memOk ∧
    (s.core 0 0).live.chains.find? (fun c => c.ctx = 0 % 4 && c.entry = 0 % 64 && c.seq = 0 && c.land && !c.landed && c.off ≠ c.head) =
      some c := by decide +kernel

/-- Witness of `AnswerEvents`: an answer that is waited for and one that is not, with its route, of a `flsig`, a code, a refused posted
store, a probe, RETRY before and after its microsecond, a home in a lost field, and entries of caches whose sources have nothing left. -/
theorem witness_AnswerEvents :
    let a (b : Body) (src : Src := src0) := msg (.field 0 0) b src
    let r := a (.resp .ok none)
    (out [r]).awaits r = some id0 ∧ ((out [r]).entry id0 0).probes ≤ 1 ∧ ((out [r]).entry id0 0).gdest = none ∧
    (out [r] { state := .outstanding, gdest := some 5 }).awaits r = some id0 ∧ ((out [r]).ctx id0).err = none ∧
    (out [r] { state := .outstanding, kind := 5 }).awaits r = some id0 ∧ deliverable (out [a .probe]).net 0 = true ∧
    (out [a .probe]).awaits (a .probe) = some id0 ∧
    (let x := a (.resp (.code 8 0) none) { src0 with chain := true }
     (out [x] { state := .outstanding } {} { live := { chains := [{ chain0 0 with acks := 1 }] } }).awaits x = some id0) ∧
    (out [r] {}).awaits r = none ∧ ({ r with retry := true } : Msg).retry = true ∧ ({ r with retry := true, left := 3 } : Msg).left ≠ 0 ∧
    r.left = 0 ∧ (out [r]).answerRoute r = true ∧ (a (.resp .ok none) { src0 with kind := 2 }).src.kind = 2 ∧ r.src.kind ≠ 2 ∧
    (out [a (.resp .ok none) { src0 with kind := 2 }]).awaits (a (.resp .ok none) { src0 with kind := 2 }) = some id0 ∧
    (out [a (.resp (.code 8 0) none)]).awaits (a (.resp (.code 8 0) none)) = some id0 ∧
    (out [a (.resp (.refused 2) none)] { state := .outstanding, kind := 9 }).awaits (a (.resp (.refused 2) none)) = some id0 ∧
    (let x := a (.store (.phys 0 vaultBase) [1] none)
     let s := out [x] { state := .outstanding } { fields := [(0, { lost := true })] }
     x.body.isReply = false ∧ s.unreachable x = true) ∧
    (∀ i, i < 64 → ((st user).ctx id0 |>.entry i).state = .free) := by decide +kernel

/-- Partition 0 with exposure 0: the first 4 KiB, for every package and partition, every right. -/
def part1 : Part := { part0 with wins := [(256, le 8 0 ++ le 8 0x1000 ++ le 8 (0xFFFF * 2 ^ 16) ++ [0x40, 0, 0xFF] ++ le 5 0)] }

/-- Witness of `MessageArrivals`: a message of each kind that goes on, and one that is refused, a repeated tag, an uncorrectable unit under a
read-modify-write, one that host memory has no atomic for; group stores that are staged, of a lost home, beyond the quota and at a sealed
group; a last and an earlier arrival, at a barrier not set up and at a poisoned one; an image that a late store reaches. -/
theorem witness_MessageArrivals :
    (let m := msg (.field 0 0) (.store (.phys 0 vaultBase) [1, 2] none)
     let s := out [m]
     let lost := out [m] {} { fields := [(0, { lost := true })] }
     deliverable s.net 0 = true ∧ s.memOk ∧ s.gate m 0 vaultBase 2 = .go ∧ lost.gate m 0 vaultBase 2 = .refuse 4 ∧
     regionOf vaultBase ≠ some .ctl) ∧
    (∀ b ∈ [Body.flsig (.phys 0 vaultBase) [1, 2, 3, 4, 5, 6, 7, 8] 3, .accum (.phys 0 vaultBase) .fetchAdd 15 8 0 5 none],
      let m := msg (.field 0 0) b
      (out [m] {} { fields := [(0, { lost := true })] }).gate m 0 vaultBase 8 = .refuse 4 ∧ (out [m]).gate m 0 vaultBase 8 = .go) ∧
    { out [] with bad := [(memKey 0 vaultBase, 32)] }.badAt (memKey 0 vaultBase) 8 ≠ none ∧ hostAtomBad 0 hostBase0 .fetchAdd 0 = true ∧
    (let m := msg (.field 0 0) (.flsig (.phys 0 vaultBase) [1, 2, 3, 4, 5, 6, 7, 8] 3)
     let seen := out [m] {} { fields := [(0, { cache := [(m.tag, .ok, none)] })] }
     (out [m]).gate m 0 vaultBase 8 = .go ∧ (∀ x ∈ (out [m]).cache (portOf 0 vaultBase), x.1 ≠ m.tag) ∧
     ((out [m]).cache (portOf 0 vaultBase)).length < 16384 ∧
     ((seen.retireBy (portOf 0 vaultBase) m).cache (portOf 0 vaultBase)).find? (fun e => e.1 = m.tag) = some (m.tag, .ok, none)) ∧
    hostAtomBad 0 vaultBase .fetchAdd 15 = false ∧
    (let s := { st sup {} { parts := [(0, part1)] } (tables leaf0) with net := [msg (.die 0) (.store (.exposure 0 0 0 8) [1] none)] }
     (s.atTarget 0 0 0 8 1 .write 0 (some 0)).2 = .ok [{ dest := .phys 0 0x70008, len := 1 }]) ∧
    (let p : Pkg := { features := 1, groups := [(groupKey 0 7, { state := .opened, epoch := 9, part := 0, units := [] })] }
     let s := out [msg (.field 0 0) (.group (.phys 0 vaultBase) [1] 7 9 1 none)] {} p
     s.homeLost (homeOf 0 vaultBase) = false ∧ s.cache (.field 0 (servingField vaultBase)) = [] ∧ (s.pkg 0).features.getLsbD 0 = true ∧
     s.ownerOf 0 vaultBase = none ∧ homeNum vaultBase = 0 ∧
     (s.pkg 0).groups.get (groupKey 0 7) = some { state := .opened, epoch := 9, part := 0, units := [] }) ∧
    (let m := msg (.hbm 0) (.group (.phys 0 0x70000) [1] 7 9 1 none)
     let q (n : Nat) : Part := { part0 with quota := leBytes 16 n }
     let g (st : GState) (e : Nat) : GroupRec := { state := st, epoch := e, part := 0, units := [] }
     let s (n : Nat) (st : GState) (e : Nat) := out [m] {} { features := 1, parts := [(0, q n)], groups := [(groupKey (homeNum 0x70000) 7, g st e)] }
     (s 1 .opened 9).ownerOf 0 0x70000 = some 0 ∧ ((s 1 .opened 9).pkg 0).parts.get 0 = some (q 1) ∧
       (s 1 .opened 9).homeLost (homeOf 0 0x70000) = false ∧
     (s 1 .opened 9).route 0 0 = true ∧ ((s 1 .opened 9).pkg 0).staged (servingField 0x70000) 0 + 1 ≤ (q 1).stgq * 262144 ∧
     ¬((s 0 .opened 9).pkg 0).staged (servingField 0x70000) 0 + 1 ≤ (q 0).stgq * 262144 ∧
     ((s 1 .published 8).pkg 0).groups.get (groupKey (homeNum 0x70000) 7) = some (g .published 8) ∧
     ((s 1 .sealed 9).pkg 0).groups.get (groupKey (homeNum 0x70000) 7) = some (g .sealed 9) ∧
     (out [m] {} { fields := [(0, { lost := true })] }).homeLost (homeOf 0 vaultBase) = true) ∧
    (∀ b ∈ [({ count := 0 } : Barrier), { count := 2, poison := true }],
      let s := out [msg (.field 0 0) (.arrive 0 0 31 none 3)] {} {} { live := { barriers := (Vector.replicate 32 {}).set 31 b } }
      (s.core 0 0).live.barriers.toList.getD 31 {} = b ∧ s.homeLost (.field 0 (fieldOf 0)) = false) ∧
    (∀ n : BitVec 16, n = 1 ∨ n = 2 →
      let s := out [msg (.field 0 0) (.arrive 0 0 31 none 3)] {} {} { live := { barriers := (Vector.replicate 32 {}).set 31 { count := n } } }
      let x := (s.core 0 0).live.barriers.toList.getD 31 {}
      s.homeLost (.field 0 (fieldOf 0)) = false ∧ x.count ≠ 0 ∧ x.poison = false) ∧
    (let i : Image := { place := .shadow, core := 0, epoch := 0, data := {}, spad := [], drain := 1, race := [] }
     let m := msg (.field 0 0) (.store (.phys 0 spadBase) [1] none)
     let s := out [m] {} { images := [(0, i)] } { epoch := 1 }
     spadCore spadBase = some 0 ∧ m.epoch ≠ s.epochAt 0 spadBase ∧ deliverable s.net 0 = true ∧
     (s.pkg 0).images.find? (fun x => x.2.core = 0 && x.2.epoch = m.epoch) = some (0, i) ∧ i.heir = none ∧ i.place ≠ .draining ∧
       NMap.wf i.spad = true) := by
  refine ⟨by decide +kernel, by decide +kernel, by decide +kernel, by decide +kernel, by decide +kernel, by decide +kernel, by decide +kernel,
    by decide +kernel, by decide +kernel, by decide +kernel, ?_, by decide +kernel⟩
  rintro n (rfl | rfl) <;> decide +kernel

/-- Witness of `CombinerEvents`: an open, and each OPEN code; a contribution to no entry, an earlier and the last one, one of a rank applied
already; a close by the own partition and by another; a timer that has run; the record of two F32 contributions, 1.0 and 2.0, under a sum
in order of arrival: status 0 and 3.0; a delivery, the last of its entry; an empty and a filled group. -/
theorem witness_CombinerEvents :
    (let d := le 24 (3 * 2 ^ 12)
     let s := { st user {} { parts := [(0, part0)], combs := [(0, comb0)] } with net := [msg (.die 0) (.cmbOpen d true)] }
     openBad (d.set 6 1) = true ∧ (s.pkg 0).parts.get 0 = some part0 ∧ part0.cmbq ≤ (s.pkg 0).combsOf (some 0) ∧ s.cache (.die 0) = []) ∧
    (let h : Word := 0x0005000000000000
     let x : Contrib := { rank := 2, cycle := 0, ret := 0, pid := 0, part := some 0, bytes := le 4 1 }
     let c := { comb0 with ctrl := 0x3000, applied := [x] }
     let s (m : Body) := out [msg (.die 0) m] {} { combs := [(0, c)] }
     (s (.contrib h 2 0 (le 4 1))).combOf h = some c ∧ (decide (ctlNcon c.ctrl < 2) || c.applied.any (fun y => y.rank = 2)) = true ∧
     c.applied.length ≤ ctlNcon c.ctrl ∧ (s (.cmbClose h)).combOf h = some c ∧ c.part = some 0 ∧ src0.part = some 0 ∧
     ({ c with part := some 1 } : Comb).part ≠ src0.part) ∧
    (let x (r b : Nat) : Contrib := { rank := r, cycle := 0, ret := 0, pid := 0, part := some 0, bytes := le 4 b }
     let e := { comb0 with ctrl := 0x1000, applied := [x 1 0x3F800000, x 0 0x40000000] }
     ctlLegal e.ctrl = true ∧ e.applied ≠ [] ∧ (e.applied.map (·.rank)).Nodup ∧ (∀ x ∈ e.applied, x.rank ≤ ctlNcon e.ctrl) ∧
     bytesAt (combRecord e) 0 8 = 2 * 2 ^ 32 ∧ bytesAt (combRecord e) 256 4 = 0x40400000) ∧
    (let s := { st sup {} { pkg0 with combs := [(0, { comb0 with owed := some 1 })] } (tables leaf0) with net := [msg (.die 0) (.deliver 0 0 0x100 (le 8 1) 3)] }
     (s.partWrite 0 0 0x100 8).1.pkgs = s.pkgs ∧ (s.pkg 0).combs.get src0.entry = some { comb0 with owed := some 1 }) ∧
    (let d := le 24 (3 * 2 ^ 12)
     let s := { st user {} { parts := [(0, part0)] } with net := [msg (.die 0) (.cmbOpen d true)] }
     deliverable s.net 0 = true ∧ openBad d = false ∧ bytesAt d 8 8 = 0 ∧ (s.pkg 0).parts.get 0 = some part0 ∧
     s.cache (.die 0) = [] ∧
     (let q : Part := Part.ofBlock part0.block (le 64 (2 ^ 64 - 1))
      let s := { s with pkgs := [(0, { parts := [(0, q)] })] }
      (s.pkg 0).combsOf (some 0) < q.cmbq) ∧ (s.pkg 0).combs.get 0 = none) ∧
    (let h : Word := 0x0005000000000000
     let s (c : Comb) := out [msg (.die 0) (.contrib h 0 0 (le 4 1))] {} { combs := [(0, c)] }
     hdPid h = 0 ∧ (out [] : State).combOf h = none ∧ contribBad comb0.ctrl (le 4 1) = false ∧ (s comb0).combOf h = some comb0 ∧
     comb0.applied.length = ctlNcon comb0.ctrl ∧
     (let c := { comb0 with ctrl := 0x3000 }
      (s c).combOf h = some c ∧ c.applied.length < ctlNcon c.ctrl ∧ 0 ≤ ctlNcon c.ctrl ∧ contribBad c.ctrl (le 4 1) = false)) ∧
    (let c := { comb0 with left := some 0, ctrl := 0x3000, result := 0x100 }
     let x : Contrib := { rank := 2, cycle := 0, ret := 0, pid := 0, part := some 0, bytes := le 4 1 }
     ((out [] {} { combs := [(0, c)] }).pkg 0).combs.get 0 = some c ∧
     ({ c with applied := [x] } : Comb).applied ≠ [] ∧ c.part = some 0 ∧ c.result ≠ 0) ∧
    (let s := { st sup {} pkg0 (tables leaf0) with net := [msg (.die 0) (.deliver 0 0 0x100 (le 8 1) 3)] }
     let r := s.partWrite 0 0 0x100 8
     r.2 = .ok [{ dest := .phys 0 0x70100, len := 8 }] ∧ r.1.lineOver [{ dest := .phys 0 0x70100, len := 8 }] = .clear ∧
     regionOf 0x70100 ≠ some .ctl ∧ r.1.memOk) ∧
    ((((st user).pkg 0).mcast.get 5).getD [] = [] ∧
     (let g : List McMember := [{ pid := 0, exposure := 1, base := 0, len := 8 }]
      (((st user {} { mcast := [(5, g)] }).pkg 0).mcast.get 5).getD [] = g ∧ g ≠ [])) := by decide +kernel

/-! ### Units, commits, hoops, graphs -/

/-- One rank of a broadcast of one F32 element, from rank 0, of two: OPK 3, CHUNK 1, COUNT 1, NR 2, SBUF and DBUF in the vault (for
each rank another). -/
def coll0 (n rank field : Nat) (core : Nat) : Coll :=
  { id := n, src := { src0 with id := ⟨0, core, 0⟩, ident := placeOf ⟨0, core, 0⟩, level := .device }, queue := 0, field := field,
    desc := le 16 (vaultAt 0x100 + vaultAt (0x200 + 0x100 * rank) * 2 ^ 64) ++ le 4 0 ++ le 4 1 ++ le 2 1 ++ [3, 0] ++ le 2 rank ++ le 2 0 ++
      le 4 0 ++
      le 2 2 ++ le 26 0,
    ranks := [0, 1024] }

/-- Both ranks of that collective, which have come together as collective 9. -/
def collOf (r : Nat) : Coll := { (if r = 0 then coll0 1 0 0 0 else coll0 2 1 1 128) with group := some 9 }
def collState : State := st user {} { colls := [collOf 0, collOf 1] }
/-- What a rank's writes meet, wherever the others have got to. -/
theorem collAlike_gives (v : State) (r : Nat) (hr : r < 2) (h : CollAlike collState v) :
    v.collHere 0 0 (collOf r) (vaultAt (0x200 + 0x100 * r)) = .here (collOf r).src.id ∧
    v.homeLost (homeOf 0 (vaultAt (0x200 + 0x100 * r))) = false ∧
    v.unitAccess ((collOf r).who v (collOf r).src.id) .write (BitVec.ofNat 64 (vaultAt (0x200 + 0x100 * r))) 4 =
      (v, .ok [{ dest := .phys 0 (vaultAt (0x200 + 0x100 * r)), len := 4 }]) ∧
    v.lineOver [{ dest := .phys 0 (vaultAt (0x200 + 0x100 * r)), len := 4 }] = .clear := by
  obtain ⟨hc, hn, hp⟩ := h
  have hlost (f : Nat) (hf : f < 2) : ((v.pkg 0).field f).lost = false := by
    have := congrArg Field.lost ((hp 0).2 f)
    have e : ((collState.pkg 0).field f).lost = false := by
      rcases f with _ | _ | f
      · rfl
      · rfl
      · omega
    simpa [e] using this
  have hg : (v.pkg 0).groups = [] := by
    have := congrArg Pkg.groups (hp 0).1
    simpa [Pkg.noColl, collState, st, State.pkg, NMap.get] using this
  have hk (p c : Nat) : v.core p c = collState.core p c := by simp [State.core, hc]
  have hx (i : CtxId) : v.ctx i = collState.ctx i := by simp [State.ctx, hk]
  have hl : v.locate (collOf r).src = some (collOf r).src.id := by
    unfold State.locate State.identOf State.resident
    rw [hx, hk]
    refine if_pos ?_
    rcases r with _ | _ | r
    · decide +kernel
    · decide +kernel
    · omega
  have ho : v.loadsOut (collOf r).src.ident (collOf r).src.issue = false := by simp [State.loadsOut, hn]; simp [collState, st, State.reset]
  have hd : (collOf r).src.level = .device ∧ (collOf r).field < 2 ∧ homeOf 0 (vaultAt (0x200 + 0x100 * r)) = .field 0 0 ∧
      (collState.ctx (collOf r).src.id).storesOut (collOf r).src.issue = false := by
    rcases r with _ | _ | r
    · decide +kernel
    · decide +kernel
    · omega
  have hr' : v.resolve ((collOf r).who v (collOf r).src.id) .write (BitVec.ofNat 64 (vaultAt (0x200 + 0x100 * r))) 4 =
      .ok [{ dest := .phys 0 (vaultAt (0x200 + 0x100 * r)), len := 4 }] := by
    rcases r with _ | _ | r
    · rfl
    · rfl
    · omega
  refine ⟨?_, ?_, ?_, ?_⟩
  · simp [State.collHere, hlost _ hd.2.1, State.route, hl, hx, hd.2.2.2, ho]
  · rw [hd.2.2.1]; exact hlost 0 (by omega)
  · have hp' : ownPages ((collOf r).who v (collOf r).src.id) (BitVec.ofNat 64 (vaultAt (0x200 + 0x100 * r))) = none := by
      simp [ownPages, Coll.who, hd.1]
    have ha := show v.access ((collOf r).who v (collOf r).src.id) .write (BitVec.ofNat 64 (vaultAt (0x200 + 0x100 * r))) 4 =
      (v, .ok [{ dest := .phys 0 (vaultAt (0x200 + 0x100 * r)), len := 4 }]) by unfold State.access; rw [hr', hp']
    simp [State.unitAccess, ha]
  · have : ∀ pa, spadCore pa = none → v.lineOver [{ dest := .phys 0 pa, len := 4 }] = .clear := by
      intro pa h
      simp [State.lineOver, State.lineAt, hg, State.spadBusy, h]
    refine this _ ?_
    rcases r with _ | _ | r
    · rfl
    · rfl
    · omega
/-- Witness of the chunk clause of `UnitEvents`: the one element of rank 0, at both ranks' DBUF. -/
theorem witness_UnitEvents_chunk :
    let c := collOf 0
    let d := c.desc
    let xs : List (Nat × List Byte) := [(0, [0, 0, 0, 0])]
    collState.coll 0 1 = some c ∧ c.group = some 9 ∧ c.done = none ∧ c.cut = none ∧ collState.collTake 0 c = some c ∧
    collState.collLeads 0 c 9 = true ∧ collState.collHeld 0 c 9 = false ∧
    (collState.setColl 0 c).collGather 0 c.chunk (collState.collMembers 9) = (collState, xs) ∧ collBad d [] = none ∧
    ctlItype (BitVec.ofNat 32 (bytesAt d 16 4)) < 5 ∧ c.chunk * bytesAt d 24 2 < bytesAt d 20 4 ∧
    collState.collMembers 9 = (List.range (bytesAt d 36 2)).map (fun r => (0, collOf r)) ∧ bytesAt d 26 1 = 3 ∧
    xs.map (·.1) = [bytesAt d 30 2] := by
  refine ⟨?_, ?_, ?_, ?_, ?_, ?_, ?_, ?_, ?_, ?_, ?_, ?_, ?_, ?_⟩ <;> decide +kernel
/-- The ranks of that witness: one collective, an own DBUF in vault memory for each. -/
theorem witness_UnitEvents_ranks : collState.memOk ∧ ∀ r ∈ [0, 1],
    (collOf r).chunk = (collOf 0).chunk ∧ cdRank (collOf r).desc = r ∧ collSame (collOf 0) (collOf r) = true ∧
    bytesAt (collOf r).desc 8 8 = vaultAt (0x200 + 0x100 * r) ∧
    collWrites (collOf 0).desc 0 r [] [(0, [0, 0, 0, 0])] = [(0, [0, 0, 0, 0])] ∧
    regionOf (vaultAt (0x200 + 0x100 * r)) = some .vault ∧ (collOf (1 - r)).id ≠ (collOf r).id := by
  constructor <;> decide +kernel
/-- No two bytes of those DBUFs share an address. -/
theorem witness_UnitEvents_apart (r b r' b' : Nat) (h : b < 4 ∧ b' < 4)
    (e : vaultAt (0x200 + 0x100 * r) + b = vaultAt (0x200 + 0x100 * r') + b') : r = r' ∧ b = b' := by
  simp only [vaultAt] at e
  omega
/-- Witness of `UnitEvents`: both ranks alike and not, an ended collective, a histogram with each of its outputs and without. (Of a chunk:
`witness_UnitEvents_chunk`.) -/
theorem witness_UnitEvents :
    let s (c d : Coll) := st user {} { colls := [c, d] }
    let a := coll0 1 0 0 0
    let b := coll0 2 1 1 128
    let b' := { b with queue := 0, desc := b.desc.set 24 2 }
    let g (c : Coll) := { c with group := some 9 }
    (s a b).coll 0 1 = some a ∧ (s a b).collAt a 0 0 = some (0, a) ∧ (s a b).collAt a 1 1024 = some (0, b) ∧ collSame a b = true ∧
    (s a b').collAt a 1 1024 = some (0, b') ∧ collSame a b' = false ∧
    (let t := s (g a) (g b)
     t.coll 0 1 = some (g a) ∧ t.collLeads 0 (g a) 9 = true) ∧
    (s { a with done := some (0, 0) } b).coll 0 1 = some { a with done := some (0, 0) } ∧
    (∀ mode ∈ [0, 3, 7],
      let h : Hist := { id := 4, rel := some 3, src := src0, desc := le 4 (2 * 2 ^ 8) ++ [BitVec.ofNat 8 mode, 0] ++ le 2 2 ++
                      le 4 0xFFFFA ++ le 20 0 }
      let t := st user {} { parts := [(0, part0)], hists := [h] }
      (t.pkg 0).hists.find? (fun h => h.id = 4) = some h ∧ t.locate h.src = some id0 ∧ histBad h.desc = none ∧
      (t.ctx id0).storesOut 0 = false ∧ t.loadsOut src0.ident src0.issue = false ∧ t.part 0 0 = some part0 ∧ NMap.wf part0.latches = true ∧
      t.badAt (spadKey 0 0 (bytesAt h.desc 8 4 % 2 ^ 20)) (2 * (bytesAt h.desc 6 2 + 1)) = none ∧
      ((bytesAt h.desc 4 1).testBit 2 = true ↔ mode = 7) ∧ t.memOk) := by decide +kernel

/-- A group record of group 7 in epoch 9, a seal at it, and a commit of it whose one home is field 0. -/
def grp0 (state : GState) (units : List WriteUnit) (q : Option SealReq := none) : GroupRec :=
  { state := state, epoch := 9, part := 0, units := units, sealReq := q }
def unit0 : WriteUnit := { op := { src := 0, chan := 0, seq := 0, off := 0, elem := 0 }, need := 2, ident := 0, field := 0, part := 0,
                            cells := [(memKey 0 vaultBase, 1), (memKey 0 vaultBase + 1, 2)] }
def seal0 (cpid : Nat) : SealReq := { cpid := cpid, commit := 5, idx := 0, count := 1, decw := 0x20000, left := 0, tmo := 3 }
def commit0 (state : CState) : Commit :=
  { id := 5, abort := false, src := src0, decw := 0x20000, group := 7, epoch := 9, sealtmo := 1, homes := [(.field 0 0, 1, .waiting)],
    state := state, code := 0, detail := 0, left := 0 }
def word0 (d : Nat) : List Host.Cell := cellsOf (memKey 0 0x20000) (le 8 (7 + 9 * 65536 + d * 2 ^ 32))

/-- Witness of `CommitEvents`: a seal that is due, both decisions, both timers of a home, the coordinator with every home sealed, with a
failure, with its seal time over and while it is DECIDING, with its word's line sealed, with a load of its context still to read, and
both ends. -/
theorem witness_CommitEvents :
    let p (g : GroupRec) : Pkg := { features := 1, groups := [(groupKey 0 7, g)] }
    let q (c : Commit) : Pkg := { commits := [c] }
    (let s := out [msg (.field 0 0) (.sealMsg 5 0 7 9 1 0x20000 3)] {} (p (grp0 .opened [unit0]))
     s.memOk ∧ deliverable s.net 0 = true ∧ s.homeLost (.field 0 0) = false ∧ (s.pkg 0).features.getLsbD 0 = true ∧
     (∀ u ∈ [unit0], u.need ≤ u.cells.length) ∧ (grp0 .opened [unit0]).failed = false ∧
     (s.pkg 0).groups.get (groupKey ((Home.field 0 0).code % 16) 7) = some (grp0 .opened [unit0])) ∧
    (let s := out [msg (.field 0 0) (.decision 5 0 7 9 true)] {} (p (grp0 .sealed [unit0]))
     s.memOk ∧ (s.pkg 0).groups.get (groupKey ((Home.field 0 0).code % 16) 7) = some (grp0 .sealed [unit0]) ∧
     unit0.cells = ([1, 2] : List Byte).zipIdx.map (fun b => (memKey 0 vaultBase + b.2, b.1))) ∧
    (let g := grp0 .sealed [unit0] (some (seal0 0))
     let s := out [] {} (p g) {} (word0 2)
     (s.pkg 0).groups.get (groupKey 0 7) = some g ∧ g.left = 0 ∧ s.route 0 0 = true ∧ s.lineAt 0 0x20000 8 = .clear ∧
     decisionOf (s.readNat (memKey 0 0x20000) 8) (groupKey 0 7 % 65536) 9 = some false) ∧
    (let g := grp0 .opened [unit0] (some (seal0 0))
     let s := out [] {} (p g)
     (s.pkg 0).groups.get (groupKey 0 7) = some g ∧ (seal0 0).left = 0 ∧ s.homeLost (homeOfCode (0 * 16 + groupKey 0 7 / 65536)) = false) ∧
    (let s := out [msg (.die 0) (.sealed 5 0 none)] {} (q (commit0 .sealing))
     s.commit 0 5 = some (commit0 .sealing) ∧ decisionOf (s.readNat (memKey 0 0x20000) 8) 7 9 = none ∧ s.sealedOf 0 5 = [(0, none)] ∧
     (commit0 .sealing).left = 0 ∧ s.lineAt 0 0x20000 8 = .clear ∧ s.loadsOut src0.ident src0.issue = false ∧
     (withNet s (s.net ++ [ownLoadMsg id0])).loadsOut src0.ident src0.issue = true ∧ (s.pkg 0).aborts.contains (0x20000, 7, 9) = false) ∧
    (let s := out [msg (.die 0) (.sealed 5 0 (some 0x22))] {} (q (commit0 .sealing))
     s.sealedOf 0 5 = [(0, some 0x22)]) ∧
    (out [] {} (q (commit0 (.deciding true)))).commit 0 5 = some (commit0 (.deciding true)) ∧
    (out [] {} { q (commit0 .sealing) with groups := [(1, sealedAt 0x20000)] }).lineAt 0 0x20000 8 ≠ .clear ∧
    (let s := out [msg (.die 0) (.decided 5 0)] {} (q (commit0 .publishing))
     s.commit 0 5 = some (commit0 .publishing) ∧ s.decidedOf 0 5 = [0]) ∧
    (out [] {} (q (commit0 .discarding))).commit 0 5 = some (commit0 .discarding) ∧
    (commit0 .publishing).homes[0]? = some (.field 0 0, 1, .waiting) := by decide +kernel

/-- Witness of the unreachable coordinator in `CommitEvents`: in a flat mesh, the one link to it is locked. -/
theorem witness_CommitEvents_cut :
    let g := grp0 .sealed [unit0] (some (seal0 1))
    let s := out [] {} { flatMesh := true, ports := [(Config.routePort 0 1, { locked := true })], groups := [(groupKey 0 7, g)] }
    (s.pkg 0).groups.get (groupKey 0 7) = some g ∧ s.route 0 1 = false := by
  refine ⟨rfl, ?_⟩
  simp [State.route, State.directLink, out, st, State.pkg, Pkg.port, NMap.get]

/-- Witness of `HoopEvents`: a join where there is room and where there is none, at a forming hoop of its NMEM and of another, at a formed
one with and without a free place; a first and a last arrival, a refused join, a phase end, a lost field. -/
theorem witness_HoopEvents :
    let m (i core : Nat) : HMember := { ident := i, id := ⟨0, core, 0⟩, reg := 1 }
    let h : Hoop := { level := 0, unit := 0, part := 0, hid := 3, forming := false, nmem := 0, members := [m 0 0], pending := [m 4 1],
                      ph := false, seq := 0, flushing := true }
    (let s := out [msg (.field 0 0) (.hoopJoin 0 0 0 3 2 1)] {} { parts := [(0, part0)] }
     deliverable s.net 0 = true ∧ s.homeLost (.field 0 0) = false ∧ (s.pkg 0).hoops = [] ∧
     (s.pkg 0).hoopRoom { pid := 0, level := 0, unit := 0, part := 0, hid := 3, nmem := 2 } = true) ∧
    (∀ k ∈ [0, 1],
      let g := { h with forming := true, nmem := k }
      let s := out [msg (.field 0 0) (.hoopJoin 0 0 0 3 0 1) { src0 with ident := 9 }] {} { hoops := [g] }
      (s.pkg 0).hoops[0]? = some g ∧ (g.level, g.unit, g.part, g.hid) = (0, 0, 0, 3) ∧ ∀ y ∈ g.members ++ g.pending, ¬(y.ident = 9 ∧ y.reg = 1)) ∧
    (let g := { h with members := List.replicate 1024 (m 0 0), pending := [] }
     1023 < (g.members.filter (fun y => !y.leave)).length + g.pending.length ∧
     (h.members.filter (fun y => !y.leave)).length + h.pending.length ≤ 1023) ∧
    (let p : Pkg := { parts := [(0, part0)], hoops := [{ h with level := 2, hid := 5 }] }
     (∀ h ∈ p.hoops, ¬(h.level = 2 ∧ h.unit = 0 ∧ h.part = 0 ∧ h.hid = 3)) ∧
     p.hoopRoom { pid := 0, level := 2, unit := 0, part := 0, hid := 3, nmem := 0 } = false) ∧
    (∀ ms ∈ [[m 0 0], [m 0 0, m 4 1]],
      let g := { h with members := ms, pending := [], flushing := false }
      let x := { msg (.field 0 0) (.hoopArrive 1 false) with idx := g.name }
      let s := out [x] {} { hoops := [g] }
      (s.pkg 0).hoops[0]? = some g ∧ g.forming = false ∧ hoopHome 0 g.level g.unit = x.dst ∧
        g.members.any (fun x => x.ident = 0 && x.reg = 1) = true) ∧
    (let x := msg (.field 0 0) (.hoopRefuse 1 2)
     let s := { st { user with hoopWait := some { reg := 1, join := true, addr := 0, seq := 1 } } with net := [x] }
     s.answerRoute x = true ∧ s.locate x.src = some id0 ∧ (s.ctx id0).hoopWait = some { reg := 1, join := true, addr := 0, seq := 1 }) ∧
    (let s := st user {} { hoops := [h] }
     (s.pkg 0).hoops[0]? = some h ∧ s.probesOut h = false ∧ s.memberAt (m 0 0) = some id0 ∧ h.pending ≠ []) ∧
    (let s := st user {} { hoops := [h], fields := [(0, { lost := true })] }
     h.members.any (fun x => ((s.pkg x.id.pid).field (x.id.core / 128)).lost) = true) := by decide +kernel

/-- A graph image in page 0: the header at 0 (launch word 0x100, two descriptors at 0x200, DAGE 1), the list of one successor at 0x300,
the parameters at 0x400. Each node: code at 0x1000, one core of field 0, context 0. -/
def image0 : List Host.Cell :=
  cellsOf 0x70000 (le 8 0x100 ++ le 8 0x200 ++ le 2 2 ++ le 2 1 ++ le 4 0 ++ le 8 0 ++ le 8 0x10000) ++
  cellsOf 0x70200 (le 8 0x1000 ++ le 8 0x400 ++ le 8 0x300 ++ le 2 1 ++ le 2 0 ++ [0, 1, 0, 1]) ++
  cellsOf 0x70240 (le 8 0x1000 ++ le 8 0x400 ++ le 8 0x300 ++ le 2 1 ++ le 2 0 ++ [0, 1, 0, 1])
/-- An instance of a node on core 0, and the machine with instances and the image. -/
def inst0 (n node : Nat) (state : IState) : Inst :=
  { id := n, part := 0, replay := 0, node := node, field := 0, state := state, preds := 1, level := 0, order := 0, since := 0,
    cores := [0], ctxMask := 1, slot := none, kills := 0, externMark := false, placed := true }
def graph0 (is : List Inst) (c : Ctx := {}) (requested : Nat := 0) : State :=
  st c {} { parts := [(0, { part0 with header := some 0, requested := requested })], insts := is, cycle := 0x100000000 }
    (tables leaf0 ++ image0)

/-- Witness of `GraphEvents`: a request of one replay. -/
theorem witness_GraphEvents_request :
    let s := graph0 []
    let s1 := s.updPart 0 0 (fun x => { x with header := some 0 })
    let u := s1.hostWrite 0 0 0x100 (leBytes 4 1)
    (s.part 0 0).isSome ∧ ((s1.graphHeader 0 0).map headerWrong) = some none ∧ s1.virtWaits 0 0 0 64 = false ∧
    ((s1.graphHeader 0 0).map (fun h => bytesAt h 0 8)) = some 0x100 ∧ s1.virtWaits 0 0 0x100 4 = false ∧
    s1.launchReq 0 0 = some 0 ∧ u.2 = true ∧ (u.1.part 0 0).isSome ∧ ((u.1.graphHeader 0 0).map headerWrong) = some none ∧
    u.1.launchReq 0 0 = some 1 ∧ (1 + 2 ^ 32 - 0) % 2 ^ 32 < 2 ^ 31 := by decide +kernel
/-- Witness of `GraphEvents`: its start. -/
theorem witness_GraphEvents_start :
    let s := graph0 [] {} 1
    let u := (((s.takeRange 0 0 56 0 1).getD s).countRead 0 0 0 64).countRead 0 0 0x200 128
    (s.takeRange 0 0 56 0 1).isSome ∧ s.startWaits 0 0 0 = false ∧ (u.part 0 0).isSome ∧
      ((s.pkg 0).replays.filter (fun r => r.part = 0)) = [] ∧ (s.part 0 0).map (fun x => decide (x.started < x.requested)) = some true ∧
    ∀ k, k < 2 → ((u.part 0 0).bind (fun y => (u.nodeDesc 0 0 k).map (nodeWrong y))) = some none := by decide +kernel
/-- Witness of `GraphEvents`: a placing. -/
theorem witness_GraphEvents_place :
    let i := { inst0 1 1 .placing with cores := [] }
    let s := graph0 [i]
    s.inst 0 1 = some i ∧ s.nodeWaits 0 i = false ∧ ((s.nodeDesc 0 0 1).map (s.paramWaits 0 i)) = some false ∧
    ((s.nodeDesc 0 0 1).map (fun d => bytesAt d 32 8)) = some 0 ∧
      ((s.part 0 0).bind (fun x => (s.nodeDesc 0 0 1).map (nodeWrong x))) = some none ∧ s.imagesOf 0 1 = [] ∧
    s.coresFit 0 i 1 [0] = true ∧ s.idle 0 0 = true ∧ ((s.nodeDesc 0 0 1).bind (s.paramWords 0 i)).isSome ∧ s.memOk := by decide +kernel
/-- Witness of `GraphEvents`: ageing. -/
theorem witness_GraphEvents_age :
    let i := inst0 1 1 .ready
    (graph0 [i]).inst 0 1 = some i ∧ i.level < 7 ∧ ((graph0 [i]).graphHeader 0 0).isSome ∧
    i.since + 1 * Config.cyclesPerMicrosecond ≤ ((graph0 [i]).pkg 0).cycle.toNat := by decide +kernel
/-- Witness of `GraphEvents`: a completion with a successor. -/
theorem witness_GraphEvents_done :
    let i := inst0 1 1 .running
    let j := inst0 2 0 .blocked
    let s := graph0 [i, j] { halted := true, doneStatus := some 0 }
    s.inst 0 1 = some i ∧ i.used 0 = [id0] ∧ (s.ctx id0).doneStatus = some 0 ∧
    (∀ e, e < 64 → ((s.ctx id0).entry e).state = .free) ∧ s.nodeWaits 0 i = false ∧ s.virtWaits 0 0 0x300 2 = false ∧
    (s.nodeDesc 0 0 1).map (fun d => bytesAt d 16 8) = some 0x300 ∧ (s.nodeDesc 0 0 1).map (fun d => bytesAt d 24 2) = some 1 ∧
    ((s.nodeDesc 0 0 1).bind (fun d => s.virt 0 0 (bytesAt d 16 8) 2)) = some [0, 0] ∧
    (s.pkg 0).insts.find? (fun j => j.part = 0 && j.replay = 0 && j.node = 0) = some j := by decide +kernel
/-- Witness of `GraphEvents`: a successor's message. -/
theorem witness_GraphEvents_successor :
    ({ graph0 [inst0 1 1 .blocked] with net := [msg (.die 0) (.successor 1)] }.net[0]?.map (·.body)) = some (.successor 1) := by decide +kernel
/-- Witness of `GraphEvents`: a kill, the fourth one beside an instance that still runs. -/
theorem witness_GraphEvents_kill :
    let i := { inst0 1 1 .running with dying := some 1 }
    (let j := { inst0 2 0 .running with cores := [1] }
     let s := graph0 [{ i with kills := 3 }, j]
     s.inst 0 1 = some { i with kills := 3 } ∧ s.imagesOf 0 1 = [] ∧ j ∈ (s.pkg 0).insts ∧ (j.id ≠ 1 ∧ j.part = i.part ∧ j.replay = i.replay)) ∧
    (graph0 [i]).inst 0 1 = some i ∧ (graph0 [i]).net = [] ∧ (graph0 [i]).imagesOf 0 1 = [] ∧ i.kills < 3 := by decide +kernel
/-- Witness of `GraphEvents`: a failed status beside a running instance. -/
theorem witness_GraphEvents_fail :
    let i := inst0 1 1 .running
    let s := graph0 [i, { inst0 2 0 .running with cores := [1] }] { halted := true, doneStatus := some 7 }
    s.inst 0 1 = some i ∧ id0 ∈ i.used 0 ∧ (s.ctx id0).doneStatus = some 7 ∧ s.imagesOf 0 1 = [] := by decide +kernel

/-! ### Pre-emption and the package -/

/-- Witness of `Preemption`: cores of one partition; each state of a core and of an image. -/
theorem witness_Preemption :
    let i : Image := { place := .shadow, core := 0, epoch := 0, data := {}, spad := [(5, 7)], drain := 0, race := [] }
    let s (k : Core) (x : NMap Image := []) := st {} k { parts := [(0, part0)], images := x }
    (s {}).onePartition 0 [0, 7] = true ∧ (∀ c ∈ [0, 7], ((s {}).core 0 c).swap = .running ∧ (s {}).instIn 0 c = none) ∧
    ((s { swap := .stopping }).saveSlot 0 0).isSome ∧ ((s { swap := .saving 1 }).core 0 0).swap = .saving 1 ∧ (s {}).memOk ∧
    ((s {} [(0, i)]).pkg 0).images.get (0 * 4 + 0) = some i ∧
    ((s {} [(0, { i with place := .evicting })]).pkg 0).images.get 0 = some { i with place := .evicting } ∧
    (s {} [(0, i)]).beingRestored 0 0 = false ∧ (0 < ({ i with drain := 1 } : Image).drain) ∧
    (let l := withNet (s { swap := .saving 1 }) [ownLoadMsg id0]
     (l.net.filter (fun x => !x.loadOf ((List.range 4).map (fun z => l.identOf ⟨0, 0, z⟩)))) = []) ∧
    ((s { swap := .parked } [(0, i)]).vacant 0 0 (i.data.ctx 0).inst = true ∧ (s { swap := .parked }).beingRestored 0 0 = false) ∧
    (s {}).partOfCore 0 0 = (s {}).partOfCore 0 i.core ∧
    (let t := s { swap := .restoring 0 } [(0, i)]
     (t.core 0 0).swap = .restoring 0 ∧ (t.pkg 0).images.get 0 = some i ∧ NMap.wf i.spad = true ∧ (∀ c ∈ i.spad, c.1 < 2 ^ 20) ∧
     ∀ z, z < 4 → ∀ e, e < 64 → ((i.data.ctx z).entry e).state ≠ .outstanding ∧
       (((t.readImage 0 0 0 i).ctx ⟨0, 0, z⟩).entry e).state ≠ .outstanding) := by decide +kernel

/-- Witness of `SystemControl`: a package before and after bring-up; registers of Erlimel that ask for known and unknown features; a start
word; an admitted and a refused control block; quotas; a group; the last word below 2^32; host accesses to partition 0. -/
theorem witness_SystemControl :
    let up : State := st {} {} { up := true, parts := [(0, part0)] }
    let b : List Byte := (blk [(0, 1), (16, 0x10000), (24, 0x20000), (32, 0x30000), (40, 0x40000), (48, 6), (49, 6), (54, 1), (56, 0x50000),
      (64, 1), (68, 1), (72, 0x60000), (80, 1), (84, 1), (88, 1), (90, 1), (92, 1), (94, 1), (104, 64)])
    (State.reset.pkg 0).up = false ∧ (up.pkg 0).up = true ∧ (up.pkg 0).erlStatus ≠ 1 ∧
    ((up.pkg 0).accept[0] &&& ~~~7 = 0 ∧ (up.pkg 0).accept[3] = 0) ∧ (8 : Word) &&& ~~~7 ≠ 0 ∧
    (let v : Word := 0x8000000000001000
     v.getLsbD 63 = true ∧ v.toNat / 2 ^ 59 % 16 = 0 ∧ v.toNat / 2 ^ 57 % 4 ≠ 3) ∧ up.stateCode ⟨0, 0, 0⟩ = 5 ∧ (up.partOfCore 0 0).isSome ∧
    blockReserved b = true ∧
    (let x := (up.pkg 0).partOf 0 b
     x.blockOk = true ∧ baysFree (up.pkg 0) 0 x = true ∧ x.structsOk = true ∧ quotasFit (up.pkg 0) 0 x = true) ∧
    (let q : Pkg := { up := true, quotas := [(0, le 64 129)] }
     let x := q.partOf 0 b
     x.blockOk = true ∧ baysFree q 0 x = true ∧ x.structsOk = true ∧ quotasFit q 0 x = false) ∧ baysFree (up.pkg 0) 1 (Part.ofBlock b []) = false ∧
    ((le 64 0).length = 64 ∧ bytesAt (le 64 0) 8 56 = 0) ∧ (0xFFFFFFF8 < 2 ^ 32 ∧ 0xFFFFFFF8 % 8 = 0) ∧ up.part 0 1 = none ∧
    (let s := st {} {} pkg0 (tables leaf0)
     s.part 0 0 = some part0 ∧ s.ownRange 0 0 .read (8 / 65536 + 2) 0xFFF8 8 = .ok [{ dest := .phys 0 0x7FFF8, len := 8 }] ∧
     s.lineOver [{ dest := .phys 0 0x7FFF8, len := 8 }] = .clear ∧ (s.hostWrite 0 0 0xFFF8 (le 8 1)).2 = true ∧
     (s.hostWrite 0 0 0xFFF8 (le 8 1)).1.graphHeader 0 0 = none) := by
  decide +kernel

/-- Witness of `SystemFaults`: an island as it is, forced by heat; a port in both states; an instance on the lost field; regions. -/
theorem witness_SystemFaults :
    ((st {}).pkg 0 |>.island 3).forced = false ∧
    ((st {} {} { islands := [(3, { forced := true })] }).pkg 0 |>.island 3).forced = true ∧
    ((st {}).pkg 0 |>.port 39).locked = false ∧ ((st {} {} { ports := [(39, { locked := true })] }).pkg 0 |>.port 39).locked = true ∧
    (∀ q ∈ (st {}).pkgs, q.2.heldDiscards = []) ∧
    (let i := inst0 1 1 .running
     i.dying = none ∧ ∃ c ∈ i.cores, c / 128 = 0) ∧
    regionOf vaultBase = some .vault ∧ regionOf spadBase = some .spad ∧ regionOf 0 = some .hbm := by decide +kernel

/-! ### The machine as a whole -/

/-- Witness of `DecodeEncode`: a well-formed slot, a restoring `pg.cow`, a word that decodes. -/
theorem witness_DecodeEncode :
    Slotted.wf { it := 0, st := 0, op := .add 5 6 7 } = true ∧ Slotted.wf { it := 0, st := 0, op := .pgCowRestore 1 2 } = true ∧
    decodeSlot .scalar 0x07185020 = .ok { it := 0, st := 0, op := .add 5 6 7 } := ⟨by decide, by decide, rfl⟩

/-- The machine with the word of an instruction where it fetches next, `g1` holding 2^32 where it is to trap. -/
def placed (i : Instr) (x : Word := 0) : State :=
  let s := State.reset.withFetchWord (8 * (i.cls.bits / 8)) ((encode { it := 0, st := 0, op := i }).getD 0).toNat
  s.updCtx id0 (fun c => { c with g := c.g.set 1 x })

/-- Witness of `IssueChoice`: a frozen core, a core with no READY context, one with one, and one with two whose slots are disjoint. -/
theorem witness_IssueChoice :
    let s := placed (.add 5 6 7)
    let u := { s with latch := {} }
    let two := (s.updCtx ⟨0, 0, 1⟩ (fun c => { c with halted := false, pc := 64 })).writeBytes (memKey 0 64) [0x40, 0x20, 0x10, 0, 0]
    let v := { two with latch := {} }
    let same := (s.updCtx ⟨0, 0, 1⟩ (fun c => { c with halted := false, pc := 64 })).writeBytes (memKey 0 64) [1, 0x20, 0x50, 0x18, 0x07]
    (st dev { freeze := [(0, 0)] }).advances 0 0 = false ∧ (State.reset.advances 0 0 = true ∧ State.reset.readyList 0 0 = []) ∧
    s.advances 0 0 = true ∧ u.aged 0 0 [0] = none ∧ u.designate 0 0 [0] = some 0 ∧ u.readyList 0 0 = [0] ∧ (u.ctx id0).seqr.replay = none ∧
      (u.ctx id0).next = none ∧ u.splice id0 0 = none ∧
    (u.ctx id0).duePending 0 = none ∧ u.fetchBundle id0 padFuel 0 = .ok 0 [1, 0x20, 0x50, 0x18, 0x07] ∧
    (match u.checks id0 0 [1, 0x20, 0x50, 0x18, 0x07] false false with
     | .ok xs => decide (xs = slotsOf (decodeBundle [1, 0x20, 0x50, 0x18, 0x07]))
     | .error _ => false) = true ∧
    v.aged 0 0 (v.readyList 0 0) = none ∧ v.designate 0 0 (v.readyList 0 0) = some 0 ∧ 0 ∈ v.readyList 0 0 ∧
      (v.readyList 0 0).filter (fun y => y ≠ 0) = [1] ∧
    (match (v.prepare ⟨0, 0, 1⟩).2 with
     | .bundle b => decide (b.bytes.headD 0 &&& 1 = 0)
     | _ => false) = true ∧ (same.readyList 0 0).filter (fun y => y ≠ 0) = [1] ∧
    (match (same.prepare ⟨0, 0, 1⟩).2 with
     | .bundle b => decide (b.bytes.headD 0 &&& 1 ≠ 0)
     | _ => false) = true := by decide +kernel

/-- The bytes of a bundle: its header, then its slots in R31's order. -/
def bun (xs : List (Slot × BitVec 3 × Instr)) : List Byte :=
  BitVec.ofNat 8 ((xs.map (fun x => 2 ^ x.1.bit)).sum) ::
    xs.flatMap (fun x => le (x.1.cls.bits / 8) ((encode { it := 0, st := x.2.1, op := x.2.2 }).getD 0).toNat)
/-- What the checks of context 0 in a state say of a bundle at an address: cause and TVAL, or (0, 0) for none. -/
def checked (s : State) (a : Word) (bs : List Byte) : Nat × Nat :=
  match s.checks id0 a bs false false with
  | .ok xs => if xs = slotsOf (decodeBundle bs) then (0, 0) else (99, 0)
  | .error e => (e.1, e.2.toNat)
/-- R35, R36, R40, and the witness of `IssueChoice`'s checks: LINE, OPCODE, FIELD, FEATURE, PAIR, CONFLICT, PRIVILEGE of an instruction
and of a CSR number, STALL by a read of `g5` under way and by an earlier-ending write to it, no stall with the scoreboard off or for
a read of a register at rest, the uncorrectable table of a `jmp.bkt`. -/
theorem test_bundle_checks :
    let s := st user
    let k (x : Word) : State := st { user with sbchk := x, pend := [{ due := 20, tgt := .g 5 9 }] }
    checked s 60 (bun [(.a, 0, .add 5 6 7)]) = (1, 0x804) ∧ checked s 59 (bun [(.a, 0, .add 5 6 7)]) = (0, 0) ∧
    checked s 0 [2, 0xE0, 0x0F, 0, 0] = (1, 0x101) ∧ checked s 0 (bun [(.c, 2, .csrr 9 0x803)]) = (2, 0x700) ∧
    checked s 0 [1, 0x38, 0, 0, 0] = (1, 0x002) ∧
    checked (st user {} { features := 0 }) 0 (bun [(.e, 0, .gcommit false false 0 2 1)]) = (1, 0x603) ∧
    checked s 0 (bun [(.c, 0, .stkEnd 5)]) = (1, 0x806) ∧
    checked s 0 (bun [(.a, 0, .add 5 6 7), (.b, 0, .add 5 6 7)]) = (1, 0x805) ∧
    checked s 0 (bun [(.c, 2, .pgBlkSet 8)]) = (2, 0x700) ∧
    checked (k 1) 0 (bun [(.b, 0, .add 8 6 5)]) = (3, 0x50100) ∧ checked (k 1) 0 (bun [(.a, 0, .add 5 6 7)]) = (3, 0x50000) ∧
    checked (k 0) 0 (bun [(.b, 0, .add 8 6 5)]) = (0, 0) ∧ checked (k 1) 0 (bun [(.b, 0, .add 8 6 7)]) = (0, 0) ∧
    (let z := { st { dev with g := user.g.set 6 1 } with bad := [(memKey 0 0, 32)] }
     checked z 0x10 (bun [(.c, 2, .jmpBkt 6 0xFFFF0)]) = (5, 0x1400000000000000)) ∧
    (rG 5, Done.pipe 20) ∈ ((k 1).ctx id0).pendingRegs ∧ s.bucketError id0 0 false (slotsOf (decodeBundle (bun [(.a, 0, .add 5 6 7)]))) = none := by
  decide +kernel

/-- No context is promoted for its age, and the designated one is in READY: it is taken first. -/
theorem witness_takesFirst (s : State) (d : Nat) (h : s.aged 0 0 (s.readyList 0 0) = none) (h' : s.designate 0 0 (s.readyList 0 0) = some d)
    (m : d ∈ s.readyList 0 0) : s.takesFirst 0 0 d := by
  simp [State.takesFirst, h, h', m]
/-- One slot that takes effect is `Performed`. -/
theorem witness_Performed (s m : State) (b : Chosen) (x : Slot × Slotted) (h : s.performs b x = true)
    (h' : exec (s.turned b.id x.2.op) (s.slotState b x true) = .next m) (t : m.latch.trap = none) (w : m.latch.hold = false) :
    Performed [(b, x)] s m [(b.id, m.latch)] := by
  simp [Performed, h, h', t, w]

/-- What the one slot of the one bundle that a cycle of core 0 chooses leaves in the latch, once it has been performed. -/
def oneSlot (s : State) : Option Latch :=
  match exec (.issueChoice 0 0) ({ s with agenda := [] }.beforeChoice 0 0) with
  | .next t => (match t.latch.chosen with
    | [b] => (match slotOrder [b] with
      | [(_, x)] =>
        let l := t.leaveReplay b
        let u : State := { l with latch := { l.latch with record := l.recordRead [b] } }
        if (match waitSlots u (slotOrder [b]) with
            | .ok [] => true
            | _ => false) && u.performs b x then (match exec (u.turned b.id x.2.op) (u.slotState b x true) with
          | .next m => some m.latch
          | _ => none) else none
      | _ => none)
    | _ => none)
  | _ => none

/-- Witness of `StepRunsDecoded`: an empty agenda, an event, a cycle whose one slot takes effect, and one whose slot traps: `csrw` of a
value that `FCSR` does not admit. -/
theorem witness_StepRunsDecoded : State.reset.agenda = [] ∧ (Instr.energyRefill 0).cls = .event ∧
    (placed (.add 5 6 7)).agenda = [.issueChoice 0 0] ∧
    { placed (.add 5 6 7) with agenda := [] }.advances 0 0 = true ∧
    (oneSlot (placed (.add 5 6 7))).map (fun l => (l.trap, l.hold)) = some (none, false) ∧
    (oneSlot (placed (.csrw 1 0x001) 0x100000000)).map (fun l => (l.trap.isSome, l.keep)) = some (true, false) := by decide +kernel
/-- The `xori` of word 0x860 runs as the first instruction after reset: PC goes past its 5 bytes. -/
theorem test_step_xori : (match step (State.reset.withFetchWord 32 0x860) with
    | .next s => decide ((s.ctx ⟨0, 0, 0⟩).pc = 5)
    | _ => false) = true := by decide +kernel

/-- Witness of `BundleDuration`: a running context with a bundle of two slots, a context in READY, a context with a count of 4. -/
theorem witness_BundleDuration :
    let b : Chosen := { id := id0, addr := 0, bytes := [], len := 9, slots := [(.a, { it := 0, st := 3, op := .nop }),
                        (.e, { it := 0, st := 1, op := .nop })] }
    ((st dev).ctx id0).halted = false ∧ 0 ∈ (st dev).readyList 0 0 ∧ maxSt b.slots = 3 ∧ ({ dev with stall := 1 + 3 } : Ctx).parkMark = false := by
  decide +kernel

/-- Witness of `StepKeepsMemory`: the machine after reset, and one with bytes in memory. -/
theorem witness_StepKeepsMemory : State.reset.memOk ∧ (st user {} {} (word0 1)).memOk ∧ ∃ t, step State.reset = .next t :=
  ⟨by decide, by decide +kernel, _, rfl⟩

end Sys2Proof.Tests
end

section
/-! SUPPORT. The duration of a bundle: its end sets the stall count, pipeline cycles run the count down, and a context in READY has
none left (R38). -/

namespace Sys2Proof.Machine

/-! ### The largest stall count of the slots -/

/-- The fold of `maxSt` from any start: no less than the start and every slot's `st`, and one of them. -/
theorem maxSt_foldl (xs : List (Slot × Slotted)) (m : Nat) :
    let k := xs.foldl (fun m x => if m < x.2.st.toNat then x.2.st.toNat else m) m
    m ≤ k ∧ (∀ x ∈ xs, x.2.st.toNat ≤ k) ∧ (k = m ∨ ∃ x ∈ xs, x.2.st.toNat = k) := by
  induction xs generalizing m with
  | nil => simp
  | cons y ys ih =>
    rw [List.foldl_cons]
    by_cases hy : m < y.2.st.toNat
    · rw [if_pos hy]
      obtain ⟨hstart, hall, hone⟩ := ih y.2.st.toNat
      refine ⟨by omega, List.forall_mem_cons.mpr ⟨hstart, hall⟩, .inr ?_⟩
      obtain hone | ⟨x, hx, hone⟩ := hone
      · exact ⟨y, List.mem_cons_self, hone.symm⟩
      · exact ⟨x, List.mem_cons_of_mem y hx, hone⟩
    · rw [if_neg hy]
      obtain ⟨hstart, hall, hone⟩ := ih m
      exact ⟨hstart, List.forall_mem_cons.mpr ⟨by omega, hall⟩,
        hone.imp_right (fun ⟨x, hx, h⟩ => ⟨x, List.mem_cons_of_mem y hx, h⟩)⟩

theorem le_maxSt (xs : List (Slot × Slotted)) : ∀ x ∈ xs, x.2.st.toNat ≤ maxSt xs := (maxSt_foldl xs 0).2.1

theorem maxSt_attained (xs : List (Slot × Slotted)) : maxSt xs = 0 ∨ ∃ x ∈ xs, x.2.st.toNat = maxSt xs :=
  (maxSt_foldl xs 0).2.2

/-! ### The end of a bundle -/

/-- A change of a core's own data that leaves its contexts leaves every context. -/
theorem State.ctx_updLive (s : State) (p q : Nat) (f : CoreData → CoreData) (h : ∀ d, (f d).ctxs = d.ctxs) (id : CtxId) :
    (s.updLive p q f).ctx id = s.ctx id := by
  by_cases hk : coreKey id.pid id.core = coreKey p q
  · have hcore : (s.updLive p q f).core id.pid id.core = (s.updLive p q f).core p q := by simp [State.core, hk]
    have hlive : s.core id.pid id.core = s.core p q := by simp [State.core, hk]
    unfold State.ctx
    rw [hcore, hlive, State.updLive, State.core_updCore]
    simp only [CoreData.ctx, h]
  · unfold State.ctx State.updLive
    rw [State.core_updCore_other _ _ _ _ _ _ hk]

@[simp] theorem State.ctx_hideStores (pre s : State) (b : Chosen) (ls : List Latch) (id : CtxId) :
    (pre.hideStores s b ls).ctx id = s.ctx id := by
  unfold State.hideStores
  split
  · rfl
  · refine State.ctx_updLive s _ _ _ ?_ id
    exact fun _ => rfl

/-- The stride additions of a pass only queue writes. -/
theorem Ctx.addStrides_eq (c : Ctx) (now l : Nat) : c.addStrides now l = { c with pend := (c.addStrides now l).pend } := by
  unfold Ctx.addStrides
  dsimp only
  refine List.foldlRecOn (motive := fun d : Ctx => d = { c with pend := d.pend }) _ _ rfl (fun d hd j _ => ?_)
  split
  · exact hd
  · rw [hd]

/-- A step of a replay touches the sequencer, the next address and the pending writes alone. -/
theorem Ctx.replayStep_eq (c : Ctx) (b : Chosen) (brk : Bool) (now : Nat) :
    let d := c.replayStep b brk now
    d = { c with seqr := d.seqr, npc := d.npc, pend := d.pend } := by
  unfold Ctx.replayStep
  dsimp only
  split
  · rfl
  · split
    · rfl
    · split
      · rfl
      · split
        · rfl
        · rw [Ctx.addStrides_eq]

@[simp] theorem Ctx.replayStep_halted (c : Ctx) (b : Chosen) (brk : Bool) (now : Nat) :
    (c.replayStep b brk now).halted = c.halted := by rw [Ctx.replayStep_eq]

@[simp] theorem Ctx.replayStep_own (c : Ctx) (b : Chosen) (brk : Bool) (now : Nat) :
    (c.replayStep b brk now).own = c.own := by rw [Ctx.replayStep_eq]

@[simp] theorem Ctx.strokeStep_halted (c : Ctx) (b : Chosen) (blocking ended : Bool) :
    (c.strokeStep b blocking ended).halted = c.halted := rfl

@[simp] theorem Ctx.strokeStep_own (c : Ctx) (b : Chosen) (blocking ended : Bool) :
    (c.strokeStep b blocking ended).own = c.own := rfl

theorem State.stall_finishBundle (pre s : State) (fs : List (CtxId × Latch)) (b : Chosen) :
    ((pre.finishBundle fs s b).ctx b.id).stall = if (s.ctx b.id).halted then 0 else 1 + maxSt b.slots := by
  simp only [State.finishBundle, State.ctx_updCtx, State.ctx_hideStores, apply_ite Ctx.halted, Ctx.strokeStep_halted,
    Ctx.replayStep_halted, ite_self]

theorem State.own_finishBundle (pre s : State) (fs : List (CtxId × Latch)) (b : Chosen) :
    ((pre.finishBundle fs s b).ctx b.id).own = (s.ctx b.id).own + 1 := by
  simp only [State.finishBundle, State.ctx_updCtx, State.ctx_hideStores, apply_ite Ctx.own, Ctx.strokeStep_own,
    Ctx.replayStep_own, ite_self]

/-! ### READY -/

theorem State.stall_of_stateCode_eq_zero (s : State) (id : CtxId) (h : s.stateCode id = 0) : (s.ctx id).stall = 0 := by
  refine Decidable.byContradiction (fun hstall => ?_)
  unfold State.stateCode at h
  dsimp only at h
  rw [if_pos hstall] at h
  repeat' split at h
  all_goals exact absurd h (by decide)

theorem State.stateCode_of_mem_readyList (s : State) (pid core x : Nat) (h : x ∈ s.readyList pid core) :
    s.stateCode ⟨pid, core, x⟩ = 0 := by
  simp only [State.readyList, List.mem_flatMap, List.mem_filter, decide_eq_true_eq] at h
  obtain ⟨_, _, ⟨_, hcode⟩, _⟩ := h
  exact hcode

/-! ### Pipeline cycles -/

/-- Landing a write touches registers and records, not a context's count of cycles. -/
theorem Ctx.land_count (c : Ctx) (t : Target) :
    (c.land t).stall = c.stall ∧ (c.land t).own = c.own ∧ (c.land t).parkMark = c.parkMark := by
  cases t with
  | g | p | k => unfold Ctx.land; dsimp only; split <;> exact ⟨rfl, rfl, rfl⟩
  | a | v | flags => exact ⟨rfl, rfl, rfl⟩

theorem Ctx.landDue_count (c : Ctx) (now : Nat) :
    (c.landDue now).stall = c.stall ∧ (c.landDue now).own = c.own ∧ (c.landDue now).parkMark = c.parkMark := by
  unfold Ctx.landDue
  refine List.foldlRecOn (motive := fun d : Ctx => d.stall = c.stall ∧ d.own = c.own ∧ d.parkMark = c.parkMark) _ _
    ⟨rfl, rfl, rfl⟩ (fun d ⟨hstall, hown, hpark⟩ x _ => ?_)
  obtain ⟨lstall, lown, lpark⟩ := d.land_count x.tgt
  exact ⟨lstall.trans hstall, lown.trans hown, lpark.trans hpark⟩

@[simp] theorem Ctx.tick_stall (c : Ctx) (now : Nat) : (c.tick now).stall = c.stall - 1 := by
  simp only [Ctx.tick, Ctx.landDue_count]

@[simp] theorem Ctx.tick_parkMark (c : Ctx) (now : Nat) : (c.tick now).parkMark = c.parkMark := by
  simp only [Ctx.tick, Ctx.landDue_count]

theorem Ctx.tick_own (c : Ctx) (now : Nat) :
    (c.tick now).own = if c.stall - 1 = 0 || c.parkMark then c.own else c.own + 1 := by
  simp only [Ctx.tick, Ctx.landDue_count]

/-- The context after the `j` pipeline cycles `n`, `n + 1`, … -/
def Ctx.ticks (c : Ctx) (n j : Nat) : Ctx := (List.range j).foldl (fun (c : Ctx) i => c.tick (n + i)) c

theorem Ctx.ticks_succ (c : Ctx) (n j : Nat) : c.ticks n (j + 1) = (c.ticks n j).tick (n + j) := by
  simp only [Ctx.ticks, List.range_succ, List.foldl_append, List.foldl_cons, List.foldl_nil]

/-- Each pipeline cycle takes one off the count. -/
theorem Ctx.ticks_stall (c : Ctx) (n j : Nat) : (c.ticks n j).stall = c.stall - j := by
  induction j with
  | zero => rfl
  | succ j ih => rw [Ctx.ticks_succ, Ctx.tick_stall, ih, Nat.sub_sub]

theorem Ctx.ticks_parkMark (c : Ctx) (n j : Nat) : (c.ticks n j).parkMark = c.parkMark := by
  induction j with
  | zero => rfl
  | succ j ih => rw [Ctx.ticks_succ, Ctx.tick_parkMark, ih]

/-- The cycles of a stall count are own cycles, but for the last: on that one the next bundle may issue, which then counts it. -/
theorem Ctx.ticks_own (c : Ctx) (n j : Nat) (h : c.parkMark = false) : (c.ticks n j).own = c.own + min j (c.stall - 1) := by
  induction j with
  | zero => simp [Ctx.ticks]
  | succ j ih =>
    rw [Ctx.ticks_succ, Ctx.tick_own, Ctx.ticks_stall, Ctx.ticks_parkMark, h, ih]
    by_cases hlast : c.stall - j - 1 = 0
    · rw [if_pos (by simp [hlast])]; omega
    · rw [if_neg (by simp [hlast])]; omega

/-! ### R38 -/

/-- Settles O59: the end of a bundle sets the count to 1 + `maxSt`, a context in READY has count 0, and the cycles run it down. -/
theorem bundleDuration : Obligations.BundleDuration := by
  intro pre s fs b m n c
  refine ⟨fun hrun => ⟨maxSt b.slots, ?_, State.own_finishBundle pre s fs b, le_maxSt b.slots, maxSt_attained b.slots⟩,
    fun pid core x hx => ?_, fun hstall hpark => ⟨fun j _ => ?_, ?_, ?_⟩⟩
  · simp [State.stall_finishBundle, hrun]
  · exact State.stall_of_stateCode_eq_zero s _ (State.stateCode_of_mem_readyList s pid core x hx)
  · exact (c.ticks_stall n j).trans (by rw [hstall])
  · exact (c.ticks_stall n (m + 1)).trans (by omega)
  · exact (c.ticks_own n (m + 1) hpark).trans (by omega)

end Sys2Proof.Machine
end

section
/-! SUPPORT. The register-form scalar instructions: what each result of `Machine/Scalar.lean` is as a number or bit by bit, and the
write that carries it (R93, R94). -/

namespace Sys2Proof.Machine

/-! ### Products -/

/-- The high half, read unsigned or signed, and the low half make up the exact 128-bit product. -/
theorem mulhRes_exact (w : Bool) (a b : Word) :
    if w then (mulhRes w a b).toNat * 2 ^ 64 + (a * b).toNat = a.toNat * b.toNat
    else (mulhRes w a b).toInt * 2 ^ 64 + (a * b).toNat = a.toInt * b.toInt := by
  cases w with
  | true =>
    have hlow : (a * b).toNat = a.toNat * b.toNat % 2 ^ 64 := BitVec.toNat_mul a b
    have hhigh : a.toNat * b.toNat / 2 ^ 64 < 2 ^ 64 :=
      Nat.div_lt_of_lt_mul (Nat.mul_lt_mul'' a.isLt b.isLt)
    rw [if_pos rfl, mulhRes, if_pos rfl, BitVec.toNat_ofNat, Nat.mod_eq_of_lt hhigh, hlow]
    exact Nat.div_add_mod' _ _
  | false =>
    have hlow : ((a * b).toNat : Int) = a.toInt * b.toInt % 2 ^ 64 := by
      rw [← BitVec.ofInt_toInt (x := a), ← BitVec.ofInt_toInt (x := b), ← BitVec.ofInt_mul, BitVec.toNat_ofInt,
        BitVec.ofInt_toInt, BitVec.ofInt_toInt]
      exact Int.toNat_of_nonneg (Int.emod_nonneg _ (by decide))
    have habs (x : Word) : x.toInt.natAbs ≤ 2 ^ 63 := by
      have hge : -2 ^ 63 ≤ x.toInt := x.le_toInt
      have hlt : x.toInt < 2 ^ 63 := x.toInt_lt
      omega
    have hsize : (a.toInt * b.toInt).natAbs ≤ 2 ^ 63 * 2 ^ 63 :=
      Int.natAbs_mul _ _ ▸ Nat.mul_le_mul (habs a) (habs b)
    rw [if_neg (by decide), mulhRes, if_neg (by decide), BitVec.toInt_ofInt_eq_self (by decide) (by omega) (by omega), hlow]
    exact Int.ediv_mul_add_emod _ _

/-! ### Quotients and remainders (R94) -/

theorem divRes_zero (w : Bool) (a : Word) : divRes w a 0 = BitVec.allOnes 64 := if_pos rfl

theorem remRes_zero (w : Bool) (a : Word) : remRes w a 0 = a := if_pos rfl

theorem divRes_unsigned (a b : Word) (hb : b ≠ 0) : divRes true a b = a / b := by
  rw [divRes, if_neg hb, if_pos rfl, BitVec.udiv_def]

theorem remRes_unsigned (a b : Word) (hb : b ≠ 0) : remRes true a b = a % b := by
  rw [remRes, if_neg hb, if_pos rfl, BitVec.umod_def]

theorem divRes_signed (a b : Word) (hb : b ≠ 0) : divRes false a b = a.sdiv b := by
  rw [divRes, if_neg hb, if_neg (by decide)]
  exact BitVec.eq_of_toInt_eq ((BitVec.toInt_ofInt _).trans (BitVec.toInt_sdiv a b).symm)

theorem remRes_signed (a b : Word) (hb : b ≠ 0) : remRes false a b = a.srem b := by
  rw [remRes, if_neg hb, if_neg (by decide), ← BitVec.toInt_srem, BitVec.ofInt_toInt]

/-- The four operand cases of R94. -/
theorem divRes_remRes_cases (w : Bool) (a b : Word) :
    if b = 0 then divRes w a b = 0xFFFFFFFFFFFFFFFF ∧ remRes w a b = a
    else if w then (divRes w a b).toNat = a.toNat / b.toNat ∧ (remRes w a b).toNat = a.toNat - a.toNat / b.toNat * b.toNat
    else if a = 0x8000000000000000 ∧ b = 0xFFFFFFFFFFFFFFFF then divRes w a b = 0x8000000000000000 ∧ remRes w a b = 0
    else (divRes w a b).toInt = a.toInt.tdiv b.toInt ∧ (remRes w a b).toInt = a.toInt - a.toInt.tdiv b.toInt * b.toInt := by
  split
  case isTrue hb => subst hb; exact ⟨divRes_zero w a, remRes_zero w a⟩
  case isFalse hb =>
    cases w with
    | true =>
      rw [if_pos rfl, divRes_unsigned a b hb, remRes_unsigned a b hb, BitVec.toNat_udiv, BitVec.toNat_umod]
      exact ⟨rfl, Nat.mod_eq_sub_div_mul⟩
    | false =>
      rw [if_neg (by decide), divRes_signed a b hb, remRes_signed a b hb]
      split
      case isTrue h => obtain ⟨rfl, rfl⟩ := h; decide
      case isFalse h =>
        have hover : a ≠ BitVec.intMin 64 ∨ b ≠ -1#64 := Decidable.not_and_iff_or_not.mp h
        rw [BitVec.toInt_sdiv_of_ne_or_ne a b hover, BitVec.toInt_srem, Int.tmod_def, Int.mul_comm b.toInt]
        exact ⟨rfl, rfl⟩

/-! ### Shifts and rotation, bit by bit -/

theorem shamt_eq (b : Word) : shamt b = b.toNat % 64 := by
  rw [shamt, BitVec.extractLsb'_toNat, Nat.shiftRight_zero]

theorem getLsbD_shiftLeft_word (a : Word) (n i : Nat) (hi : i < 64) :
    (a <<< n).getLsbD i = (decide (n ≤ i) && a.getLsbD (i - n)) := by
  rw [BitVec.getLsbD_shiftLeft, decide_eq_true hi, Bool.true_and, ← decide_not, decide_eq_decide.mpr Nat.not_lt]

/-- Bits past the top are 0 for `.w64` and the sign for `.i64`. -/
theorem getLsbD_shrRes (w : Bool) (a : Word) (n i : Nat) (hi : i < 64) :
    (shrRes w a n).getLsbD i = if i + n < 64 then a.getLsbD (i + n) else !w && a.getLsbD 63 := by
  cases w with
  | true =>
    rw [shrRes, if_pos rfl, BitVec.getLsbD_ushiftRight, Nat.add_comm]
    split
    · rfl
    · exact BitVec.getLsbD_of_ge a _ (by omega)
  | false =>
    rw [shrRes, if_neg (by decide), BitVec.getLsbD_sshiftRight, decide_eq_false (by omega), Nat.add_comm,
      BitVec.msb_eq_getLsbD_last]
    rfl

/-- Bit `i` of a rotation left by `n` comes from `n` places below, round the word. -/
theorem getLsbD_rotl (a : Word) (n i : Nat) (hn : n < 64) (hi : i < 64) :
    (rotl a n).getLsbD i = a.getLsbD ((i + 64 - n) % 64) := by
  rw [rotl, BitVec.getLsbD_rotateLeft, Nat.mod_eq_of_lt hn]
  by_cases hwrap : i < n
  · rw [decide_eq_true hwrap, cond_true]
    congr 1; omega
  · rw [decide_eq_false hwrap, cond_false, decide_eq_true hi, Bool.true_and]
    congr 1; omega

/-! ### Counts of bits -/

theorem testBit_of_bitLen_le (n i : Nat) (h : bitLen n ≤ i) : n.testBit i = false := by
  by_cases hn : n = 0
  · rw [hn, Nat.zero_testBit]
  · rw [bitLen, if_neg hn] at h
    exact Nat.testBit_lt_two_pow ((Nat.log2_lt hn).mp h)

theorem testBit_bitLen_sub_one (n : Nat) (h : 0 < bitLen n) : n.testBit (bitLen n - 1) = true := by
  unfold bitLen at h ⊢
  split at h
  case isTrue => exact absurd h (by decide)
  case isFalse hn => rw [if_neg hn]; exact Nat.testBit_log2 hn

theorem bitLen_le_of_lt_two_pow (n k : Nat) (h : n < 2 ^ k) : bitLen n ≤ k := by
  unfold bitLen
  split
  case isTrue => exact Nat.zero_le k
  case isFalse hn => exact (Nat.log2_lt hn).mpr h

/-- The leading zeros: all bits above are 0 and the next one, if there is one, is 1. -/
theorem clzNat_word (x : Word) :
    let n := clzNat 64 x.toNat
    n ≤ 64 ∧ (∀ i, 64 - n ≤ i → x.getLsbD i = false) ∧ (n < 64 → x.getLsbD (63 - n) = true) := by
  have hlen : bitLen x.toNat ≤ 64 := bitLen_le_of_lt_two_pow _ _ x.isLt
  dsimp only [clzNat]
  refine ⟨Nat.sub_le _ _, fun i hi => testBit_of_bitLen_le _ _ (by omega), fun hn => ?_⟩
  rw [show 63 - (64 - bitLen x.toNat) = bitLen x.toNat - 1 by omega]
  exact testBit_bitLen_sub_one _ (by omega)

/-- The trailing zeros: all bits below are 0 and the next one, if there is one, is 1. -/
theorem ctz64_word (x : Word) :
    ctz64 x ≤ 64 ∧ (∀ i, i < ctz64 x → x.getLsbD i = false) ∧ (ctz64 x < 64 → x.getLsbD (ctz64 x) = true) := by
  unfold ctz64
  cases h : (List.range 64).find? (fun i => x.getLsbD i) with
  | none =>
    have hall := List.find?_range_eq_none.mp h
    exact ⟨Nat.le_refl 64, fun i hi => by simpa using hall i hi, fun hlt => absurd hlt (Nat.lt_irrefl _)⟩
  | some n =>
    obtain ⟨hbit, hmem, hbelow⟩ := List.find?_range_eq_some.mp h
    exact ⟨Nat.le_of_lt (List.mem_range.mp hmem), fun i hi => by simpa using hbelow i hi, fun _ => hbit⟩

theorem popNat_word (x : Word) : popNat 64 x.toNat = (List.range 64).countP (fun i => x.getLsbD i) :=
  List.countP_eq_length_filter.symm

/-! ### The write of a result with flags -/

/-- A result and flags that appear together; a destination `g0` discards the result and keeps the flags. -/
theorem Lands.writeG_flag (s : State) (lat : Nat) (r : GNum) (x : Word) (f : Fl) :
    Lands s (.next ((s.writeG lat r x).flag lat f)) lat (fun c d => ∃ e, SetsG r x c e ∧ s.flagged f e d) := by
  by_cases hr : r = 0
  · subst hr
    rw [State.writeG, if_pos rfl, State.flag]
    split
    case isTrue hf => exact Lands.none s lat _ (fun c => ⟨c, SetsG.zero x c, by rw [State.flagged, if_pos hf]⟩)
    case isFalse hf =>
      refine Lands.pend s lat _ _ (fun c => ⟨c, SetsG.zero x c, ?_⟩)
      rw [State.flagged, if_neg hf]
      exact Records.land _ _ _ _ c
  · refine State.flagged_flag s _ lat f (.g r x) _ (if_neg hr) (fun c e d he hd => ⟨e, ?_, hd⟩)
    rw [he]
    exact SetsG.land r x hr c

theorem idzFlag_eq (b : Word) : idzFlag b = if b = 0 then Fl.idz else 0 := by
  simp only [idzFlag, Fl.on, decide_eq_true_eq]

/-! ### R93, R94 -/

/-- Settles O1: every instruction is the write of a result that the lemmas above give as a number or bit by bit. -/
theorem scalarRegister : Obligations.ScalarRegister := by
  refine ⟨⟨fun s w rd ra rb => ?arithmetic, fun s w rd ra rb => ?bitwise, fun s rd ra => ?counts⟩,
    fun s w rd ra rb => ?division⟩
  case arithmetic =>
    exact ⟨Lands.writeG .., Lands.writeG .., Lands.writeG .., ⟨_, mulhRes_exact w _ _, Lands.writeG ..⟩,
      Lands.writeG .., Lands.writeG .., Lands.writeG ..⟩
  case bitwise =>
    have hn : shamt (s.rg rb) < 64 := by rw [shamt_eq]; exact Nat.mod_lt _ (by decide)
    dsimp only
    rw [← shamt_eq]
    refine ⟨⟨_, fun i _ => BitVec.getLsbD_and, Lands.writeG ..⟩, ⟨_, fun i _ => BitVec.getLsbD_or, Lands.writeG ..⟩,
      ⟨_, fun i _ => BitVec.getLsbD_xor, Lands.writeG ..⟩, ⟨_, fun i hi => ?andn, Lands.writeG ..⟩,
      ⟨_, getLsbD_shiftLeft_word _ _, Lands.writeG ..⟩, ⟨_, getLsbD_shrRes w _ _, Lands.writeG ..⟩,
      ⟨_, fun i => getLsbD_rotl _ _ i hn, Lands.writeG ..⟩⟩
    case andn => rw [BitVec.getLsbD_and, BitVec.getLsbD_not, decide_eq_true hi, Bool.true_and]
  case counts =>
    obtain ⟨hclz, habove, hclzBit⟩ := clzNat_word (s.rg ra)
    obtain ⟨hctz, hbelow, hctzBit⟩ := ctz64_word (s.rg ra)
    dsimp only
    rw [← popNat_word]
    exact ⟨⟨_, hclz, habove, hclzBit, Lands.writeG ..⟩, ⟨_, hctz, hbelow, hctzBit, Lands.writeG ..⟩, Lands.writeG ..⟩
  case division =>
    dsimp only
    rw [← idzFlag_eq]
    exact ⟨_, _, divRes_remRes_cases w _ _, Lands.writeG_flag .., Lands.writeG_flag ..⟩

end Sys2Proof.Machine
end
